-- ==== Sys2Proof/Word.lean ====
section
/-! DEFINITION. The word of the command and response ports (R11, R100) and the number type of the rules (R10). -/

namespace Sys2Proof

/-- A word of a command or response stream: 32 bits, bit 31 the most significant (R11). -/
abbrev Word := BitVec 32

/-- One byte of a serialised stream (R109). -/
abbrev Byte := BitVec 8

/-- The type `Num` of R10: exact rationals, with exact arithmetic and comparison, no NaN, no infinity and no rounding.
DESIGN CHOICE of the spec (D1), log entry 17; unsafe for claims about a finite-precision implementation. -/
abbrev Number := Rat

end Sys2Proof
end

