-- ==== Sys2Proof/Syntax.lean ====
section
/-! DEFINITION. The commands: one constructor of `Instr` for each row of spec/opcode_table.json, with the enumerations and
register names their operands range over. Codes and encodings are in Decode.lean. -/

namespace Sys2Proof

/-- The unit types of the header field `UNIT` (R102). -/
inductive UnitCode
  | env | lfo | flt | mtx | voice | eng
deriving DecidableEq, Repr, Inhabited

/-- The four writable parameter registers of an ENV (R20, R114). -/
inductive EnvParam
  | a | d | s | r
deriving DecidableEq, Repr, Inhabited

/-- The six registers of an ENV (R20), all readable (R115). -/
inductive EnvReg
  | a | d | s | r | value | state
deriving DecidableEq, Repr, Inhabited

/-- The six values of an ENV's `STATE` register (R26). -/
inductive EnvState
  | none | attack | decay | sustain | release | ended
deriving DecidableEq, Repr, Inhabited

/-- LFO waveforms (R33). -/
inductive Waveform
  | sine | triangle | pulse | rectangle | sawtooth | random | custom
deriving DecidableEq, Repr, Inhabited

/-- Filter types (R36). -/
inductive FilterType
  | none | lowpass | highpass
deriving DecidableEq, Repr, Inhabited

/-- Modulation sources (R38). -/
inductive ModSrc
  | none | aeg | eg2 | lfo1 | lfo2 | lfo3 | modWheel | velocity | absNote | relNote
  | randomUnipolar | randomBipolar | gate | inLoop
deriving DecidableEq, Repr, Inhabited

/-- Modulation destinations (R39). -/
inductive ModDest
  | filterCutoff | filterResonance | pitch | pan | amplitude
deriving DecidableEq, Repr, Inhabited

/-- Combining functions of a matrix slot (R40). -/
inductive MathFunc
  | identity | oneMinus | biToUni | uniToBi | square | cube | abs | neg
deriving DecidableEq, Repr, Inhabited

/-- Play modes of a Sample (R42). -/
inductive PlayMode
  | standard | loop | shot | loopUntilRelease
deriving DecidableEq, Repr, Inhabited

/-- The configuration registers of an LFO (R33). -/
inductive LfoCfg
  | waveform | freqHz | syncEn | syncBeats | delaySec | delaySyncEn | delayBeats | fadeSec | fadeSyncEn | fadeBeats
  | onceEn | randphaseEn | quantEn | quantLevels | numSteps
deriving DecidableEq, Repr, Inhabited

/-- The read-only runtime registers of an LFO (R34). -/
inductive LfoRun
  | period | startPhase | t | randHold | value
deriving DecidableEq, Repr, Inhabited

/-- What `LFO.RD` can name (R191). -/
inductive LfoReg
  | cfg (c : LfoCfg)
  | run (r : LfoRun)
deriving DecidableEq, Repr, Inhabited

/-- A write to an LFO configuration register with its operand, `Num`, `Bool`, `Enum` or `Int` by the register's type
(R33, R107, R190). -/
inductive LfoWrite
  | waveform (v : Waveform)
  | freqHz (v : Number)
  | syncEn (v : Bool)
  | syncBeats (v : Number)
  | delaySec (v : Number)
  | delaySyncEn (v : Bool)
  | delayBeats (v : Number)
  | fadeSec (v : Number)
  | fadeSyncEn (v : Bool)
  | fadeBeats (v : Number)
  | onceEn (v : Bool)
  | randphaseEn (v : Bool)
  | quantEn (v : Bool)
  | quantLevels (v : Nat)
  | numSteps (v : Nat)
deriving DecidableEq, Repr, Inhabited

/-- The writable registers of a Filter with their operand (R36, R211). -/
inductive FltWrite
  | type (v : FilterType)
  | cutoff (v : Number)
  | resonance (v : Number)
  | cutoffMod (v : Number)
  | resMod (v : Number)
deriving DecidableEq, Repr, Inhabited

/-- The registers of a Filter (R36), all readable (R212). -/
inductive FltReg
  | type | cutoff | resonance | cutoffMod | resMod
  | a1 | a2 | a3 | b1 | b2
  | x1L | x2L | y1L | y2L
  | x1R | x2R | y1R | y2R
deriving DecidableEq, Repr, Inhabited

/-- The six fields of a matrix slot (R37). -/
inductive SlotField
  | enabled | source | secondary | dest | func | amount
deriving DecidableEq, Repr, Inhabited

/-- A write to a field of a matrix slot with its operand (R37, R241). -/
inductive SlotWrite
  | enabled (v : Bool)
  | source (v : ModSrc)
  | secondary (v : ModSrc)
  | dest (v : ModDest)
  | func (v : MathFunc)
  | amount (v : Number)
deriving DecidableEq, Repr, Inhabited

/-- What `MTX.RD` can name (R242): a field of slot `IDX div 8`, or an output `64 + dest`. Slots 5 to 31 can be written in
the index and are denied (R241, R242). -/
inductive MtxReg
  | field (slot : Fin 32) (f : SlotField)
  | output (d : ModDest)
deriving DecidableEq, Repr, Inhabited

/-- The registers `VOICE.RD` can name (R43). -/
inductive VoiceReg
  | offset | gate | rnd | pitchMod | panMod | ampMod | modCount | ampL | ampR | note | velocity
deriving DecidableEq, Repr, Inhabited

/-- The values of the thirteen modulation sources, codes 1 to 13 in this order (R38): the operands of `MTX.EVAL`. -/
structure Sources where
  aeg : Number
  eg2 : Number
  lfo1 : Number
  lfo2 : Number
  lfo3 : Number
  modWheel : Number
  velocity : Number
  absNote : Number
  relNote : Number
  randomUnipolar : Number
  randomBipolar : Number
  gate : Number
  inLoop : Number
deriving DecidableEq, Repr, Inhabited

/-- Why the decoder rejects a stream (R118, R119). -/
inductive Reserved
  /-- The header's `ZERO` field is not 0 (R101, R118). -/
  | zeroField
  /-- `UNIT` is 6 or more, or the (`UNIT`, `OP`) pair is in neither R116 nor R117 (R118). -/
  | opcode
  /-- `IDX` is not 0 in a command that names no register, or is not an index the command admits (R118). -/
  | index
  /-- An operand word is outside its type (R119). -/
  | operand
  /-- `UNIT` is not 0 at an ENV block wired alone (R102). -/
  | unit
deriving DecidableEq, Repr, Inhabited

/-- The commands, one constructor for each row of spec/opcode_table.json, in the table's order. `Num` operands are the
exact values of their words (R106). -/
inductive Instr
  /-- `NOTE_ON` (R135). -/
  | noteOn
  /-- `NOTE_OFF` (R136). -/
  | noteOff
  /-- `STEP e, bpm` (R137). -/
  | step (e bpm : Number)
  /-- `HAS_ENDED` (R144). -/
  | hasEnded
  /-- `WR reg, v` (R133). -/
  | wr (reg : EnvParam) (v : Number)
  /-- `RD reg` (R134). -/
  | rd (reg : EnvReg)
  /-- `LFO.NOTE_ON` (R172). -/
  | lfoNoteOn
  /-- `LFO.STEP e, bpm` (R173). -/
  | lfoStep (e bpm : Number)
  /-- `LFO.WR reg, v` (R190). -/
  | lfoWr (w : LfoWrite)
  /-- `LFO.RD reg` (R191). -/
  | lfoRd (reg : LfoReg)
  /-- `LFO.WRSTEP k, v` (R192). -/
  | lfoWrStep (k : Fin 256) (v : Number)
  /-- `LFO.RDSTEP k` (R193). -/
  | lfoRdStep (k : Fin 256)
  /-- `FLT.WR reg, v` (R211). -/
  | fltWr (w : FltWrite)
  /-- `FLT.RD reg` (R212). -/
  | fltRd (reg : FltReg)
  /-- `FLT.UPDATE sampleRate` (R213). -/
  | fltUpdate (sampleRate : Number)
  /-- `FLT.RUN n` (R218). -/
  | fltRun (n : Nat)
  /-- `MTX.WR reg, v` (R241). -/
  | mtxWr (slot : Fin 32) (w : SlotWrite)
  /-- `MTX.RD reg` (R242). -/
  | mtxRd (reg : MtxReg)
  /-- `MTX.EVAL s1, ..., s13` (R243). -/
  | mtxEval (srcs : Sources)
  /-- `VOICE.NOTE_ON note, vel` (R271). -/
  | voiceNoteOn (note vel : Fin 128)
  /-- `VOICE.NOTE_OFF` (R275). -/
  | voiceNoteOff
  /-- `VOICE.RD reg` (R276). -/
  | voiceRd (reg : VoiceReg)
  /-- `VOICE.RENDER n, sampleRate, bpm` (R290). -/
  | voiceRender (n : Nat) (sampleRate bpm : Number)
  /-- `ENG.NOTE_ON part, note, vel` (R321). -/
  | engNoteOn (part : Nat) (note vel : Fin 128)
  /-- `ENG.NOTE_OFF part, note, vel` (R324). -/
  | engNoteOff (part : Nat) (note vel : Fin 128)
  /-- `ENG.PITCHBEND part, value` (R326). -/
  | engPitchbend (part : Nat) (value : Number)
  /-- `ENG.CC part, cc, value` (R327). -/
  | engCc (part : Nat) (cc : Fin 256) (value : Number)
  /-- `ENG.PROCESS sampleRate, bpm` (R330). -/
  | engProcess (sampleRate bpm : Number)
deriving DecidableEq, Repr, Inhabited

end Sys2Proof
end

