-- ==== Sys2Proof/WellFormed.lean ====
section
/-! DEFINITION. When a command is one the encoding can carry (R101 to R107) and whose operands are not reserved (R118, R119,
R326, R327). -/

namespace Sys2Proof

/-- `q` is the value of some finite binary32 pattern (R106): an integer number `m` of units `2^-149`, whose significant bits
fit in 24 and whose size is below `2^128`. -/
def isBinary32 (q : Number) : Bool :=
  let m := q.num.natAbs * (2 ^ 149 / q.den)
  let ulp := 2 ^ (Nat.log2 m - 23)
  2 ^ 149 % q.den == 0 && m / ulp * ulp == m && m < 2 ^ 277

/-- `n` fits an `INT` word (R107). -/
def isIntWord (n : Nat) : Bool := n < 2 ^ 32

/-- The `NUM` operands of an LFO register write are values of binary32, its `INT` operand fits a word. -/
def LfoWrite.encodable : LfoWrite → Bool
  | .waveform _ => true
  | .freqHz v => isBinary32 v
  | .syncEn _ => true
  | .syncBeats v => isBinary32 v
  | .delaySec v => isBinary32 v
  | .delaySyncEn _ => true
  | .delayBeats v => isBinary32 v
  | .fadeSec v => isBinary32 v
  | .fadeSyncEn _ => true
  | .fadeBeats v => isBinary32 v
  | .onceEn _ => true
  | .randphaseEn _ => true
  | .quantEn _ => true
  | .quantLevels v => isIntWord v
  | .numSteps v => isIntWord v

/-- The `NUM` operand of a Filter register write is a value of binary32. -/
def FltWrite.encodable : FltWrite → Bool
  | .type _ => true
  | .cutoff v => isBinary32 v
  | .resonance v => isBinary32 v
  | .cutoffMod v => isBinary32 v
  | .resMod v => isBinary32 v

/-- The `NUM` operand of a matrix slot write is a value of binary32. -/
def SlotWrite.encodable : SlotWrite → Bool
  | .enabled _ => true
  | .source _ => true
  | .secondary _ => true
  | .dest _ => true
  | .func _ => true
  | .amount v => isBinary32 v

/-- The indices 64 to 68 are the outputs (R41), so slot 8 has no field 0 to 4 of its own. -/
def MtxReg.encodable : MtxReg → Bool
  | .field slot f => !(slot == 8) || f == .amount
  | .output _ => true

/-- The thirteen source values, in code order (R38, R243). -/
def Sources.toList (s : Sources) : List Number :=
  [s.aeg, s.eg2, s.lfo1, s.lfo2, s.lfo3, s.modWheel, s.velocity, s.absNote, s.relNote, s.randomUnipolar, s.randomBipolar,
    s.gate, s.inLoop]

/-- Every operand has a word that carries it exactly (R106, R107). -/
def Instr.encodable : Instr → Bool
  | .noteOn => true
  | .noteOff => true
  | .step e bpm => isBinary32 e && isBinary32 bpm
  | .hasEnded => true
  | .wr _ v => isBinary32 v
  | .rd _ => true
  | .lfoNoteOn => true
  | .lfoStep e bpm => isBinary32 e && isBinary32 bpm
  | .lfoWr w => w.encodable
  | .lfoRd _ => true
  | .lfoWrStep _ v => isBinary32 v
  | .lfoRdStep _ => true
  | .fltWr w => w.encodable
  | .fltRd _ => true
  | .fltUpdate sr => isBinary32 sr
  | .fltRun n => isIntWord n
  | .mtxWr _ w => w.encodable
  | .mtxRd reg => reg.encodable
  | .mtxEval srcs => srcs.toList.all isBinary32
  | .voiceNoteOn _ _ => true
  | .voiceNoteOff => true
  | .voiceRd _ => true
  | .voiceRender n sr bpm => isIntWord n && isBinary32 sr && isBinary32 bpm
  | .engNoteOn part _ _ => isIntWord part
  | .engNoteOff part _ _ => isIntWord part
  | .engPitchbend part v => isIntWord part && isBinary32 v
  | .engCc part _ v => isIntWord part && isBinary32 v
  | .engProcess sr bpm => isBinary32 sr && isBinary32 bpm

/-- No operand is reserved by its value: `STEP` has `e ≥ 0` (R119), a pitchbend is in -1..1 (R326), a controller value in
0..1 (R327). The types of `Instr` exclude the other reserved operands of R119. -/
def Instr.admitted : Instr → Bool
  | .noteOn => true
  | .noteOff => true
  | .step e _ => 0 ≤ e
  | .hasEnded => true
  | .wr _ _ => true
  | .rd _ => true
  | .lfoNoteOn => true
  | .lfoStep e _ => 0 ≤ e
  | .lfoWr _ => true
  | .lfoRd _ => true
  | .lfoWrStep _ _ => true
  | .lfoRdStep _ => true
  | .fltWr _ => true
  | .fltRd _ => true
  | .fltUpdate _ => true
  | .fltRun _ => true
  | .mtxWr _ _ => true
  | .mtxRd _ => true
  | .mtxEval _ => true
  | .voiceNoteOn _ _ => true
  | .voiceNoteOff => true
  | .voiceRd _ => true
  | .voiceRender _ _ _ => true
  | .engNoteOn _ _ _ => true
  | .engNoteOff _ _ _ => true
  | .engPitchbend _ v => -1 ≤ v && v ≤ 1
  | .engCc _ _ v => 0 ≤ v && v ≤ 1
  | .engProcess _ _ => true

/-- A well-formed command: its words exist and none of its operands is reserved. -/
def Instr.wellFormed (i : Instr) : Bool := i.encodable && i.admitted

end Sys2Proof
end

