-- ==== Sys2Proof/Decode.lean ====
section
/-! DEFINITION. Number words (R106 to R108), codes and register indices (R102 to R104, 10_state.md), the decoder, total on
any words and rejecting by name (R118, R119), the encoder (R101, R105, R110 to R117) and the byte serialisation (R109). -/

namespace Sys2Proof

/-! ### Number words -/

/-- The size of a finite binary32 pattern in units of `2^-149`, from its exponent and fraction fields (R106). -/
def binary32Units (e f : Nat) : Nat := if e = 0 then f else (2 ^ 23 + f) * 2 ^ (e - 1)

/-- The exact value of a `NUM` operand word; none for the reserved exponent 255 (R106, R119). -/
def decodeNum (w : Word) : Option Number :=
  let e := w.toNat / 2 ^ 23 % 2 ^ 8
  let f := w.toNat % 2 ^ 23
  if e = 255 then none
  else
    let m : Number := (binary32Units e f : Number) / 2 ^ 149
    some (if w.toNat / 2 ^ 31 = 1 then -m else m)

/-- `n / d` rounded to the nearest integer, ties to the even one (R108). -/
def roundHalfEven (n d : Nat) : Nat :=
  let q := n / d
  let r := n % d
  if 2 * r < d then q else if d < 2 * r then q + 1 else q + q % 2

/-- The largest finite binary32 pattern without its sign bit. -/
def binary32Max : Nat := 0x7F7FFFFF

/-- The pattern, without sign, of the binary32 value nearest to `n / d ≥ 0` in units of `2^-149` (R108): one unit in the last
place is `2^k` units, and `k * 2^23` plus the rounded count of them is the pattern. A value beyond the format gives the
largest finite one: DEDUCED, log entry 18; unsafe for such values. -/
def binary32Pattern (n d : Nat) : Nat :=
  let k := Nat.log2 (n / d) - 23
  min (k * 2 ^ 23 + roundHalfEven n (d * 2 ^ k)) binary32Max

/-- The binary32 word of a number: its own pattern if it has one, else the nearest, ties to even; 0 is `0x00000000` (R108). -/
def encodeNum (q : Number) : Word :=
  let p := binary32Pattern (q.num.natAbs * 2 ^ 149) q.den
  BitVec.ofNat 32 (if q.num < 0 ∧ p ≠ 0 then 2 ^ 31 + p else p)

/-- The word of a natural number (R107, R108). No rule states the word of one of `2^32` or more: it is taken modulo `2^32`, DESIGN
CHOICE, log entry 42; unsafe for such values. -/
def encodeInt (n : Nat) : Word := BitVec.ofNat 32 n

/-- The word of a `Bool` (R107, R108). -/
def encodeBool (b : Bool) : Word := if b then 1 else 0

/-- The value of an `INT` operand word (R107). -/
def decodeInt (w : Word) : Nat := w.toNat

/-- A `Bool` operand word, 0 or 1 (R107, R119). -/
def decodeBool (w : Word) : Option Bool :=
  match w.toNat with
  | 0 => some false
  | 1 => some true
  | _ => none

/-- A note or velocity, 0 to 127 (R119). -/
def decodeSeven (w : Word) : Option (Fin 128) := if h : w.toNat < 128 then some ⟨w.toNat, h⟩ else none

/-- A controller number, 0 to 255 (R119). -/
def decodeCc (w : Word) : Option (Fin 256) := if h : w.toNat < 256 then some ⟨w.toNat, h⟩ else none

/-! ### Codes of the enumerations -/

/-- `UNIT` codes (R102). -/
def UnitCode.code : UnitCode → Nat
  | .env => 0
  | .lfo => 1
  | .flt => 2
  | .mtx => 3
  | .voice => 4
  | .eng => 5

/-- `STATE` codes (R26). -/
def EnvState.code : EnvState → Nat
  | .none => 0
  | .attack => 1
  | .decay => 2
  | .sustain => 3
  | .release => 4
  | .ended => 5

/-- `WAVEFORM` codes (R33). -/
def Waveform.code : Waveform → Nat
  | .sine => 0
  | .triangle => 1
  | .pulse => 2
  | .rectangle => 3
  | .sawtooth => 4
  | .random => 5
  | .custom => 6

/-- The waveform of a code (R33, R119). -/
def Waveform.ofCode : Nat → Option Waveform
  | 0 => some .sine
  | 1 => some .triangle
  | 2 => some .pulse
  | 3 => some .rectangle
  | 4 => some .sawtooth
  | 5 => some .random
  | 6 => some .custom
  | _ => none

/-- Filter `TYPE` codes (R36). -/
def FilterType.code : FilterType → Nat
  | .none => 0
  | .lowpass => 1
  | .highpass => 2

/-- The filter type of a code (R36, R119). -/
def FilterType.ofCode : Nat → Option FilterType
  | 0 => some .none
  | 1 => some .lowpass
  | 2 => some .highpass
  | _ => none

/-- ModSrc codes (R38). -/
def ModSrc.code : ModSrc → Nat
  | .none => 0
  | .aeg => 1
  | .eg2 => 2
  | .lfo1 => 3
  | .lfo2 => 4
  | .lfo3 => 5
  | .modWheel => 6
  | .velocity => 7
  | .absNote => 8
  | .relNote => 9
  | .randomUnipolar => 10
  | .randomBipolar => 11
  | .gate => 12
  | .inLoop => 13

/-- The modulation source of a code (R38, R119). -/
def ModSrc.ofCode : Nat → Option ModSrc
  | 0 => some .none
  | 1 => some .aeg
  | 2 => some .eg2
  | 3 => some .lfo1
  | 4 => some .lfo2
  | 5 => some .lfo3
  | 6 => some .modWheel
  | 7 => some .velocity
  | 8 => some .absNote
  | 9 => some .relNote
  | 10 => some .randomUnipolar
  | 11 => some .randomBipolar
  | 12 => some .gate
  | 13 => some .inLoop
  | _ => none

/-- ModDest codes (R39). -/
def ModDest.code : ModDest → Nat
  | .filterCutoff => 0
  | .filterResonance => 1
  | .pitch => 2
  | .pan => 3
  | .amplitude => 4

/-- The destination of a code (R39, R119). -/
def ModDest.ofCode : Nat → Option ModDest
  | 0 => some .filterCutoff
  | 1 => some .filterResonance
  | 2 => some .pitch
  | 3 => some .pan
  | 4 => some .amplitude
  | _ => none

/-- MathFunc codes (R40). -/
def MathFunc.code : MathFunc → Nat
  | .identity => 0
  | .oneMinus => 1
  | .biToUni => 2
  | .uniToBi => 3
  | .square => 4
  | .cube => 5
  | .abs => 6
  | .neg => 7

/-- The combining function of a code (R40, R119). -/
def MathFunc.ofCode : Nat → Option MathFunc
  | 0 => some .identity
  | 1 => some .oneMinus
  | 2 => some .biToUni
  | 3 => some .uniToBi
  | 4 => some .square
  | 5 => some .cube
  | 6 => some .abs
  | 7 => some .neg
  | _ => none

/-- Play mode codes (R42). No command carries one: a Sample's plain fields are written by the host (R404). -/
def PlayMode.code : PlayMode → Nat
  | .standard => 0
  | .loop => 1
  | .shot => 2
  | .loopUntilRelease => 3

/-- The play mode of a code (R42). -/
def PlayMode.ofCode : Nat → Option PlayMode
  | 0 => some .standard
  | 1 => some .loop
  | 2 => some .shot
  | 3 => some .loopUntilRelease
  | _ => none

/-! ### Register indices -/

/-- Indices `WR` admits (R20, R114). -/
def EnvParam.idx : EnvParam → Nat
  | .a => 0
  | .d => 1
  | .s => 2
  | .r => 3

/-- The parameter register of an index (R20, R114, R118). -/
def EnvParam.ofIdx : Nat → Option EnvParam
  | 0 => some .a
  | 1 => some .d
  | 2 => some .s
  | 3 => some .r
  | _ => none

/-- Indices `RD` admits (R20, R115). -/
def EnvReg.idx : EnvReg → Nat
  | .a => 0
  | .d => 1
  | .s => 2
  | .r => 3
  | .value => 4
  | .state => 5

/-- The register of an index (R20, R115, R118). -/
def EnvReg.ofIdx : Nat → Option EnvReg
  | 0 => some .a
  | 1 => some .d
  | 2 => some .s
  | 3 => some .r
  | 4 => some .value
  | 5 => some .state
  | _ => none

/-- Indices of the LFO configuration registers (R33). -/
def LfoCfg.idx : LfoCfg → Nat
  | .waveform => 0
  | .freqHz => 1
  | .syncEn => 2
  | .syncBeats => 3
  | .delaySec => 4
  | .delaySyncEn => 5
  | .delayBeats => 6
  | .fadeSec => 7
  | .fadeSyncEn => 8
  | .fadeBeats => 9
  | .onceEn => 10
  | .randphaseEn => 11
  | .quantEn => 12
  | .quantLevels => 13
  | .numSteps => 14

/-- Indices of the LFO runtime registers (R34). -/
def LfoRun.idx : LfoRun → Nat
  | .period => 16
  | .startPhase => 17
  | .t => 18
  | .randHold => 19
  | .value => 20

/-- Indices `LFO.RD` admits (R191). -/
def LfoReg.idx : LfoReg → Nat
  | .cfg c => c.idx
  | .run r => r.idx

/-- The LFO register of an index (R33, R34, R191, R118). -/
def LfoReg.ofIdx : Nat → Option LfoReg
  | 0 => some (.cfg .waveform)
  | 1 => some (.cfg .freqHz)
  | 2 => some (.cfg .syncEn)
  | 3 => some (.cfg .syncBeats)
  | 4 => some (.cfg .delaySec)
  | 5 => some (.cfg .delaySyncEn)
  | 6 => some (.cfg .delayBeats)
  | 7 => some (.cfg .fadeSec)
  | 8 => some (.cfg .fadeSyncEn)
  | 9 => some (.cfg .fadeBeats)
  | 10 => some (.cfg .onceEn)
  | 11 => some (.cfg .randphaseEn)
  | 12 => some (.cfg .quantEn)
  | 13 => some (.cfg .quantLevels)
  | 14 => some (.cfg .numSteps)
  | 16 => some (.run .period)
  | 17 => some (.run .startPhase)
  | 18 => some (.run .t)
  | 19 => some (.run .randHold)
  | 20 => some (.run .value)
  | _ => none

/-- The register an LFO write names. -/
def LfoWrite.reg : LfoWrite → LfoCfg
  | .waveform _ => .waveform
  | .freqHz _ => .freqHz
  | .syncEn _ => .syncEn
  | .syncBeats _ => .syncBeats
  | .delaySec _ => .delaySec
  | .delaySyncEn _ => .delaySyncEn
  | .delayBeats _ => .delayBeats
  | .fadeSec _ => .fadeSec
  | .fadeSyncEn _ => .fadeSyncEn
  | .fadeBeats _ => .fadeBeats
  | .onceEn _ => .onceEn
  | .randphaseEn _ => .randphaseEn
  | .quantEn _ => .quantEn
  | .quantLevels _ => .quantLevels
  | .numSteps _ => .numSteps

/-- The operand word of an LFO write (R107, R190). -/
def LfoWrite.word : LfoWrite → Word
  | .waveform v => encodeInt v.code
  | .freqHz v => encodeNum v
  | .syncEn v => encodeBool v
  | .syncBeats v => encodeNum v
  | .delaySec v => encodeNum v
  | .delaySyncEn v => encodeBool v
  | .delayBeats v => encodeNum v
  | .fadeSec v => encodeNum v
  | .fadeSyncEn v => encodeBool v
  | .fadeBeats v => encodeNum v
  | .onceEn v => encodeBool v
  | .randphaseEn v => encodeBool v
  | .quantEn v => encodeBool v
  | .quantLevels v => encodeInt v
  | .numSteps v => encodeInt v

/-- The LFO write of a register and an operand word, by the register's type (R33, R190, R119). -/
def LfoWrite.ofWord (c : LfoCfg) (w : Word) : Option LfoWrite :=
  match c with
  | .waveform => (Waveform.ofCode (decodeInt w)).map .waveform
  | .freqHz => (decodeNum w).map .freqHz
  | .syncEn => (decodeBool w).map .syncEn
  | .syncBeats => (decodeNum w).map .syncBeats
  | .delaySec => (decodeNum w).map .delaySec
  | .delaySyncEn => (decodeBool w).map .delaySyncEn
  | .delayBeats => (decodeNum w).map .delayBeats
  | .fadeSec => (decodeNum w).map .fadeSec
  | .fadeSyncEn => (decodeBool w).map .fadeSyncEn
  | .fadeBeats => (decodeNum w).map .fadeBeats
  | .onceEn => (decodeBool w).map .onceEn
  | .randphaseEn => (decodeBool w).map .randphaseEn
  | .quantEn => (decodeBool w).map .quantEn
  | .quantLevels => some (.quantLevels (decodeInt w))
  | .numSteps => some (.numSteps (decodeInt w))

/-- The index a Filter write names (R36, R211). -/
def FltWrite.idx : FltWrite → Nat
  | .type _ => 0
  | .cutoff _ => 1
  | .resonance _ => 2
  | .cutoffMod _ => 3
  | .resMod _ => 4

/-- The operand word of a Filter write: `INT` for `TYPE`, `NUM` otherwise (R211). -/
def FltWrite.word : FltWrite → Word
  | .type v => encodeInt v.code
  | .cutoff v => encodeNum v
  | .resonance v => encodeNum v
  | .cutoffMod v => encodeNum v
  | .resMod v => encodeNum v

/-- The builder of a Filter write for an index (R211, R118); it reads the operand word (R119). -/
def FltWrite.ofIdx : Nat → Option (Word → Option FltWrite)
  | 0 => some fun w => (FilterType.ofCode (decodeInt w)).map .type
  | 1 => some fun w => (decodeNum w).map .cutoff
  | 2 => some fun w => (decodeNum w).map .resonance
  | 3 => some fun w => (decodeNum w).map .cutoffMod
  | 4 => some fun w => (decodeNum w).map .resMod
  | _ => none

/-- Indices of the Filter's registers (R36). -/
def FltReg.idx : FltReg → Nat
  | .type => 0
  | .cutoff => 1
  | .resonance => 2
  | .cutoffMod => 3
  | .resMod => 4
  | .a1 => 8
  | .a2 => 9
  | .a3 => 10
  | .b1 => 11
  | .b2 => 12
  | .x1L => 16
  | .x2L => 17
  | .y1L => 18
  | .y2L => 19
  | .x1R => 20
  | .x2R => 21
  | .y1R => 22
  | .y2R => 23

/-- The Filter register of an index (R36, R212, R118). -/
def FltReg.ofIdx : Nat → Option FltReg
  | 0 => some .type
  | 1 => some .cutoff
  | 2 => some .resonance
  | 3 => some .cutoffMod
  | 4 => some .resMod
  | 8 => some .a1
  | 9 => some .a2
  | 10 => some .a3
  | 11 => some .b1
  | 12 => some .b2
  | 16 => some .x1L
  | 17 => some .x2L
  | 18 => some .y1L
  | 19 => some .y2L
  | 20 => some .x1R
  | 21 => some .x2R
  | 22 => some .y1R
  | 23 => some .y2R
  | _ => none

/-- Field numbers of a matrix slot (R37). -/
def SlotField.idx : SlotField → Nat
  | .enabled => 0
  | .source => 1
  | .secondary => 2
  | .dest => 3
  | .func => 4
  | .amount => 5

/-- The slot field of a number; 6 and 7 are reserved (R37, R241). -/
def SlotField.ofIdx : Nat → Option SlotField
  | 0 => some .enabled
  | 1 => some .source
  | 2 => some .secondary
  | 3 => some .dest
  | 4 => some .func
  | 5 => some .amount
  | _ => none

/-- The field a slot write names. -/
def SlotWrite.field : SlotWrite → SlotField
  | .enabled _ => .enabled
  | .source _ => .source
  | .secondary _ => .secondary
  | .dest _ => .dest
  | .func _ => .func
  | .amount _ => .amount

/-- The operand word of a slot write: `NUM` for `AMOUNT`, `INT` otherwise (R241). -/
def SlotWrite.word : SlotWrite → Word
  | .enabled v => encodeBool v
  | .source v => encodeInt v.code
  | .secondary v => encodeInt v.code
  | .dest v => encodeInt v.code
  | .func v => encodeInt v.code
  | .amount v => encodeNum v

/-- The slot write of a field and an operand word (R241, R119), whatever the slot: DESIGN CHOICE for a denied one, log entry 12. -/
def SlotWrite.ofWord (f : SlotField) (w : Word) : Option SlotWrite :=
  match f with
  | .enabled => (decodeBool w).map .enabled
  | .source => (ModSrc.ofCode (decodeInt w)).map .source
  | .secondary => (ModSrc.ofCode (decodeInt w)).map .secondary
  | .dest => (ModDest.ofCode (decodeInt w)).map .dest
  | .func => (MathFunc.ofCode (decodeInt w)).map .func
  | .amount => (decodeNum w).map .amount

/-- `IDX div 8`, the slot of a matrix index (R37, R241). -/
def slotOfIdx (idx : Nat) : Fin 32 := Fin.ofNat 32 (idx / 8)

/-- The index of a matrix register: `8 * slot + field` or `64 + dest` (R37, R41). -/
def MtxReg.idx : MtxReg → Nat
  | .field slot f => 8 * slot.val + f.idx
  | .output d => 64 + d.code

/-- The matrix register of an index: the outputs at 64 to 68 (R41), else slot and field (R37, R242). -/
def MtxReg.ofIdx (idx : Nat) : Option MtxReg :=
  if 64 ≤ idx ∧ idx ≤ 68 then (ModDest.ofCode (idx - 64)).map .output
  else (SlotField.ofIdx (idx % 8)).map (.field (slotOfIdx idx))

/-- Indices `VOICE.RD` admits (R43). -/
def VoiceReg.idx : VoiceReg → Nat
  | .offset => 0
  | .gate => 1
  | .rnd => 2
  | .pitchMod => 3
  | .panMod => 4
  | .ampMod => 5
  | .modCount => 6
  | .ampL => 7
  | .ampR => 8
  | .note => 9
  | .velocity => 10

/-- The Voice register of an index (R43, R276, R118). -/
def VoiceReg.ofIdx : Nat → Option VoiceReg
  | 0 => some .offset
  | 1 => some .gate
  | 2 => some .rnd
  | 3 => some .pitchMod
  | 4 => some .panMod
  | 5 => some .ampMod
  | 6 => some .modCount
  | 7 => some .ampL
  | 8 => some .ampR
  | 9 => some .note
  | 10 => some .velocity
  | _ => none

/-! ### The decoder -/

/-- The header's fields (R101). -/
def headerUnit (h : Word) : Nat := h.toNat / 2 ^ 28

/-- The header's `OP` field (R101). -/
def headerOp (h : Word) : Nat := h.toNat / 2 ^ 24 % 16

/-- The header's `IDX` field (R101). -/
def headerIdx (h : Word) : Nat := h.toNat / 2 ^ 16 % 256

/-- The header's `ZERO` field (R101). -/
def headerZero (h : Word) : Nat := h.toNat % 2 ^ 16

/-- The shape of a command, read from its header alone (R105): how many operand words follow, and the command they make, if
none of them is reserved. -/
structure Shape where
  operands : Nat
  build : List Word → Option Instr

/-- A command without operand words. -/
def Shape.of0 (i : Instr) : Shape := ⟨0, fun _ => some i⟩

/-- A command with one operand word. -/
def Shape.of1 (f : Word → Option Instr) : Shape :=
  ⟨1, fun | [a] => f a | _ => none⟩

/-- A command with two operand words. -/
def Shape.of2 (f : Word → Word → Option Instr) : Shape :=
  ⟨2, fun | [a, b] => f a b | _ => none⟩

/-- A command with three operand words. -/
def Shape.of3 (f : Word → Word → Word → Option Instr) : Shape :=
  ⟨3, fun | [a, b, c] => f a b c | _ => none⟩

/-- A command with two operands, each read by its own reader. -/
def build2 {α β : Type} (ra : Word → Option α) (rb : Word → Option β) (mk : α → β → Instr) (a b : Word) : Option Instr :=
  match ra a, rb b with
  | some x, some y => some (mk x y)
  | _, _ => none

/-- A command with three operands, each read by its own reader. -/
def build3 {α β γ : Type} (ra : Word → Option α) (rb : Word → Option β) (rc : Word → Option γ) (mk : α → β → γ → Instr)
    (a b c : Word) : Option Instr :=
  match ra a, rb b, rc c with
  | some x, some y, some z => some (mk x y z)
  | _, _, _ => none

/-- Reads every word of a list with `decodeNum`; none if one is reserved. -/
def decodeNums : List Word → Option (List Number)
  | [] => some []
  | w :: ws =>
    match decodeNum w, decodeNums ws with
    | some v, some vs => some (v :: vs)
    | _, _ => none

/-- Thirteen values as the source operands of `MTX.EVAL` (R243). -/
def sourcesOfList : List Number → Option Sources
  | [s1, s2, s3, s4, s5, s6, s7, s8, s9, s10, s11, s12, s13] =>
    some ⟨s1, s2, s3, s4, s5, s6, s7, s8, s9, s10, s11, s12, s13⟩
  | _ => none

/-- The `MTX.EVAL` of thirteen operand words (R117, R243). -/
def buildMtxEval (ws : List Word) : Option Instr :=
  match decodeNums ws with
  | some vs => (sourcesOfList vs).map .mtxEval
  | none => none

/-- The shape a command that names no register has if `IDX` is 0 (R104, R118). -/
def noIdx (idx : Nat) (sh : Shape) : Except Reserved Shape := if idx = 0 then .ok sh else .error .index

/-- The shape of a command whose index must be one the command admits (R104, R118). -/
def withIdx {α : Type} (r : Option α) (sh : α → Shape) : Except Reserved Shape :=
  match r with
  | some x => .ok (sh x)
  | none => .error .index

/-- The `LFO.WR` of a register index; indices 16 to 20 are not writable (R190). -/
def lfoWrShape : LfoReg → Option Shape
  | .cfg c => some (.of1 fun w => (LfoWrite.ofWord c w).map .lfoWr)
  | .run _ => none

/-- The opcode map (R110 to R117): the shape for a unit, an operation and an index, or why there is none (R118). The operand word of
an `MTX.WR` is typed by the field its index names in every slot, the denied slots 5 and above too: DESIGN CHOICE, log entry 12. A step
index is not held against the OPEN capacity here; execution refuses one that is reserved (R192): DESIGN CHOICE, log entry 33. -/
def shapeOf (unit op idx : Nat) : Except Reserved Shape :=
  match unit, op with
  | 0, 1 => noIdx idx (.of0 .noteOn)
  | 0, 2 => noIdx idx (.of0 .noteOff)
  | 0, 3 => noIdx idx (.of2 (build2 decodeNum decodeNum .step))
  | 0, 4 => noIdx idx (.of0 .hasEnded)
  | 0, 5 => withIdx (EnvParam.ofIdx idx) fun reg => .of1 fun w => (decodeNum w).map (.wr reg)
  | 0, 6 => withIdx (EnvReg.ofIdx idx) fun reg => .of0 (.rd reg)
  | 1, 1 => noIdx idx (.of0 .lfoNoteOn)
  | 1, 3 => noIdx idx (.of2 (build2 decodeNum decodeNum .lfoStep))
  | 1, 5 => withIdx ((LfoReg.ofIdx idx).bind lfoWrShape) id
  | 1, 6 => withIdx (LfoReg.ofIdx idx) fun r => .of0 (.lfoRd r)
  | 1, 7 => .ok (.of1 fun w => (decodeNum w).map (.lfoWrStep (Fin.ofNat 256 idx)))
  | 1, 8 => .ok (.of0 (.lfoRdStep (Fin.ofNat 256 idx)))
  | 2, 5 => withIdx (FltWrite.ofIdx idx) fun f => .of1 fun w => (f w).map .fltWr
  | 2, 6 => withIdx (FltReg.ofIdx idx) fun r => .of0 (.fltRd r)
  | 2, 9 => noIdx idx (.of1 fun w => (decodeNum w).map .fltUpdate)
  | 2, 10 => noIdx idx (.of1 fun w => some (.fltRun (decodeInt w)))
  | 3, 5 => withIdx (SlotField.ofIdx (idx % 8)) fun f => .of1 fun w => (SlotWrite.ofWord f w).map (.mtxWr (slotOfIdx idx))
  | 3, 6 => withIdx (MtxReg.ofIdx idx) fun r => .of0 (.mtxRd r)
  | 3, 11 => noIdx idx ⟨13, buildMtxEval⟩
  | 4, 1 => noIdx idx (.of2 (build2 decodeSeven decodeSeven .voiceNoteOn))
  | 4, 2 => noIdx idx (.of0 .voiceNoteOff)
  | 4, 6 => withIdx (VoiceReg.ofIdx idx) fun r => .of0 (.voiceRd r)
  | 4, 12 => noIdx idx (.of3 (build3 (fun w => some (decodeInt w)) decodeNum decodeNum .voiceRender))
  | 5, 1 => noIdx idx (.of3 (build3 (fun w => some (decodeInt w)) decodeSeven decodeSeven .engNoteOn))
  | 5, 2 => noIdx idx (.of3 (build3 (fun w => some (decodeInt w)) decodeSeven decodeSeven .engNoteOff))
  | 5, 13 => noIdx idx (.of2 (build2 (fun w => some (decodeInt w)) decodeNum .engPitchbend))
  | 5, 14 => noIdx idx (.of3 (build3 (fun w => some (decodeInt w)) decodeCc decodeNum .engCc))
  | 5, 15 => noIdx idx (.of2 (build2 decodeNum decodeNum .engProcess))
  | _, _ => .error .opcode

/-- The shape a header gives, or why it is reserved (R105, R118). -/
def headerShape (h : Word) : Except Reserved Shape :=
  if headerZero h ≠ 0 then .error .zeroField else shapeOf (headerUnit h) (headerOp h) (headerIdx h)

/-- What the decoder finds at the front of a stream. -/
inductive Decoded
  /-- A command, and the words after it. -/
  | command (i : Instr) (rest : List Word)
  /-- The last word of the next command has not arrived (R100). -/
  | incomplete
  /-- A reserved header or operand (R118, R119). -/
  | reserved (r : Reserved)
deriving DecidableEq, Repr

/-- The decoder: the header gives the length (R105); a command is decoded when its last word has arrived (R100). -/
def decode : List Word → Decoded
  | [] => .incomplete
  | h :: ws =>
    match headerShape h with
    | .error r => .reserved r
    | .ok sh =>
      if ws.length < sh.operands then .incomplete
      else
        match sh.build (ws.take sh.operands) with
        | none => .reserved .operand
        | some i => if i.admitted then .command i (ws.drop sh.operands) else .reserved .operand

/-- The stream's first word is the header of a command for another unit than the ENV (R102). -/
def foreignHeader : List Word → Bool
  | [] => false
  | h :: _ => headerUnit h != 0

/-- What the decoder finds at the command port: an ENV block wired alone accepts only `UNIT = 0` (R102; log entry 40). -/
def decodeAt (envAlone : Bool) (ws : List Word) : Decoded :=
  if envAlone && foreignHeader ws then .reserved .unit else decode ws

/-! ### The encoder -/

/-- A header word (R101). -/
def header (unit : UnitCode) (op idx : Nat) : Word := BitVec.ofNat 32 (unit.code * 2 ^ 28 + op * 2 ^ 24 + idx * 2 ^ 16)

/-- The words of a command (R110 to R117). -/
def encode : Instr → List Word
  | .noteOn => [header .env 1 0]
  | .noteOff => [header .env 2 0]
  | .step e bpm => [header .env 3 0, encodeNum e, encodeNum bpm]
  | .hasEnded => [header .env 4 0]
  | .wr reg v => [header .env 5 reg.idx, encodeNum v]
  | .rd reg => [header .env 6 reg.idx]
  | .lfoNoteOn => [header .lfo 1 0]
  | .lfoStep e bpm => [header .lfo 3 0, encodeNum e, encodeNum bpm]
  | .lfoWr w => [header .lfo 5 w.reg.idx, w.word]
  | .lfoRd reg => [header .lfo 6 reg.idx]
  | .lfoWrStep k v => [header .lfo 7 k.val, encodeNum v]
  | .lfoRdStep k => [header .lfo 8 k.val]
  | .fltWr w => [header .flt 5 w.idx, w.word]
  | .fltRd reg => [header .flt 6 reg.idx]
  | .fltUpdate sr => [header .flt 9 0, encodeNum sr]
  | .fltRun n => [header .flt 10 0, encodeInt n]
  | .mtxWr slot w => [header .mtx 5 (8 * slot.val + w.field.idx), w.word]
  | .mtxRd reg => [header .mtx 6 reg.idx]
  | .mtxEval srcs => header .mtx 11 0 :: srcs.toList.map encodeNum
  | .voiceNoteOn note vel => [header .voice 1 0, encodeInt note.val, encodeInt vel.val]
  | .voiceNoteOff => [header .voice 2 0]
  | .voiceRd reg => [header .voice 6 reg.idx]
  | .voiceRender n sr bpm => [header .voice 12 0, encodeInt n, encodeNum sr, encodeNum bpm]
  | .engNoteOn part note vel => [header .eng 1 0, encodeInt part, encodeInt note.val, encodeInt vel.val]
  | .engNoteOff part note vel => [header .eng 2 0, encodeInt part, encodeInt note.val, encodeInt vel.val]
  | .engPitchbend part v => [header .eng 13 0, encodeInt part, encodeNum v]
  | .engCc part cc v => [header .eng 14 0, encodeInt part, encodeInt cc.val, encodeNum v]
  | .engProcess sr bpm => [header .eng 15 0, encodeNum sr, encodeNum bpm]

/-! ### Bytes -/

/-- The four bytes of a word, least significant first (R76, R109). -/
def wordBytes (w : Word) : List Byte :=
  [BitVec.ofNat 8 w.toNat, BitVec.ofNat 8 (w.toNat / 2 ^ 8), BitVec.ofNat 8 (w.toNat / 2 ^ 16),
    BitVec.ofNat 8 (w.toNat / 2 ^ 24)]

/-- A word stream as bytes (R109). -/
def serialise (ws : List Word) : List Byte := ws.flatMap wordBytes

/-- A stored byte stream as words; an incomplete last word is not a word yet (R100, R109). -/
def deserialise : List Byte → List Word
  | b0 :: b1 :: b2 :: b3 :: bs =>
    BitVec.ofNat 32 (b0.toNat + b1.toNat * 2 ^ 8 + b2.toNat * 2 ^ 16 + b3.toNat * 2 ^ 24) :: deserialise bs
  | _ => []

/-! ### The host's view of one instruction -/

/-- How many words the longest command has (R105). -/
def maxWords : Nat := 14

/-- The words of an instruction whose `nbits` bits are `w`, bit 0 the least significant bit of the first word, every higher
bit zero, up to the longest command. -/
def tableWords (nbits w : Nat) : List Word :=
  (List.range maxWords).map fun j => BitVec.ofNat 32 (w % 2 ^ nbits / 2 ^ (32 * j))

/-- The command the decoder reads from an instruction's bits; none where it refuses. -/
def decodeTableWord (nbits w : Nat) : Option Instr :=
  match decode (tableWords nbits w) with
  | .command i _ => some i
  | .incomplete => none
  | .reserved _ => none

end Sys2Proof
end

