-- ==== Sys2Proof/Config.lean ====
section
/-! DEFINITION. What an implementation fixes (R8) and what the spec leaves open (R9, U5, U13 to U16): the parameters with a
value in the rules are plain definitions, the OPEN ones are constants without a body, so that nothing can be proved of them
beyond the laws stated here. -/

namespace Sys2Proof

/-! ### Parameters the rules fix (R8) -/

/-- `ENV_DUR_SCALE` (R8): the factor of `duration`, in seconds. -/
def Config.envDurScale : Number := 10

/-- `MOD_BLOCK` (R8): rendered samples in one modulation period. -/
def Config.modBlock : Nat := 128

/-- `N_PARTS` (R8). -/
abbrev Config.nParts : Nat := 16

/-- `N_SLOTS` (R8). -/
abbrev Config.nSlots : Nat := 5

/-- `N_LFO` (R8). -/
abbrev Config.nLfo : Nat := 3

/-- `BUS_CHANNELS` (R8). -/
def Config.busChannels : Nat := 2

/-- `FLT_F_MAX` (R8), in Hz. -/
def Config.fltFMax : Number := 16000

/-- `FLT_R_MIN` (R8); `FLT_R_MAX` is `Config.fn.sqrt2`. -/
def Config.fltRMin : Number := 1 / 10

/-- `ENV_RESET_VALUE` (R9, R31). -/
def Config.envResetValue : Number := 0

/-- `MODWHEEL_CC` (R9, R289, D40): decided by the spec from general knowledge (G5). Log entry 30. -/
def Config.modwheelCc : Nat := 1

/-! ### The functions `FN` (R9, D2) -/

/-- A function that meets the laws of the sine below, with `FN.pi` at 1: it only shows that they can be met together. -/
def sineShape (x : Number) : Number := if 0 ≤ x ∧ x ≤ 1 / 2 then 2 * x else if x = 3 / 2 then -1 else 0

theorem sineShape_range (x : Number) : -1 ≤ sineShape x ∧ sineShape x ≤ 1 := by
  unfold sineShape
  split_ifs with h <;> constructor <;> first | linarith [h.1, h.2] | norm_num

theorem sineShape_rising (x y : Number) (h0 : 0 ≤ x) (h : x < y) (h1 : y ≤ 1 / 2) : sineShape x < sineShape y := by
  unfold sineShape
  rw [if_pos ⟨h0, by linarith⟩, if_pos ⟨by linarith, h1⟩]
  linarith

/-- The non-rational functions the rules use, as configuration functions on `Num` (D2), with the laws the rules state of
them and no other. A field's default value only shows that the laws can be met together: `Config.fn` is not that value.
DEDUCED, log entry 14; safe. -/
structure Fn where
  /-- `FN.sin`, used by R178. -/
  sin : Number → Number := sineShape
  /-- `FN.tan`, used by R213. -/
  tan : Number → Number := fun _ => 1
  /-- `FN.exp2`, used by R213 and R294. -/
  exp2 : Number → Number := fun x => 2 ^ x.floor
  /-- `FN.sqrt2`, used by R213. -/
  sqrt2 : Number := 1
  /-- `FN.pi`, used by R178 and R213. -/
  pi : Number := 1
  /-- R187: every shape lies in [-1, 1]. -/
  sin_range : ∀ x, -1 ≤ sin x ∧ sin x ≤ 1 := by exact sineShape_range
  /-- R178: the sine LFO starts "from 0 at phase 0". -/
  sin_zero : sin 0 = 0 := by norm_num [sineShape]
  /-- R178: it is "rising" there, to the first quarter of its cycle. -/
  sin_rising : ∀ x y, 0 ≤ x → x < y → y ≤ pi / 2 → sin x < sin y := by exact sineShape_rising
  /-- R178, with V-LFO-10: "amplitude 1" is reached at a quarter of the cycle. -/
  sin_quarter : sin (pi / 2) = 1 := by norm_num [sineShape]
  /-- V-LFO-10: 0 at half of the cycle. -/
  sin_half : sin pi = 0 := by norm_num [sineShape]
  /-- R178, with V-LFO-10: "bipolar", the amplitude is reached below 0 too. -/
  sin_three_quarters : sin (3 * pi / 2) = -1 := by norm_num [sineShape]
  /-- R210: the tangent is non-zero below half the sample rate; R219: it is positive there. -/
  tan_pos : ∀ x, 0 < x → x < pi / 2 → 0 < tan x := by intro x _ _; norm_num
  /-- `FN.exp2(x) = 2^x` (44_voice.md), at the integers, where it is rational. -/
  exp2_int : ∀ n : Int, exp2 n = 2 ^ n := by intro n; simp [Rat.floor_intCast]
  /-- `FN.exp2(x) = 2^x` is positive. -/
  exp2_pos : ∀ x, 0 < exp2 x := by intro x; positivity
  /-- R219: `r > 0`. -/
  sqrt2_pos : 0 < sqrt2 := by norm_num
  /-- R210: `FN.pi * f / sampleRate` is positive. -/
  pi_pos : 0 < pi := by norm_num
deriving Inhabited

/-- `FN` (R9, D2): free but for its laws. -/
opaque Config.fn : Fn

/-! ### The table `MTX_DEST_INFO` (R39, D41) -/

/-- One row of `MTX_DEST_INFO` (R39). -/
structure DestInfo where
  min : Number
  max : Number
  step : Number
  default : Number
deriving DecidableEq, Repr

/-- The destination table with what R39 fixes of it. The default value only shows that this can be met. -/
structure DestTable where
  info : ModDest → DestInfo := fun _ => ⟨0, 4, 0, 0⟩
  /-- A domain's bounds are in order, as `clamp` requires (R12). -/
  min_le_max : ∀ d, (info d).min ≤ (info d).max := by intro d; norm_num
  /-- R39: the FilterCutoff domain admits 256/127 and 4. -/
  cutoff_admits : (info .filterCutoff).min ≤ 256 / 127 ∧ 4 ≤ (info .filterCutoff).max := by norm_num
deriving Inhabited

/-- `MTX_DEST_INFO` (R9, R39): OPEN. Log entry 15; safe. -/
opaque Config.mtxDestInfo : DestTable

/-! ### Other OPEN parameters -/

/-- `LFO_N_STEPS_MAX - 1`. R170 asks `1 ≤ NUM_STEPS ≤ LFO_N_STEPS_MAX`, so the capacity is at least 1. -/
opaque Config.lfoNStepsMaxPred : Nat

/-- `LFO_N_STEPS_MAX` (R9, D30): OPEN. Log entry 16; safe. -/
def Config.lfoNStepsMax : Nat := Config.lfoNStepsMaxPred + 1

/-- `VOICE_PARTIAL_BLOCK_ON_STOP` (R298, D49): OPEN; true is `keep`, false is `discard`. Log entry 13; safe. -/
opaque Config.keepPartialBlock : Bool

/-- The random oracle's answers before they are brought into the interval of a draw (R57). Log entry 9; safe. -/
opaque Config.oracle : Nat → Number

/-- The word a denied `MTX.RD` responds with (R242, U6: any value). Log entry 11; safe. -/
opaque Config.deniedRead : Nat → Word

/-- `AMP_L` and `AMP_R` of a Voice between its construction and its first block: no rule states them. Log entry 10; safe. -/
opaque Config.ampAtConstruction : Nat → Number

/-! ### OPEN reset values (R31, R33, R35 to R37, R391, R392). Log entries 3 to 6; safe. -/

opaque Config.envResetA : Number
opaque Config.envResetD : Number
opaque Config.envResetS : Number
opaque Config.envResetR : Number

opaque Config.lfoResetWaveform : Waveform
opaque Config.lfoResetFreqHz : Number
opaque Config.lfoResetSyncEn : Bool
opaque Config.lfoResetSyncBeats : Number
opaque Config.lfoResetDelaySec : Number
opaque Config.lfoResetDelaySyncEn : Bool
opaque Config.lfoResetDelayBeats : Number
opaque Config.lfoResetFadeSec : Number
opaque Config.lfoResetFadeSyncEn : Bool
opaque Config.lfoResetFadeBeats : Number
opaque Config.lfoResetOnceEn : Bool
opaque Config.lfoResetRandphaseEn : Bool
opaque Config.lfoResetQuantEn : Bool
opaque Config.lfoResetQuantLevels : Nat
opaque Config.lfoResetNumSteps : Nat
/-- Reset contents of the custom step array (R35). -/
opaque Config.lfoStepReset : Nat → Number

opaque Config.fltResetType : FilterType
opaque Config.fltResetCutoff : Number
opaque Config.fltResetResonance : Number
opaque Config.fltResetA1 : Number
opaque Config.fltResetA2 : Number
opaque Config.fltResetA3 : Number
opaque Config.fltResetB1 : Number
opaque Config.fltResetB2 : Number

opaque Config.mtxResetEnabled : Fin 5 → Bool
opaque Config.mtxResetSource : Fin 5 → ModSrc
opaque Config.mtxResetSecondary : Fin 5 → ModSrc
opaque Config.mtxResetDest : Fin 5 → ModDest
opaque Config.mtxResetFunc : Fin 5 → MathFunc
opaque Config.mtxResetAmount : Fin 5 → Number

end Sys2Proof
end

