-- ==== Sys2Proof/Machine/State.lean ====
section
/-! DEFINITION. The machine's state as plain data: the register files of the units (10_state.md), the instances that exist,
the context supplied from outside (R56), the two ports (R100); the reasons a step can stop; the state after reset. -/

namespace Sys2Proof.Machine

/-! ### Sparse stores -/

/-- An address space of `Num` elements reached by an index (R71: the LFO step array, the controller table), as (index, value)
pairs in one canonical form: indices strictly rising, and no entry equal to what an unlisted index reads as. The operations
and the form are in Ops.lean. -/
abbrev Memory := List (Nat × Number)

/-! ### Register files of the units -/

/-- An ENV (R20): four parameters, the output, the state register, and nothing else. -/
structure Env where
  a : Number
  d : Number
  s : Number
  r : Number
  value : Number
  state : EnvState
deriving DecidableEq, Repr

/-- An LFO: configuration registers (R33), runtime registers (R34), custom step array (R35). -/
structure Lfo where
  waveform : Waveform
  freqHz : Number
  syncEn : Bool
  syncBeats : Number
  delaySec : Number
  delaySyncEn : Bool
  delayBeats : Number
  fadeSec : Number
  fadeSyncEn : Bool
  fadeBeats : Number
  onceEn : Bool
  randphaseEn : Bool
  quantEn : Bool
  quantLevels : Nat
  numSteps : Nat
  period : Number
  startPhase : Number
  t : Number
  randHold : Number
  value : Number
  steps : Memory
deriving DecidableEq, Repr

/-- Biquad coefficients of a Filter (R36). -/
structure Coeffs where
  a1 : Number
  a2 : Number
  a3 : Number
  b1 : Number
  b2 : Number
deriving DecidableEq, Repr

/-- Delay state of one channel of a Filter: two input and two output taps (R36, R217). -/
structure Taps where
  x1 : Number
  x2 : Number
  y1 : Number
  y2 : Number
deriving DecidableEq, Repr

/-- A Resonant Filter (R36). -/
structure Flt where
  type : FilterType
  cutoff : Number
  resonance : Number
  cutoffMod : Number
  resMod : Number
  coeffs : Coeffs
  left : Taps
  right : Taps
deriving DecidableEq, Repr

/-- One slot of a ModMatrix (R37). -/
structure MtxSlot where
  enabled : Bool
  source : ModSrc
  secondary : ModSrc
  dest : ModDest
  func : MathFunc
  amount : Number
deriving DecidableEq, Repr

/-- The outputs `MOD[0..4]` of a ModMatrix, in destination order (R39, R41). -/
structure ModOut where
  filterCutoff : Number
  filterResonance : Number
  pitch : Number
  pan : Number
  amplitude : Number
deriving DecidableEq, Repr

/-- A ModMatrix: exactly five slots (R37) and the outputs (R41). -/
structure Mtx where
  slots : Vector MtxSlot 5
  mod : ModOut
deriving DecidableEq, Repr

/-! ### Samples -/

/-- The values of a Decoded Sample Source, one list for each channel: stored codes of 8 or 16 bits, which R74 normalises, or,
for another bit depth than those two, the values themselves (R74 does not describe it; log entry 35). -/
inductive SampleData
  | bits8 (channels : List (List (BitVec 8)))
  | bits16 (channels : List (List (BitVec 16)))
  | other (numBits : { n : Nat // n ≠ 8 ∧ n ≠ 16 }) (channels : List (List Number))
deriving DecidableEq, Repr

/-- A Decoded Sample Source (R72), read-only; `loopFlag` and `raw` are the payload's loop flag and raw encoded sample bytes (R58),
whose coding is out of scope (R76): no command reads them. -/
structure Source where
  data : SampleData
  sampleRate : Number
  numSamples : Nat
  loopStart : Int
  loopEnd : Int
  loopFlag : Bool
  raw : List Byte
deriving DecidableEq, Repr

/-- A Sample: the static configuration of one key and velocity zone, with its templates, its ModMatrix and its source (R42). -/
structure Sample where
  name : String
  minNote : Nat
  maxNote : Nat
  minVelocity : Nat
  maxVelocity : Nat
  baseNote : Nat
  detune : Number
  pan : Number
  gain : Number
  keytrack : Number
  pitchbendRange : Number
  playMode : PlayMode
  reverse : Bool
  outputBus : Option Nat
  layer : Nat
  aeg : Env
  eg2 : Env
  lfos : Vector Lfo 3
  flt : Flt
  mtx : Mtx
  src : Source
deriving DecidableEq, Repr

/-! ### Voices, Parts, buses -/

/-- A stereo scratch buffer: channel 0 and channel 1 (R44, R71). -/
structure Scratch where
  left : List Number
  right : List Number
deriving DecidableEq, Repr

/-- A Voice (R43) with its hidden state (R44). `part` and `sample` are its references to the owning Part and the source
Sample, an index in that Part's list. -/
structure Voice where
  part : Fin 16
  sample : Nat
  aeg : Env
  eg2 : Env
  lfos : Vector Lfo 3
  flt : Flt
  offset : Number
  gate : Bool
  rnd : Number
  pitchMod : Number
  panMod : Number
  ampMod : Number
  modCount : Fin 128
  ampL : Number
  ampR : Number
  note : Fin 128
  velocity : Fin 128
  /-- The Voice's own scratch buffer (R44, R71). -/
  scratch : Scratch
deriving DecidableEq, Repr

/-- A Part (R46). `voices` is the note map in its own order: ascending note, and under one note the order of registration
(R331); the Voices under a note are those whose `note` it is (log entry 25). -/
structure Part where
  samples : List Sample
  voices : List Voice
  pitchbend : Number
  controllers : Memory
deriving DecidableEq, Repr

/-- An output bus (R75): a sample count and the channel write targets, with what they hold. -/
structure Bus where
  enabled : Bool
  sampleCount : Nat
  channels : List (List Number)
deriving DecidableEq, Repr

/-- The selection policy's two answers (R323): is solo active, and which Samples (Part, index) are selected. -/
structure Policy where
  soloActive : Bool
  selected : List (Fin 16 × Nat)
deriving DecidableEq, Repr

/-! ### The chip select (R2, R102) -/

/-- Which of the two ENV instances of a Sample or a Voice (R2). -/
inductive EnvWhich
  | aeg | eg2
deriving DecidableEq, Repr

/-- A Voice: the lone one, or the Voice at a position of a Part's note map, whichever stands there when it is asked for. DESIGN
CHOICE, log entry 47. -/
inductive VoiceLoc
  | lone
  | mapped (p : Fin 16) (i : Nat)
deriving DecidableEq, Repr

/-- An ENV instance: the lone block, a Sample's template, or a Voice's own (R2). -/
inductive EnvLoc
  | lone
  | template (p : Fin 16) (k : Nat) (w : EnvWhich)
  | voice (v : VoiceLoc) (w : EnvWhich)
deriving DecidableEq, Repr

/-- An LFO instance. -/
inductive LfoLoc
  | lone
  | template (p : Fin 16) (k : Nat) (j : Fin 3)
  | voice (v : VoiceLoc) (j : Fin 3)
deriving DecidableEq, Repr

/-- A Filter instance. -/
inductive FltLoc
  | lone
  | template (p : Fin 16) (k : Nat)
  | voice (v : VoiceLoc)
deriving DecidableEq, Repr

/-- A scratch buffer: the one in the context of a Filter that no Voice owns (R117), or a Voice's own (R44). -/
inductive BufLoc
  | context
  | voice (v : VoiceLoc)
deriving DecidableEq, Repr

/-- A ModMatrix instance: the lone block or a Sample's. -/
inductive MtxLoc
  | lone
  | sample (p : Fin 16) (k : Nat)
deriving DecidableEq, Repr

/-- The integrator's chip select (R2, R102) and the lone Voice's context: the Part and Sample it is constructed on and its
target bus (R290, R332). `envAlone` says that the machine is an ENV block wired alone, which accepts the ENV's commands and no
other (R102; log entry 40). No command changes it. Log entry 7. -/
structure ChipSelect where
  env : EnvLoc
  lfo : LfoLoc
  flt : FltLoc
  mtx : MtxLoc
  voice : VoiceLoc
  newPart : Fin 16
  newSample : Nat
  bus : Nat
  envAlone : Bool
deriving DecidableEq, Repr

/-- One word on a response port, with the unit that emitted it (R100, R108). -/
structure Response where
  unit : UnitCode
  word : Word
deriving DecidableEq, Repr

/-! ### The machine -/

/-- Everything the machine holds between two commands. -/
structure State where
  /-- The lone ENV block (R20). -/
  env : Env
  /-- The lone LFO block (R33 to R35). -/
  lfo : Lfo
  /-- The lone Filter block (R36). -/
  flt : Flt
  /-- The lone ModMatrix block (R37, R41). -/
  mtx : Mtx
  /-- The lone Voice, if one exists (R45). -/
  voice : Option Voice
  /-- The Engine's 16 Parts (R47). -/
  parts : Vector Part 16
  /-- The scratch buffer in the context of `FLT.RUN`, for a Filter that no Voice owns (R56, R117; log entry 24). -/
  scratch : Scratch
  /-- The bus list of the context (R56, R75). -/
  buses : List Bus
  /-- The selection policy's answers (R56, R323). -/
  policy : Policy
  /-- The chip select (R2). -/
  sel : ChipSelect
  /-- How many free values have been taken: the MODEL's own counter, for R57 (log entry 9). -/
  draws : Nat
  /-- The command words that have arrived and are not executed, oldest first (R100). -/
  cmd : List Word
  /-- The response words emitted, oldest first (R100, R108). -/
  resp : List Response
deriving DecidableEq, Repr

/-! ### Why a step stops -/

/-- This hardware has no fault: it raises no exception, in any state, for any command (R360), and has no stuck state (R363). -/
inductive Fault
deriving DecidableEq, Repr

/-- The refusals of R362, and of contexts that name nothing: the spec assigns the command no next state. Each is safe: it
leaves a claim unprovable and proves nothing. -/
inductive Refusal
  /-- Raised by an arm of `exec` whose instruction has no meaning yet; safe. -/
  | notModelled (mnemonic : String)
  /-- Raised by `step` on a reserved header or operand (R118, R119); safe. -/
  | reserved (r : Reserved)
  /-- Raised by a command whose operand is reserved by its value (R119, R326, R327); safe. -/
  | reservedOperand
  /-- Raised by `STEP` and `LFO.STEP` with `e < 0` (R150, R189); safe. -/
  | negativeElapsed
  /-- Raised by `STEP` in Decay or Sustain with `S` outside [0, 1] (R150); safe. -/
  | sustainOutOfRange
  /-- Raised by `LFO.STEP` with a tempo-derived quantity and `bpm ≤ 0` (R189); safe. -/
  | lfoTempo
  /-- Raised by `LFO.STEP` with `SYNC_EN = 1` and `SYNC_BEATS ≤ 0` (R189); safe. -/
  | lfoSyncBeats
  /-- Raised by `LFO.STEP` on a custom waveform with `NUM_STEPS` 0 or above capacity (R189); safe. -/
  | lfoNumSteps
  /-- Raised by `LFO.STEP` with `QUANT_EN = 1` and `QUANT_LEVELS < 2` (R189); safe. -/
  | lfoQuantLevels
  /-- Raised by `LFO.WRSTEP` and `LFO.RDSTEP` with an index at or above the capacity (R192, R118); safe. -/
  | stepIndex
  /-- Raised by `FLT.UPDATE` of a lowpass or highpass Filter unless `sampleRate > 0` and `0 < f < sampleRate/2` (R210, R362, U11,
  V-FLT-6); safe. -/
  | filterRate
  /-- Raised by `FLT.RUN` with `n` above the scratch buffer's length (R210); safe. -/
  | filterLength
  /-- Raised by a `SampleRead` out of range (R73) or of an index that the source stores no value for (log entry 41); safe. -/
  | sampleReadOutOfRange
  /-- Raised by a command whose chip select names no existing instance (R2; log entry 7); safe. -/
  | noInstance
  /-- Raised by a Voice command when no Voice exists where the chip select points (R45, R270); safe. -/
  | noVoice
  /-- Raised by `VOICE.NOTE_ON` when the chip select names a Voice of a note map, which only its Part creates (R45); safe. -/
  | voiceOfPart
  /-- Raised when a Voice's Sample reference names no Sample of its Part (log entry 36); safe. -/
  | noSample
  /-- Raised when a Voice is constructed or rendered on a source without samples (R270; log entry 21); safe. -/
  | emptySample
  /-- Raised by a render with `sampleRate ≤ 0` (R270; log entry 21); safe. -/
  | sampleRateNotPositive
  /-- Raised by `VOICE.RENDER` when the target bus is not usable (R75; log entry 22); safe. -/
  | busUnusable
  /-- Raised by an accumulation outside `0 ≤ i < sampleCount`, or where a channel of the bus holds no element (R71, R75; log entry
  22); safe. -/
  | busIndex
deriving DecidableEq, Repr

/-! ### Reset -/

/-- The ENV after reset (R31): None, 0, and the OPEN parameters. -/
def Env.reset : Env :=
  { a := Config.envResetA, d := Config.envResetD, s := Config.envResetS, r := Config.envResetR,
    value := Config.envResetValue, state := .none }

/-- The LFO after reset (R33 to R35, R392): runtime registers 0, the rest OPEN; no step written. -/
def Lfo.reset : Lfo :=
  { waveform := Config.lfoResetWaveform, freqHz := Config.lfoResetFreqHz, syncEn := Config.lfoResetSyncEn,
    syncBeats := Config.lfoResetSyncBeats, delaySec := Config.lfoResetDelaySec, delaySyncEn := Config.lfoResetDelaySyncEn,
    delayBeats := Config.lfoResetDelayBeats, fadeSec := Config.lfoResetFadeSec, fadeSyncEn := Config.lfoResetFadeSyncEn,
    fadeBeats := Config.lfoResetFadeBeats, onceEn := Config.lfoResetOnceEn, randphaseEn := Config.lfoResetRandphaseEn,
    quantEn := Config.lfoResetQuantEn, quantLevels := Config.lfoResetQuantLevels, numSteps := Config.lfoResetNumSteps,
    period := 0, startPhase := 0, t := 0, randHold := 0, value := 0, steps := [] }

/-- Taps after reset (R36): 0. -/
def Taps.reset : Taps := ⟨0, 0, 0, 0⟩

/-- The Filter after reset (R36, R392): modulation inputs and taps 0, the rest OPEN. -/
def Flt.reset : Flt :=
  { type := Config.fltResetType, cutoff := Config.fltResetCutoff, resonance := Config.fltResetResonance,
    cutoffMod := 0, resMod := 0,
    coeffs := ⟨Config.fltResetA1, Config.fltResetA2, Config.fltResetA3, Config.fltResetB1, Config.fltResetB2⟩,
    left := Taps.reset, right := Taps.reset }

/-- A matrix slot after reset (R37): OPEN. -/
def MtxSlot.reset (i : Fin 5) : MtxSlot :=
  { enabled := Config.mtxResetEnabled i, source := Config.mtxResetSource i, secondary := Config.mtxResetSecondary i,
    dest := Config.mtxResetDest i, func := Config.mtxResetFunc i, amount := Config.mtxResetAmount i }

/-- The ModMatrix after reset (R37, R41, R392): slots OPEN, outputs 0. -/
def Mtx.reset : Mtx :=
  { slots := #v[MtxSlot.reset 0, MtxSlot.reset 1, MtxSlot.reset 2, MtxSlot.reset 3, MtxSlot.reset 4],
    mod := ⟨0, 0, 0, 0, 0⟩ }

/-- A Part after reset (R46): no Samples (R396), no Voices, pitchbend 0, every controller 0. -/
def Part.reset : Part := { samples := [], voices := [], pitchbend := 0, controllers := [] }

/-- The chip select at reset: every unit's lone instance. DESIGN CHOICE, log entry 7. -/
def ChipSelect.reset : ChipSelect :=
  { env := .lone, lfo := .lone, flt := .lone, mtx := .lone, voice := .lone, newPart := 0, newSample := 0, bus := 0,
    envAlone := false }

/-- The machine right after reset (R31, R391, R392, R396). The context (buses, scratch buffer, policy) is empty: DESIGN
CHOICE, log entry 8. -/
def State.reset : State :=
  { env := Env.reset, lfo := Lfo.reset, flt := Flt.reset, mtx := Mtx.reset, voice := none,
    parts := Vector.replicate 16 Part.reset, scratch := ⟨[], []⟩, buses := [], policy := ⟨false, []⟩,
    sel := ChipSelect.reset, draws := 0, cmd := [], resp := [] }

end Sys2Proof.Machine
end

