-- ==== Sys2Proof/Machine/Operands.lean ====
section
/-! DEFINITION. The arithmetic primitives of R12, the sparse stores, and every operand form: reading and writing the registers
of each unit by name (R20, R33 to R37, R41, R43). -/

namespace Sys2Proof.Machine

/-! ### Arithmetic primitives (R12) -/

/-- `clamp(v, lo, hi)` (R12). -/
def clamp (v lo hi : Number) : Number := if v < lo then lo else if hi < v then hi else v

/-- `sq(v)` (R12). -/
def sq (v : Number) : Number := v * v

/-- `frac(v) = v − floor(v)` (R12). -/
def frac (v : Number) : Number := v - v.floor

/-! ### Sparse stores (R71) -/

/-- The element at an index; an unlisted index reads as `dflt` says. -/
def Memory.read (dflt : Nat → Number) : Memory → Nat → Number
  | [], i => dflt i
  | (j, v) :: m, i => if i = j then v else Memory.read dflt m i

/-- Stores an element and keeps the canonical form: writing what an unlisted index reads as removes the entry. -/
def Memory.write (dflt : Nat → Number) : Memory → Nat → Number → Memory
  | [], i, v => if v = dflt i then [] else [(i, v)]
  | (j, w) :: m, i, v =>
    if i < j then if v = dflt i then (j, w) :: m else (i, v) :: (j, w) :: m
    else if i = j then if v = dflt i then m else (i, v) :: m
    else (j, w) :: Memory.write dflt m i v

/-- Every index of the store is above `lo`, in rising order, and no entry is what an unlisted index reads as. -/
def Memory.wfFrom (dflt : Nat → Number) : Nat → Memory → Bool
  | _, [] => true
  | lo, (i, v) :: m => lo ≤ i && v ≠ dflt i && Memory.wfFrom dflt (i + 1) m

/-- The canonical form of a store. -/
def Memory.wf (dflt : Nat → Number) (m : Memory) : Bool := Memory.wfFrom dflt 0 m

/-- What an unwritten controller reads as (R46). -/
def controllerDefault : Nat → Number := fun _ => 0

/-- What an unwritten element of the custom step array reads as (R35, R392): OPEN. -/
def stepDefault : Nat → Number := Config.lfoStepReset

/-! ### Readings -/

/-- The value a read responds with: a `Num` or an `Int`, `Bool` or `Enum` code (R107, R108). -/
inductive Reading
  | num (v : Number)
  | int (n : Nat)
deriving DecidableEq, Repr

/-- The response word of a reading (R108). -/
def readingWord : Reading → Word
  | .num v => encodeNum v
  | .int n => encodeInt n

/-- A `Bool` as a reading: 1 or 0 (R107). -/
def boolReading (b : Bool) : Reading := .int (if b then 1 else 0)

/-! ### ENV registers (R20) -/

/-- `x[IDX]` of an ENV (R20, R134). -/
def Env.read (e : Env) : EnvReg → Reading
  | .a => .num e.a
  | .d => .num e.d
  | .s => .num e.s
  | .r => .num e.r
  | .value => .num e.value
  | .state => .int e.state.code

/-- `x[IDX] <- v` of an ENV: stored as given, not clamped (R133). -/
def Env.write (e : Env) : EnvParam → Number → Env
  | .a, v => { e with a := v }
  | .d, v => { e with d := v }
  | .s, v => { e with s := v }
  | .r, v => { e with r := v }

/-! ### LFO registers (R33, R34) -/

/-- An LFO configuration register (R33). -/
def Lfo.readCfg (l : Lfo) : LfoCfg → Reading
  | .waveform => .int l.waveform.code
  | .freqHz => .num l.freqHz
  | .syncEn => boolReading l.syncEn
  | .syncBeats => .num l.syncBeats
  | .delaySec => .num l.delaySec
  | .delaySyncEn => boolReading l.delaySyncEn
  | .delayBeats => .num l.delayBeats
  | .fadeSec => .num l.fadeSec
  | .fadeSyncEn => boolReading l.fadeSyncEn
  | .fadeBeats => .num l.fadeBeats
  | .onceEn => boolReading l.onceEn
  | .randphaseEn => boolReading l.randphaseEn
  | .quantEn => boolReading l.quantEn
  | .quantLevels => .int l.quantLevels
  | .numSteps => .int l.numSteps

/-- An LFO runtime register (R34). -/
def Lfo.readRun (l : Lfo) : LfoRun → Reading
  | .period => .num l.period
  | .startPhase => .num l.startPhase
  | .t => .num l.t
  | .randHold => .num l.randHold
  | .value => .num l.value

/-- `x[IDX]` of an LFO (R191). -/
def Lfo.read (l : Lfo) : LfoReg → Reading
  | .cfg c => l.readCfg c
  | .run r => l.readRun r

/-- `x[IDX] <- v` of an LFO: no other register changes (R190). -/
def Lfo.write (l : Lfo) : LfoWrite → Lfo
  | .waveform v => { l with waveform := v }
  | .freqHz v => { l with freqHz := v }
  | .syncEn v => { l with syncEn := v }
  | .syncBeats v => { l with syncBeats := v }
  | .delaySec v => { l with delaySec := v }
  | .delaySyncEn v => { l with delaySyncEn := v }
  | .delayBeats v => { l with delayBeats := v }
  | .fadeSec v => { l with fadeSec := v }
  | .fadeSyncEn v => { l with fadeSyncEn := v }
  | .fadeBeats v => { l with fadeBeats := v }
  | .onceEn v => { l with onceEn := v }
  | .randphaseEn v => { l with randphaseEn := v }
  | .quantEn v => { l with quantEn := v }
  | .quantLevels v => { l with quantLevels := v }
  | .numSteps v => { l with numSteps := v }

/-- `STEPS[k]` (R35). -/
def Lfo.readStep (l : Lfo) (k : Nat) : Number := Memory.read stepDefault l.steps k

/-- `STEPS[k] <- v` (R35, R192). -/
def Lfo.writeStep (l : Lfo) (k : Nat) (v : Number) : Lfo := { l with steps := Memory.write stepDefault l.steps k v }

/-! ### Filter registers (R36) -/

/-- `x[IDX]` of a Filter (R212). -/
def Flt.read (f : Flt) : FltReg → Reading
  | .type => .int f.type.code
  | .cutoff => .num f.cutoff
  | .resonance => .num f.resonance
  | .cutoffMod => .num f.cutoffMod
  | .resMod => .num f.resMod
  | .a1 => .num f.coeffs.a1
  | .a2 => .num f.coeffs.a2
  | .a3 => .num f.coeffs.a3
  | .b1 => .num f.coeffs.b1
  | .b2 => .num f.coeffs.b2
  | .x1L => .num f.left.x1
  | .x2L => .num f.left.x2
  | .y1L => .num f.left.y1
  | .y2L => .num f.left.y2
  | .x1R => .num f.right.x1
  | .x2R => .num f.right.x2
  | .y1R => .num f.right.y1
  | .y2R => .num f.right.y2

/-- `x[IDX] <- v` of a Filter: stored as given (R211). -/
def Flt.write (f : Flt) : FltWrite → Flt
  | .type v => { f with type := v }
  | .cutoff v => { f with cutoff := v }
  | .resonance v => { f with resonance := v }
  | .cutoffMod v => { f with cutoffMod := v }
  | .resMod v => { f with resMod := v }

/-! ### ModMatrix registers (R37, R41) -/

/-- A field of a matrix slot (R37). -/
def MtxSlot.read (sl : MtxSlot) : SlotField → Reading
  | .enabled => boolReading sl.enabled
  | .source => .int sl.source.code
  | .secondary => .int sl.secondary.code
  | .dest => .int sl.dest.code
  | .func => .int sl.func.code
  | .amount => .num sl.amount

/-- A write to a field of a matrix slot: `AMOUNT` is stored as given (R241). -/
def MtxSlot.write (sl : MtxSlot) : SlotWrite → MtxSlot
  | .enabled v => { sl with enabled := v }
  | .source v => { sl with source := v }
  | .secondary v => { sl with secondary := v }
  | .dest v => { sl with dest := v }
  | .func v => { sl with func := v }
  | .amount v => { sl with amount := v }

/-- `MOD[d]` (R41). -/
def ModOut.get (o : ModOut) : ModDest → Number
  | .filterCutoff => o.filterCutoff
  | .filterResonance => o.filterResonance
  | .pitch => o.pitch
  | .pan => o.pan
  | .amplitude => o.amplitude

/-- `x[IDX]` of a ModMatrix (R242): none when the access is denied, slot 5 or above. -/
def Mtx.read (m : Mtx) : MtxReg → Option Reading
  | .field slot f => (m.slots[slot.val]?).map fun sl => sl.read f
  | .output d => some (.num (m.mod.get d))

/-- `x[IDX] <- v` of a ModMatrix (R241): "for slot ≥ 5 nothing is written". -/
def Mtx.write (m : Mtx) (slot : Fin 32) (w : SlotWrite) : Mtx :=
  if h : slot.val < 5 then { m with slots := m.slots.set slot.val (m.slots[slot.val].write w) } else m

/-! ### Voice registers (R43) -/

/-- `x[IDX]` of a Voice (R276). -/
def Voice.read (v : Voice) : VoiceReg → Reading
  | .offset => .num v.offset
  | .gate => boolReading v.gate
  | .rnd => .num v.rnd
  | .pitchMod => .num v.pitchMod
  | .panMod => .num v.panMod
  | .ampMod => .num v.ampMod
  | .modCount => .int v.modCount.val
  | .ampL => .num v.ampL
  | .ampR => .num v.ampR
  | .note => .int v.note.val
  | .velocity => .int v.velocity.val

end Sys2Proof.Machine
end

