-- ==== Sys2Proof/Machine/Flags.lean ====
section
/-! DEFINITION. The status flags and predicates of R27 and R48: each is a function of state, none is a stored bit of its own
but the Voice's `GATE`. -/

namespace Sys2Proof.Machine

/-- The flag `ENDED` (R27), also the ENV's level output (R365): `STATE = End`. -/
def Env.ended (e : Env) : Bool := e.state == .ended

/-- The LFO's "once" condition (R48, R185): `ONCE_EN`, a waveform other than random, and `PERIOD ≥ 1`, for the `PERIOD`
given. -/
def Lfo.onceFrozen (l : Lfo) (period : Number) : Bool := l.onceEn && l.waveform != .random && 1 ≤ period

/-- Whether a bus is usable by a Voice: enabled, and exactly two channel write targets (R75, R332). -/
def Bus.usable (b : Bus) : Bool := b.enabled && b.channels.length == Config.busChannels

/-- Whether a Sample's ranges match a note and a velocity, bounds inclusive (R322). -/
def Sample.covers (smp : Sample) (note vel : Nat) : Bool :=
  smp.minNote ≤ note && note ≤ smp.maxNote && smp.minVelocity ≤ vel && vel ≤ smp.maxVelocity

/-- The selection policy lets Sample `k` of Part `p` sound: solo is not active, or the Sample is selected (R323). -/
def Policy.allows (pol : Policy) (p : Fin 16) (k : Nat) : Bool := !pol.soloActive || pol.selected.contains (p, k)

end Sys2Proof.Machine
end

