-- ==== Sys2Proof/Machine/Ops.lean ====
section
/-! DEFINITION. Operations the meanings share: random draws (R57), responses (R108), and reaching the instance a command
addresses (R2). There is no exception to take and none to return from (R360, R367, R368). -/

namespace Sys2Proof.Machine

/-! ### The random oracle (R57) -/

/-- `draw_uniform(lo, hi)` as the `k`-th free value: `lo ≤ v < hi` and no other law (R57). -/
def drawUniform (lo hi : Number) (k : Nat) : Number := lo + (hi - lo) * frac (Config.oracle k)

/-! ### Outcomes and responses -/

/-- The outcome of a meaning that answers a state or a refusal (R362). -/
def outcome : Except Refusal State → Host.Outcome State Fault Refusal
  | .ok s => .next s
  | .error r => .refused r

/-- Emits one word on a unit's response port (R100, R108). -/
def State.emit (s : State) (unit : UnitCode) (w : Word) : State := { s with resp := s.resp ++ [⟨unit, w⟩] }

/-- `respond(v)` (R108). -/
def State.respond (s : State) (unit : UnitCode) (rd : Reading) : State := s.emit unit (readingWord rd)

/-! ### Instances -/

/-- Replaces a Part. -/
def State.setPart (s : State) (p : Fin 16) (x : Part) : State := { s with parts := s.parts.set p x }

/-- A Sample of a Part, if there is one. -/
def State.sampleAt (s : State) (p : Fin 16) (k : Nat) : Option Sample := s.parts[p].samples[k]?

/-- Replaces a Sample of a Part. -/
def State.setSample (s : State) (p : Fin 16) (k : Nat) (smp : Sample) : State :=
  s.setPart p { s.parts[p] with samples := s.parts[p].samples.set k smp }

/-- A Voice, if it exists. -/
def State.voiceAt (s : State) : VoiceLoc → Option Voice
  | .lone => s.voice
  | .mapped p i => s.parts[p].voices[i]?

/-- Replaces a Voice. -/
def State.setVoice (s : State) (loc : VoiceLoc) (v : Voice) : State :=
  match loc with
  | .lone => { s with voice := some v }
  | .mapped p i => s.setPart p { s.parts[p] with voices := s.parts[p].voices.set i v }

/-- Replaces the Voices of a Part's note map. -/
def State.setVoices (s : State) (p : Fin 16) (vs : List Voice) : State := s.setPart p { s.parts[p] with voices := vs }

/-- The AEG or EG2 template of a Sample (R42). -/
def Sample.envOf (smp : Sample) : EnvWhich → Env
  | .aeg => smp.aeg
  | .eg2 => smp.eg2

/-- Replaces an ENV template of a Sample. -/
def Sample.setEnvOf (smp : Sample) (w : EnvWhich) (e : Env) : Sample :=
  match w with
  | .aeg => { smp with aeg := e }
  | .eg2 => { smp with eg2 := e }

/-- A Voice's own AEG or EG2 (R43). -/
def Voice.envOf (v : Voice) : EnvWhich → Env
  | .aeg => v.aeg
  | .eg2 => v.eg2

/-- Replaces an ENV instance of a Voice. -/
def Voice.setEnvOf (v : Voice) (w : EnvWhich) (e : Env) : Voice :=
  match w with
  | .aeg => { v with aeg := e }
  | .eg2 => { v with eg2 := e }

/-- An ENV instance, if it exists (R2). -/
def State.envAt (s : State) : EnvLoc → Option Env
  | .lone => some s.env
  | .template p k w => (s.sampleAt p k).map (·.envOf w)
  | .voice vl w => (s.voiceAt vl).map (·.envOf w)

/-- Replaces an ENV instance; nothing where there is none. -/
def State.setEnv (s : State) (loc : EnvLoc) (e : Env) : State :=
  match loc with
  | .lone => { s with env := e }
  | .template p k w =>
    match s.sampleAt p k with
    | some smp => s.setSample p k (smp.setEnvOf w e)
    | none => s
  | .voice vl w =>
    match s.voiceAt vl with
    | some v => s.setVoice vl (v.setEnvOf w e)
    | none => s

/-- An LFO instance, if it exists (R2). -/
def State.lfoAt (s : State) : LfoLoc → Option Lfo
  | .lone => some s.lfo
  | .template p k j => (s.sampleAt p k).map (·.lfos[j])
  | .voice vl j => (s.voiceAt vl).map (·.lfos[j])

/-- Replaces an LFO instance; nothing where there is none. -/
def State.setLfo (s : State) (loc : LfoLoc) (l : Lfo) : State :=
  match loc with
  | .lone => { s with lfo := l }
  | .template p k j =>
    match s.sampleAt p k with
    | some smp => s.setSample p k { smp with lfos := smp.lfos.set j l }
    | none => s
  | .voice vl j =>
    match s.voiceAt vl with
    | some v => s.setVoice vl { v with lfos := v.lfos.set j l }
    | none => s

/-- A Filter instance, if it exists (R2). -/
def State.fltAt (s : State) : FltLoc → Option Flt
  | .lone => some s.flt
  | .template p k => (s.sampleAt p k).map (·.flt)
  | .voice vl => (s.voiceAt vl).map (·.flt)

/-- Replaces a Filter instance; nothing where there is none. -/
def State.setFlt (s : State) (loc : FltLoc) (f : Flt) : State :=
  match loc with
  | .lone => { s with flt := f }
  | .template p k =>
    match s.sampleAt p k with
    | some smp => s.setSample p k { smp with flt := f }
    | none => s
  | .voice vl =>
    match s.voiceAt vl with
    | some v => s.setVoice vl { v with flt := f }
    | none => s

/-- The scratch buffer a Filter runs on: its Voice's own, or the one of the command's context (R44, R117; log entry 24). -/
def FltLoc.buffer : FltLoc → BufLoc
  | .lone => .context
  | .template _ _ => .context
  | .voice vl => .voice vl

/-- A scratch buffer, if it exists. -/
def State.bufAt (s : State) : BufLoc → Option Scratch
  | .context => some s.scratch
  | .voice vl => (s.voiceAt vl).map (·.scratch)

/-- Replaces a scratch buffer; nothing where there is none. -/
def State.setBuf (s : State) (loc : BufLoc) (b : Scratch) : State :=
  match loc with
  | .context => { s with scratch := b }
  | .voice vl =>
    match s.voiceAt vl with
    | some v => s.setVoice vl { v with scratch := b }
    | none => s

/-- A ModMatrix instance, if it exists (R2). -/
def State.mtxAt (s : State) : MtxLoc → Option Mtx
  | .lone => some s.mtx
  | .sample p k => (s.sampleAt p k).map (·.mtx)

/-- Replaces a ModMatrix instance; nothing where there is none. -/
def State.setMtx (s : State) (loc : MtxLoc) (m : Mtx) : State :=
  match loc with
  | .lone => { s with mtx := m }
  | .sample p k =>
    match s.sampleAt p k with
    | some smp => s.setSample p k { smp with mtx := m }
    | none => s

/-! ### Commands to the selected instance -/

/-- Changes the selected ENV instance (R2). -/
def State.onEnv (s : State) (f : Env → Except Refusal Env) : Except Refusal State :=
  match s.envAt s.sel.env with
  | none => .error .noInstance
  | some e =>
    match f e with
    | .ok e' => .ok (s.setEnv s.sel.env e')
    | .error r => .error r

/-- Responds with what is read from the selected ENV instance (R134, R144). -/
def State.readEnv (s : State) (f : Env → Reading) : Except Refusal State :=
  match s.envAt s.sel.env with
  | none => .error .noInstance
  | some e => .ok (s.respond .env (f e))

/-- Changes the selected LFO instance, which may take free values (R57). -/
def State.onLfo (s : State) (f : Lfo → Nat → Except Refusal (Lfo × Nat)) : Except Refusal State :=
  match s.lfoAt s.sel.lfo with
  | none => .error .noInstance
  | some l =>
    match f l s.draws with
    | .ok (l', k) => .ok { s.setLfo s.sel.lfo l' with draws := k }
    | .error r => .error r

/-- Responds with what is read from the selected LFO instance (R191, R193). -/
def State.readLfo (s : State) (f : Lfo → Reading) : Except Refusal State :=
  match s.lfoAt s.sel.lfo with
  | none => .error .noInstance
  | some l => .ok (s.respond .lfo (f l))

/-- Changes the selected Filter instance (R211, R213). -/
def State.onFlt (s : State) (f : Flt → Except Refusal Flt) : Except Refusal State :=
  match s.fltAt s.sel.flt with
  | none => .error .noInstance
  | some x =>
    match f x with
    | .ok x' => .ok (s.setFlt s.sel.flt x')
    | .error r => .error r

/-- Runs the selected Filter instance on its scratch buffer (R218). -/
def State.onFltBuf (s : State) (f : Flt → Scratch → Except Refusal (Flt × Scratch)) : Except Refusal State :=
  match s.fltAt s.sel.flt, s.bufAt s.sel.flt.buffer with
  | some x, some b =>
    match f x b with
    | .ok y => .ok ((s.setFlt s.sel.flt y.1).setBuf s.sel.flt.buffer y.2)
    | .error r => .error r
  | none, _ => .error .noInstance
  | some _, none => .error .noInstance

/-- Changes the selected ModMatrix instance (R241, R243). -/
def State.onMtx (s : State) (f : Mtx → Mtx) : Except Refusal State :=
  match s.mtxAt s.sel.mtx with
  | none => .error .noInstance
  | some m => .ok (s.setMtx s.sel.mtx (f m))

end Sys2Proof.Machine
end

