-- ==== Sys2Proof/Machine/Env.lean ====
section
/-! DEFINITION. The ENV command family (40_env.md): NOTE_ON, NOTE_OFF, STEP, HAS_ENDED, WR, RD. -/

namespace Sys2Proof.Machine

/-- `duration(p) = 10 · sq(clamp(p, 0, 1))`, in seconds (R131). -/
def duration (p : Number) : Number := Config.envDurScale * sq (clamp p 0 1)

/-- `NOTE_ON` on one ENV, from every state (R135). -/
def Env.noteOn (e : Env) : Env := { e with value := 0, state := .attack }

/-- `NOTE_OFF` on one ENV: Attack, Decay and Sustain go to Release; None, Release and End stay (R136). -/
def Env.noteOff (e : Env) : Env :=
  match e.state with
  | .none => e
  | .attack => { e with state := .release }
  | .decay => { e with state := .release }
  | .sustain => { e with state := .release }
  | .release => e
  | .ended => e

/-- The value a rising or falling stage computes before its threshold test: the jump value for a zero duration, so that no
division by zero occurs (R139, R140, R142, R149). -/
def stageValue (d jump moved : Number) : Number := if d = 0 then jump else moved

/-- `STEP` in Attack (R139). -/
def Env.stepAttack (e : Env) (el : Number) : Env :=
  let v := stageValue (duration e.a) 1 (e.value + el / duration e.a)
  if 1 ≤ v then { e with value := 1, state := .decay } else { e with value := v }

/-- `STEP` in Decay (R140). -/
def Env.stepDecay (e : Env) (el : Number) : Env :=
  let v := stageValue (duration e.d) e.s (e.value - el / duration e.d)
  if v ≤ e.s then { e with value := e.s, state := .sustain } else { e with value := v }

/-- `STEP` in Sustain (R141). -/
def Env.stepSustain (e : Env) : Env := { e with value := e.s }

/-- `STEP` in Release (R142). -/
def Env.stepRelease (e : Env) (el : Number) : Env :=
  let v := stageValue (duration e.r) 0 (e.value - el / duration e.r)
  if v ≤ 0 then { e with value := 0, state := .ended } else { e with value := v }

/-- `0 ≤ S ≤ 1`, the premise of a `STEP` that reads `S` (R130, R150). -/
def Env.sustainInDomain (e : Env) : Bool := 0 ≤ e.s && e.s ≤ 1

/-- `STEP e, bpm` on one ENV (R137): exactly one of R138 to R143, by the state when the command starts; `bpm` is not read
(R145); refused for `e < 0`, and in Decay and Sustain for `S` outside [0, 1] (R150). -/
def Env.step (e : Env) (el _bpm : Number) : Except Refusal Env :=
  if el < 0 then .error .negativeElapsed
  else
    match e.state with
    | .none => .ok e
    | .attack => .ok (e.stepAttack el)
    | .decay => if e.sustainInDomain then .ok (e.stepDecay el) else .error .sustainOutOfRange
    | .sustain => if e.sustainInDomain then .ok e.stepSustain else .error .sustainOutOfRange
    | .release => .ok (e.stepRelease el)
    | .ended => .ok e

/-! ### The commands -/

/-- `NOTE_ON` (R110, R135). -/
def execNoteOn (s : State) : Host.Outcome State Fault Refusal := outcome (s.onEnv fun e => .ok e.noteOn)

/-- `NOTE_OFF` (R111, R136). -/
def execNoteOff (s : State) : Host.Outcome State Fault Refusal := outcome (s.onEnv fun e => .ok e.noteOff)

/-- `STEP e, bpm` (R112, R137). -/
def execStep (el bpm : Number) (s : State) : Host.Outcome State Fault Refusal := outcome (s.onEnv fun e => e.step el bpm)

/-- `HAS_ENDED`: responds 1 if `STATE = End`, else 0 (R113, R144). -/
def execHasEnded (s : State) : Host.Outcome State Fault Refusal := outcome (s.readEnv fun e => boolReading e.ended)

/-- `WR reg, v` (R114, R133). -/
def execWr (reg : EnvParam) (v : Number) (s : State) : Host.Outcome State Fault Refusal :=
  outcome (s.onEnv fun e => .ok (e.write reg v))

/-- `RD reg` (R115, R134). -/
def execRd (reg : EnvReg) (s : State) : Host.Outcome State Fault Refusal := outcome (s.readEnv fun e => e.read reg)

end Sys2Proof.Machine
end

