-- ==== Sys2Proof/Machine/Flt.lean ====
section
/-! DEFINITION. The Resonant Filter (42_filter.md): FLT.WR, FLT.RD, FLT.UPDATE, FLT.RUN. -/

namespace Sys2Proof.Machine

/-! ### Effective values (R213, R214) -/

/-- The effective cutoff: octave modulation, clamped (R213, R214). -/
def Flt.cutEff (f : Flt) : Number := clamp (f.cutoff * Config.fn.exp2 f.cutoffMod) 0 1

/-- The effective resonance: percent modulation, clamped (R213, R214). -/
def Flt.resEff (f : Flt) : Number := clamp (f.resonance + f.resMod / 100) 0 1

/-- The cutoff frequency in Hz, 1 to 16000 (R213). -/
def Flt.hz (f : Flt) : Number := 1 + f.cutEff * (Config.fltFMax - 1)

/-- The damping `r`, from `√2` down to 0.1 (R213). -/
def Flt.damping (f : Flt) : Number := (Config.fn.sqrt2 - Config.fltRMin) * (1 - f.resEff) + Config.fltRMin

/-- `FN.tan(FN.pi · f / sampleRate)` (R213). -/
def Flt.warp (f : Flt) (sampleRate : Number) : Number := Config.fn.tan (Config.fn.pi * f.hz / sampleRate)

/-- The lowpass coefficients of `c` and `r` (R215, from general knowledge G3; log entry 27). -/
def lowpassCoeffs (c r : Number) : Coeffs :=
  let a1 := 1 / (1 + r * c + c * c)
  { a1 := a1, a2 := 2 * a1, a3 := a1, b1 := 2 * (1 - c * c) * a1, b2 := (1 - r * c + c * c) * a1 }

/-- The highpass coefficients of `c` and `r` (R215, from general knowledge G3; log entry 27). -/
def highpassCoeffs (c r : Number) : Coeffs :=
  let a1 := 1 / (1 + r * c + c * c)
  { a1 := a1, a2 := -2 * a1, a3 := a1, b1 := 2 * (c * c - 1) * a1, b2 := (1 - r * c + c * c) * a1 }

/-- The premise `0 < f < sampleRate/2` (R210). -/
def Flt.rateOk (f : Flt) (sampleRate : Number) : Bool := 0 < sampleRate && 0 < f.hz && f.hz < sampleRate / 2

/-- `FLT.UPDATE sampleRate` on one Filter (R213, R216): the taps are not touched. Type none does nothing and is refused at no
rate (V-FLT-6; log entry 23); the other types are refused outside R210's premises (U11). -/
def Flt.update (f : Flt) (sampleRate : Number) : Except Refusal Flt :=
  match f.type with
  | .none => .ok f
  | .lowpass =>
    if f.rateOk sampleRate then .ok { f with coeffs := lowpassCoeffs (1 / f.warp sampleRate) f.damping }
    else .error .filterRate
  | .highpass =>
    if f.rateOk sampleRate then .ok { f with coeffs := highpassCoeffs (f.warp sampleRate) f.damping }
    else .error .filterRate

/-! ### The difference equation (R218, from general knowledge G4; log entry 27) -/

/-- The output of one sample (R218). -/
def Coeffs.output (c : Coeffs) (t : Taps) (x : Number) : Number :=
  c.a1 * x + c.a2 * t.x1 + c.a3 * t.x2 - c.b1 * t.y1 - c.b2 * t.y2

/-- The taps after one sample (R218). -/
def Taps.shift (t : Taps) (x y : Number) : Taps := { x1 := x, x2 := t.x1, y1 := y, y2 := t.y1 }

/-- One channel, in place, sample after sample (R218). -/
def runChannel (c : Coeffs) : Taps → List Number → Taps × List Number
  | t, [] => (t, [])
  | t, x :: xs =>
    let y := c.output t x
    let r := runChannel c (t.shift x y) xs
    (r.1, y :: r.2)

/-- `FLT.RUN n` on one Filter and the scratch buffer (R216, R218); refused for `n` above the buffer's length (R210). -/
def Flt.run (f : Flt) (b : Scratch) (n : Nat) : Except Refusal (Flt × Scratch) :=
  if n ≤ b.left.length && n ≤ b.right.length then
    match f.type with
    | .none => .ok (f, b)
    | .lowpass | .highpass =>
      let l := runChannel f.coeffs f.left (b.left.take n)
      let r := runChannel f.coeffs f.right (b.right.take n)
      .ok ({ f with left := l.1, right := r.1 }, { left := l.2 ++ b.left.drop n, right := r.2 ++ b.right.drop n })
  else .error .filterLength

/-! ### The commands -/

/-- `FLT.WR reg, v` (R211). -/
def execFltWr (w : FltWrite) (s : State) : Host.Outcome State Fault Refusal :=
  outcome (s.onFlt fun f => .ok (f.write w))

/-- `FLT.RD reg` (R212). -/
def execFltRd (reg : FltReg) (s : State) : Host.Outcome State Fault Refusal :=
  match s.fltAt s.sel.flt with
  | none => .refused .noInstance
  | some f => .next (s.respond .flt (f.read reg))

/-- `FLT.UPDATE sampleRate` (R213). -/
def execFltUpdate (sampleRate : Number) (s : State) : Host.Outcome State Fault Refusal :=
  outcome (s.onFlt fun f => f.update sampleRate)

/-- `FLT.RUN n` (R218). -/
def execFltRun (n : Nat) (s : State) : Host.Outcome State Fault Refusal := outcome (s.onFltBuf fun f b => f.run b n)

end Sys2Proof.Machine
end

