-- ==== Sys2Proof/Machine/Lfo.lean ====
section
/-! DEFINITION. The LFO (41_lfo.md): LFO.NOTE_ON, LFO.STEP, LFO.WR, LFO.RD, LFO.WRSTEP, LFO.RDSTEP. A function that may take
free values has the number of those taken so far as an argument and answers the new number (R57). -/

namespace Sys2Proof.Machine

/-! ### Derived quantities (R171) -/

/-- Effective frequency in Hz (R171, R175). -/
def Lfo.freq (l : Lfo) (bpm : Number) : Number := if l.syncEn then bpm / (60 * l.syncBeats) else l.freqHz

/-- Effective start delay in seconds (R171, R176). -/
def Lfo.delay (l : Lfo) (bpm : Number) : Number := if l.delaySyncEn then l.delayBeats * 60 / bpm else l.delaySec

/-- Effective fade-in length in seconds (R171, R177). -/
def Lfo.fadeLength (l : Lfo) (bpm : Number) : Number := if l.fadeSyncEn then l.fadeBeats * 60 / bpm else l.fadeSec

/-- The fade-in factor (R177). -/
def fade (t fadeSec : Number) : Number := if fadeSec ≤ 0 then 1 else clamp (t / fadeSec) 0 1

/-! ### Waveforms (R178 to R184) -/

/-- Triangle (R179). -/
def triangle (ph : Number) : Number := if ph < 1 / 4 then 4 * ph else if ph < 3 / 4 then 2 - 4 * ph else 4 * ph - 4

/-- Pulse, 1 at phase 0.5 (R180). -/
def pulse (ph : Number) : Number := if ph < 1 / 2 then 0 else 1

/-- Quantization to `n` evenly spaced levels on [-1, 1], half up (R183). -/
def quantize (n : Nat) (v : Number) : Number := 2 * ((v + 1) / 2 * (n - 1) + 1 / 2).floor / (n - 1) - 1

/-- The index of the custom step array at a phase (R183). -/
def Lfo.stepIndex (l : Lfo) (ph : Number) : Nat := min (ph * l.numSteps).floor.toNat (l.numSteps - 1)

/-- Custom (R183). -/
def Lfo.custom (l : Lfo) (ph : Number) : Number :=
  let v := l.readStep (l.stepIndex ph)
  if l.quantEn then quantize l.quantLevels v else v

/-- `shape(WAVEFORM, ph)` with the held random value (R178 to R184). -/
def Lfo.shape (l : Lfo) (hold ph : Number) : Number :=
  match l.waveform with
  | .sine => Config.fn.sin (2 * Config.fn.pi * ph)
  | .triangle => triangle ph
  | .pulse => pulse ph
  | .rectangle => 2 * pulse ph - 1
  | .sawtooth => 1 - 2 * ph
  | .random => hold
  | .custom => l.custom ph

/-! ### Commands on one LFO -/

/-- `LFO.NOTE_ON` on one LFO (R172, R186). -/
def Lfo.noteOn (l : Lfo) (k : Nat) : Lfo × Nat :=
  if l.randphaseEn then
    ({ l with startPhase := drawUniform 0 1 k, period := 0, t := 0, randHold := drawUniform (-1) 1 (k + 1), value := 0 },
      k + 2)
  else ({ l with startPhase := 0, period := 0, t := 0, randHold := drawUniform (-1) 1 k, value := 0 }, k + 1)

/-- Why a `LFO.STEP` is refused, if it is (R170, R189). -/
def Lfo.refusal (l : Lfo) (e bpm : Number) : Option Refusal :=
  if e < 0 then some .negativeElapsed
  else if (l.syncEn || l.delaySyncEn || l.fadeSyncEn) && bpm ≤ 0 then some .lfoTempo
  else if l.syncEn && l.syncBeats ≤ 0 then some .lfoSyncBeats
  else if l.waveform == .custom && (l.numSteps == 0 || Config.lfoNStepsMax < l.numSteps) then some .lfoNumSteps
  else if l.quantEn && l.quantLevels < 2 then some .lfoQuantLevels
  else none

/-- The output of a step, from the accumulated time and phase and the held random value (R173, R176, R177, R185). -/
def Lfo.output (l : Lfo) (t period hold bpm : Number) : Number :=
  let raw := if l.onceFrozen period then 0 else l.shape hold (frac (period + l.startPhase))
  if t < l.delay bpm then 0 else raw * fade (t - l.delay bpm) (l.fadeLength bpm)

/-- A step carries the phase to another cycle, so the random value is redrawn (R184). -/
def Lfo.crosses (l : Lfo) (period : Number) : Bool := (period + l.startPhase).floor != (l.period + l.startPhase).floor

/-- The body of `LFO.STEP` once its premises hold (R173, R174). -/
def Lfo.advance (l : Lfo) (e bpm : Number) (k : Nat) : Lfo × Nat :=
  let t := l.t + e
  let period := l.period + e * l.freq bpm
  let hold := if l.crosses period then drawUniform (-1) 1 k else l.randHold
  ({ l with t := t, period := period, randHold := hold, value := l.output t period hold bpm },
    if l.crosses period then k + 1 else k)

/-- `LFO.STEP e, bpm` on one LFO (R173, R189). -/
def Lfo.step (l : Lfo) (e bpm : Number) (k : Nat) : Except Refusal (Lfo × Nat) :=
  match l.refusal e bpm with
  | some r => .error r
  | none => .ok (l.advance e bpm k)

/-! ### The commands -/

/-- `LFO.NOTE_ON` (R172). -/
def execLfoNoteOn (s : State) : Host.Outcome State Fault Refusal := outcome (s.onLfo fun l k => .ok (l.noteOn k))

/-- `LFO.STEP e, bpm` (R173). -/
def execLfoStep (e bpm : Number) (s : State) : Host.Outcome State Fault Refusal := outcome (s.onLfo fun l k => l.step e bpm k)

/-- `LFO.WR reg, v` (R190). -/
def execLfoWr (w : LfoWrite) (s : State) : Host.Outcome State Fault Refusal :=
  outcome (s.onLfo fun l k => .ok (l.write w, k))

/-- `LFO.RD reg` (R191). -/
def execLfoRd (reg : LfoReg) (s : State) : Host.Outcome State Fault Refusal := outcome (s.readLfo fun l => l.read reg)

/-- `LFO.WRSTEP k, v`: an index at or above the capacity is reserved (R192). The capacity is OPEN, so the decoder does not judge the
index: the command is refused when it executes, with its operand word there. DESIGN CHOICE, log entry 33. -/
def execLfoWrStep (i : Fin 256) (v : Number) (s : State) : Host.Outcome State Fault Refusal :=
  if i.val < Config.lfoNStepsMax then outcome (s.onLfo fun l k => .ok (l.writeStep i.val v, k))
  else .refused .stepIndex

/-- `LFO.RDSTEP k` (R193): an index at or above the capacity is reserved (R192), refused as that of `LFO.WRSTEP` is. -/
def execLfoRdStep (i : Fin 256) (s : State) : Host.Outcome State Fault Refusal :=
  if i.val < Config.lfoNStepsMax then outcome (s.readLfo fun l => .num (l.readStep i.val)) else .refused .stepIndex

end Sys2Proof.Machine
end

