-- ==== Sys2Proof/Machine/Mtx.lean ====
section
/-! DEFINITION. The Modulation Matrix (43_modmatrix.md): MTX.WR, MTX.RD, MTX.EVAL. -/

namespace Sys2Proof.Machine

/-- `srcValue(code, default)` (R244). -/
def srcValue (srcs : Sources) (dflt : Number) : ModSrc → Number
  | .none => dflt
  | .aeg => srcs.aeg
  | .eg2 => srcs.eg2
  | .lfo1 => srcs.lfo1
  | .lfo2 => srcs.lfo2
  | .lfo3 => srcs.lfo3
  | .modWheel => srcs.modWheel
  | .velocity => srcs.velocity
  | .absNote => srcs.absNote
  | .relNote => srcs.relNote
  | .randomUnipolar => srcs.randomUnipolar
  | .randomBipolar => srcs.randomBipolar
  | .gate => srcs.gate
  | .inLoop => srcs.inLoop

/-- `func(code, x)` (R245). -/
def mathFunc : MathFunc → Number → Number
  | .identity, x => x
  | .oneMinus, x => 1 - x
  | .biToUni, x => (x + 1) / 2
  | .uniToBi, x => 2 * x - 1
  | .square, x => x * x
  | .cube, x => x * x * x
  | .abs, x => if 0 ≤ x then x else -x
  | .neg, x => -x

/-- What an enabled slot contributes: the combining function of source, secondary source and amount (R243). -/
def MtxSlot.term (sl : MtxSlot) (srcs : Sources) : Number :=
  mathFunc sl.func (srcValue srcs 0 sl.source * srcValue srcs 1 sl.secondary * sl.amount)

/-- The sum of a destination over enabled slots, in slot order (R243, R246). -/
def slotSum (srcs : Sources) (d : ModDest) : List MtxSlot → Number → Number
  | [], acc => acc
  | sl :: sls, acc => slotSum srcs d sls (if sl.enabled && sl.dest == d then acc + sl.term srcs else acc)

/-- The combined value of a destination (R243). -/
def Mtx.combined (m : Mtx) (srcs : Sources) (d : ModDest) : Number := slotSum srcs d m.slots.toList 0

/-- `MTX.EVAL` on one ModMatrix: the outputs are overwritten, nothing else (R240, R243). -/
def Mtx.eval (m : Mtx) (srcs : Sources) : Mtx :=
  { m with
    mod :=
      { filterCutoff := m.combined srcs .filterCutoff, filterResonance := m.combined srcs .filterResonance,
        pitch := m.combined srcs .pitch, pan := m.combined srcs .pan, amplitude := m.combined srcs .amplitude } }

/-! ### The commands -/

/-- `MTX.WR reg, v` (R241): for slot 5 or above the access is denied and nothing is written (log entry 12). -/
def execMtxWr (slot : Fin 32) (w : SlotWrite) (s : State) : Host.Outcome State Fault Refusal :=
  outcome (s.onMtx fun m => m.write slot w)

/-- `MTX.RD reg` (R242): for slot 5 or above the access is denied and the response is any value (U6, log entry 11). -/
def execMtxRd (reg : MtxReg) (s : State) : Host.Outcome State Fault Refusal :=
  match s.mtxAt s.sel.mtx with
  | none => .refused .noInstance
  | some m =>
    match m.read reg with
    | some rd => .next (s.respond .mtx rd)
    | none => .next { s.emit .mtx (Config.deniedRead s.draws) with draws := s.draws + 1 }

/-- `MTX.EVAL s1, ..., s13` (R243). -/
def execMtxEval (srcs : Sources) (s : State) : Host.Outcome State Fault Refusal := outcome (s.onMtx fun m => m.eval srcs)

end Sys2Proof.Machine
end

