-- ==== Sys2Proof/Machine/Voice.lean ====
section
/-! DEFINITION. The Voice renderer (44_voice.md): VOICE.NOTE_ON, VOICE.NOTE_OFF, VOICE.RD, VOICE.RENDER, and the Decoded Sample
Source and bus accesses it makes (20_memory.md). -/

namespace Sys2Proof.Machine

/-! ### The Decoded Sample Source (R72 to R74) -/

/-- `numChannels()` (R72). -/
def Source.numChannels (src : Source) : Nat :=
  match src.data with
  | .bits8 cs => cs.length
  | .bits16 cs => cs.length
  | .other _ cs => cs.length

/-- `numBits()` (R72). -/
def Source.numBits (src : Source) : Nat :=
  match src.data with
  | .bits8 _ => 8
  | .bits16 _ => 16
  | .other n _ => n.val

/-- The stored element of a list of lists. -/
def element {α : Type} (cs : List (List α)) (ch i : Nat) : Option α := cs[ch]?.bind fun row => row[i]?

/-- The stored value of a channel at an index: an 8-bit code over 128, a 16-bit code over 32768 (R74). -/
def Source.stored (src : Source) (ch i : Nat) : Option Number :=
  match src.data with
  | .bits8 cs => (element cs ch i).map fun c => (c.toInt : Number) / 128
  | .bits16 cs => (element cs ch i).map fun c => (c.toInt : Number) / 32768
  | .other _ cs => element cs ch i

/-- `SampleRead(src, ch, idx)`: refused out of range, never a number (R73, D47, D48). An index in range for which the source
stores no value is refused too: DESIGN CHOICE, log entry 41; safe. -/
def sampleRead (src : Source) (ch idx : Int) : Except Refusal Number :=
  if 0 ≤ ch ∧ ch < src.numChannels ∧ 0 ≤ idx ∧ idx < src.numSamples then
    match src.stored ch.toNat idx.toNat with
    | some v => .ok v
    | none => .error .sampleReadOutOfRange
  else .error .sampleReadOutOfRange

/-! ### Construction and note-off -/

/-- The playback offset a Voice starts at: the last sample index if the Sample plays in reverse, else 0 (R271). -/
def Sample.startOffset (smp : Sample) : Number := if smp.reverse then (smp.src.numSamples : Number) - 1 else 0

/-- Construction of a Voice on a Sample (R271): clones of the templates (R29), triggered; one bipolar draw; gate 1; zero
accumulators and counter. No rule states `AMP_L` and `AMP_R` here: free values (log entry 10). The scratch buffer starts empty (log
entry 24). -/
def Voice.construct (p : Fin 16) (k : Nat) (smp : Sample) (note vel : Fin 128) (draws : Nat) : Voice × Nat :=
  let l0 := smp.lfos[0].noteOn draws
  let l1 := smp.lfos[1].noteOn l0.2
  let l2 := smp.lfos[2].noteOn l1.2
  ({ part := p, sample := k, aeg := smp.aeg.noteOn, eg2 := smp.eg2.noteOn, lfos := #v[l0.1, l1.1, l2.1], flt := smp.flt,
     offset := smp.startOffset, gate := true, rnd := drawUniform (-1) 1 l2.2, pitchMod := 0, panMod := 0, ampMod := 0,
     modCount := 0, ampL := Config.ampAtConstruction (l2.2 + 1), ampR := Config.ampAtConstruction (l2.2 + 2), note := note,
     velocity := vel, scratch := ⟨[], []⟩ },
   l2.2 + 3)

/-- Construction with its premise: the source has a sample (R270, log entry 21). -/
def newVoice (p : Fin 16) (k : Nat) (smp : Sample) (note vel : Fin 128) (draws : Nat) : Except Refusal (Voice × Nat) :=
  if smp.src.numSamples = 0 then .error .emptySample else .ok (Voice.construct p k smp note vel draws)

/-- `VOICE.NOTE_OFF` on one Voice: the gate and both ENVs, nothing to the LFOs (R275). -/
def Voice.noteOff (v : Voice) : Voice := { v with gate := false, aeg := v.aeg.noteOff, eg2 := v.eg2.noteOff }

/-! ### Loop handling (R280 to R284) -/

/-- The wrap of the loop modes: one subtraction or addition per evaluation (R282). -/
def loopWrap (smp : Sample) (offset : Number) : Number :=
  let len : Number := (smp.src.loopEnd : Number) - smp.src.loopStart
  if smp.reverse then if offset ≤ smp.src.loopStart then offset + len else offset
  else if (smp.src.loopEnd : Number) ≤ offset then offset - len else offset

/-- `handleLoop()` (R280): none is "stop"; else the offset, perhaps wrapped. -/
def handleLoop (smp : Sample) (v : Voice) : Option Number :=
  match smp.playMode with
  | .standard => if v.offset < 0 ∨ (smp.src.numSamples : Number) ≤ v.offset then none else some v.offset
  | .shot => if v.offset < 0 ∨ (smp.src.numSamples : Number) ≤ v.offset then none else some v.offset
  | .loop => some (loopWrap smp v.offset)
  | .loopUntilRelease => if v.gate then some (loopWrap smp v.offset) else none

/-! ### Modulation (R286 to R289) -/

/-- `0` or `1`. -/
def bit (b : Bool) : Number := if b then 1 else 0

/-- The relative note position (R289). -/
def relNote (smp : Sample) (note : Number) : Number :=
  if (smp.maxNote : Number) = smp.minNote then 0 else (note - smp.minNote) / ((smp.maxNote : Number) - smp.minNote)

/-- The floored offset lies in the loop region (R289). -/
def inLoop (smp : Sample) (offset : Number) : Bool := smp.src.loopStart ≤ offset.floor && offset.floor < smp.src.loopEnd

/-- The thirteen source values a Voice feeds (R289). -/
def Voice.sources (v : Voice) (part : Part) (smp : Sample) : Sources :=
  { aeg := v.aeg.value, eg2 := v.eg2.value, lfo1 := v.lfos[0].value, lfo2 := v.lfos[1].value, lfo3 := v.lfos[2].value,
    modWheel := Memory.read controllerDefault part.controllers Config.modwheelCc, velocity := (v.velocity.val : Number) / 127,
    absNote := (v.note.val : Number) / 127, relNote := relNote smp v.note.val, randomUnipolar := (v.rnd + 1) / 2,
    randomBipolar := v.rnd, gate := bit v.gate, inLoop := bit (inLoop smp v.offset) }

/-- The outputs of the matrix go to the Filter and the accumulators, overwriting them (R287). -/
def Voice.distribute (v : Voice) (o : ModOut) : Voice :=
  { v with
    flt := { v.flt with cutoffMod := o.filterCutoff, resMod := o.filterResonance }
    pitchMod := o.pitch
    panMod := o.pan
    ampMod := o.amplitude }

/-- Steps the three LFOs of a Voice (R288). -/
def stepLfos (ls : Vector Lfo 3) (el bpm : Number) (draws : Nat) : Except Refusal (Vector Lfo 3 × Nat) :=
  match ls[0].step el bpm draws with
  | .error r => .error r
  | .ok l0 =>
    match ls[1].step el bpm l0.2 with
    | .error r => .error r
    | .ok l1 =>
      match ls[2].step el bpm l1.2 with
      | .error r => .error r
      | .ok l2 => .ok (#v[l0.1, l1.1, l2.1], l2.2)

/-- The duration of one modulation period (R288). -/
def modPeriod (sampleRate : Number) : Number := (Config.modBlock : Number) / sampleRate

/-- Advances AEG, EG2 and the LFOs by one modulation period (R288). -/
def Voice.advance (v : Voice) (sampleRate bpm : Number) (draws : Nat) : Except Refusal (Voice × Nat) :=
  let el := modPeriod sampleRate
  match v.aeg.step el bpm with
  | .error r => .error r
  | .ok aeg =>
    match v.eg2.step el bpm with
    | .error r => .error r
    | .ok eg2 =>
      match stepLfos v.lfos el bpm draws with
      | .error r => .error r
      | .ok ls => .ok ({ v with aeg := aeg, eg2 := eg2, lfos := ls.1 }, ls.2)

/-- A Voice, its Sample (whose ModMatrix it evaluates) and the number of free values taken. -/
structure Playing where
  voice : Voice
  smp : Sample
  draws : Nat
deriving DecidableEq, Repr

/-- The body of a modulation update: matrix first, then the advance (R286 to R288). The matrix evaluated is the Sample's own,
and its outputs are written there (R271, R287; log entry 26). -/
def modUpdate (part : Part) (sampleRate bpm : Number) (x : Playing) : Except Refusal Playing :=
  let mtx := x.smp.mtx.eval (x.voice.sources part x.smp)
  match (x.voice.distribute mtx.mod).advance sampleRate bpm x.draws with
  | .error r => .error r
  | .ok y => .ok { voice := y.1, smp := { x.smp with mtx := mtx }, draws := y.2 }

/-- `MOD_COUNT <- (MOD_COUNT + 1) mod 128` (R286). -/
def Voice.tick (v : Voice) : Voice := { v with modCount := v.modCount + 1 }

/-- `handleModulations(sampleRate, bpm)`, with whether an update occurred (R286). -/
def handleModulations (part : Part) (sampleRate bpm : Number) (x : Playing) : Except Refusal (Playing × Bool) :=
  if x.voice.modCount = 0 then
    match modUpdate part sampleRate bpm x with
    | .error r => .error r
    | .ok y => .ok ({ y with voice := y.voice.tick }, true)
  else .ok ({ x with voice := x.voice.tick }, false)

/-! ### Amplitude and speed (R291, R292, R294) -/

/-- `getLeftAmp(pan)` (R291). -/
def getLeftAmp (pan : Number) : Number :=
  let p := clamp pan (-1) 1
  if p ≤ 0 then 1 else 1 - p

/-- `getRightAmp(pan)` (R291). -/
def getRightAmp (pan : Number) : Number :=
  let p := clamp pan (-1) 1
  if 0 ≤ p then 1 else 1 + p

/-- The amplitude modulation clamped to its domain in `MTX_DEST_INFO` (R292). -/
def clampedAmpMod (ampMod : Number) : Number :=
  clamp ampMod (Config.mtxDestInfo.info .amplitude).min (Config.mtxDestInfo.info .amplitude).max

/-- The envelope factor: 1 in Shot, else the AEG's `VALUE` (R292). -/
def envFactor (smp : Sample) (v : Voice) : Number :=
  match smp.playMode with
  | .shot => 1
  | .standard => v.aeg.value
  | .loop => v.aeg.value
  | .loopUntilRelease => v.aeg.value

/-- One channel of `ampOf()`: pan gain plus amplitude modulation, times gain, times envelope (R292). -/
def channelAmp (panGain ampMod gain env : Number) : Number := (panGain + ampMod / 100) * gain * env

/-- `(AMP_L, AMP_R) <- ampOf()` (R292). -/
def Voice.refreshAmp (v : Voice) (smp : Sample) : Voice :=
  { v with
    ampL := channelAmp (getLeftAmp (smp.pan + v.panMod)) (clampedAmpMod v.ampMod) smp.gain (envFactor smp v)
    ampR := channelAmp (getRightAmp (smp.pan + v.panMod)) (clampedAmpMod v.ampMod) smp.gain (envFactor smp v) }

/-- The exponent of the playback speed, in semitones (R294). -/
def semitones (part : Part) (smp : Sample) (v : Voice) : Number :=
  smp.keytrack / 100 * ((v.note.val : Number) - smp.baseNote) + v.pitchMod + part.pitchbend * smp.pitchbendRange
    + smp.detune / 100

/-- `speedOf()`: samples of the source per output sample (R294). -/
def speedOf (part : Part) (smp : Sample) (v : Voice) (sampleRate : Number) : Number :=
  let speed := smp.src.sampleRate / sampleRate * Config.fn.exp2 (semitones part smp v / 12)
  if smp.reverse then -speed else speed

/-! ### The sample loop (R290) -/

/-- What a Voice has rendered of a block: its state, the two channels, and whether it stopped. -/
structure Block where
  playing : Playing
  left : List Number
  right : List Number
  stop : Bool
deriving DecidableEq, Repr

/-- A block that ends here, stopped. -/
def Block.stopped (x : Playing) : Block := { playing := x, left := [], right := [], stop := true }

/-- Puts one rendered sample before a block. -/
def Block.cons (l r : Number) (b : Block) : Block := { b with left := l :: b.left, right := r :: b.right }

/-- The amplitude is recomputed after a modulation update (R290, R292). -/
def refreshIf (updated : Bool) (x : Playing) : Playing :=
  if updated then { x with voice := x.voice.refreshAmp x.smp } else x

/-- Envelope-driven termination: right after an update, in every mode but Shot (R296). -/
def endedByEnvelope (updated : Bool) (x : Playing) : Bool := updated && x.smp.playMode != .shot && x.voice.aeg.ended

/-- One channel value: the floored offset, no interpolation, scaled by velocity and amplitude (R293). -/
def fetchScaled (smp : Sample) (v : Voice) (ch : Int) (amp : Number) : Except Refusal Number :=
  match sampleRead smp.src ch v.offset.floor with
  | .error r => .error r
  | .ok x => .ok (x * ((v.velocity.val : Number) / 127) * amp)

/-- Both channels of one output sample (R290, R293). -/
def fetchBoth (x : Playing) : Except Refusal (Number × Number) :=
  match fetchScaled x.smp x.voice 0 x.voice.ampL, fetchScaled x.smp x.voice 1 x.voice.ampR with
  | .ok l, .ok r => .ok (l, r)
  | .error r, _ => .error r
  | _, .error r => .error r

/-- `OFFSET <- OFFSET + speed` (R295). -/
def Playing.move (x : Playing) (speed : Number) : Playing := { x with voice := { x.voice with offset := x.voice.offset + speed } }

/-- The loop of R290 over `n` output samples: loop handling, modulation, envelope test, fetch, advance. -/
def renderSamples (part : Part) (sampleRate bpm speed : Number) : Nat → Playing → Except Refusal Block
  | 0, x => .ok { playing := x, left := [], right := [], stop := false }
  | n + 1, x =>
    match handleLoop x.smp x.voice with
    | none => .ok (Block.stopped x)
    | some offset =>
      match handleModulations part sampleRate bpm { x with voice := { x.voice with offset := offset } } with
      | .error r => .error r
      | .ok y =>
        let z := refreshIf y.2 y.1
        if endedByEnvelope y.2 z then .ok (Block.stopped z)
        else
          match fetchBoth z with
          | .error r => .error r
          | .ok lr => (renderSamples part sampleRate bpm speed n (z.move speed)).map (Block.cons lr.1 lr.2)

/-! ### The end of the block (R297, R298) -/

/-- The scratch buffer with the rendered samples in front (R290). -/
def Scratch.overlay (b : Scratch) (left right : List Number) : Scratch :=
  { left := left ++ b.left.drop left.length, right := right ++ b.right.drop right.length }

/-- `BusAcc` of one channel at `0 .. xs.length - 1` (R75). -/
def accumulate : List Number → List Number → List Number
  | c :: cs, x :: xs => (c + x) :: accumulate cs xs
  | cs, [] => cs
  | [], _ :: _ => []

/-- `BusAcc` of both channels; refused at an index not below `sampleCount`, or where a channel holds no element: DESIGN CHOICE, log
entry 22; safe (R71, R75). -/
def Bus.add (b : Bus) (left right : List Number) : Except Refusal Bus :=
  match b.channels with
  | [l, r] =>
    if left.length ≤ b.sampleCount ∧ left.length ≤ l.length ∧ right.length ≤ b.sampleCount ∧ right.length ≤ r.length then
      .ok { b with channels := [accumulate l left, accumulate r right] }
    else .error .busIndex
  | _ => .error .busUnusable

/-- What a finished block leaves: the Voice, with its scratch buffer, and the bus. -/
structure Finished where
  voice : Voice
  bus : Bus
deriving DecidableEq, Repr

/-- "finish the block" for a given `VOICE_PARTIAL_BLOCK_ON_STOP` (R297, R298): update and run the Filter over the `m` rendered
samples, then accumulate; for a stopped block under `discard`, nothing of it reaches the bus (log entry 13). -/
def finishBlock (keep : Bool) (sampleRate : Number) (b : Block) (bus : Bus) : Except Refusal Finished :=
  let raw := b.playing.voice.scratch.overlay b.left b.right
  if b.stop && !keep then .ok { voice := { b.playing.voice with scratch := raw }, bus := bus }
  else
    match b.playing.voice.flt.update sampleRate with
    | .error r => .error r
    | .ok f =>
      match f.run raw b.left.length with
      | .error r => .error r
      | .ok fr =>
        match bus.add (fr.2.left.take b.left.length) (fr.2.right.take b.right.length) with
        | .error r => .error r
        | .ok bus' => .ok { voice := { b.playing.voice with flt := fr.1, scratch := fr.2 }, bus := bus' }

/-! ### Rendering in the machine -/

/-- The result of a render: the machine without the Voice's own change, the Voice, and `stop`. -/
structure Rendered where
  state : State
  voice : Voice
  stop : Bool
deriving DecidableEq, Repr

/-- The block of a Voice on its Sample and Part (R290): speed and amplitude once, then the sample loop. -/
def renderBlock (part : Part) (smp : Sample) (v : Voice) (draws n : Nat) (sampleRate bpm : Number) : Except Refusal Block :=
  if sampleRate ≤ 0 then .error .sampleRateNotPositive
  else if smp.src.numSamples = 0 then .error .emptySample
  else
    renderSamples part sampleRate bpm (speedOf part smp v sampleRate) n
      { voice := v.refreshAmp smp, smp := smp, draws := draws }

/-- `VOICE.RENDER` of a Voice into a bus of the context (R290, R297), under its premises (R270). -/
def renderVoice (s : State) (v : Voice) (busIdx n : Nat) (sampleRate bpm : Number) : Except Refusal Rendered :=
  match s.sampleAt v.part v.sample with
  | none => .error .noSample
  | some smp =>
    match s.buses[busIdx]? with
    | none => .error .busUnusable
    | some bus =>
      if bus.usable then
        match renderBlock s.parts[v.part] smp v s.draws n sampleRate bpm with
        | .error r => .error r
        | .ok b =>
          match finishBlock Config.keepPartialBlock sampleRate b bus with
          | .error r => .error r
          | .ok fin =>
            .ok
              { state :=
                  { s.setSample v.part v.sample b.playing.smp with
                    buses := s.buses.set busIdx fin.bus
                    draws := b.playing.draws }
                voice := fin.voice
                stop := b.stop }
      else .error .busUnusable

/-! ### The commands -/

/-- `VOICE.NOTE_ON note, vel`: constructs the lone Voice on the context's Part and Sample (R271); a Voice of a note map is
created only by its Part (R45; log entry 28). -/
def execVoiceNoteOn (note vel : Fin 128) (s : State) : Host.Outcome State Fault Refusal :=
  match s.sel.voice with
  | .mapped _ _ => .refused .voiceOfPart
  | .lone =>
    match s.sampleAt s.sel.newPart s.sel.newSample with
    | none => .refused .noSample
    | some smp =>
      match newVoice s.sel.newPart s.sel.newSample smp note vel s.draws with
      | .error r => .refused r
      | .ok v => .next { s with voice := some v.1, draws := v.2 }

/-- `VOICE.NOTE_OFF` (R275). -/
def execVoiceNoteOff (s : State) : Host.Outcome State Fault Refusal :=
  match s.voiceAt s.sel.voice with
  | none => .refused .noVoice
  | some v => .next (s.setVoice s.sel.voice v.noteOff)

/-- `VOICE.RD reg` (R276). -/
def execVoiceRd (reg : VoiceReg) (s : State) : Host.Outcome State Fault Refusal :=
  match s.voiceAt s.sel.voice with
  | none => .refused .noVoice
  | some v => .next (s.respond .voice (v.read reg))

/-- `VOICE.RENDER n, sampleRate, bpm`: responds `stop` (R290). -/
def execVoiceRender (n : Nat) (sampleRate bpm : Number) (s : State) : Host.Outcome State Fault Refusal :=
  match s.voiceAt s.sel.voice with
  | none => .refused .noVoice
  | some v =>
    match renderVoice s v s.sel.bus n sampleRate bpm with
    | .error r => .refused r
    | .ok x => .next ((x.state.setVoice s.sel.voice x.voice).respond .voice (boolReading x.stop))

end Sys2Proof.Machine
end

