-- ==== Sys2Proof/Machine/Engine.lean ====
section
/-! DEFINITION. Part and Engine (45_part_engine.md): ENG.NOTE_ON, ENG.NOTE_OFF, ENG.PITCHBEND, ENG.CC, ENG.PROCESS. -/

namespace Sys2Proof.Machine

/-! ### Events (R320 to R327) -/

/-- A part index in range; none is the no-op of R320. -/
def partIndex (part : Nat) : Option (Fin 16) := if h : part < 16 then some ⟨part, h⟩ else none

/-- The Samples of a Part that a note-on starts, in list order, each with its index (R321 to R323). -/
def startingSamples (part : Part) (pol : Policy) (p : Fin 16) (note vel : Nat) : List (Sample × Nat) :=
  part.samples.zipIdx.filter fun x => x.1.covers note vel && pol.allows p x.2

/-- One new Voice for each Sample, in order (R321, R271). -/
def newVoices (p : Fin 16) (note vel : Fin 128) : List (Sample × Nat) → Nat → Except Refusal (List Voice × Nat)
  | [], draws => .ok ([], draws)
  | x :: xs, draws =>
    match newVoice p x.2 x.1 note vel draws with
    | .error r => .error r
    | .ok v =>
      match newVoices p note vel xs v.2 with
      | .error r => .error r
      | .ok vs => .ok (v.1 :: vs.1, vs.2)

/-- Registers a Voice under its note, after those already there (R46, R321, R331). The Voices of higher notes move up one position,
under a chip select that keeps its numbers (log entry 47). -/
def register : List Voice → Voice → List Voice
  | [], v => [v]
  | u :: us, v => if u.note ≤ v.note then u :: register us v else v :: u :: us

/-- The Voices under a note, in registration order (R46, R325). -/
def voicesUnder (part : Part) (note : Fin 128) : List Voice := part.voices.filter fun v => v.note == note

/-- `ENG.NOTE_ON part, note, vel` (R321): one Voice for each matching Sample; a part above 15 is a no-op (R320). -/
def execEngNoteOn (part : Nat) (note vel : Fin 128) (s : State) : Host.Outcome State Fault Refusal :=
  match partIndex part with
  | none => .next s
  | some p =>
    match newVoices p note vel (startingSamples s.parts[p] s.policy p note vel) s.draws with
    | .error r => .refused r
    | .ok vs =>
      .next { s.setVoices p (vs.1.foldl register s.parts[p].voices) with draws := vs.2 }

/-- `noteOff` to every Voice under a note, which stays registered (R324). -/
def releaseNote (note : Fin 128) (vs : List Voice) : List Voice := vs.map fun v => if v.note = note then v.noteOff else v

/-- `ENG.NOTE_OFF part, note, vel` (R324): the velocity is ignored; a part above 15 is a no-op (R320). -/
def execEngNoteOff (part : Nat) (note _vel : Fin 128) (s : State) : Host.Outcome State Fault Refusal :=
  match partIndex part with
  | none => .next s
  | some p => .next (s.setVoices p (releaseNote note s.parts[p].voices))

/-- `ENG.PITCHBEND part, value` (R326): a value outside -1..1 is reserved; a part above 15 is a no-op (R320). -/
def execEngPitchbend (part : Nat) (value : Number) (s : State) : Host.Outcome State Fault Refusal :=
  if value < -1 ∨ 1 < value then .refused .reservedOperand
  else
    match partIndex part with
    | none => .next s
    | some p => .next (s.setPart p { s.parts[p] with pitchbend := value })

/-- `ENG.CC part, cc, value` (R327): a value outside 0..1 is reserved; a part above 15 is a no-op (R320). -/
def execEngCc (part : Nat) (cc : Fin 256) (value : Number) (s : State) : Host.Outcome State Fault Refusal :=
  if value < 0 ∨ 1 < value then .refused .reservedOperand
  else
    match partIndex part with
    | none => .next s
    | some p =>
      .next (s.setPart p
        { s.parts[p] with controllers := Memory.write controllerDefault s.parts[p].controllers cc.val value })

/-! ### Rendering (R330 to R333) -/

/-- The machine and what is left of a Voice after its turn in the pass: none when it is marked (R330). -/
structure Turn where
  state : State
  left : Option Voice
deriving DecidableEq, Repr

/-- The bus a Sample plays on: its own, or bus 0 if unset (R332). -/
def Sample.bus (smp : Sample) : Nat := smp.outputBus.getD 0

/-- One Voice of the pass: marked without rendering if its bus is out of range or not usable, else rendered into it (R330,
R332). -/
def processVoice (s : State) (v : Voice) (sampleRate bpm : Number) : Except Refusal Turn :=
  match s.sampleAt v.part v.sample with
  | none => .error .noSample
  | some smp =>
    match s.buses[smp.bus]? with
    | none => .ok { state := s, left := none }
    | some bus =>
      if bus.usable then
        match renderVoice s v smp.bus bus.sampleCount sampleRate bpm with
        | .error r => .error r
        | .ok x => .ok { state := x.state, left := if x.stop then none else some x.voice }
      else .ok { state := s, left := none }

/-- The machine after a pass over Voices, those that stay, and whether any was marked. -/
structure Pass where
  state : State
  voices : List Voice
  dirty : Bool
deriving DecidableEq, Repr

/-- Puts the outcome of a Voice's turn before the rest of a pass. -/
def Pass.cons (left : Option Voice) (x : Pass) : Pass :=
  match left with
  | some v => { x with voices := v :: x.voices }
  | none => { x with dirty := true }

/-- The Voices of one Part, in note-map order (R330, R331). -/
def processVoices (sampleRate bpm : Number) : State → List Voice → Except Refusal Pass
  | s, [] => .ok { state := s, voices := [], dirty := false }
  | s, v :: vs =>
    match processVoice s v sampleRate bpm with
    | .error r => .error r
    | .ok t => (processVoices sampleRate bpm t.state vs).map (Pass.cons t.left)

/-- One Part's pass: the marked Voices are removed after it (R330, R333). The later Voices move down, under a chip select that keeps
its numbers (log entry 47). -/
def processPart (sampleRate bpm : Number) (s : State) (p : Fin 16) : Except Refusal (State × Bool) :=
  match processVoices sampleRate bpm s s.parts[p].voices with
  | .error r => .error r
  | .ok x => .ok (x.state.setVoices p x.voices, x.dirty)

/-- Parts in index order; dirty if any Part is (R330, R331). -/
def processParts (sampleRate bpm : Number) : State → List (Fin 16) → Except Refusal (State × Bool)
  | s, [] => .ok (s, false)
  | s, p :: ps =>
    match processPart sampleRate bpm s p with
    | .error r => .error r
    | .ok x => (processParts sampleRate bpm x.1 ps).map fun y => (y.1, x.2 || y.2)

/-- The part indices 0 to 15 (R331). -/
def allParts : List (Fin 16) := [0, 1, 2, 3, 4, 5, 6, 7, 8, 9, 10, 11, 12, 13, 14, 15]

/-- `ENG.PROCESS sampleRate, bpm`: responds `dirty` (R330). -/
def execEngProcess (sampleRate bpm : Number) (s : State) : Host.Outcome State Fault Refusal :=
  match processParts sampleRate bpm s allParts with
  | .error r => .refused r
  | .ok x => .next (x.1.respond .eng (boolReading x.2))

end Sys2Proof.Machine
end

