-- ==== Sys2Proof/Machine/Dispatch.lean ====
section
/-! DEFINITION. One arm for each command, each a direct call of its meaning. -/

namespace Sys2Proof.Machine

/-- The meaning of a command in a state. -/
def exec (i : Instr) (s : State) : Host.Outcome State Fault Refusal :=
  match i with
  | .noteOn => Sys2Proof.Machine.execNoteOn s
  | .noteOff => Sys2Proof.Machine.execNoteOff s
  | .step e bpm => Sys2Proof.Machine.execStep e bpm s
  | .hasEnded => Sys2Proof.Machine.execHasEnded s
  | .wr reg v => Sys2Proof.Machine.execWr reg v s
  | .rd reg => Sys2Proof.Machine.execRd reg s
  | .lfoNoteOn => Sys2Proof.Machine.execLfoNoteOn s
  | .lfoStep e bpm => Sys2Proof.Machine.execLfoStep e bpm s
  | .lfoWr w => Sys2Proof.Machine.execLfoWr w s
  | .lfoRd reg => Sys2Proof.Machine.execLfoRd reg s
  | .lfoWrStep k v => Sys2Proof.Machine.execLfoWrStep k v s
  | .lfoRdStep k => Sys2Proof.Machine.execLfoRdStep k s
  | .fltWr w => Sys2Proof.Machine.execFltWr w s
  | .fltRd reg => Sys2Proof.Machine.execFltRd reg s
  | .fltUpdate sampleRate => Sys2Proof.Machine.execFltUpdate sampleRate s
  | .fltRun n => Sys2Proof.Machine.execFltRun n s
  | .mtxWr slot w => Sys2Proof.Machine.execMtxWr slot w s
  | .mtxRd reg => Sys2Proof.Machine.execMtxRd reg s
  | .mtxEval srcs => Sys2Proof.Machine.execMtxEval srcs s
  | .voiceNoteOn note vel => Sys2Proof.Machine.execVoiceNoteOn note vel s
  | .voiceNoteOff => Sys2Proof.Machine.execVoiceNoteOff s
  | .voiceRd reg => Sys2Proof.Machine.execVoiceRd reg s
  | .voiceRender n sampleRate bpm => Sys2Proof.Machine.execVoiceRender n sampleRate bpm s
  | .engNoteOn part note vel => Sys2Proof.Machine.execEngNoteOn part note vel s
  | .engNoteOff part note vel => Sys2Proof.Machine.execEngNoteOff part note vel s
  | .engPitchbend part value => Sys2Proof.Machine.execEngPitchbend part value s
  | .engCc part cc value => Sys2Proof.Machine.execEngCc part cc value s
  | .engProcess sampleRate bpm => Sys2Proof.Machine.execEngProcess sampleRate bpm s

end Sys2Proof.Machine
end

