-- ==== Sys2Proof/Machine/Step.lean ====
section
/-! DEFINITION. One step: the next command that has arrived whole is decoded, taken off the port and executed (R81, R100). -/

namespace Sys2Proof.Machine

/-- One step. With no whole command at the port the machine waits: it has no behaviour between commands (R15, R100; log
entry 2). A reserved header or operand is refused (R118, R119, R362), and at an ENV block wired alone another unit's command (R102). -/
def step (s : State) : Host.Outcome State Fault Refusal :=
  match decodeAt s.sel.envAlone s.cmd with
  | .command i rest => exec i { s with cmd := rest }
  | .incomplete => .next s
  | .reserved r => .refused (.reserved r)

/-- The state with an instruction's words at the front of the command port, where `step` takes its next command: they stand
where the first words stood (log entry 1). A command of another unit than the ENV needs a machine that is no ENV wired alone. -/
def State.withFetchWord (s : State) (nbits w : Nat) : State :=
  { s with
    cmd := tableWords nbits w ++ s.cmd.drop maxWords
    sel := { s.sel with envAlone := s.sel.envAlone && !foreignHeader (tableWords nbits w) } }

end Sys2Proof.Machine
end

