-- ==== Sys2Proof/Machine/HostOps.lean ====
section
/-! DEFINITION. What the host does to the machine between two commands (R15, R56, R83, R404): no command calls these. -/

namespace Sys2Proof.Machine

/-- The host issues command words; they queue behind those already there (R81, R100). -/
def State.issue (s : State) (ws : List Word) : State := { s with cmd := s.cmd ++ ws }

/-- The host takes the response words emitted so far (R100, R108). -/
def State.takeResponses (s : State) : List Response × State := (s.resp, { s with resp := [] })

/-- The words a unit's response port emitted, in order (R100). -/
def State.port (s : State) (u : UnitCode) : List Word := (s.resp.filter fun r => r.unit == u).map (·.word)

/-- The integrator changes the chip select (R2). -/
def State.chipSelect (s : State) (sel : ChipSelect) : State := { s with sel := sel }

/-- The caller supplies the bus list of the next commands (R56, R75, R396). -/
def State.supplyBuses (s : State) (buses : List Bus) : State := { s with buses := buses }

/-- The context of `FLT.RUN` on a Filter that no Voice owns: the scratch buffer's contents (R56, R117). -/
def State.supplyScratch (s : State) (b : Scratch) : State := { s with scratch := b }

/-- The selection policy gives its answers (R323). -/
def State.supplyPolicy (s : State) (pol : Policy) : State := { s with policy := pol }

/-! ### Loading and editing Samples (R396, R404)

A load brings the units of the Sample into existence, so each stands as its reset leaves it (R390 to R392), but for the configuration
that the host gives it (R396). DEDUCED, log entry 45. -/

/-- A template ENV with this one's parameters: None, `VALUE` 0 (R31). -/
def Env.loaded (e : Env) : Env := { Env.reset with a := e.a, d := e.d, s := e.s, r := e.r }

/-- A template LFO with this one's configuration and step array: runtime registers 0 (R34). -/
def Lfo.loaded (l : Lfo) : Lfo := { l with period := 0, startPhase := 0, t := 0, randHold := 0, value := 0 }

/-- A template Filter with this one's type, cutoff and resonance: modulation inputs and taps 0, for "a template that was never run
has them at reset value 0" (R217), and coefficients unspecified until its first `FLT.UPDATE` (R36, R392). -/
def Flt.loaded (f : Flt) : Flt := { Flt.reset with type := f.type, cutoff := f.cutoff, resonance := f.resonance }

/-- A ModMatrix with this one's slots: outputs 0 (R41). -/
def Mtx.loaded (m : Mtx) : Mtx := { Mtx.reset with slots := m.slots }

/-- A Sample as it stands when it has been loaded: its units are new. -/
def Sample.loaded (smp : Sample) : Sample :=
  { smp with aeg := smp.aeg.loaded, eg2 := smp.eg2.loaded, lfos := smp.lfos.map Lfo.loaded, flt := smp.flt.loaded,
             mtx := smp.mtx.loaded }

/-- A Sample is loaded into a Part (R396), with its Decoded Sample Source and its templates and matrix configured. R396 does not say
where in the Part's ordered list it goes: it goes to the end, which settles the order of new Voices (R321). DESIGN CHOICE, log entry
43. -/
def State.loadSample (s : State) (p : Fin 16) (smp : Sample) : State :=
  s.setPart p { s.parts[p] with samples := s.parts[p].samples ++ [smp.loaded] }

/-- A Sample with the plain fields of another (R42): its name, ranges, base note, tuning, pan, gain, play mode, direction, bus and
layer. Its templates, its matrix and its Decoded Sample Source stay its own. The ranges are set as they are: "never auto-enforced on
direct setters" (R42). -/
def Sample.withPlainFields (smp new : Sample) : Sample :=
  { new with aeg := smp.aeg, eg2 := smp.eg2, lfos := smp.lfos, flt := smp.flt, mtx := smp.mtx, src := smp.src }

/-- The plain fields of a loaded Sample are edited (R404). The Voices on it play on and read the new fields at their next modulation
update or block. Its templates and its matrix are edited by the register writes of their units, at the instances the chip select
names (R2). Where the Part has no such Sample nothing happens. DESIGN CHOICE, log entry 44. -/
def State.editSample (s : State) (p : Fin 16) (k : Nat) (new : Sample) : State :=
  match s.sampleAt p k with
  | some smp => s.setSample p k (smp.withPlainFields new)
  | none => s

/-! ### Removing Samples and Voices (R277, R325) -/

/-- A Voice's reference after Sample `k` is taken out of its Part's list; none if it plays that Sample and stops (R325). -/
def Voice.withoutSample (k : Nat) (v : Voice) : Option Voice :=
  if v.sample = k then none else if k < v.sample then some { v with sample := v.sample - 1 } else some v

/-- The lone Voice after Sample `k` of Part `p` is removed. -/
def loneWithoutSample (p : Fin 16) (k : Nat) (v : Voice) : Option Voice :=
  if v.part = p then v.withoutSample k else some v

/-- The selection without Sample `k` of Part `p`: the removed Sample is no longer selected, and the others stay selected under
their new indices. DESIGN CHOICE, log entry 39. -/
def Policy.withoutSample (pol : Policy) (p : Fin 16) (k : Nat) : Policy :=
  { pol with
    selected := pol.selected.filterMap fun x =>
      if x.1 = p then if x.2 = k then none else if k < x.2 then some (p, x.2 - 1) else some x else some x }

/-- A Sample is removed from its Part: "any Voices referencing it" are stopped first (R325), and the indices of the later
Samples move down, in the Voices and in the selection too. The chip select keeps its numbers: its lines are the integrator's.
DESIGN CHOICE, log entry 39. -/
def State.removeSample (s : State) (p : Fin 16) (k : Nat) : State :=
  { s.setPart p
      { s.parts[p] with
        voices := s.parts[p].voices.filterMap (Voice.withoutSample k)
        samples := s.parts[p].samples.eraseIdx k } with
    voice := s.voice.bind (loneWithoutSample p k)
    policy := s.policy.withoutSample p k }

/-- A note is deleted from a Part: every Voice under it is destroyed. R277 names "note deletion" as a cause of a Voice's destruction
and no rule defines it: the model reads it as the end of a note's entry in the note map (R46). DESIGN CHOICE, log entry 46. -/
def State.deleteNote (s : State) (p : Fin 16) (note : Fin 128) : State :=
  s.setVoices p (s.parts[p].voices.filter fun v => v.note != note)

/-- The Voice a location names ceases to exist (R45, R390): the lone one, or one of a note map, whose later Voices move down by one
(log entry 47). This is the Voice's own reset; the deletion of a note is `State.deleteNote`. -/
def State.removeVoice (s : State) : VoiceLoc → State
  | .lone => { s with voice := none }
  | .mapped p i => s.setVoices p (s.parts[p].voices.eraseIdx i)

/-- The reset input of a unit (R390): the instance the chip select names goes to its reset values, a Voice to none (R45); the
Engine goes to 16 Parts without Samples and Voices (R46, R47, R392, R396), and with the Samples go the lone Voice, which plays one
(R277), and the selection of them. The ENV the chip select names may be a Voice's own: it then stands in None, as R390 says of every
unit, where R393 speaks of construction and of what commands do. The command words at the port and the responses not yet taken stay.
DESIGN CHOICE, log entry 29. -/
def State.resetUnit (s : State) : UnitCode → State
  | .env => s.setEnv s.sel.env Env.reset
  | .lfo => s.setLfo s.sel.lfo Lfo.reset
  | .flt => s.setFlt s.sel.flt Flt.reset
  | .mtx => s.setMtx s.sel.mtx Mtx.reset
  | .voice => s.removeVoice s.sel.voice
  | .eng =>
    { s with
      parts := Vector.replicate 16 Part.reset
      voice := none
      policy := { s.policy with selected := [] } }

end Sys2Proof.Machine
end

