-- ==== Sys2Proof/Machine/Persist.lean ====
section
/-! DEFINITION. The persisted-state schema: the field list of R58, and nothing of its encoder or decoder (R7). -/

namespace Sys2Proof.Machine

/-- What a document keeps of an ENV: exactly attack, decay, sustain, release (R58). -/
structure PersistedEnv where
  attack : Number
  decay : Number
  sustain : Number
  release : Number
deriving DecidableEq, Repr

/-- What a document keeps of an LFO (R58). R58 says "frequency or sync-beats" and does not say whether a document keeps both or only
the one that `SYNC_EN` selects, nor which of seconds and beats it keeps of the delay and the fade-in: it keeps both values of each and
the flag that selects. Its quantization settings are `QUANT_EN` and `QUANT_LEVELS`. DESIGN CHOICE, log entry 34. -/
structure PersistedLfo where
  waveform : Waveform
  freqHz : Number
  syncEn : Bool
  syncBeats : Number
  delaySec : Number
  delaySyncEn : Bool
  delayBeats : Number
  fadeSec : Number
  fadeSyncEn : Bool
  fadeBeats : Number
  onceEn : Bool
  randphaseEn : Bool
  steps : List Number
  quantEn : Bool
  quantLevels : Nat
deriving DecidableEq, Repr

/-- What a document keeps of a Filter (R58). -/
structure PersistedFlt where
  type : FilterType
  cutoff : Number
  resonance : Number
deriving DecidableEq, Repr

/-- What a document keeps of the decoded-sample payload (R58). The coding of the raw bytes is out of scope (R76). -/
structure PersistedPayload where
  channelCount : Nat
  sampleRate : Number
  bitDepth : Nat
  sampleCount : Nat
  loopStart : Int
  loopEnd : Int
  loopFlag : Bool
  rawBytes : List Byte
deriving DecidableEq, Repr

/-- What a document keeps of a Sample (R58). -/
structure PersistedSample where
  name : String
  playMode : PlayMode
  detune : Number
  pan : Number
  gain : Number
  keytrack : Number
  pitchbendRange : Number
  reverse : Bool
  baseNote : Nat
  minNote : Nat
  maxNote : Nat
  minVelocity : Nat
  maxVelocity : Nat
  layer : Nat
  outputBus : Option Nat
  aeg : PersistedEnv
  eg2 : PersistedEnv
  lfos : List PersistedLfo
  flt : PersistedFlt
  slots : List MtxSlot
  payload : PersistedPayload
deriving DecidableEq, Repr

/-- A whole-engine document: per Part, an ordered list of Samples (R58). -/
structure PersistedEngine where
  parts : Vector (List PersistedSample) 16
deriving DecidableEq, Repr

/-- The persistent fields of an ENV; `VALUE` and `STATE` are not (R58). -/
def Env.persist (e : Env) : PersistedEnv := { attack := e.a, decay := e.d, sustain := e.s, release := e.r }

/-- The persistent fields of an LFO (R58). R58 does not say whether the "custom step array" is all of `STEPS` or the part in use: it
is the first `NUM_STEPS` elements that exist, whose number then stands for `NUM_STEPS`. DESIGN CHOICE, log entry 34. -/
def Lfo.persist (l : Lfo) : PersistedLfo :=
  { waveform := l.waveform, freqHz := l.freqHz, syncEn := l.syncEn, syncBeats := l.syncBeats, delaySec := l.delaySec,
    delaySyncEn := l.delaySyncEn, delayBeats := l.delayBeats, fadeSec := l.fadeSec, fadeSyncEn := l.fadeSyncEn,
    fadeBeats := l.fadeBeats, onceEn := l.onceEn, randphaseEn := l.randphaseEn,
    steps := (List.range (min l.numSteps Config.lfoNStepsMax)).map l.readStep, quantEn := l.quantEn, quantLevels := l.quantLevels }

/-- The persistent fields of a Filter (R58). -/
def Flt.persist (f : Flt) : PersistedFlt := { type := f.type, cutoff := f.cutoff, resonance := f.resonance }

/-- The persistent fields of a source (R58). -/
def Source.persist (src : Source) : PersistedPayload :=
  { channelCount := src.numChannels, sampleRate := src.sampleRate, bitDepth := src.numBits, sampleCount := src.numSamples,
    loopStart := src.loopStart, loopEnd := src.loopEnd, loopFlag := src.loopFlag, rawBytes := src.raw }

/-- The persistent fields of a Sample (R58). -/
def Sample.persist (smp : Sample) : PersistedSample :=
  { name := smp.name, playMode := smp.playMode, detune := smp.detune, pan := smp.pan, gain := smp.gain,
    keytrack := smp.keytrack, pitchbendRange := smp.pitchbendRange, reverse := smp.reverse, baseNote := smp.baseNote,
    minNote := smp.minNote, maxNote := smp.maxNote, minVelocity := smp.minVelocity, maxVelocity := smp.maxVelocity,
    layer := smp.layer, outputBus := smp.outputBus, aeg := smp.aeg.persist, eg2 := smp.eg2.persist,
    lfos := smp.lfos.toList.map Lfo.persist, flt := smp.flt.persist, slots := smp.mtx.slots.toList,
    payload := smp.src.persist }

/-- The whole-engine document of a machine (R58). -/
def State.persist (s : State) : PersistedEngine := { parts := s.parts.map fun part => part.samples.map Sample.persist }

end Sys2Proof.Machine
end

