-- ==== Sys2Proof/Safety.lean ====
section
/-! DEFINITION. The terms in which claims speak of the machine: what a command leaves alone (frames), the invariants every step
keeps, and the premises under which a command completes. -/

namespace Sys2Proof.Machine

/-! ### Frames -/

/-- The registers of a Voice that are not those of its ENVs, LFOs and Filter (R43, R44). -/
def Voice.plain (v : Voice) :=
  (v.part, v.sample, v.offset, v.gate, v.rnd, v.pitchMod, v.panMod, v.ampMod, v.modCount, v.ampL, v.ampR, v.note, v.velocity)

/-- The fields of a Sample that are not its templates and its ModMatrix (R42). -/
def Sample.plain (smp : Sample) :=
  (smp.name, smp.minNote, smp.maxNote, smp.minVelocity, smp.maxVelocity, smp.baseNote, smp.detune, smp.pan, smp.gain,
    smp.keytrack, smp.pitchbendRange, smp.playMode, smp.reverse, smp.outputBus, smp.layer, smp.src)

/-- What is not a channel's contents of a bus (R75). -/
def Bus.frame (b : Bus) := (b.enabled, b.sampleCount, b.channels.map List.length)

/-- What a command may change, of the instances and stores that exist. -/
structure Footprint where
  /-- ENV instances -/
  env : EnvLoc → Prop := fun _ => False
  /-- LFO instances, with their step arrays -/
  lfo : LfoLoc → Prop := fun _ => False
  /-- Filter instances -/
  flt : FltLoc → Prop := fun _ => False
  /-- ModMatrix instances -/
  mtx : MtxLoc → Prop := fun _ => False
  /-- the plain registers of Voices, and whether a Voice is there -/
  voice : VoiceLoc → Prop := fun _ => False
  /-- the contents of buses -/
  bus : Nat → Prop := fun _ => False
  /-- scratch buffers -/
  scratch : BufLoc → Prop := fun _ => False
  /-- the pitchbend of Parts -/
  pitchbend : Fin 16 → Prop := fun _ => False
  /-- the controllers of Parts -/
  controller : Fin 16 → Nat → Prop := fun _ _ => False

/-- From `s` to `t` everything outside a footprint is unchanged: every register, every store element, the Samples, the chip
select, the policy and the words still to execute. The responses and the draw counter are not spoken of. -/
structure SameBut (s t : State) (fp : Footprint) : Prop where
  env : ∀ l, ¬ fp.env l → t.envAt l = s.envAt l
  lfo : ∀ l, ¬ fp.lfo l → t.lfoAt l = s.lfoAt l
  flt : ∀ l, ¬ fp.flt l → t.fltAt l = s.fltAt l
  mtx : ∀ l, ¬ fp.mtx l → t.mtxAt l = s.mtxAt l
  voice : ∀ l, ¬ fp.voice l → (t.voiceAt l).map Voice.plain = (s.voiceAt l).map Voice.plain
  sample : ∀ p k, (t.sampleAt p k).map Sample.plain = (s.sampleAt p k).map Sample.plain
  bus : ∀ b, ¬ fp.bus b → t.buses[b]? = s.buses[b]?
  busFrame : ∀ b : Nat, (t.buses[b]?).map Bus.frame = (s.buses[b]?).map Bus.frame
  scratch : ∀ l, ¬ fp.scratch l → t.bufAt l = s.bufAt l
  pitchbend : ∀ p : Fin 16, ¬ fp.pitchbend p → t.parts[p].pitchbend = s.parts[p].pitchbend
  controller : ∀ (p : Fin 16) k, ¬ fp.controller p k →
    Memory.read controllerDefault t.parts[p].controllers k = Memory.read controllerDefault s.parts[p].controllers k
  sel : t.sel = s.sel
  policy : t.policy = s.policy
  cmd : t.cmd = s.cmd

/-- Exactly one response word was emitted (R108). -/
def Responds (s t : State) (u : UnitCode) (w : Word) : Prop := t.resp = s.resp ++ [⟨u, w⟩]

/-- The unit on whose response port a command emits a word, if it does (R108, R113, R115, R117). -/
def respondsOn : Instr → Option UnitCode
  | .noteOn => none
  | .noteOff => none
  | .step _ _ => none
  | .hasEnded => some .env
  | .wr _ _ => none
  | .rd _ => some .env
  | .lfoNoteOn => none
  | .lfoStep _ _ => none
  | .lfoWr _ => none
  | .lfoRd _ => some .lfo
  | .lfoWrStep _ _ => none
  | .lfoRdStep _ => some .lfo
  | .fltWr _ => none
  | .fltRd _ => some .flt
  | .fltUpdate _ => none
  | .fltRun _ => none
  | .mtxWr _ _ => none
  | .mtxRd _ => some .mtx
  | .mtxEval _ => none
  | .voiceNoteOn _ _ => none
  | .voiceNoteOff => none
  | .voiceRd _ => some .voice
  | .voiceRender _ _ _ => some .voice
  | .engNoteOn _ _ _ => none
  | .engNoteOff _ _ _ => none
  | .engPitchbend _ _ => none
  | .engCc _ _ _ => none
  | .engProcess _ _ => some .eng

/-- The footprint of an ENV command: the ENV instance the chip select names. -/
def onlyEnv (s : State) : Footprint := { env := fun l => l = s.sel.env }

/-- The footprint of a LFO command: the LFO instance the chip select names. -/
def onlyLfo (s : State) : Footprint := { lfo := fun l => l = s.sel.lfo }

/-- The footprint of a Filter command: the Filter instance the chip select names. -/
def onlyFlt (s : State) : Footprint := { flt := fun l => l = s.sel.flt }

/-- The footprint of a ModMatrix command: the ModMatrix instance the chip select names. -/
def onlyMtx (s : State) : Footprint := { mtx := fun l => l = s.sel.mtx }

/-- A Voice with everything it owns. -/
def wholeVoice (v : VoiceLoc) : Footprint :=
  { env := fun l => ∃ w, l = .voice v w
    lfo := fun l => ∃ j, l = .voice v j
    flt := fun l => l = .voice v
    voice := fun l => l = v
    scratch := fun l => l = .voice v }

/-- All the Voices of a Part, with everything they own. -/
def voicesOf (p : Fin 16) : Footprint :=
  { env := fun l => ∃ i w, l = .voice (.mapped p i) w
    lfo := fun l => ∃ i j, l = .voice (.mapped p i) j
    flt := fun l => ∃ i, l = .voice (.mapped p i)
    voice := fun l => ∃ i, l = .mapped p i
    scratch := fun l => ∃ i, l = .voice (.mapped p i) }

/-- The outcome is a refusal (R362). -/
def Refused (o : Host.Outcome State Fault Refusal) : Prop := ∃ r, o = .refused r

/-- Commands executed one after another, until one is refused (R81). -/
def execAll : List Instr → State → Host.Outcome State Fault Refusal
  | [], s => .next s
  | i :: is, s =>
    match exec i s with
    | .next t => execAll is t
    | .fault f => .fault f
    | .refused r => .refused r

/-- An ENV after a number of `STEP`s of one length (R137). -/
def Env.stepTimes (el bpm : Number) : Nat → Env → Except Refusal Env
  | 0, e => .ok e
  | k + 1, e =>
    match e.step el bpm with
    | .error r => .error r
    | .ok e' => e'.stepTimes el bpm k

/-- Both ENVs of a Voice have taken the same number of steps of one modulation period (R288). -/
def Voice.SteppedTo (sampleRate bpm : Number) (k : Nat) (v v' : Voice) : Prop :=
  v.aeg.stepTimes (128 / sampleRate) bpm k = .ok v'.aeg ∧ v.eg2.stepTimes (128 / sampleRate) bpm k = .ok v'.eg2

/-! ### The pass of R330 as a run of `VOICE.RENDER` commands -/

/-- The `VOICE.RENDER` a Part issues on its `i`-th Voice into bus `b`: the command itself, with the chip select on that Voice and
bus. Its response goes to the Part, which reads "stop" from it (R330). -/
def renderCommand (s : State) (p : Fin 16) (i b n : Nat) (sampleRate bpm : Number) : Except Refusal (State × Bool) :=
  match exec (.voiceRender n sampleRate bpm) { s with sel := { s.sel with voice := .mapped p i, bus := b } } with
  | .next t => .ok ({ t with sel := s.sel, resp := s.resp }, t.resp != s.resp ++ [⟨.voice, 0#32⟩])
  | .refused r => .error r

/-- The body of R330's loop on the `i`-th Voice, and whether it marks the Voice: a bus out of range, not enabled or not of two
channels marks it without rendering (R332). -/
def passTurn (sampleRate bpm : Number) (s : State) (p : Fin 16) (i : Nat) : Except Refusal (State × Bool) :=
  match s.voiceAt (.mapped p i) with
  | none => .ok (s, false)
  | some v =>
    match s.sampleAt v.part v.sample with
    | none => .error .noSample
    | some smp =>
      match s.buses[smp.outputBus.getD 0]? with
      | none => .ok (s, true)
      | some b =>
        if b.enabled = true ∧ b.channels.length = 2 then
          renderCommand s p i (smp.outputBus.getD 0) b.sampleCount sampleRate bpm
        else .ok (s, true)

/-- The turns of the Voices at some positions of a Part, in that order, with their marks. -/
def passTurns (sampleRate bpm : Number) (p : Fin 16) : List Nat → State → Except Refusal (State × List Bool)
  | [], s => .ok (s, [])
  | i :: is, s =>
    match passTurn sampleRate bpm s p i with
    | .error r => .error r
    | .ok x => (passTurns sampleRate bpm p is x.1).map fun y => (y.1, x.2 :: y.2)

/-- One Part of R330's loop: every Voice in note-map order, then the marked ones removed (R333). -/
def partPass (sampleRate bpm : Number) (s : State) (p : Fin 16) : Except Refusal (State × Bool) :=
  match passTurns sampleRate bpm p (List.range s.parts[p].voices.length) s with
  | .error r => .error r
  | .ok x =>
    .ok (x.1.setVoices p (((x.1.parts[p].voices.zip x.2).filter fun y => !y.2).map fun y => y.1), x.2.contains true)

/-- R330's loop over some Parts, with `dirty`. -/
def partPasses (sampleRate bpm : Number) : List (Fin 16) → State → Except Refusal (State × Bool)
  | [], s => .ok (s, false)
  | p :: ps, s =>
    match partPass sampleRate bpm s p with
    | .error r => .error r
    | .ok x => (partPasses sampleRate bpm ps x.1).map fun y => (y.1, x.2 || y.2)

/-! ### The opcode map as a table -/

/-- One row of R110 to R117: unit and operation codes, how many operand words follow, and the indices admitted. -/
structure OpcodeRow where
  unit : Nat
  op : Nat
  operands : Nat
  index : Nat → Bool

/-- A command that names no register: `IDX` is 0 (R118). -/
def noRegister (idx : Nat) : Bool := idx == 0

/-- The rows of R110 to R117. The matrix admits slots above 4 too: they are denied, not reserved (R241, R242; log entry 12).
The step array admits every index: execution refuses one at or above the OPEN capacity (R192; log entry 33). -/
def opcodeRows : List OpcodeRow :=
  [⟨0, 1, 0, noRegister⟩, ⟨0, 2, 0, noRegister⟩, ⟨0, 3, 2, noRegister⟩, ⟨0, 4, 0, noRegister⟩,
    ⟨0, 5, 1, fun x => x ≤ 3⟩, ⟨0, 6, 0, fun x => x ≤ 5⟩,
    ⟨1, 1, 0, noRegister⟩, ⟨1, 3, 2, noRegister⟩, ⟨1, 5, 1, fun x => x ≤ 14⟩,
    ⟨1, 6, 0, fun x => x ≤ 14 || (16 ≤ x && x ≤ 20)⟩, ⟨1, 7, 1, fun _ => true⟩, ⟨1, 8, 0, fun _ => true⟩,
    ⟨2, 5, 1, fun x => x ≤ 4⟩, ⟨2, 6, 0, fun x => x ≤ 4 || (8 ≤ x && x ≤ 12) || (16 ≤ x && x ≤ 23)⟩,
    ⟨2, 9, 1, noRegister⟩, ⟨2, 10, 1, noRegister⟩,
    ⟨3, 5, 1, fun x => x % 8 ≤ 5⟩, ⟨3, 6, 0, fun x => x % 8 ≤ 5⟩, ⟨3, 11, 13, noRegister⟩,
    ⟨4, 1, 2, noRegister⟩, ⟨4, 2, 0, noRegister⟩, ⟨4, 6, 0, fun x => x ≤ 10⟩, ⟨4, 12, 3, noRegister⟩,
    ⟨5, 1, 3, noRegister⟩, ⟨5, 2, 3, noRegister⟩, ⟨5, 13, 2, noRegister⟩, ⟨5, 14, 3, noRegister⟩, ⟨5, 15, 2, noRegister⟩]

/-! ### Invariants -/

/-- R147, for one ENV: the parts that speak of its registers alone. -/
structure Env.InRange (e : Env) : Prop where
  nonneg : 0 ≤ e.value
  le_one : e.value ≤ 1
  none_zero : e.state = .none → e.value = 0
  attack_lt : e.state = .attack → e.value < 1
  ended_zero : e.state = .ended → e.value = 0

/-- Every ENV instance of the machine is in range (R147). -/
def State.EnvsInRange (s : State) : Prop := ∀ l e, s.envAt l = some e → e.InRange

/-- "A Voice's ENV instance is therefore never observed in state None" (R393). -/
def State.VoicesTriggered (s : State) : Prop := ∀ l v, s.voiceAt l = some v → v.aeg.state ≠ .none ∧ v.eg2.state ≠ .none

/-- A Voice's references name its Part and a Sample there (R43). -/
def State.RefValid (s : State) (v : Voice) : Prop := (s.sampleAt v.part v.sample).isSome

/-- Every Voice's references are valid, a Part's Voices refer to that Part, and the note map stands in note order (R43, R46,
R331). -/
structure State.NoteMapValid (s : State) : Prop where
  lone : ∀ v, s.voice = some v → s.RefValid v
  mapped : ∀ (p : Fin 16) v, v ∈ s.parts[p].voices → v.part = p ∧ s.RefValid v
  ordered : ∀ p : Fin 16, s.parts[p].voices.Pairwise fun a b => a.note ≤ b.note

/-- Every sparse store is in its canonical form. -/
structure State.StoresCanonical (s : State) : Prop where
  controllers : ∀ p : Fin 16, Memory.wf controllerDefault s.parts[p].controllers
  steps : ∀ l x, s.lfoAt l = some x → Memory.wf stepDefault x.steps

/-- The ranges R34, R43 and R46 give: start phases, held random values, the Voices' random values, pitchbends, controllers. -/
structure State.ValuesInRange (s : State) : Prop where
  startPhase : ∀ l x, s.lfoAt l = some x → 0 ≤ x.startPhase ∧ x.startPhase < 1
  randHold : ∀ l x, s.lfoAt l = some x → -1 ≤ x.randHold ∧ x.randHold < 1
  rnd : ∀ l v, s.voiceAt l = some v → -1 ≤ v.rnd ∧ v.rnd < 1
  pitchbend : ∀ p : Fin 16, -1 ≤ s.parts[p].pitchbend ∧ s.parts[p].pitchbend ≤ 1
  controller : ∀ (p : Fin 16) k, 0 ≤ Memory.read controllerDefault s.parts[p].controllers k ∧
    Memory.read controllerDefault s.parts[p].controllers k ≤ 1

/-! ### Premises -/

/-- The premises of `LFO.STEP` but `e ≥ 0` (R170). -/
structure Lfo.Premises (l : Lfo) (bpm : Number) : Prop where
  tempo : l.syncEn = true ∨ l.delaySyncEn = true ∨ l.fadeSyncEn = true → 0 < bpm
  beats : l.syncEn = true → 0 < l.syncBeats
  custom : l.waveform = .custom → 1 ≤ l.numSteps ∧ l.numSteps ≤ Config.lfoNStepsMax
  quant : l.quantEn = true → 2 ≤ l.quantLevels

/-- A Filter a block can end with: type none, or a sample rate above twice the highest cutoff frequency (R210, R405). -/
def Flt.Renderable (f : Flt) (sampleRate : Number) : Prop := f.type = .none ∨ 32000 < sampleRate

/-- A source with two channels whose every index holds a value (R72, R73). -/
structure Source.Stereo (src : Source) : Prop where
  nonempty : 1 ≤ src.numSamples
  channels : 2 ≤ src.numChannels
  filled : ∀ ch i, ch < 2 → i < src.numSamples → (src.stored ch i).isSome

/-- The loop bounds and the speed keep every offset of a looping Voice inside the source (R73, R282). -/
def LoopContained (smp : Sample) (offset speed : Number) : Prop :=
  let ls : Number := smp.src.loopStart
  let le : Number := smp.src.loopEnd
  let n : Number := smp.src.numSamples
  0 ≤ ls ∧ ls < le ∧
    if smp.reverse then le < n ∧ ls - (le - ls) < offset ∧ offset < n ∧ -(le - ls) ≤ speed ∧ speed ≤ 0
    else le ≤ n ∧ 0 ≤ offset ∧ offset < le + (le - ls) ∧ 0 ≤ speed ∧ speed ≤ le - ls

/-- No fetch of the block is out of range: always so in Standard and Shot, and after release in LoopUntilRelease (R73, R281,
R283, R284); while looping, under `LoopContained`. -/
def Reaches (smp : Sample) (v : Voice) (speed : Number) : Prop :=
  match smp.playMode with
  | .standard => True
  | .shot => True
  | .loop => LoopContained smp v.offset speed
  | .loopUntilRelease => v.gate = false ∨ LoopContained smp v.offset speed

/-- A bus that a block of `n` samples can be accumulated into (R71, R75). -/
structure Bus.Takes (b : Bus) (n : Nat) : Prop where
  usable : b.usable
  count : n ≤ b.sampleCount
  long : ∀ c ∈ b.channels, n ≤ c.length

/-- Everything a Voice owns can be stepped (R130, R170, R210). -/
structure Voice.Steppable (v : Voice) (sampleRate bpm : Number) : Prop where
  aeg : 0 ≤ v.aeg.s ∧ v.aeg.s ≤ 1
  eg2 : 0 ≤ v.eg2.s ∧ v.eg2.s ≤ 1
  lfo : ∀ j : Fin 3, v.lfos[j].Premises bpm
  flt : v.flt.Renderable sampleRate

/-- A Voice on a Sample that a render cannot be refused to (R210, R270). -/
structure Playable (part : Part) (smp : Sample) (v : Voice) (sampleRate bpm : Number) : Prop where
  rate : 0 < sampleRate
  source : smp.src.Stereo
  steppable : v.Steppable sampleRate bpm
  reaches : Reaches smp v (speedOf part smp v sampleRate)

/-- A mapped Voice that a turn of `ENG.PROCESS` cannot be refused to: its bus is out of range or not usable, or takes the
block and the Voice is playable (R332). -/
def ProcessReady (s : State) (v : Voice) (sampleRate bpm : Number) : Prop :=
  ∃ smp, s.sampleAt v.part v.sample = some smp ∧
    ∀ b, s.buses[smp.bus]? = some b → b.usable = true →
      b.Takes b.sampleCount ∧ Playable s.parts[v.part] smp v sampleRate bpm

end Sys2Proof.Machine
end

