-- ==== Sys2Proof/Certificates/Slice0/Obligations.lean ====
section
/-! DEFINITION. The statements for the provers: what the numbered rules of the spec say of the commands and of the machine. Each
statement about a command says when it completes, what it leaves in the state and in the response port, and its frame. -/

open Sys2Proof Sys2Proof.Machine

/-! ### The command port and the encodings -/

/-- A step runs the decoded command with its words taken off the port; with no whole command it waits (log entry 2); a
reserved header or operand is refused. An ENV block wired alone accepts only `UNIT = 0` (R102): another unit's header is refused.
That this wiring stands in the state is the model's choice (log entry 40). -/
def Obligations.StepRunsDecodedCommand : Prop :=
  ∀ s : State,
    (s.sel.envAlone = false ∨ (∀ h ws, s.cmd = h :: ws → h.extractLsb' 28 4 = 0#4) →
      (∀ i rest, decode s.cmd = .command i rest → i.wellFormed = true → step s = exec i { s with cmd := rest }) ∧
      (decode s.cmd = .incomplete → step s = .next s) ∧
      (∀ r, decode s.cmd = .reserved r → step s = .refused (.reserved r))) ∧
    (∀ h ws, s.sel.envAlone = true → s.cmd = h :: ws → h.extractLsb' 28 4 ≠ 0#4 → step s = .refused (.reserved .unit))

/-- Decoding the words of any well-formed command, whatever follows them, gives that command and what follows. -/
def Obligations.DecodeEncodeRoundTrip : Prop :=
  ∀ (i : Instr) (rest : List Word), i.wellFormed = true → decode (encode i ++ rest) = .command i rest

/-- Every command the decoder answers is well formed, and it took exactly that command's words. -/
def Obligations.DecodedCommandsAreWellFormed : Prop :=
  ∀ ws i rest, decode ws = .command i rest →
    i.wellFormed = true ∧ ∃ used, ws = used ++ rest ∧ used.length = (encode i).length

/-- Encoding what was decoded gives the words back, in any stream without the pattern of negative zero (which means 0, R106, and
is never emitted, R108). -/
def Obligations.EncodeUndoesDecode : Prop :=
  ∀ ws i rest, decode ws = .command i rest → (∀ w ∈ ws, w ≠ 0x80000000#32) → encode i ++ rest = ws

/-- R118, read with R105: a header has a meaning exactly when its reserved bits are 0 and a row of the opcode map has its unit,
its operation and its index; the row gives the number of operand words. That the ModMatrix rows admit slots 5 to 31, as denied and
not as reserved, is the model's choice (log entry 12). So is that the rows of `LFO.WRSTEP` and `LFO.RDSTEP` admit every step index: an
index at or above the capacity is reserved (R118, R192), and the model takes its header and refuses the command when it executes (log
entry 33). -/
def Obligations.ReservedHeaders : Prop :=
  ∀ (h : Word) (n : Nat),
    (∃ sh, headerShape h = .ok sh ∧ sh.operands = n) ↔
      h.extractLsb' 0 16 = 0#16 ∧
        ∃ r ∈ opcodeRows, r.unit = (h.extractLsb' 28 4).toNat ∧ r.op = (h.extractLsb' 24 4).toNat ∧
          r.index (h.extractLsb' 16 8).toNat = true ∧ r.operands = n

/-- R106: the exact value of a `NUM` word, from its sign, exponent and fraction fields. -/
def Obligations.NumWordValue : Prop :=
  ∀ w : Word,
    let e := (w.extractLsb' 23 8).toNat
    let f := (w.extractLsb' 0 23).toNat
    let sign : Number := if w.msb then -1 else 1
    (e = 255 → decodeNum w = none) ∧
    (1 ≤ e → e ≤ 254 → decodeNum w = some (sign * (2 : Number) ^ ((e : Int) - 127) * (1 + f / 2 ^ 23))) ∧
    (e = 0 → decodeNum w = some (sign * (2 : Number) ^ (-126 : Int) * (f / 2 ^ 23)))

/-- R108, for numbers: the response word is the number's own pattern if it has one, else that of the nearest value, ties to the
even fraction; 0 is 0x00000000. Beyond the format the nearest finite value is the model's choice (log entry 18). -/
def Obligations.ResponseWordNearest : Prop :=
  ∀ q : Number, ∃ r, decodeNum (encodeNum q) = some r ∧
    (∀ w q', decodeNum w = some q' → |q - r| ≤ |q - q'| ∧
      (|q - q'| = |q - r| → q' ≠ r → (encodeNum q).toNat % 2 = 0)) ∧
    (∀ w, decodeNum w = some q → w ≠ 0x80000000#32 → encodeNum q = w) ∧
    encodeNum 0 = 0#32

/-- Five rows of the spec's table of encoded commands (95_test_vectors.md 4.0) decode to the commands named there, and R109's
example stream serialises to its bytes and back. -/
def Obligations.SpecWordsDecode : Prop :=
  decode [0x03000000#32, 0x3F200000#32, 0x42F00000#32] = .command (.step (5 / 8) 120) [] ∧
  decode [0x15030000#32, 0x40800000#32] = .command (.lfoWr (.syncBeats 4)) [] ∧
  decode [0x36400000#32] = .command (.mtxRd (.output .filterCutoff)) [] ∧
  decode [0x4C000000#32, 0x00000080#32, 0x473B8000#32, 0x42F00000#32] = .command (.voiceRender 128 48000 120) [] ∧
  decode [0x5E000000#32, 0x00000000#32, 0x00000001#32, 0x3F000000#32] = .command (.engCc 0 1 (1 / 2)) [] ∧
  serialise [0x03000000#32, 0x3F200000#32, 0x42F00000#32]
    = [0x00#8, 0x00#8, 0x00#8, 0x03#8, 0x00#8, 0x00#8, 0x20#8, 0x3F#8, 0x00#8, 0x00#8, 0xF0#8, 0x42#8] ∧
  ∀ ws, deserialise (serialise ws) = ws

/-! ### Reset -/

/-- R31, R391, R392: every value the spec gives for reset. -/
def Obligations.ResetValues : Prop :=
  let s := State.reset
  s.env.state = .none ∧ s.env.value = 0 ∧ s.env.ended = false ∧
  s.lfo.period = 0 ∧ s.lfo.startPhase = 0 ∧ s.lfo.t = 0 ∧ s.lfo.randHold = 0 ∧ s.lfo.value = 0 ∧
  s.flt.cutoffMod = 0 ∧ s.flt.resMod = 0 ∧ s.flt.left = ⟨0, 0, 0, 0⟩ ∧ s.flt.right = ⟨0, 0, 0, 0⟩ ∧
  (∀ d, s.mtx.mod.get d = 0) ∧ (∀ l, s.voiceAt l = none) ∧
  ∀ p : Fin 16, s.parts[p].voices = [] ∧ s.parts[p].pitchbend = 0 ∧
    ∀ k, Memory.read controllerDefault s.parts[p].controllers k = 0

/-- The state after reset meets every invariant stated below. -/
def Obligations.ResetMeetsInvariants : Prop :=
  State.reset.EnvsInRange ∧ State.reset.VoicesTriggered ∧ State.reset.NoteMapValid ∧ State.reset.StoresCanonical ∧
    State.reset.ValuesInRange

/-! ### Invariants that every step keeps -/

/-- R147: in every reachable state `0 ≤ VALUE ≤ 1`, with `VALUE = 0` in None and End and `VALUE < 1` in Attack, for every ENV
instance of the machine. -/
def Obligations.StepKeepsEnvsInRange : Prop := ∀ s t : State, s.EnvsInRange → step s = .next t → t.EnvsInRange

/-- R393: no ENV of a Voice is ever in state None. -/
def Obligations.StepKeepsVoicesTriggered : Prop := ∀ s t : State, s.VoicesTriggered → step s = .next t → t.VoicesTriggered

/-- R43, R46, R331: Voices refer to their own Part and to a Sample that exists, and the note map stays in note order. -/
def Obligations.StepKeepsNoteMapValid : Prop := ∀ s t : State, s.NoteMapValid → step s = .next t → t.NoteMapValid

/-- The step arrays and the controller tables keep their one canonical form, the model's own (log entry 20). -/
def Obligations.StepKeepsStoresCanonical : Prop := ∀ s t : State, s.StoresCanonical → step s = .next t → t.StoresCanonical

/-- R34, R43, R46: start phases in [0, 1), held and fixed random values in [-1, 1), pitchbends in -1..1, controllers in 0..1. -/
def Obligations.StepKeepsValuesInRange : Prop :=
  ∀ s t : State, s.StoresCanonical → s.ValuesInRange → step s = .next t → t.ValuesInRange

/-! ### Rules about the whole machine -/

/-- No command changes the chip select, the policy, a Sample's own fields or the shape of a bus (R2, R42, R56, R75), and the
words emitted stay emitted (R108). That the chip select, the policy and the buses stand in the state is the model's choice (log entries
7 and 8). -/
def Obligations.StepKeepsContext : Prop :=
  ∀ s t : State, step s = .next t →
    t.sel = s.sel ∧ t.policy = s.policy ∧
    (∀ p k, (t.sampleAt p k).map Sample.plain = (s.sampleAt p k).map Sample.plain) ∧
    (∀ b : Nat, (t.buses[b]?).map Bus.frame = (s.buses[b]?).map Bus.frame) ∧
    s.resp <+: t.resp

/-- R108: the commands that respond emit exactly one word, on their own unit's port, and all others emit nothing. -/
def Obligations.CommandsThatRespond : Prop :=
  ∀ i (s t : State), exec i s = .next t →
    match respondsOn i with
    | some u => ∃ w, Responds s t u w
    | none => t.resp = s.resp

/-- R146, R20, R25: for every ENV, whatever command runs, None is not entered, End is left only by `NOTE_ON`, the state code does
not decrease but at `NOTE_ON`, `VALUE` and `STATE` are written by `NOTE_ON`, by `STEP` (which a Voice's render does to its own ENVs)
and, `STATE` alone, by a note-off, and the parameters by `WR` alone. A construction makes other ENVs, and `ENG.NOTE_ON` and
`ENG.PROCESS` move a Part's Voices: of these the last three clauses speak. `VOICE.RENDER` steps AEG and EG2 by `128 / sampleRate` once
for each multiple of 128 that the modulation counter passes, fewer only if it stops; so does `ENG.PROCESS` to the Voices it keeps. -/
def Obligations.EnvStateOrder : Prop :=
  (∀ i (s t : State) (l : EnvLoc) (e e' : Env),
    (∀ w note vel, l = .voice .lone w → i ≠ .voiceNoteOn note vel) →
    (∀ p k w, l = .voice (.mapped p k) w → (∀ q note vel, i ≠ .engNoteOn q note vel) ∧ ∀ sr bpm, i ≠ .engProcess sr bpm) →
    s.envAt l = some e → exec i s = .next t → t.envAt l = some e' →
      let ofSelected := ∃ w, l = .voice s.sel.voice w
      let stepped := (∃ el bpm, i = .step el bpm) ∨ (∃ n sr bpm, i = .voiceRender n sr bpm) ∧ ofSelected
      let released := i = .noteOff ∨ i = .voiceNoteOff ∧ ofSelected ∨
        ∃ (p : Fin 16) (k : Nat) (w : EnvWhich) (note vel : Fin 128), i = .engNoteOff p.val note vel ∧ l = .voice (.mapped p k) w
      (e'.state = .none → e.state = .none) ∧
      (e.state = .ended → e'.state = .ended ∨ i = .noteOn) ∧
      (i ≠ .noteOn → e.state.code ≤ e'.state.code) ∧
      (i ≠ .noteOn → ¬ stepped → e'.value = e.value ∧ (¬ released → e'.state = e.state)) ∧
      ((∀ p v, i ≠ .wr p v) → e'.a = e.a ∧ e'.d = e.d ∧ e'.s = e.s ∧ e'.r = e.r)) ∧
  (∀ (s t : State) (v v' : Voice) (n : Nat) (sampleRate bpm : Number), s.voiceAt s.sel.voice = some v →
    exec (.voiceRender n sampleRate bpm) s = .next t → t.voiceAt s.sel.voice = some v' →
      let updates := (v.modCount.val + n + 127) / 128 - (v.modCount.val + 127) / 128
      ∃ k, k ≤ updates ∧ (Responds s t .voice 0#32 → k = updates) ∧ v.SteppedTo sampleRate bpm k v') ∧
  (∀ (s t : State) (sampleRate bpm : Number) (p : Fin 16), exec (.engProcess sampleRate bpm) s = .next t →
    ∃ kept, kept.Sublist s.parts[p].voices ∧
      List.Forall₂ (fun v v' => ∃ k, v.SteppedTo sampleRate bpm k v') kept t.parts[p].voices) ∧
  (∀ (s t : State) (part : Nat) (p : Fin 16) (note vel : Fin 128), exec (.engNoteOn part note vel) s = .next t →
    (∀ v ∈ s.parts[p].voices, v ∈ t.parts[p].voices) ∧
    ∀ v ∈ t.parts[p].voices, v ∈ s.parts[p].voices ∨
      v.aeg.state = .attack ∧ v.aeg.value = 0 ∧ v.eg2.state = .attack ∧ v.eg2.value = 0)

/-- The forms that name nothing are refused: a command whose chip select names no instance (R2, log entry 7), a Voice command
without a Voice (R45, R270), a construction on no Sample, on a source without samples (R270, log entry 21) or of a note map's Voice
(R45, log entry 28), a render at no positive rate (R270) or into no usable bus (R75, log entry 22), and the fetch of a missing
right channel (R293, D47). -/
def Obligations.RefusedForWantOfContext : Prop :=
  ∀ s : State,
    (s.envAt s.sel.env = none → Refused (exec .noteOn s) ∧ Refused (exec .noteOff s) ∧ Refused (exec .hasEnded s) ∧
      (∀ el bpm, Refused (exec (.step el bpm) s)) ∧ (∀ p v, Refused (exec (.wr p v) s)) ∧ ∀ g, Refused (exec (.rd g) s)) ∧
    (s.lfoAt s.sel.lfo = none → Refused (exec .lfoNoteOn s) ∧ (∀ el bpm, Refused (exec (.lfoStep el bpm) s)) ∧
      (∀ w, Refused (exec (.lfoWr w) s)) ∧ (∀ r, Refused (exec (.lfoRd r) s)) ∧
      (∀ k v, Refused (exec (.lfoWrStep k v) s)) ∧ ∀ k, Refused (exec (.lfoRdStep k) s)) ∧
    (s.fltAt s.sel.flt = none → (∀ w, Refused (exec (.fltWr w) s)) ∧ (∀ r, Refused (exec (.fltRd r) s)) ∧
      (∀ sr, Refused (exec (.fltUpdate sr) s)) ∧ ∀ n, Refused (exec (.fltRun n) s)) ∧
    (s.mtxAt s.sel.mtx = none → (∀ k w, Refused (exec (.mtxWr k w) s)) ∧ (∀ r, Refused (exec (.mtxRd r) s)) ∧
      ∀ x, Refused (exec (.mtxEval x) s)) ∧
    (s.voiceAt s.sel.voice = none → Refused (exec .voiceNoteOff s) ∧ (∀ r, Refused (exec (.voiceRd r) s)) ∧
      ∀ n sr bpm, Refused (exec (.voiceRender n sr bpm) s)) ∧
    ((∃ p i, s.sel.voice = .mapped p i) ∨ s.sampleAt s.sel.newPart s.sel.newSample = none ∨
        (∃ smp, s.sampleAt s.sel.newPart s.sel.newSample = some smp ∧ smp.src.numSamples = 0) →
      ∀ note vel, Refused (exec (.voiceNoteOn note vel) s)) ∧
    (∀ n sr bpm, sr ≤ 0 ∨ (∀ b, s.buses[s.sel.bus]? = some b → b.enabled = false ∨ b.channels.length ≠ 2) →
      Refused (exec (.voiceRender n sr bpm) s)) ∧
    (∀ v smp n sr bpm, s.voiceAt s.sel.voice = some v → s.sampleAt v.part v.sample = some smp → smp.src.numChannels < 2 →
      smp.playMode = .standard → 0 ≤ v.offset → v.offset < smp.src.numSamples → v.modCount ≠ 0 → 1 ≤ n →
      Refused (exec (.voiceRender n sr bpm) s))

/-! ### The ENV -/

/-- R135: from every state, `VALUE` is 0 and the state Attack; no parameter changes; `ENDED` is 0; no response. -/
def Obligations.EnvNoteOn : Prop :=
  ∀ (s : State) (e : Env), s.envAt s.sel.env = some e →
    ∃ t e', exec .noteOn s = .next t ∧ t.envAt s.sel.env = some e' ∧ e' = { e with value := 0, state := .attack } ∧
      e'.ended = false ∧ SameBut s t (onlyEnv s) ∧ t.resp = s.resp ∧ t.draws = s.draws

/-- R136: Attack, Decay and Sustain go to Release; None, Release and End stay; `VALUE` and the parameters stay. -/
def Obligations.EnvNoteOff : Prop :=
  ∀ (s : State) (e : Env), s.envAt s.sel.env = some e →
    ∃ t e', exec .noteOff s = .next t ∧ t.envAt s.sel.env = some e' ∧
      (e.state = .attack ∨ e.state = .decay ∨ e.state = .sustain → e' = { e with state := .release }) ∧
      (e.state = .none ∨ e.state = .release ∨ e.state = .ended → e' = e) ∧
      SameBut s t (onlyEnv s) ∧ t.resp = s.resp ∧ t.draws = s.draws

/-- R137 to R143, R131, R145: one `STEP`, by the state when it starts, with the stage formulas written out; `bpm` does not
matter. -/
def Obligations.EnvStep : Prop :=
  ∀ (s : State) (e : Env) (el bpm : Number), s.envAt s.sel.env = some e → 0 ≤ el →
    (e.state = .decay ∨ e.state = .sustain → 0 ≤ e.s ∧ e.s ≤ 1) →
    ∃ t e', (∀ bpm', exec (.step el bpm') s = .next t) ∧ exec (.step el bpm) s = .next t ∧ t.envAt s.sel.env = some e' ∧
      e'.a = e.a ∧ e'.d = e.d ∧ e'.s = e.s ∧ e'.r = e.r ∧
      (let dur (p : Number) : Number := 10 * (max 0 (min 1 p)) ^ 2
       match e.state with
       | .none => e' = e
       | .attack =>
         let v := if dur e.a = 0 then 1 else e.value + el / dur e.a
         (1 ≤ v → e'.value = 1 ∧ e'.state = .decay) ∧ (v < 1 → e'.value = v ∧ e'.state = .attack)
       | .decay =>
         let v := if dur e.d = 0 then e.s else e.value - el / dur e.d
         (v ≤ e.s → e'.value = e.s ∧ e'.state = .sustain) ∧ (e.s < v → e'.value = v ∧ e'.state = .decay)
       | .sustain => e'.value = e.s ∧ e'.state = .sustain
       | .release =>
         let v := if dur e.r = 0 then 0 else e.value - el / dur e.r
         (v ≤ 0 → e'.value = 0 ∧ e'.state = .ended) ∧ (0 < v → e'.value = v ∧ e'.state = .release)
       | .ended => e' = e) ∧
      SameBut s t (onlyEnv s) ∧ t.resp = s.resp ∧ t.draws = s.draws

/-- R150: `STEP` is refused exactly for `e < 0`, and in Decay and Sustain for `S` outside [0, 1]. -/
def Obligations.EnvStepRefused : Prop :=
  ∀ (s : State) (e : Env) (el bpm : Number), s.envAt s.sel.env = some e →
    (Refused (exec (.step el bpm) s) ↔
      el < 0 ∨ ((e.state = .decay ∨ e.state = .sustain) ∧ (e.s < 0 ∨ 1 < e.s)))

/-- R144: responds 1 exactly in End; changes nothing. -/
def Obligations.EnvHasEnded : Prop :=
  ∀ (s : State) (e : Env), s.envAt s.sel.env = some e →
    ∃ t, exec .hasEnded s = .next t ∧ Responds s t .env (if e.state = .ended then 1#32 else 0#32) ∧ SameBut s t {} ∧
      t.draws = s.draws

/-- R133: the parameter named holds the operand as given, unclamped; no other register changes. -/
def Obligations.EnvWr : Prop :=
  ∀ (s : State) (e : Env) (reg : EnvParam) (v : Number), s.envAt s.sel.env = some e →
    ∃ t, exec (.wr reg v) s = .next t ∧
      t.envAt s.sel.env = some (match reg with
        | .a => { e with a := v }
        | .d => { e with d := v }
        | .s => { e with s := v }
        | .r => { e with r := v }) ∧
      SameBut s t (onlyEnv s) ∧ t.resp = s.resp ∧ t.draws = s.draws

/-- R134, R115, R26: responds the register, the state as its code; changes nothing. -/
def Obligations.EnvRd : Prop :=
  ∀ (s : State) (e : Env) (reg : EnvReg), s.envAt s.sel.env = some e →
    ∃ t, exec (.rd reg) s = .next t ∧
      Responds s t .env (match reg with
        | .a => encodeNum e.a
        | .d => encodeNum e.d
        | .s => encodeNum e.s
        | .r => encodeNum e.r
        | .value => encodeNum e.value
        | .state => match e.state with
          | .none => 0#32
          | .attack => 1#32
          | .decay => 2#32
          | .sustain => 3#32
          | .release => 4#32
          | .ended => 5#32) ∧
      SameBut s t {} ∧ t.draws = s.draws

/-- R131: `duration` is `10 · p²` of the clamped knob, 0 exactly for `p ≤ 0`, 10 exactly for `p ≥ 1`, non-decreasing, and
strictly increasing on [0, 1]. -/
def Obligations.DurationLaws : Prop :=
  (∀ p, duration p = 10 * (max 0 (min 1 p)) ^ 2) ∧ (∀ p, duration p = 0 ↔ p ≤ 0) ∧ (∀ p, duration p = 10 ↔ 1 ≤ p) ∧
  (∀ p q, p ≤ q → duration p ≤ duration q) ∧ (∀ p q, 0 ≤ p → p < q → q ≤ 1 → duration p < duration q)

/-- R148: how many equal steps a stage takes. Attack from 0, Decay from 1 and Release from `L` end at the step
`⌈(distance) · d / e⌉`, and before it `VALUE` has moved by `k · e / d`. -/
def Obligations.StageLengths : Prop :=
  ∀ (s : State) (e : Env) (el bpm : Number) (k : Nat), s.envAt s.sel.env = some e → 0 < el →
    (e.state = .attack → e.value = 0 → 0 < duration e.a → k ≤ ⌈duration e.a / el⌉₊ →
      ∃ t e', execAll (List.replicate k (.step el bpm)) s = .next t ∧ t.envAt s.sel.env = some e' ∧
        (k < ⌈duration e.a / el⌉₊ → e'.state = .attack ∧ e'.value = k * el / duration e.a) ∧
        (k = ⌈duration e.a / el⌉₊ → e'.state = .decay ∧ e'.value = 1)) ∧
    (e.state = .decay → e.value = 1 → 0 ≤ e.s → e.s < 1 → 0 < duration e.d → k ≤ ⌈(1 - e.s) * duration e.d / el⌉₊ →
      ∃ t e', execAll (List.replicate k (.step el bpm)) s = .next t ∧ t.envAt s.sel.env = some e' ∧
        (k < ⌈(1 - e.s) * duration e.d / el⌉₊ → e'.state = .decay ∧ e'.value = 1 - k * el / duration e.d) ∧
        (k = ⌈(1 - e.s) * duration e.d / el⌉₊ → e'.state = .sustain ∧ e'.value = e.s)) ∧
    (e.state = .release → 0 < e.value → 0 < duration e.r → k ≤ ⌈e.value * duration e.r / el⌉₊ →
      ∃ t e', execAll (List.replicate k (.step el bpm)) s = .next t ∧ t.envAt s.sel.env = some e' ∧
        (k < ⌈e.value * duration e.r / el⌉₊ → e'.state = .release ∧ e'.value = e.value - k * el / duration e.r) ∧
        (k = ⌈e.value * duration e.r / el⌉₊ → e'.state = .ended ∧ e'.value = 0))

/-! ### The LFO -/

/-- R172, R186: the runtime registers restart; the start phase is drawn in [0, 1) or is 0; the held value is drawn. -/
def Obligations.LfoNoteOn : Prop :=
  ∀ (s : State) (l : Lfo), s.lfoAt s.sel.lfo = some l →
    ∃ t ph hold, exec .lfoNoteOn s = .next t ∧
      t.lfoAt s.sel.lfo = some { l with startPhase := ph, period := 0, t := 0, randHold := hold, value := 0 } ∧
      (l.randphaseEn = true → 0 ≤ ph ∧ ph < 1) ∧ (l.randphaseEn = false → ph = 0) ∧ -1 ≤ hold ∧ hold < 1 ∧
      SameBut s t (onlyLfo s) ∧ t.resp = s.resp

/-- R173 with R171, R174 to R186: one `LFO.STEP`, with every derived quantity and every waveform written out. The sine formula is
the spec's general knowledge G2 (log entry 27), with the function's laws left as log entry 14 says. -/
def Obligations.LfoStep : Prop :=
  ∀ (s : State) (l : Lfo) (e bpm : Number), s.lfoAt s.sel.lfo = some l → 0 ≤ e → l.Premises bpm →
    ∃ t hold, exec (.lfoStep e bpm) s = .next t ∧
      (let freq := if l.syncEn then bpm / (60 * l.syncBeats) else l.freqHz
       let delay := if l.delaySyncEn then l.delayBeats * 60 / bpm else l.delaySec
       let fade := if l.fadeSyncEn then l.fadeBeats * 60 / bpm else l.fadeSec
       let time := l.t + e
       let period := l.period + e * freq
       let ph := Int.fract (period + l.startPhase)
       let raw : Number := match l.waveform with
         | .sine => Config.fn.sin (2 * Config.fn.pi * ph)
         | .triangle => if ph < 1 / 4 then 4 * ph else if ph < 3 / 4 then 2 - 4 * ph else 4 * ph - 4
         | .pulse => if ph < 1 / 2 then 0 else 1
         | .rectangle => if ph < 1 / 2 then -1 else 1
         | .sawtooth => 1 - 2 * ph
         | .random => hold
         | .custom =>
           let v := l.readStep (min ⌊ph * l.numSteps⌋.toNat (l.numSteps - 1))
           if l.quantEn then
             2 * (⌊(v + 1) / 2 * ((l.quantLevels : Number) - 1) + 1 / 2⌋ : Number) / ((l.quantLevels : Number) - 1) - 1
           else v
       let frozen := l.onceEn = true ∧ l.waveform ≠ .random ∧ 1 ≤ period
       (⌊period + l.startPhase⌋ = ⌊l.period + l.startPhase⌋ → hold = l.randHold) ∧
       (⌊period + l.startPhase⌋ ≠ ⌊l.period + l.startPhase⌋ → -1 ≤ hold ∧ hold < 1) ∧
       ∃ value, t.lfoAt s.sel.lfo = some { l with t := time, period := period, randHold := hold, value := value } ∧
         (time < delay → value = 0) ∧ (frozen → value = 0) ∧
         (delay ≤ time → ¬ frozen → value = raw * if fade ≤ 0 then 1 else max 0 (min 1 ((time - delay) / fade)))) ∧
      SameBut s t (onlyLfo s) ∧ t.resp = s.resp

/-- R189: `LFO.STEP` is refused exactly when a premise of R170 fails. -/
def Obligations.LfoStepRefused : Prop :=
  ∀ (s : State) (l : Lfo) (e bpm : Number), s.lfoAt s.sel.lfo = some l →
    (Refused (exec (.lfoStep e bpm) s) ↔
      e < 0 ∨ ((l.syncEn = true ∨ l.delaySyncEn = true ∨ l.fadeSyncEn = true) ∧ bpm ≤ 0) ∨
        (l.syncEn = true ∧ l.syncBeats ≤ 0) ∨
        (l.waveform = .custom ∧ (l.numSteps = 0 ∨ Config.lfoNStepsMax < l.numSteps)) ∨
        (l.quantEn = true ∧ l.quantLevels < 2))

/-- R190: the configuration register named holds the operand; no other register changes. -/
def Obligations.LfoWr : Prop :=
  ∀ (s : State) (l : Lfo) (w : LfoWrite), s.lfoAt s.sel.lfo = some l →
    ∃ t, exec (.lfoWr w) s = .next t ∧
      t.lfoAt s.sel.lfo = some (match w with
        | .waveform v => { l with waveform := v }
        | .freqHz v => { l with freqHz := v }
        | .syncEn v => { l with syncEn := v }
        | .syncBeats v => { l with syncBeats := v }
        | .delaySec v => { l with delaySec := v }
        | .delaySyncEn v => { l with delaySyncEn := v }
        | .delayBeats v => { l with delayBeats := v }
        | .fadeSec v => { l with fadeSec := v }
        | .fadeSyncEn v => { l with fadeSyncEn := v }
        | .fadeBeats v => { l with fadeBeats := v }
        | .onceEn v => { l with onceEn := v }
        | .randphaseEn v => { l with randphaseEn := v }
        | .quantEn v => { l with quantEn := v }
        | .quantLevels v => { l with quantLevels := v }
        | .numSteps v => { l with numSteps := v }) ∧
      SameBut s t (onlyLfo s) ∧ t.resp = s.resp ∧ t.draws = s.draws

/-- R191: responds the register; changes nothing. Of a `QUANT_LEVELS` or `NUM_STEPS` of 2^32 or more, which only an OPEN reset value
can be, the word is the low 32 bits: the model's choice (log entry 42). -/
def Obligations.LfoRd : Prop :=
  ∀ (s : State) (l : Lfo) (reg : LfoReg), s.lfoAt s.sel.lfo = some l →
    ∃ t, exec (.lfoRd reg) s = .next t ∧
      (let flag (b : Bool) : Word := if b then 1#32 else 0#32
       Responds s t .lfo (match reg with
        | .cfg .waveform => match l.waveform with
          | .sine => 0#32
          | .triangle => 1#32
          | .pulse => 2#32
          | .rectangle => 3#32
          | .sawtooth => 4#32
          | .random => 5#32
          | .custom => 6#32
        | .cfg .freqHz => encodeNum l.freqHz
        | .cfg .syncEn => flag l.syncEn
        | .cfg .syncBeats => encodeNum l.syncBeats
        | .cfg .delaySec => encodeNum l.delaySec
        | .cfg .delaySyncEn => flag l.delaySyncEn
        | .cfg .delayBeats => encodeNum l.delayBeats
        | .cfg .fadeSec => encodeNum l.fadeSec
        | .cfg .fadeSyncEn => flag l.fadeSyncEn
        | .cfg .fadeBeats => encodeNum l.fadeBeats
        | .cfg .onceEn => flag l.onceEn
        | .cfg .randphaseEn => flag l.randphaseEn
        | .cfg .quantEn => flag l.quantEn
        | .cfg .quantLevels => BitVec.ofNat 32 l.quantLevels
        | .cfg .numSteps => BitVec.ofNat 32 l.numSteps
        | .run .period => encodeNum l.period
        | .run .startPhase => encodeNum l.startPhase
        | .run .t => encodeNum l.t
        | .run .randHold => encodeNum l.randHold
        | .run .value => encodeNum l.value)) ∧
      SameBut s t {} ∧ t.draws = s.draws

/-- R192: in a canonical step array, element `k` holds the operand and every other element and register is as before; an index at
or above the capacity is refused. -/
def Obligations.LfoWrStep : Prop :=
  ∀ (s : State) (l : Lfo) (k : Fin 256) (v : Number), s.lfoAt s.sel.lfo = some l →
    (k.val < Config.lfoNStepsMax → Memory.wf stepDefault l.steps = true →
      ∃ t l', exec (.lfoWrStep k v) s = .next t ∧ t.lfoAt s.sel.lfo = some l' ∧ l'.readStep k.val = v ∧
        (∀ j, j ≠ k.val → l'.readStep j = l.readStep j) ∧ l' = { l with steps := l'.steps } ∧
        SameBut s t (onlyLfo s) ∧ t.resp = s.resp ∧ t.draws = s.draws) ∧
    (Config.lfoNStepsMax ≤ k.val → Refused (exec (.lfoWrStep k v) s))

/-- R193: responds the element; changes nothing; an index at or above the capacity is refused (R192). -/
def Obligations.LfoRdStep : Prop :=
  ∀ (s : State) (l : Lfo) (k : Fin 256), s.lfoAt s.sel.lfo = some l →
    (k.val < Config.lfoNStepsMax →
      ∃ t, exec (.lfoRdStep k) s = .next t ∧ Responds s t .lfo (encodeNum (l.readStep k.val)) ∧ SameBut s t {} ∧
        t.draws = s.draws) ∧
    (Config.lfoNStepsMax ≤ k.val → Refused (exec (.lfoRdStep k) s))

/-- R187: with the steps in use in [-1, 1] (and the held random value, R184), the output is in [-1, 1] after every step. -/
def Obligations.LfoOutputRange : Prop :=
  ∀ (s t : State) (l l' : Lfo) (e bpm : Number), s.lfoAt s.sel.lfo = some l →
    (∀ k, k < l.numSteps → -1 ≤ l.readStep k ∧ l.readStep k ≤ 1) → -1 ≤ l.randHold → l.randHold ≤ 1 →
    exec (.lfoStep e bpm) s = .next t → t.lfoAt s.sel.lfo = some l' → -1 ≤ l'.value ∧ l'.value ≤ 1

/-! ### The Filter -/

/-- R211: the register named holds the operand as given; coefficients and taps do not change. -/
def Obligations.FltWr : Prop :=
  ∀ (s : State) (f : Flt) (w : FltWrite), s.fltAt s.sel.flt = some f →
    ∃ t, exec (.fltWr w) s = .next t ∧
      t.fltAt s.sel.flt = some (match w with
        | .type v => { f with type := v }
        | .cutoff v => { f with cutoff := v }
        | .resonance v => { f with resonance := v }
        | .cutoffMod v => { f with cutoffMod := v }
        | .resMod v => { f with resMod := v }) ∧
      SameBut s t (onlyFlt s) ∧ t.resp = s.resp ∧ t.draws = s.draws

/-- R212: responds the register; changes nothing. -/
def Obligations.FltRd : Prop :=
  ∀ (s : State) (f : Flt) (reg : FltReg), s.fltAt s.sel.flt = some f →
    ∃ t, exec (.fltRd reg) s = .next t ∧
      Responds s t .flt (match reg with
        | .type => match f.type with
          | .none => 0#32
          | .lowpass => 1#32
          | .highpass => 2#32
        | .cutoff => encodeNum f.cutoff
        | .resonance => encodeNum f.resonance
        | .cutoffMod => encodeNum f.cutoffMod
        | .resMod => encodeNum f.resMod
        | .a1 => encodeNum f.coeffs.a1
        | .a2 => encodeNum f.coeffs.a2
        | .a3 => encodeNum f.coeffs.a3
        | .b1 => encodeNum f.coeffs.b1
        | .b2 => encodeNum f.coeffs.b2
        | .x1L => encodeNum f.left.x1
        | .x2L => encodeNum f.left.x2
        | .y1L => encodeNum f.left.y1
        | .y2L => encodeNum f.left.y2
        | .x1R => encodeNum f.right.x1
        | .x2R => encodeNum f.right.x2
        | .y1R => encodeNum f.right.y1
        | .y2R => encodeNum f.right.y2) ∧
      SameBut s t {} ∧ t.draws = s.draws

/-- R213, R214, R215, R216: with `0 < f < sampleRate/2`, the five coefficients are those of the effective cutoff and resonance;
nothing else changes. For type none nothing changes, at any rate, 0 and negative ones too (R216, V-FLT-6; log entry 23). The
coefficient formulas are the spec's general knowledge (log entry 27). -/
def Obligations.FltUpdate : Prop :=
  ∀ (s : State) (x : Flt) (sampleRate : Number), s.fltAt s.sel.flt = some x →
    let cut := max 0 (min 1 (x.cutoff * Config.fn.exp2 x.cutoffMod))
    let res := max 0 (min 1 (x.resonance + x.resMod / 100))
    let f := 1 + cut * (16000 - 1)
    let r := (Config.fn.sqrt2 - 1 / 10) * (1 - res) + 1 / 10
    let warp := Config.fn.tan (Config.fn.pi * f / sampleRate)
    (x.type ≠ .none → 0 < sampleRate → f < sampleRate / 2 →
      ∃ t, exec (.fltUpdate sampleRate) s = .next t ∧
        (let c := if x.type = .lowpass then 1 / warp else warp
         let sign : Number := if x.type = .lowpass then 1 else -1
         let a1 := 1 / (1 + r * c + c * c)
         t.fltAt s.sel.flt = some { x with
          coeffs := ⟨a1, sign * 2 * a1, a1, sign * 2 * (1 - c * c) * a1, (1 - r * c + c * c) * a1⟩ }) ∧
        SameBut s t (onlyFlt s) ∧ t.resp = s.resp ∧ t.draws = s.draws) ∧
    (x.type = .none →
      ∃ t, exec (.fltUpdate sampleRate) s = .next t ∧ SameBut s t {} ∧ t.resp = s.resp ∧ t.draws = s.draws)

/-- R210, R405: with a type other than none, `FLT.UPDATE` is refused exactly when `0 < f < sampleRate/2` fails; above 32000 Hz it
never is. With type none it is refused at no rate, as V-FLT-6 has it against the letter of R210 (log entry 23). -/
def Obligations.FltUpdateRefused : Prop :=
  ∀ (s : State) (x : Flt) (sampleRate : Number), s.fltAt s.sel.flt = some x →
    (x.type ≠ .none → (Refused (exec (.fltUpdate sampleRate) s) ↔
      ¬ (0 < sampleRate ∧ 1 + max 0 (min 1 (x.cutoff * Config.fn.exp2 x.cutoffMod)) * (16000 - 1) < sampleRate / 2))) ∧
    (x.type = .none → ¬ Refused (exec (.fltUpdate sampleRate) s)) ∧
    (32000 < sampleRate → ∃ t, exec (.fltUpdate sampleRate) s = .next t)

/-- R218, R216: on `n` samples of both channels the outputs satisfy the difference equation, the taps end as the last two inputs
and outputs, and the buffer beyond `n` is as before. For type none nothing changes. A longer `n` is refused whatever the type (R210).
A Voice's Filter runs on that Voice's own buffer (R44), another on the context's (log entry 24). `hist` puts the two taps before a
channel. The equation is the spec's general knowledge (log entry 27). -/
def Obligations.FltRun : Prop :=
  ∀ (s : State) (x : Flt) (b : Scratch) (n : Nat), s.fltAt s.sel.flt = some x →
    (match s.sel.flt with
      | .voice vl => (s.voiceAt vl).map (fun v => v.scratch) = some b
      | .lone => s.scratch = b
      | .template _ _ => s.scratch = b) →
    (n ≤ b.left.length → n ≤ b.right.length →
      ∃ t x' b', exec (.fltRun n) s = .next t ∧ t.fltAt s.sel.flt = some x' ∧ t.bufAt s.sel.flt.buffer = some b' ∧
        (x.type = .none → x' = x ∧ b' = b ∧ SameBut s t {}) ∧
        (x.type ≠ .none → x' = { x with left := x'.left, right := x'.right } ∧
          (let hist (older old : Number) (xs : List Number) (j : Nat) : Number := (older :: old :: xs).getD j 0
           let follows (taps taps' : Taps) (inp out : List Number) : Prop :=
            let u := hist taps.x2 taps.x1 inp
            let y := hist taps.y2 taps.y1 out
            out.length = inp.length ∧
            (∀ i, i < n → y (i + 2) = x.coeffs.a1 * u (i + 2) + x.coeffs.a2 * u (i + 1) + x.coeffs.a3 * u i
              - x.coeffs.b1 * y (i + 1) - x.coeffs.b2 * y i) ∧
            (∀ i, n ≤ i → out[i]? = inp[i]?) ∧
            taps' = ⟨u (n + 1), u n, y (n + 1), y n⟩
           follows x.left x'.left b.left b'.left ∧ follows x.right x'.right b.right b'.right)) ∧
        SameBut s t { flt := fun l => l = s.sel.flt, scratch := fun l => l = s.sel.flt.buffer } ∧ t.resp = s.resp ∧
        t.draws = s.draws) ∧
    (b.left.length < n ∨ b.right.length < n → Refused (exec (.fltRun n) s))

/-- R219: after an update of a Filter with a type, `A1 > 0`; the gain for a constant signal is 1 for lowpass and 0 for highpass;
and zero input on zero taps gives zero output and zero taps. -/
def Obligations.FltDcGain : Prop :=
  ∀ (s t : State) (x x' : Flt) (sampleRate : Number), s.fltAt s.sel.flt = some x → x.type ≠ .none →
    exec (.fltUpdate sampleRate) s = .next t → t.fltAt s.sel.flt = some x' →
      0 < x'.coeffs.a1 ∧ 0 < 1 + x'.coeffs.b1 + x'.coeffs.b2 ∧
      (x.type = .lowpass → (x'.coeffs.a1 + x'.coeffs.a2 + x'.coeffs.a3) / (1 + x'.coeffs.b1 + x'.coeffs.b2) = 1) ∧
      (x.type = .highpass → (x'.coeffs.a1 + x'.coeffs.a2 + x'.coeffs.a3) / (1 + x'.coeffs.b1 + x'.coeffs.b2) = 0) ∧
      ∀ n, runChannel x'.coeffs ⟨0, 0, 0, 0⟩ (List.replicate n 0) = (⟨0, 0, 0, 0⟩, List.replicate n 0)

/-! ### The Modulation Matrix -/

/-- R241: for slots 0 to 4 the field named holds the operand and no other field or output changes; for slot 5 and above nothing
is written. -/
def Obligations.MtxWr : Prop :=
  ∀ (s : State) (m : Mtx) (slot : Fin 32) (w : SlotWrite), s.mtxAt s.sel.mtx = some m →
    ∃ t m', exec (.mtxWr slot w) s = .next t ∧ t.mtxAt s.sel.mtx = some m' ∧ m'.mod = m.mod ∧
      (∀ j : Fin 5, j.val ≠ slot.val → m'.slots[j] = m.slots[j]) ∧
      (∀ j : Fin 5, j.val = slot.val → m'.slots[j] = (match w with
        | .enabled v => { m.slots[j] with enabled := v }
        | .source v => { m.slots[j] with source := v }
        | .secondary v => { m.slots[j] with secondary := v }
        | .dest v => { m.slots[j] with dest := v }
        | .func v => { m.slots[j] with func := v }
        | .amount v => { m.slots[j] with amount := v })) ∧
      SameBut s t (onlyMtx s) ∧ t.resp = s.resp ∧ t.draws = s.draws

/-- R242: responds a slot's field or an output and changes nothing; for slot 5 and above one word is emitted, any word (U6, log
entry 11). -/
def Obligations.MtxRd : Prop :=
  ∀ (s : State) (m : Mtx) (reg : MtxReg), s.mtxAt s.sel.mtx = some m →
    ∃ t w, exec (.mtxRd reg) s = .next t ∧ Responds s t .mtx w ∧ SameBut s t {} ∧
      (∀ d, reg = .output d → w = encodeNum (match d with
        | .filterCutoff => m.mod.filterCutoff
        | .filterResonance => m.mod.filterResonance
        | .pitch => m.mod.pitch
        | .pan => m.mod.pan
        | .amplitude => m.mod.amplitude)) ∧
      (∀ (slot : Fin 32) (f : SlotField) (j : Fin 5), reg = .field slot f → slot.val = j.val →
        w = (match f with
          | .enabled => if m.slots[j].enabled then 1#32 else 0#32
          | .source => BitVec.ofNat 32 m.slots[j].source.code
          | .secondary => BitVec.ofNat 32 m.slots[j].secondary.code
          | .dest => BitVec.ofNat 32 m.slots[j].dest.code
          | .func => BitVec.ofNat 32 m.slots[j].func.code
          | .amount => encodeNum m.slots[j].amount))

/-- R243 to R246: every output is the sum, over the enabled slots of its destination, of the combining function of
`source · secondary · amount`; the slots do not change. -/
def Obligations.MtxEval : Prop :=
  ∀ (s : State) (m : Mtx) (srcs : Sources), s.mtxAt s.sel.mtx = some m →
    ∃ t m', exec (.mtxEval srcs) s = .next t ∧ t.mtxAt s.sel.mtx = some m' ∧ m'.slots = m.slots ∧
      (let value (dflt : Number) (x : ModSrc) : Number := if x = .none then dflt else srcs.toList.getD (x.code - 1) 0
       let func (f : MathFunc) (x : Number) : Number := match f with
         | .identity => x
         | .oneMinus => 1 - x
         | .biToUni => (x + 1) / 2
         | .uniToBi => 2 * x - 1
         | .square => x ^ 2
         | .cube => x ^ 3
         | .abs => |x|
         | .neg => -x
       ∀ d, m'.mod.get d = ((m.slots.toList.filter fun sl => sl.enabled && sl.dest == d).map fun sl =>
         func sl.func (value 0 sl.source * value 1 sl.secondary * sl.amount)).sum) ∧
      SameBut s t (onlyMtx s) ∧ t.resp = s.resp ∧ t.draws = s.draws

/-! ### The Voice -/

/-- R271, R29: construction: triggered clones of the templates, the offset's start, the gate, the operands, zeros, a bipolar
draw. What `AMP_L` and `AMP_R` hold is not stated (log entry 10). -/
def Obligations.VoiceNoteOn : Prop :=
  ∀ (s : State) (note vel : Fin 128) (smp : Sample), s.sel.voice = .lone →
    s.sampleAt s.sel.newPart s.sel.newSample = some smp → 1 ≤ smp.src.numSamples →
    ∃ t v, exec (.voiceNoteOn note vel) s = .next t ∧ t.voice = some v ∧
      v.part = s.sel.newPart ∧ v.sample = s.sel.newSample ∧
      v.aeg = { smp.aeg with value := 0, state := .attack } ∧ v.eg2 = { smp.eg2 with value := 0, state := .attack } ∧
      (∀ j : Fin 3, ∃ ph hold,
        v.lfos[j] = { smp.lfos[j] with startPhase := ph, period := 0, t := 0, randHold := hold, value := 0 } ∧
          (smp.lfos[j].randphaseEn = true → 0 ≤ ph ∧ ph < 1) ∧ (smp.lfos[j].randphaseEn = false → ph = 0) ∧
          -1 ≤ hold ∧ hold < 1) ∧
      v.flt = smp.flt ∧ v.offset = (if smp.reverse then (smp.src.numSamples : Number) - 1 else 0) ∧ v.gate = true ∧
      -1 ≤ v.rnd ∧ v.rnd < 1 ∧ v.pitchMod = 0 ∧ v.panMod = 0 ∧ v.ampMod = 0 ∧ v.modCount = 0 ∧ v.note = note ∧
      v.velocity = vel ∧ SameBut s t (wholeVoice .lone) ∧ t.resp = s.resp

/-- R275: the gate is cleared and both ENVs get `NOTE_OFF`; nothing else of the Voice changes. -/
def Obligations.VoiceNoteOff : Prop :=
  ∀ (s : State) (v : Voice), s.voiceAt s.sel.voice = some v →
    ∃ t, exec .voiceNoteOff s = .next t ∧
      (let off (e : Env) : Env :=
        if e.state = .attack ∨ e.state = .decay ∨ e.state = .sustain then { e with state := .release } else e
       t.voiceAt s.sel.voice = some { v with gate := false, aeg := off v.aeg, eg2 := off v.eg2 }) ∧
      SameBut s t (wholeVoice s.sel.voice) ∧ t.resp = s.resp ∧ t.draws = s.draws

/-- R276, R43: responds the register; changes nothing. -/
def Obligations.VoiceRd : Prop :=
  ∀ (s : State) (v : Voice) (reg : VoiceReg), s.voiceAt s.sel.voice = some v →
    ∃ t, exec (.voiceRd reg) s = .next t ∧
      Responds s t .voice (match reg with
        | .offset => encodeNum v.offset
        | .gate => if v.gate then 1#32 else 0#32
        | .rnd => encodeNum v.rnd
        | .pitchMod => encodeNum v.pitchMod
        | .panMod => encodeNum v.panMod
        | .ampMod => encodeNum v.ampMod
        | .modCount => BitVec.ofNat 32 v.modCount.val
        | .ampL => encodeNum v.ampL
        | .ampR => encodeNum v.ampR
        | .note => BitVec.ofNat 32 v.note.val
        | .velocity => BitVec.ofNat 32 v.velocity.val) ∧
      SameBut s t {} ∧ t.draws = s.draws

/-- R290, with R210, R270, R73, R75: a playable Voice renders into a bus that takes the block. It responds; its identity, its
gate, its note and its random value stay; the Sample's matrix keeps its slots; the bus is as before from index `n` on; nothing
outside the Voice with its scratch buffer (R44), that matrix's outputs and that bus changes. That the outputs are written to the
Sample's one matrix is the model's choice (log entry 26). -/
def Obligations.VoiceRenderCompletes : Prop :=
  ∀ (s : State) (v : Voice) (smp : Sample) (b : Bus) (n : Nat) (sampleRate bpm : Number),
    s.voiceAt s.sel.voice = some v → s.sampleAt v.part v.sample = some smp → s.buses[s.sel.bus]? = some b →
    b.Takes n → Playable s.parts[v.part] smp v sampleRate bpm →
    ∃ t v' b' m' stop, exec (.voiceRender n sampleRate bpm) s = .next t ∧
      Responds s t .voice (if stop = true then 1#32 else 0#32) ∧
      t.voiceAt s.sel.voice = some v' ∧ v'.part = v.part ∧ v'.sample = v.sample ∧ v'.gate = v.gate ∧ v'.rnd = v.rnd ∧
      v'.note = v.note ∧ v'.velocity = v.velocity ∧
      t.mtxAt (.sample v.part v.sample) = some m' ∧ m'.slots = smp.mtx.slots ∧
      t.buses[s.sel.bus]? = some b' ∧ b'.frame = b.frame ∧ (∀ c i, n ≤ i → element b'.channels c i = element b.channels c i) ∧
      SameBut s t { wholeVoice s.sel.voice with
        mtx := fun l => l = .sample v.part v.sample
        bus := fun k => k = s.sel.bus }

/-- R280 to R284, R291 to R295, R297, R75: one sample between two modulation updates: the offset is wrapped as the play mode
says, the floored offset is fetched without interpolation, scaled by velocity and by the amplitude of the block's start, put through
`FLT.UPDATE` (to the Filter `f`) and `FLT.RUN`, and added to the bus; the offset moves by the block's speed. `o` is the offset
after loop handling. A bus takes it that has room for one sample. What is left of the Voice's buffer behind the sample is the model's
choice (log entry 24), and the difference equation the spec's general knowledge (log entry 27). -/
def Obligations.VoiceRenderOneSample : Prop :=
  ∀ (s : State) (v : Voice) (smp : Sample) (b : Bus) (sampleRate bpm o x0 x1 l r : Number) (ls rs : List Number) (k : Nat)
    (f : Flt),
    s.voiceAt s.sel.voice = some v → s.sampleAt v.part v.sample = some smp → s.buses[s.sel.bus]? = some b →
    b.enabled = true → b.channels = [l :: ls, r :: rs] → 1 ≤ b.sampleCount → 0 < sampleRate → v.modCount ≠ 0 →
    v.flt.update sampleRate = .ok f → 2 ≤ smp.src.numChannels →
    (let start : Number := smp.src.loopStart
     let stop : Number := smp.src.loopEnd
     let wrapped := if smp.reverse then (if v.offset ≤ start then v.offset + (stop - start) else v.offset)
       else if stop ≤ v.offset then v.offset - (stop - start) else v.offset
     match smp.playMode with
     | .standard => 0 ≤ v.offset ∧ v.offset < smp.src.numSamples ∧ o = v.offset
     | .shot => 0 ≤ v.offset ∧ v.offset < smp.src.numSamples ∧ o = v.offset
     | .loop => o = wrapped
     | .loopUntilRelease => v.gate = true ∧ o = wrapped) →
    ⌊o⌋ = k → k < smp.src.numSamples → smp.src.stored 0 k = some x0 → smp.src.stored 1 k = some x1 →
    ∃ t v' b', exec (.voiceRender 1 sampleRate bpm) s = .next t ∧ Responds s t .voice 0#32 ∧
      t.voiceAt s.sel.voice = some v' ∧ t.buses[s.sel.bus]? = some b' ∧
      (let part := s.parts[v.part]
       let pan := smp.pan + v.panMod
       let dom := Config.mtxDestInfo.info .amplitude
       let am := max dom.min (min dom.max v.ampMod)
       let env : Number := if smp.playMode = .shot then 1 else v.aeg.value
       let ampL := (1 - max 0 (min 1 pan) + am / 100) * smp.gain * env
       let ampR := (1 + min 0 (max (-1) pan) + am / 100) * smp.gain * env
       let semis := smp.keytrack / 100 * ((v.note.val : Number) - smp.baseNote) + v.pitchMod
         + part.pitchbend * smp.pitchbendRange + smp.detune / 100
       let speed := smp.src.sampleRate / sampleRate * Config.fn.exp2 (semis / 12)
       let u0 := x0 * (v.velocity.val / 127) * ampL
       let u1 := x1 * (v.velocity.val / 127) * ampR
       let filtered (taps : Taps) (u : Number) : Number :=
         if v.flt.type = .none then u
         else f.coeffs.a1 * u + f.coeffs.a2 * taps.x1 + f.coeffs.a3 * taps.x2 - f.coeffs.b1 * taps.y1 - f.coeffs.b2 * taps.y2
       let y0 := filtered v.flt.left u0
       let y1 := filtered v.flt.right u1
       v' = { v with
        offset := o + (if smp.reverse then -speed else speed)
        modCount := v.modCount + 1
        ampL := ampL
        ampR := ampR
        flt := if v.flt.type = .none then v.flt
          else { v.flt with
            coeffs := f.coeffs
            left := ⟨u0, v.flt.left.x1, y0, v.flt.left.y1⟩
            right := ⟨u1, v.flt.right.x1, y1, v.flt.right.y1⟩ }
        scratch := ⟨y0 :: v.scratch.left.drop 1, y1 :: v.scratch.right.drop 1⟩ } ∧
       b' = { b with channels := [(l + y0) :: ls, (r + y1) :: rs] }) ∧
      SameBut s t { wholeVoice s.sel.voice with bus := fun j => j = s.sel.bus }

/-- R286 to R289, R292, R296: a block of one sample that opens a modulation period, in any play mode, with an AEG that does not end;
in Shot it may end, and the Voice goes on. The matrix sees the values from before the step and the wrapped offset `o`, its outputs
overwrite the Voice's modulation inputs, then AEG, EG2 and the LFOs advance by `128 / sampleRate`, and the amplitude is computed
again, from the new AEG value but in Shot; the speed is that of the block's start. Where the outputs are written is log entry 26. That
the modulation wheel is controller 1 is the spec's general knowledge G5 (log entry 30), and the sources of the note, the random value
and the loop, and the amplitude, are formulas of its own decision (D40, D44; log entry 27). -/
def Obligations.VoiceRenderModulates : Prop :=
  ∀ (s : State) (v : Voice) (smp : Sample) (b : Bus) (sampleRate bpm o : Number) (aeg eg2 : Env),
    s.voiceAt s.sel.voice = some v → s.sampleAt v.part v.sample = some smp → s.buses[s.sel.bus]? = some b → b.Takes 1 →
    Playable s.parts[v.part] smp v sampleRate bpm → v.modCount = 0 →
    (let start : Number := smp.src.loopStart
     let stop : Number := smp.src.loopEnd
     let wrapped := if smp.reverse then (if v.offset ≤ start then v.offset + (stop - start) else v.offset)
       else if stop ≤ v.offset then v.offset - (stop - start) else v.offset
     match smp.playMode with
     | .standard => 0 ≤ v.offset ∧ v.offset < smp.src.numSamples ∧ o = v.offset
     | .shot => 0 ≤ v.offset ∧ v.offset < smp.src.numSamples ∧ o = v.offset
     | .loop => o = wrapped
     | .loopUntilRelease => v.gate = true ∧ o = wrapped) →
    v.aeg.step (128 / sampleRate) bpm = .ok aeg → v.eg2.step (128 / sampleRate) bpm = .ok eg2 →
    (smp.playMode = .shot ∨ aeg.state ≠ .ended) →
    ∃ t v' m', exec (.voiceRender 1 sampleRate bpm) s = .next t ∧ Responds s t .voice 0#32 ∧
      t.voiceAt s.sel.voice = some v' ∧ t.mtxAt (.sample v.part v.sample) = some m' ∧
      (let bit (c : Prop) [Decidable c] : Number := if c then 1 else 0
       let note : Number := v.note.val
       let span : Number := (smp.maxNote : Number) - smp.minNote
       m' = smp.mtx.eval
        { aeg := v.aeg.value, eg2 := v.eg2.value, lfo1 := v.lfos[0].value, lfo2 := v.lfos[1].value, lfo3 := v.lfos[2].value
          modWheel := Memory.read controllerDefault s.parts[v.part].controllers 1
          velocity := v.velocity.val / 127, absNote := note / 127
          relNote := if span = 0 then 0 else (note - smp.minNote) / span
          randomUnipolar := (v.rnd + 1) / 2, randomBipolar := v.rnd, gate := bit (v.gate = true)
          inLoop := bit (smp.src.loopStart ≤ ⌊o⌋ ∧ ⌊o⌋ < smp.src.loopEnd) }) ∧
      v'.aeg = aeg ∧ v'.eg2 = eg2 ∧
      (∀ j : Fin 3, ∃ d x, v.lfos[j].step (128 / sampleRate) bpm d = .ok x ∧ v'.lfos[j] = x.1) ∧
      v'.flt.cutoffMod = m'.mod.filterCutoff ∧ v'.flt.resMod = m'.mod.filterResonance ∧
      v'.pitchMod = m'.mod.pitch ∧ v'.panMod = m'.mod.pan ∧ v'.ampMod = m'.mod.amplitude ∧ v'.modCount = 1 ∧
      v'.offset = o + speedOf s.parts[v.part] smp v sampleRate ∧
      (let pan := smp.pan + m'.mod.pan
       let dom := Config.mtxDestInfo.info .amplitude
       let am := max dom.min (min dom.max m'.mod.amplitude)
       let env : Number := if smp.playMode = .shot then 1 else aeg.value
       v'.ampL = (1 - max 0 (min 1 pan) + am / 100) * smp.gain * env ∧
       v'.ampR = (1 + min 0 (max (-1) pan) + am / 100) * smp.gain * env)

/-- R286, R295: a block rendered to its end moves the modulation counter by its length modulo 128 and, in Standard and Shot, the
offset by its length times the speed of its start, whatever modulation happened inside it. -/
def Obligations.VoiceRenderSchedule : Prop :=
  ∀ (s t : State) (v v' : Voice) (smp : Sample) (n : Nat) (sampleRate bpm : Number),
    s.voiceAt s.sel.voice = some v → s.sampleAt v.part v.sample = some smp →
    exec (.voiceRender n sampleRate bpm) s = .next t → Responds s t .voice 0#32 → t.voiceAt s.sel.voice = some v' →
      v'.modCount.val = (v.modCount.val + n) % 128 ∧
      (smp.playMode = .standard ∨ smp.playMode = .shot →
        v'.offset = v.offset + n * speedOf s.parts[v.part] smp v sampleRate)

/-- R281, R283, R284, R290, R296: a Voice whose loop handling stops it at the block's first sample, and one in any mode but Shot
whose AEG is in End after the modulation update of that sample, respond 1 and leave every bus as it was; a stop by loop handling
comes before any modulation, so the ENVs and LFOs are as they were. R297, R298: a Voice that stops so after `m` samples of the block,
where `u0` and `u1` are these samples as they reach the bus with the Filter off, leaves every bus and its Filter's taps under
`VOICE_PARTIAL_BLOCK_ON_STOP = discard`, and under `keep` sends them through `FLT.UPDATE` and `FLT.RUN` to the bus. That under
`discard` the Filter does not run is the model's choice (log entry 13); the difference equation is log entry 27. -/
def Obligations.VoiceRenderStops : Prop :=
  ∀ (s : State) (v : Voice) (smp : Sample) (b : Bus) (n : Nat) (sampleRate bpm : Number) (aeg : Env),
    s.voiceAt s.sel.voice = some v → s.sampleAt v.part v.sample = some smp → s.buses[s.sel.bus]? = some b →
    b.Takes n → Playable s.parts[v.part] smp v sampleRate bpm →
    let outside (x : Voice) : Prop :=
      (smp.playMode = .standard ∨ smp.playMode = .shot) ∧ (x.offset < 0 ∨ (smp.src.numSamples : Number) ≤ x.offset) ∨
        smp.playMode = .loopUntilRelease ∧ x.gate = false
    let ends (x : Voice) (aeg : Env) : Prop :=
      (smp.playMode = .standard ∧ 0 ≤ x.offset ∧ x.offset < smp.src.numSamples ∨ smp.playMode = .loop ∨
        smp.playMode = .loopUntilRelease ∧ x.gate = true) ∧
      x.modCount = 0 ∧ x.aeg.step (128 / sampleRate) bpm = .ok aeg ∧ aeg.state = .ended
    (outside v → 1 ≤ n →
      ∃ t v', exec (.voiceRender n sampleRate bpm) s = .next t ∧ Responds s t .voice 1#32 ∧ t.buses = s.buses ∧
        t.voiceAt s.sel.voice = some v' ∧ v'.aeg = v.aeg ∧ v'.eg2 = v.eg2 ∧ v'.lfos = v.lfos ∧ v'.modCount = v.modCount) ∧
    (ends v aeg → 1 ≤ n →
      ∃ t v', exec (.voiceRender n sampleRate bpm) s = .next t ∧ Responds s t .voice 1#32 ∧ t.buses = s.buses ∧
        t.voiceAt s.sel.voice = some v' ∧ v'.aeg = aeg ∧ v'.modCount = 1) ∧
    (∀ (m : Nat) (t0 : State) (v0 : Voice) (b0 : Bus) (u0 u1 : List Number), m < n → u0.length = m → u1.length = m →
      exec (.voiceRender m sampleRate bpm) (s.setVoice s.sel.voice { v with flt := { v.flt with type := .none } }) = .next t0 →
      Responds s t0 .voice 0#32 → t0.voiceAt s.sel.voice = some v0 → t0.buses[s.sel.bus]? = some b0 →
      (∀ j, element b0.channels 0 j = (element b.channels 0 j).map fun x => x + u0.getD j 0) →
      (∀ j, element b0.channels 1 j = (element b.channels 1 j).map fun x => x + u1.getD j 0) →
      outside v0 ∨ ends v0 aeg →
      ∃ t v', exec (.voiceRender n sampleRate bpm) s = .next t ∧ Responds s t .voice 1#32 ∧ t.voiceAt s.sel.voice = some v' ∧
        let modulated : Flt := { v.flt with cutoffMod := v'.flt.cutoffMod, resMod := v'.flt.resMod }
        (outside v0 → v'.flt.cutoffMod = v0.flt.cutoffMod ∧ v'.flt.resMod = v0.flt.resMod) ∧
        (ends v0 aeg → v'.aeg = aeg) ∧
        (Config.keepPartialBlock = false → t.buses = s.buses ∧ v'.flt = modulated) ∧
        (Config.keepPartialBlock = true → ∃ f b', modulated.update sampleRate = .ok f ∧ t.buses[s.sel.bus]? = some b' ∧
          (let left := if f.type = .none then (f.left, u0) else runChannel f.coeffs f.left u0
           let right := if f.type = .none then (f.right, u1) else runChannel f.coeffs f.right u1
           v'.flt = { f with left := left.1, right := right.1 } ∧
           (∀ j, element b'.channels 0 j = (element b.channels 0 j).map fun x => x + left.2.getD j 0) ∧
           (∀ j, element b'.channels 1 j = (element b.channels 1 j).map fun x => x + right.2.getD j 0))))

/-! ### Part and Engine -/

/-- R321 to R323, R325, R271: one new Voice for each matching Sample, in list order, restricted to the selected ones while solo is
active; each is constructed as `VOICE.NOTE_ON` constructs one, and registered under the note after those already there; no other
Voice is touched. What `AMP_L` and `AMP_R` hold is not stated (log entry 10). -/
def Obligations.EngNoteOn : Prop :=
  ∀ (s : State) (p : Fin 16) (note vel : Fin 128),
    s.parts[p].voices.Pairwise (fun a b => a.note ≤ b.note) →
    (∀ k smp, s.sampleAt p k = some smp → 1 ≤ smp.src.numSamples) →
    ∃ t new, exec (.engNoteOn p.val note vel) s = .next t ∧
      t.parts[p].voices.filter (fun v => v.note = note) = s.parts[p].voices.filter (fun v => v.note = note) ++ new ∧
      t.parts[p].voices.filter (fun v => v.note ≠ note) = s.parts[p].voices.filter (fun v => v.note ≠ note) ∧
      new.map (fun v => v.sample) = (List.range s.parts[p].samples.length).filter (fun k =>
        match s.sampleAt p k with
        | some smp => (smp.minNote ≤ note.val && note.val ≤ smp.maxNote && smp.minVelocity ≤ vel.val
            && vel.val ≤ smp.maxVelocity) && (!s.policy.soloActive || s.policy.selected.contains (p, k))
        | none => false) ∧
      (∀ v ∈ new, v.part = p ∧ v.note = note ∧ v.velocity = vel ∧ v.gate = true ∧ v.modCount = 0 ∧
        ∃ smp, s.sampleAt p v.sample = some smp ∧ v.aeg = { smp.aeg with value := 0, state := .attack } ∧
          v.eg2 = { smp.eg2 with value := 0, state := .attack } ∧
          (∀ j : Fin 3, ∃ ph hold,
            v.lfos[j] = { smp.lfos[j] with startPhase := ph, period := 0, t := 0, randHold := hold, value := 0 } ∧
              (smp.lfos[j].randphaseEn = true → 0 ≤ ph ∧ ph < 1) ∧ (smp.lfos[j].randphaseEn = false → ph = 0) ∧
              -1 ≤ hold ∧ hold < 1) ∧
          v.flt = smp.flt ∧ v.offset = (if smp.reverse then (smp.src.numSamples : Number) - 1 else 0) ∧
          -1 ≤ v.rnd ∧ v.rnd < 1 ∧ v.pitchMod = 0 ∧ v.panMod = 0 ∧ v.ampMod = 0) ∧
      t.parts[p].samples = s.parts[p].samples ∧ SameBut s t (voicesOf p) ∧ t.resp = s.resp

/-- R324: every Voice under the note gets `VOICE.NOTE_OFF` and stays registered; the velocity does not matter; no other Voice is
touched. -/
def Obligations.EngNoteOff : Prop :=
  ∀ (s : State) (p : Fin 16) (note vel : Fin 128),
    ∃ t, (∀ vel', exec (.engNoteOff p.val note vel') s = .next t) ∧ exec (.engNoteOff p.val note vel) s = .next t ∧
      (let off (e : Env) : Env :=
        if e.state = .attack ∨ e.state = .decay ∨ e.state = .sustain then { e with state := .release } else e
       t.parts[p].voices = s.parts[p].voices.map fun v =>
        if v.note = note then { v with gate := false, aeg := off v.aeg, eg2 := off v.eg2 } else v) ∧
      SameBut s t (voicesOf p) ∧ t.resp = s.resp ∧ t.draws = s.draws

/-- R326: the Part's pitchbend is the operand; a value outside -1..1 is refused. -/
def Obligations.EngPitchbend : Prop :=
  ∀ (s : State) (p : Fin 16) (value : Number),
    (-1 ≤ value → value ≤ 1 →
      ∃ t, exec (.engPitchbend p.val value) s = .next t ∧ t.parts[p].pitchbend = value ∧
        SameBut s t { pitchbend := fun q => q = p } ∧ t.resp = s.resp ∧ t.draws = s.draws) ∧
    (value < -1 ∨ 1 < value → Refused (exec (.engPitchbend p.val value) s))

/-- R327: in a canonical controller table, the controller named holds the operand and every other is as before; a value outside
0..1 is refused. -/
def Obligations.EngCc : Prop :=
  ∀ (s : State) (p : Fin 16) (cc : Fin 256) (value : Number),
    (Memory.wf controllerDefault s.parts[p].controllers = true → 0 ≤ value → value ≤ 1 →
      ∃ t, exec (.engCc p.val cc value) s = .next t ∧
        Memory.read controllerDefault t.parts[p].controllers cc.val = value ∧
        SameBut s t { controller := fun q k => q = p ∧ k = cc.val } ∧ t.resp = s.resp ∧ t.draws = s.draws) ∧
    (value < 0 ∨ 1 < value → Refused (exec (.engCc p.val cc value) s))

/-- R320: a part index above 15 makes each of the four event commands change nothing. -/
def Obligations.EngPartOutOfRange : Prop :=
  ∀ (s : State) (part : Nat) (note vel : Fin 128) (cc : Fin 256) (bend value : Number), 15 < part → -1 ≤ bend → bend ≤ 1 →
    0 ≤ value → value ≤ 1 →
      exec (.engNoteOn part note vel) s = .next s ∧ exec (.engNoteOff part note vel) s = .next s ∧
      exec (.engPitchbend part bend) s = .next s ∧ exec (.engCc part cc value) s = .next s

/-- R330 to R333: `ENG.PROCESS` is the pass of R330 written as `VOICE.RENDER` commands, for every state: Parts in index order, each
Part's Voices in note-map order, each into its Sample's bus (bus 0 if unset) for that bus's sample count; a Voice is removed after
its Part exactly if its render answered "stop" or its bus is not usable; the response is whether any was; and a render that is refused
refuses the pass. Over playable Voices, and Voices without a usable bus, it completes: those left are some of those there were, in
the same order, and nothing outside the Parts' Voices, the outputs of the Samples' matrices and the buses' contents changes. Where
the matrix outputs are written is log entry 26. -/
def Obligations.EngProcessCompletes : Prop :=
  ∀ (s : State) (sampleRate bpm : Number),
    (match partPasses sampleRate bpm allParts s with
      | .ok x => exec (.engProcess sampleRate bpm) s
          = .next { x.1 with resp := s.resp ++ [⟨.eng, if x.2 = true then 1#32 else 0#32⟩] }
      | .error r => exec (.engProcess sampleRate bpm) s = .refused r) ∧
    ((∀ (p : Fin 16) v, v ∈ s.parts[p].voices → ProcessReady s v sampleRate bpm) →
      ∃ t dirty, exec (.engProcess sampleRate bpm) s = .next t ∧ Responds s t .eng (if dirty = true then 1#32 else 0#32) ∧
        (dirty = true ↔ ∃ p : Fin 16, t.parts[p].voices.length < s.parts[p].voices.length) ∧
        (∀ p : Fin 16, (t.parts[p].voices.map fun v => (v.part, v.sample, v.note, v.velocity, v.rnd, v.gate)).Sublist
          (s.parts[p].voices.map fun v => (v.part, v.sample, v.note, v.velocity, v.rnd, v.gate))) ∧
        (∀ p k, (t.sampleAt p k).map (fun smp => smp.mtx.slots) = (s.sampleAt p k).map fun smp => smp.mtx.slots) ∧
        SameBut s t
          { env := fun l => ∃ p i w, l = .voice (.mapped p i) w
            lfo := fun l => ∃ p i j, l = .voice (.mapped p i) j
            flt := fun l => ∃ p i, l = .voice (.mapped p i)
            mtx := fun l => ∃ p k, l = .sample p k
            voice := fun l => ∃ p i, l = .mapped p i
            bus := fun _ => True
            scratch := fun l => ∃ p i, l = .voice (.mapped p i) })

/-- R332: when no Voice has a bus in range that is enabled and has exactly two channels, `ENG.PROCESS` removes them all without
rendering: no bus, no matrix and no random draw is touched, and it responds whether there was any Voice. -/
def Obligations.EngProcessBadBus : Prop :=
  ∀ (s : State) (sampleRate bpm : Number),
    (∀ (p : Fin 16) v, v ∈ s.parts[p].voices → ∃ smp, s.sampleAt v.part v.sample = some smp ∧
      ∀ b, s.buses[smp.outputBus.getD 0]? = some b → b.enabled = false ∨ b.channels.length ≠ 2) →
    ∃ t dirty, exec (.engProcess sampleRate bpm) s = .next t ∧ Responds s t .eng (if dirty = true then 1#32 else 0#32) ∧
      (dirty = true ↔ ∃ p : Fin 16, s.parts[p].voices ≠ []) ∧ (∀ p : Fin 16, t.parts[p].voices = []) ∧
      t.buses = s.buses ∧ t.draws = s.draws ∧
      SameBut s t
        { env := fun l => ∃ p i w, l = .voice (.mapped p i) w
          lfo := fun l => ∃ p i j, l = .voice (.mapped p i) j
          flt := fun l => ∃ p i, l = .voice (.mapped p i)
          voice := fun l => ∃ p i, l = .mapped p i
          scratch := fun l => ∃ p i, l = .voice (.mapped p i) }
end

