-- ==== Sys2Proof/Laws/Binary32.lean ====
section
/-! SUPPORT. The number words: what a pattern built from an exponent step and a significand means, and that a number of the
format is carried exactly (R106, R108). -/

namespace Sys2Proof

/-- The pattern `k * 2^23 + t` stands for `t` units of `2^k`. -/
theorem binary32Units_pattern {k t : Nat} (ht : t < 2 ^ 24) (hk : k = 0 ∨ 2 ^ 23 ≤ t) :
    binary32Units ((k * 2 ^ 23 + t) / 2 ^ 23) ((k * 2 ^ 23 + t) % 2 ^ 23) = t * 2 ^ k := by
  unfold binary32Units
  by_cases h : t < 2 ^ 23
  · have hk0 : k = 0 := by omega
    subst hk0
    have h1 : (0 * 2 ^ 23 + t) / 2 ^ 23 = 0 := by omega
    have h2 : (0 * 2 ^ 23 + t) % 2 ^ 23 = t := by omega
    rw [h1, h2]; simp
  · have h1 : (k * 2 ^ 23 + t) / 2 ^ 23 = k + 1 := by omega
    have h2 : (k * 2 ^ 23 + t) % 2 ^ 23 = t - 2 ^ 23 := by omega
    rw [h1, h2]
    rw [if_neg (Nat.succ_ne_zero k), Nat.add_sub_cancel, Nat.add_sub_cancel' (Nat.le_of_not_lt h)]

/-- The exponent step `log2 m - 23` leaves a significand of at most 24 bits, all of them used above the first step. -/
theorem log2_step (m : Nat) :
    m / 2 ^ (Nat.log2 m - 23) < 2 ^ 24 ∧ (Nat.log2 m - 23 = 0 ∨ 2 ^ 23 ≤ m / 2 ^ (Nat.log2 m - 23)) := by
  rcases Nat.eq_zero_or_pos m with rfl | hm
  · decide
  · have h1 : 2 ^ Nat.log2 m ≤ m := Nat.log2_self_le (by omega)
    have h2 : m < 2 ^ (Nat.log2 m + 1) := Nat.lt_log2_self
    constructor
    · rw [Nat.div_lt_iff_lt_mul (Nat.two_pow_pos _), ← Nat.pow_add]
      exact lt_of_lt_of_le h2 (Nat.pow_le_pow_right (by norm_num) (by omega))
    · rcases Nat.eq_zero_or_pos (Nat.log2 m - 23) with h | h
      · exact .inl h
      · right
        rw [Nat.le_div_iff_mul_le (Nat.two_pow_pos _), ← Nat.pow_add]
        exact le_trans (Nat.pow_le_pow_right (by norm_num) (by omega)) h1

/-- An exact quotient is not rounded. -/
theorem roundHalfEven_exact {t d : Nat} (hd : 0 < d) : roundHalfEven (t * d) d = t := by
  unfold roundHalfEven
  simp [Nat.mul_div_cancel _ hd, hd]

/-- Below `2^277` units the exponent step is at most 253. -/
theorem log2_step_le {m : Nat} (h : m < 2 ^ 277) : Nat.log2 m - 23 ≤ 253 := by
  rcases Nat.eq_zero_or_pos m with rfl | hm
  · decide
  · have := (Nat.log2_lt (by omega)).mpr h
    omega

/-- The word whose sign bit is `s` and whose other bits are `p` reads as `±` the units of `p` over `2^149`. -/
theorem decodeNum_pattern (neg : Prop) [Decidable neg] {k t : Nat} (ht : t < 2 ^ 24) (hk : k = 0 ∨ 2 ^ 23 ≤ t) (hk' : k ≤ 253) :
    decodeNum (BitVec.ofNat 32 (if neg then 2 ^ 31 + (k * 2 ^ 23 + t) else k * 2 ^ 23 + t))
      = some (if neg then -((t * 2 ^ k : Nat) / 2 ^ 149 : Number) else ((t * 2 ^ k : Nat) / 2 ^ 149 : Number)) := by
  have hp : k * 2 ^ 23 + t < 255 * 2 ^ 23 := by omega
  have hw : (BitVec.ofNat 32 (if neg then 2 ^ 31 + (k * 2 ^ 23 + t) else k * 2 ^ 23 + t)).toNat
      = (if neg then 2 ^ 31 + (k * 2 ^ 23 + t) else k * 2 ^ 23 + t) := by
    rw [BitVec.toNat_ofNat]; apply Nat.mod_eq_of_lt; split <;> omega
  unfold decodeNum
  rw [hw]
  have he : (if neg then 2 ^ 31 + (k * 2 ^ 23 + t) else k * 2 ^ 23 + t) / 2 ^ 23 % 2 ^ 8 = (k * 2 ^ 23 + t) / 2 ^ 23 := by
    split <;> omega
  have hf : (if neg then 2 ^ 31 + (k * 2 ^ 23 + t) else k * 2 ^ 23 + t) % 2 ^ 23 = (k * 2 ^ 23 + t) % 2 ^ 23 := by
    split <;> omega
  have hs : ((if neg then 2 ^ 31 + (k * 2 ^ 23 + t) else k * 2 ^ 23 + t) / 2 ^ 31 = 1) ↔ neg := by
    split <;> rename_i hn
    · simp only [hn, iff_true]; omega
    · simp only [hn, iff_false]; omega
  have hne : (k * 2 ^ 23 + t) / 2 ^ 23 ≠ 255 := by omega
  simp only [he, hf, hs, if_neg hne, binary32Units_pattern ht hk]

/-- A number of the format is carried exactly by its word. -/
theorem decodeNum_encodeNum {q : Number} (h : isBinary32 q) : decodeNum (encodeNum q) = some q := by
  simp only [isBinary32, Bool.and_eq_true, beq_iff_eq, decide_eq_true_eq] at h
  obtain ⟨⟨hden, hulp⟩, hlt⟩ := h
  obtain ⟨c, hc⟩ := Nat.dvd_of_mod_eq_zero hden
  have hdpos : 0 < q.den := q.den_pos
  have hcdiv : 2 ^ 149 / q.den = c := by rw [hc]; exact Nat.mul_div_cancel_left _ hdpos
  rw [hcdiv] at hulp hlt
  generalize hm : q.num.natAbs * c = m at hulp hlt
  generalize hkdef : Nat.log2 m - 23 = k at hulp
  have hstep := log2_step m
  rw [hkdef] at hstep
  have hk253 : k ≤ 253 := hkdef ▸ log2_step_le hlt
  have hnum : q.num.natAbs * 2 ^ 149 = m * q.den := by rw [hc, ← hm]; ring
  have hpat : binary32Pattern (q.num.natAbs * 2 ^ 149) q.den = k * 2 ^ 23 + m / 2 ^ k := by
    unfold binary32Pattern
    have hdiv : q.num.natAbs * 2 ^ 149 / q.den = m := by rw [hnum]; exact Nat.mul_div_cancel _ hdpos
    rw [hdiv, hkdef]
    have : q.num.natAbs * 2 ^ 149 = m / 2 ^ k * (q.den * 2 ^ k) := by
      rw [hnum]; conv_lhs => rw [← hulp]
      ring
    rw [this]
    simp only
    rw [roundHalfEven_exact (Nat.mul_pos hdpos (Nat.two_pow_pos k))]
    apply Nat.min_eq_left
    unfold binary32Max
    omega
  unfold encodeNum
  rw [hpat]
  have hq : ((m / 2 ^ k * 2 ^ k : Nat) / 2 ^ 149 : Number) = |q| := by
    rw [hulp]
    have h149 : (2 ^ 149 : Number) = (q.den : Number) * c := by exact_mod_cast hc
    have hcne : (c : Number) ≠ 0 := by
      intro h0
      rw [h0, mul_zero] at h149
      norm_num at h149
    have hdne : (q.den : Number) ≠ 0 := by exact_mod_cast hdpos.ne'
    rw [← hm, h149]
    conv_rhs => rw [← Rat.num_div_den q]
    rw [abs_div, Nat.abs_cast, ← Int.cast_abs, Int.abs_eq_natAbs, Int.cast_natCast, Nat.cast_mul,
      mul_div_mul_right _ _ hcne]
  have := decodeNum_pattern (q.num < 0 ∧ k * 2 ^ 23 + m / 2 ^ k ≠ 0) hstep.1 hstep.2 hk253
  rw [this]
  congr 1
  rw [hq]
  split
  · rename_i hh
    rw [abs_of_neg (Rat.num_neg.mp hh.1)]; ring
  · rename_i hh
    rw [not_and_or, not_lt, not_not] at hh
    rcases hh with hh | hh
    · exact abs_of_nonneg (Rat.num_nonneg.mp hh)
    · have : m / 2 ^ k = 0 := by omega
      rw [this] at hq
      simp only [zero_mul, Nat.cast_zero, zero_div] at hq
      have : q = 0 := abs_eq_zero.mp hq.symm
      simp [this]

end Sys2Proof
end

