-- ==== Sys2Proof/Laws/Encoding.lean ====
section
/-! SUPPORT. A header gives back its fields, every code and index gives back its name, and the shape a command's own header has
(R101 to R105). -/

namespace Sys2Proof

theorem UnitCode.code_lt (u : UnitCode) : u.code < 6 := by cases u <;> decide

/-- The header's fields are those it was made of (R101). -/
theorem header_fields (u : UnitCode) {op idx : Nat} (ho : op < 16) (hi : idx < 256) :
    headerUnit (header u op idx) = u.code ∧ headerOp (header u op idx) = op ∧ headerIdx (header u op idx) = idx ∧
      headerZero (header u op idx) = 0 := by
  have hu := u.code_lt
  have hlt : u.code * 2 ^ 28 + op * 2 ^ 24 + idx * 2 ^ 16 < 2 ^ 32 := by omega
  unfold headerUnit headerOp headerIdx headerZero header
  rw [BitVec.toNat_ofNat, Nat.mod_eq_of_lt hlt]
  omega

/-- The shape of a header is that of its fields (R105). -/
theorem headerShape_header (u : UnitCode) {op idx : Nat} (ho : op < 16) (hi : idx < 256) :
    headerShape (header u op idx) = shapeOf u.code op idx := by
  obtain ⟨h1, h2, h3, h4⟩ := header_fields u ho hi
  simp [headerShape, h1, h2, h3, h4]

/-! ### Codes and indices give their names back -/

@[simp] theorem Waveform.ofCode_code (x : Waveform) : Waveform.ofCode x.code = some x := by cases x <;> rfl
@[simp] theorem FilterType.ofCode_code (x : FilterType) : FilterType.ofCode x.code = some x := by cases x <;> rfl
@[simp] theorem ModSrc.ofCode_code (x : ModSrc) : ModSrc.ofCode x.code = some x := by cases x <;> rfl
@[simp] theorem ModDest.ofCode_code (x : ModDest) : ModDest.ofCode x.code = some x := by cases x <;> rfl
@[simp] theorem MathFunc.ofCode_code (x : MathFunc) : MathFunc.ofCode x.code = some x := by cases x <;> rfl
@[simp] theorem PlayMode.ofCode_code (x : PlayMode) : PlayMode.ofCode x.code = some x := by cases x <;> rfl
@[simp] theorem EnvParam.ofIdx_idx (x : EnvParam) : EnvParam.ofIdx x.idx = some x := by cases x <;> rfl
@[simp] theorem EnvReg.ofIdx_idx (x : EnvReg) : EnvReg.ofIdx x.idx = some x := by cases x <;> rfl
@[simp] theorem LfoReg.ofIdx_idx (x : LfoReg) : LfoReg.ofIdx x.idx = some x := by
  cases x with
  | cfg c => cases c <;> rfl
  | run r => cases r <;> rfl
@[simp] theorem LfoReg.ofIdx_cfg (c : LfoCfg) : LfoReg.ofIdx c.idx = some (.cfg c) := by cases c <;> rfl
@[simp] theorem FltReg.ofIdx_idx (x : FltReg) : FltReg.ofIdx x.idx = some x := by cases x <;> rfl
@[simp] theorem SlotField.ofIdx_idx (x : SlotField) : SlotField.ofIdx x.idx = some x := by cases x <;> rfl
@[simp] theorem VoiceReg.ofIdx_idx (x : VoiceReg) : VoiceReg.ofIdx x.idx = some x := by cases x <;> rfl

theorem EnvParam.idx_lt (x : EnvParam) : x.idx < 256 := by cases x <;> decide
theorem EnvReg.idx_lt (x : EnvReg) : x.idx < 256 := by cases x <;> decide
theorem LfoCfg.idx_lt (x : LfoCfg) : x.idx < 256 := by cases x <;> decide
theorem LfoReg.idx_lt (x : LfoReg) : x.idx < 256 := by
  cases x with
  | cfg c => exact c.idx_lt
  | run r => cases r <;> decide
theorem FltWrite.idx_lt (x : FltWrite) : x.idx < 256 := by cases x <;> simp [FltWrite.idx]
theorem FltReg.idx_lt (x : FltReg) : x.idx < 256 := by cases x <;> decide
theorem SlotField.idx_lt (x : SlotField) : x.idx < 6 := by cases x <;> decide
theorem VoiceReg.idx_lt (x : VoiceReg) : x.idx < 256 := by cases x <;> decide
theorem ModDest.code_lt (x : ModDest) : x.code < 5 := by cases x <;> decide

theorem slotIdx_lt (k : Fin 32) (f : SlotField) : 8 * k.val + f.idx < 256 := by
  have := f.idx_lt; omega

theorem MtxReg.idx_lt (x : MtxReg) : x.idx < 256 := by
  cases x with
  | field k f => exact slotIdx_lt k f
  | output d => have := d.code_lt; simp only [MtxReg.idx]; omega

@[simp] theorem slotIdx_mod (k : Fin 32) (f : SlotField) : (8 * k.val + f.idx) % 8 = f.idx := by
  have := f.idx_lt; omega

@[simp] theorem slotOfIdx_slotIdx (k : Fin 32) (f : SlotField) : slotOfIdx (8 * k.val + f.idx) = k := by
  have := f.idx_lt
  apply Fin.ext
  simp only [slotOfIdx, Fin.ofNat]
  omega

/-- An index of the matrix names one register, whichever it is. -/
theorem MtxReg.ofIdx_idx_isSome (x : MtxReg) : (MtxReg.ofIdx x.idx).isSome := by
  cases x with
  | field k f =>
    show (MtxReg.ofIdx (8 * k.val + f.idx)).isSome
    have hm := slotIdx_mod k f
    generalize 8 * k.val + f.idx = n at hm
    unfold MtxReg.ofIdx
    by_cases h : 64 ≤ n ∧ n ≤ 68
    · rw [if_pos h]
      obtain ⟨h1, h2⟩ := h
      interval_cases n <;> rfl
    · rw [if_neg h, hm]; simp
  | output d => cases d <;> rfl

theorem decodeInt_encodeInt {n : Nat} (h : n < 2 ^ 32) : decodeInt (encodeInt n) = n := by
  unfold decodeInt encodeInt; rw [BitVec.toNat_ofNat]; exact Nat.mod_eq_of_lt h

@[simp] theorem decodeBool_encodeBool (b : Bool) : decodeBool (encodeBool b) = some b := by cases b <;> rfl

theorem decodeSeven_encodeInt (n : Fin 128) : decodeSeven (encodeInt n.val) = some n := by
  have h : (encodeInt n.val).toNat = n.val := decodeInt_encodeInt (by omega)
  simp [decodeSeven, h]

theorem decodeCc_encodeInt (n : Fin 256) : decodeCc (encodeInt n.val) = some n := by
  have h : (encodeInt n.val).toNat = n.val := decodeInt_encodeInt (by omega)
  simp [decodeCc, h]

end Sys2Proof
end

