-- ==== Sys2Proof/Laws/State.lean ====
section
/-! SUPPORT. One lemma for each field and each update of State, so that no later proof unfolds a record update. -/

namespace Sys2Proof.Machine

variable (s : State)

/-! ### emit and respond -/

@[simp] theorem State.emit_env (u : UnitCode) (w : Word) : (s.emit u w).env = s.env := rfl
@[simp] theorem State.emit_lfo (u : UnitCode) (w : Word) : (s.emit u w).lfo = s.lfo := rfl
@[simp] theorem State.emit_flt (u : UnitCode) (w : Word) : (s.emit u w).flt = s.flt := rfl
@[simp] theorem State.emit_mtx (u : UnitCode) (w : Word) : (s.emit u w).mtx = s.mtx := rfl
@[simp] theorem State.emit_voice (u : UnitCode) (w : Word) : (s.emit u w).voice = s.voice := rfl
@[simp] theorem State.emit_parts (u : UnitCode) (w : Word) : (s.emit u w).parts = s.parts := rfl
@[simp] theorem State.emit_scratch (u : UnitCode) (w : Word) : (s.emit u w).scratch = s.scratch := rfl
@[simp] theorem State.emit_buses (u : UnitCode) (w : Word) : (s.emit u w).buses = s.buses := rfl
@[simp] theorem State.emit_policy (u : UnitCode) (w : Word) : (s.emit u w).policy = s.policy := rfl
@[simp] theorem State.emit_sel (u : UnitCode) (w : Word) : (s.emit u w).sel = s.sel := rfl
@[simp] theorem State.emit_draws (u : UnitCode) (w : Word) : (s.emit u w).draws = s.draws := rfl
@[simp] theorem State.emit_cmd (u : UnitCode) (w : Word) : (s.emit u w).cmd = s.cmd := rfl
@[simp] theorem State.emit_resp (u : UnitCode) (w : Word) : (s.emit u w).resp = s.resp ++ [⟨u, w⟩] := rfl

@[simp] theorem State.respond_env (u : UnitCode) (rd : Reading) : (s.respond u rd).env = s.env := rfl
@[simp] theorem State.respond_lfo (u : UnitCode) (rd : Reading) : (s.respond u rd).lfo = s.lfo := rfl
@[simp] theorem State.respond_flt (u : UnitCode) (rd : Reading) : (s.respond u rd).flt = s.flt := rfl
@[simp] theorem State.respond_mtx (u : UnitCode) (rd : Reading) : (s.respond u rd).mtx = s.mtx := rfl
@[simp] theorem State.respond_voice (u : UnitCode) (rd : Reading) : (s.respond u rd).voice = s.voice := rfl
@[simp] theorem State.respond_parts (u : UnitCode) (rd : Reading) : (s.respond u rd).parts = s.parts := rfl
@[simp] theorem State.respond_scratch (u : UnitCode) (rd : Reading) : (s.respond u rd).scratch = s.scratch := rfl
@[simp] theorem State.respond_buses (u : UnitCode) (rd : Reading) : (s.respond u rd).buses = s.buses := rfl
@[simp] theorem State.respond_policy (u : UnitCode) (rd : Reading) : (s.respond u rd).policy = s.policy := rfl
@[simp] theorem State.respond_sel (u : UnitCode) (rd : Reading) : (s.respond u rd).sel = s.sel := rfl
@[simp] theorem State.respond_draws (u : UnitCode) (rd : Reading) : (s.respond u rd).draws = s.draws := rfl
@[simp] theorem State.respond_cmd (u : UnitCode) (rd : Reading) : (s.respond u rd).cmd = s.cmd := rfl
@[simp] theorem State.respond_resp (u : UnitCode) (rd : Reading) : (s.respond u rd).resp = s.resp ++ [⟨u, readingWord rd⟩] := rfl

/-! ### setPart -/

@[simp] theorem State.setPart_env (p : Fin 16) (x : Part) : (s.setPart p x).env = s.env := rfl
@[simp] theorem State.setPart_lfo (p : Fin 16) (x : Part) : (s.setPart p x).lfo = s.lfo := rfl
@[simp] theorem State.setPart_flt (p : Fin 16) (x : Part) : (s.setPart p x).flt = s.flt := rfl
@[simp] theorem State.setPart_mtx (p : Fin 16) (x : Part) : (s.setPart p x).mtx = s.mtx := rfl
@[simp] theorem State.setPart_voice (p : Fin 16) (x : Part) : (s.setPart p x).voice = s.voice := rfl
@[simp] theorem State.setPart_parts (p : Fin 16) (x : Part) : (s.setPart p x).parts = s.parts.set p x := rfl
@[simp] theorem State.setPart_scratch (p : Fin 16) (x : Part) : (s.setPart p x).scratch = s.scratch := rfl
@[simp] theorem State.setPart_buses (p : Fin 16) (x : Part) : (s.setPart p x).buses = s.buses := rfl
@[simp] theorem State.setPart_policy (p : Fin 16) (x : Part) : (s.setPart p x).policy = s.policy := rfl
@[simp] theorem State.setPart_sel (p : Fin 16) (x : Part) : (s.setPart p x).sel = s.sel := rfl
@[simp] theorem State.setPart_draws (p : Fin 16) (x : Part) : (s.setPart p x).draws = s.draws := rfl
@[simp] theorem State.setPart_cmd (p : Fin 16) (x : Part) : (s.setPart p x).cmd = s.cmd := rfl
@[simp] theorem State.setPart_resp (p : Fin 16) (x : Part) : (s.setPart p x).resp = s.resp := rfl

/-! ### setVoices -/

@[simp] theorem State.setVoices_env (p : Fin 16) (vs : List Voice) : (s.setVoices p vs).env = s.env := rfl
@[simp] theorem State.setVoices_lfo (p : Fin 16) (vs : List Voice) : (s.setVoices p vs).lfo = s.lfo := rfl
@[simp] theorem State.setVoices_flt (p : Fin 16) (vs : List Voice) : (s.setVoices p vs).flt = s.flt := rfl
@[simp] theorem State.setVoices_mtx (p : Fin 16) (vs : List Voice) : (s.setVoices p vs).mtx = s.mtx := rfl
@[simp] theorem State.setVoices_voice (p : Fin 16) (vs : List Voice) : (s.setVoices p vs).voice = s.voice := rfl
@[simp] theorem State.setVoices_scratch (p : Fin 16) (vs : List Voice) : (s.setVoices p vs).scratch = s.scratch := rfl
@[simp] theorem State.setVoices_buses (p : Fin 16) (vs : List Voice) : (s.setVoices p vs).buses = s.buses := rfl
@[simp] theorem State.setVoices_policy (p : Fin 16) (vs : List Voice) : (s.setVoices p vs).policy = s.policy := rfl
@[simp] theorem State.setVoices_sel (p : Fin 16) (vs : List Voice) : (s.setVoices p vs).sel = s.sel := rfl
@[simp] theorem State.setVoices_draws (p : Fin 16) (vs : List Voice) : (s.setVoices p vs).draws = s.draws := rfl
@[simp] theorem State.setVoices_cmd (p : Fin 16) (vs : List Voice) : (s.setVoices p vs).cmd = s.cmd := rfl
@[simp] theorem State.setVoices_resp (p : Fin 16) (vs : List Voice) : (s.setVoices p vs).resp = s.resp := rfl
@[simp] theorem State.setVoices_parts (p : Fin 16) (vs : List Voice) :
    (s.setVoices p vs).parts = s.parts.set p { s.parts[p] with voices := vs } := rfl

/-! ### setSample -/

@[simp] theorem State.setSample_env (p : Fin 16) (k : Nat) (smp : Sample) : (s.setSample p k smp).env = s.env := rfl
@[simp] theorem State.setSample_lfo (p : Fin 16) (k : Nat) (smp : Sample) : (s.setSample p k smp).lfo = s.lfo := rfl
@[simp] theorem State.setSample_flt (p : Fin 16) (k : Nat) (smp : Sample) : (s.setSample p k smp).flt = s.flt := rfl
@[simp] theorem State.setSample_mtx (p : Fin 16) (k : Nat) (smp : Sample) : (s.setSample p k smp).mtx = s.mtx := rfl
@[simp] theorem State.setSample_voice (p : Fin 16) (k : Nat) (smp : Sample) : (s.setSample p k smp).voice = s.voice := rfl
@[simp] theorem State.setSample_scratch (p : Fin 16) (k : Nat) (smp : Sample) : (s.setSample p k smp).scratch = s.scratch := rfl
@[simp] theorem State.setSample_buses (p : Fin 16) (k : Nat) (smp : Sample) : (s.setSample p k smp).buses = s.buses := rfl
@[simp] theorem State.setSample_policy (p : Fin 16) (k : Nat) (smp : Sample) : (s.setSample p k smp).policy = s.policy := rfl
@[simp] theorem State.setSample_sel (p : Fin 16) (k : Nat) (smp : Sample) : (s.setSample p k smp).sel = s.sel := rfl
@[simp] theorem State.setSample_draws (p : Fin 16) (k : Nat) (smp : Sample) : (s.setSample p k smp).draws = s.draws := rfl
@[simp] theorem State.setSample_cmd (p : Fin 16) (k : Nat) (smp : Sample) : (s.setSample p k smp).cmd = s.cmd := rfl
@[simp] theorem State.setSample_resp (p : Fin 16) (k : Nat) (smp : Sample) : (s.setSample p k smp).resp = s.resp := rfl

/-! ### setVoice -/

@[simp] theorem State.setVoice_voice (v : Voice) : (s.setVoice .lone v).voice = some v := rfl
@[simp] theorem State.setVoice_voice_mapped (p : Fin 16) (i : Nat) (v : Voice) :
    (s.setVoice (.mapped p i) v).voice = s.voice := rfl
@[simp] theorem State.setVoice_parts (v : Voice) : (s.setVoice .lone v).parts = s.parts := rfl
@[simp] theorem State.setVoice_env (l : VoiceLoc) (v : Voice) : (s.setVoice l v).env = s.env := by cases l <;> rfl
@[simp] theorem State.setVoice_lfo (l : VoiceLoc) (v : Voice) : (s.setVoice l v).lfo = s.lfo := by cases l <;> rfl
@[simp] theorem State.setVoice_flt (l : VoiceLoc) (v : Voice) : (s.setVoice l v).flt = s.flt := by cases l <;> rfl
@[simp] theorem State.setVoice_mtx (l : VoiceLoc) (v : Voice) : (s.setVoice l v).mtx = s.mtx := by cases l <;> rfl
@[simp] theorem State.setVoice_scratch (l : VoiceLoc) (v : Voice) : (s.setVoice l v).scratch = s.scratch := by cases l <;> rfl
@[simp] theorem State.setVoice_buses (l : VoiceLoc) (v : Voice) : (s.setVoice l v).buses = s.buses := by cases l <;> rfl
@[simp] theorem State.setVoice_policy (l : VoiceLoc) (v : Voice) : (s.setVoice l v).policy = s.policy := by cases l <;> rfl
@[simp] theorem State.setVoice_sel (l : VoiceLoc) (v : Voice) : (s.setVoice l v).sel = s.sel := by cases l <;> rfl
@[simp] theorem State.setVoice_draws (l : VoiceLoc) (v : Voice) : (s.setVoice l v).draws = s.draws := by cases l <;> rfl
@[simp] theorem State.setVoice_cmd (l : VoiceLoc) (v : Voice) : (s.setVoice l v).cmd = s.cmd := by cases l <;> rfl
@[simp] theorem State.setVoice_resp (l : VoiceLoc) (v : Voice) : (s.setVoice l v).resp = s.resp := by cases l <;> rfl

/-! ### setEnv -/

@[simp] theorem State.setEnv_lfo (l : EnvLoc) (x : Env) : (s.setEnv l x).lfo = s.lfo := by
  cases l <;> unfold State.setEnv <;> (repeat' split) <;> simp_all
@[simp] theorem State.setEnv_flt (l : EnvLoc) (x : Env) : (s.setEnv l x).flt = s.flt := by
  cases l <;> unfold State.setEnv <;> (repeat' split) <;> simp_all
@[simp] theorem State.setEnv_mtx (l : EnvLoc) (x : Env) : (s.setEnv l x).mtx = s.mtx := by
  cases l <;> unfold State.setEnv <;> (repeat' split) <;> simp_all
@[simp] theorem State.setEnv_scratch (l : EnvLoc) (x : Env) : (s.setEnv l x).scratch = s.scratch := by
  cases l <;> unfold State.setEnv <;> (repeat' split) <;> simp_all
@[simp] theorem State.setEnv_buses (l : EnvLoc) (x : Env) : (s.setEnv l x).buses = s.buses := by
  cases l <;> unfold State.setEnv <;> (repeat' split) <;> simp_all
@[simp] theorem State.setEnv_policy (l : EnvLoc) (x : Env) : (s.setEnv l x).policy = s.policy := by
  cases l <;> unfold State.setEnv <;> (repeat' split) <;> simp_all
@[simp] theorem State.setEnv_sel (l : EnvLoc) (x : Env) : (s.setEnv l x).sel = s.sel := by
  cases l <;> unfold State.setEnv <;> (repeat' split) <;> simp_all
@[simp] theorem State.setEnv_draws (l : EnvLoc) (x : Env) : (s.setEnv l x).draws = s.draws := by
  cases l <;> unfold State.setEnv <;> (repeat' split) <;> simp_all
@[simp] theorem State.setEnv_cmd (l : EnvLoc) (x : Env) : (s.setEnv l x).cmd = s.cmd := by
  cases l <;> unfold State.setEnv <;> (repeat' split) <;> simp_all
@[simp] theorem State.setEnv_resp (l : EnvLoc) (x : Env) : (s.setEnv l x).resp = s.resp := by
  cases l <;> unfold State.setEnv <;> (repeat' split) <;> simp_all
@[simp] theorem State.setEnv_env_lone (x : Env) : (s.setEnv .lone x).env = x := rfl

/-! ### setLfo -/

@[simp] theorem State.setLfo_env (l : LfoLoc) (x : Lfo) : (s.setLfo l x).env = s.env := by
  cases l <;> unfold State.setLfo <;> (repeat' split) <;> simp_all
@[simp] theorem State.setLfo_flt (l : LfoLoc) (x : Lfo) : (s.setLfo l x).flt = s.flt := by
  cases l <;> unfold State.setLfo <;> (repeat' split) <;> simp_all
@[simp] theorem State.setLfo_mtx (l : LfoLoc) (x : Lfo) : (s.setLfo l x).mtx = s.mtx := by
  cases l <;> unfold State.setLfo <;> (repeat' split) <;> simp_all
@[simp] theorem State.setLfo_scratch (l : LfoLoc) (x : Lfo) : (s.setLfo l x).scratch = s.scratch := by
  cases l <;> unfold State.setLfo <;> (repeat' split) <;> simp_all
@[simp] theorem State.setLfo_buses (l : LfoLoc) (x : Lfo) : (s.setLfo l x).buses = s.buses := by
  cases l <;> unfold State.setLfo <;> (repeat' split) <;> simp_all
@[simp] theorem State.setLfo_policy (l : LfoLoc) (x : Lfo) : (s.setLfo l x).policy = s.policy := by
  cases l <;> unfold State.setLfo <;> (repeat' split) <;> simp_all
@[simp] theorem State.setLfo_sel (l : LfoLoc) (x : Lfo) : (s.setLfo l x).sel = s.sel := by
  cases l <;> unfold State.setLfo <;> (repeat' split) <;> simp_all
@[simp] theorem State.setLfo_draws (l : LfoLoc) (x : Lfo) : (s.setLfo l x).draws = s.draws := by
  cases l <;> unfold State.setLfo <;> (repeat' split) <;> simp_all
@[simp] theorem State.setLfo_cmd (l : LfoLoc) (x : Lfo) : (s.setLfo l x).cmd = s.cmd := by
  cases l <;> unfold State.setLfo <;> (repeat' split) <;> simp_all
@[simp] theorem State.setLfo_resp (l : LfoLoc) (x : Lfo) : (s.setLfo l x).resp = s.resp := by
  cases l <;> unfold State.setLfo <;> (repeat' split) <;> simp_all
@[simp] theorem State.setLfo_lfo_lone (x : Lfo) : (s.setLfo .lone x).lfo = x := rfl

/-! ### setFlt -/

@[simp] theorem State.setFlt_env (l : FltLoc) (x : Flt) : (s.setFlt l x).env = s.env := by
  cases l <;> unfold State.setFlt <;> (repeat' split) <;> simp_all
@[simp] theorem State.setFlt_lfo (l : FltLoc) (x : Flt) : (s.setFlt l x).lfo = s.lfo := by
  cases l <;> unfold State.setFlt <;> (repeat' split) <;> simp_all
@[simp] theorem State.setFlt_mtx (l : FltLoc) (x : Flt) : (s.setFlt l x).mtx = s.mtx := by
  cases l <;> unfold State.setFlt <;> (repeat' split) <;> simp_all
@[simp] theorem State.setFlt_scratch (l : FltLoc) (x : Flt) : (s.setFlt l x).scratch = s.scratch := by
  cases l <;> unfold State.setFlt <;> (repeat' split) <;> simp_all
@[simp] theorem State.setFlt_buses (l : FltLoc) (x : Flt) : (s.setFlt l x).buses = s.buses := by
  cases l <;> unfold State.setFlt <;> (repeat' split) <;> simp_all
@[simp] theorem State.setFlt_policy (l : FltLoc) (x : Flt) : (s.setFlt l x).policy = s.policy := by
  cases l <;> unfold State.setFlt <;> (repeat' split) <;> simp_all
@[simp] theorem State.setFlt_sel (l : FltLoc) (x : Flt) : (s.setFlt l x).sel = s.sel := by
  cases l <;> unfold State.setFlt <;> (repeat' split) <;> simp_all
@[simp] theorem State.setFlt_draws (l : FltLoc) (x : Flt) : (s.setFlt l x).draws = s.draws := by
  cases l <;> unfold State.setFlt <;> (repeat' split) <;> simp_all
@[simp] theorem State.setFlt_cmd (l : FltLoc) (x : Flt) : (s.setFlt l x).cmd = s.cmd := by
  cases l <;> unfold State.setFlt <;> (repeat' split) <;> simp_all
@[simp] theorem State.setFlt_resp (l : FltLoc) (x : Flt) : (s.setFlt l x).resp = s.resp := by
  cases l <;> unfold State.setFlt <;> (repeat' split) <;> simp_all
@[simp] theorem State.setFlt_flt_lone (x : Flt) : (s.setFlt .lone x).flt = x := rfl

/-! ### setBuf -/

@[simp] theorem State.setBuf_env (l : BufLoc) (x : Scratch) : (s.setBuf l x).env = s.env := by
  cases l <;> unfold State.setBuf <;> (repeat' split) <;> simp_all
@[simp] theorem State.setBuf_lfo (l : BufLoc) (x : Scratch) : (s.setBuf l x).lfo = s.lfo := by
  cases l <;> unfold State.setBuf <;> (repeat' split) <;> simp_all
@[simp] theorem State.setBuf_flt (l : BufLoc) (x : Scratch) : (s.setBuf l x).flt = s.flt := by
  cases l <;> unfold State.setBuf <;> (repeat' split) <;> simp_all
@[simp] theorem State.setBuf_mtx (l : BufLoc) (x : Scratch) : (s.setBuf l x).mtx = s.mtx := by
  cases l <;> unfold State.setBuf <;> (repeat' split) <;> simp_all
@[simp] theorem State.setBuf_buses (l : BufLoc) (x : Scratch) : (s.setBuf l x).buses = s.buses := by
  cases l <;> unfold State.setBuf <;> (repeat' split) <;> simp_all
@[simp] theorem State.setBuf_policy (l : BufLoc) (x : Scratch) : (s.setBuf l x).policy = s.policy := by
  cases l <;> unfold State.setBuf <;> (repeat' split) <;> simp_all
@[simp] theorem State.setBuf_sel (l : BufLoc) (x : Scratch) : (s.setBuf l x).sel = s.sel := by
  cases l <;> unfold State.setBuf <;> (repeat' split) <;> simp_all
@[simp] theorem State.setBuf_draws (l : BufLoc) (x : Scratch) : (s.setBuf l x).draws = s.draws := by
  cases l <;> unfold State.setBuf <;> (repeat' split) <;> simp_all
@[simp] theorem State.setBuf_cmd (l : BufLoc) (x : Scratch) : (s.setBuf l x).cmd = s.cmd := by
  cases l <;> unfold State.setBuf <;> (repeat' split) <;> simp_all
@[simp] theorem State.setBuf_resp (l : BufLoc) (x : Scratch) : (s.setBuf l x).resp = s.resp := by
  cases l <;> unfold State.setBuf <;> (repeat' split) <;> simp_all

/-! ### setMtx -/

@[simp] theorem State.setMtx_env (l : MtxLoc) (x : Mtx) : (s.setMtx l x).env = s.env := by
  cases l <;> unfold State.setMtx <;> (repeat' split) <;> simp_all
@[simp] theorem State.setMtx_lfo (l : MtxLoc) (x : Mtx) : (s.setMtx l x).lfo = s.lfo := by
  cases l <;> unfold State.setMtx <;> (repeat' split) <;> simp_all
@[simp] theorem State.setMtx_flt (l : MtxLoc) (x : Mtx) : (s.setMtx l x).flt = s.flt := by
  cases l <;> unfold State.setMtx <;> (repeat' split) <;> simp_all
@[simp] theorem State.setMtx_scratch (l : MtxLoc) (x : Mtx) : (s.setMtx l x).scratch = s.scratch := by
  cases l <;> unfold State.setMtx <;> (repeat' split) <;> simp_all
@[simp] theorem State.setMtx_buses (l : MtxLoc) (x : Mtx) : (s.setMtx l x).buses = s.buses := by
  cases l <;> unfold State.setMtx <;> (repeat' split) <;> simp_all
@[simp] theorem State.setMtx_policy (l : MtxLoc) (x : Mtx) : (s.setMtx l x).policy = s.policy := by
  cases l <;> unfold State.setMtx <;> (repeat' split) <;> simp_all
@[simp] theorem State.setMtx_sel (l : MtxLoc) (x : Mtx) : (s.setMtx l x).sel = s.sel := by
  cases l <;> unfold State.setMtx <;> (repeat' split) <;> simp_all
@[simp] theorem State.setMtx_draws (l : MtxLoc) (x : Mtx) : (s.setMtx l x).draws = s.draws := by
  cases l <;> unfold State.setMtx <;> (repeat' split) <;> simp_all
@[simp] theorem State.setMtx_cmd (l : MtxLoc) (x : Mtx) : (s.setMtx l x).cmd = s.cmd := by
  cases l <;> unfold State.setMtx <;> (repeat' split) <;> simp_all
@[simp] theorem State.setMtx_resp (l : MtxLoc) (x : Mtx) : (s.setMtx l x).resp = s.resp := by
  cases l <;> unfold State.setMtx <;> (repeat' split) <;> simp_all
@[simp] theorem State.setMtx_mtx_lone (x : Mtx) : (s.setMtx .lone x).mtx = x := rfl

/-! ### withFetchWord -/

@[simp] theorem State.withFetchWord_env (nbits w : Nat) : (s.withFetchWord nbits w).env = s.env := rfl
@[simp] theorem State.withFetchWord_lfo (nbits w : Nat) : (s.withFetchWord nbits w).lfo = s.lfo := rfl
@[simp] theorem State.withFetchWord_flt (nbits w : Nat) : (s.withFetchWord nbits w).flt = s.flt := rfl
@[simp] theorem State.withFetchWord_mtx (nbits w : Nat) : (s.withFetchWord nbits w).mtx = s.mtx := rfl
@[simp] theorem State.withFetchWord_voice (nbits w : Nat) : (s.withFetchWord nbits w).voice = s.voice := rfl
@[simp] theorem State.withFetchWord_parts (nbits w : Nat) : (s.withFetchWord nbits w).parts = s.parts := rfl
@[simp] theorem State.withFetchWord_scratch (nbits w : Nat) : (s.withFetchWord nbits w).scratch = s.scratch := rfl
@[simp] theorem State.withFetchWord_buses (nbits w : Nat) : (s.withFetchWord nbits w).buses = s.buses := rfl
@[simp] theorem State.withFetchWord_policy (nbits w : Nat) : (s.withFetchWord nbits w).policy = s.policy := rfl
@[simp] theorem State.withFetchWord_sel (nbits w : Nat) : (s.withFetchWord nbits w).sel =
    { s.sel with envAlone := s.sel.envAlone && !foreignHeader (tableWords nbits w) } := rfl
@[simp] theorem State.withFetchWord_draws (nbits w : Nat) : (s.withFetchWord nbits w).draws = s.draws := rfl
@[simp] theorem State.withFetchWord_cmd (nbits w : Nat) : (s.withFetchWord nbits w).cmd = tableWords nbits w ++ s.cmd.drop maxWords := rfl
@[simp] theorem State.withFetchWord_resp (nbits w : Nat) : (s.withFetchWord nbits w).resp = s.resp := rfl

end Sys2Proof.Machine
end

