-- ==== Sys2Proof/Laws/Frame.lean ====
section
/-! SUPPORT. Reading an instance back after an update, and the frame of every operation that replaces an instance. -/

namespace Sys2Proof.Machine

variable (s : State)

/-! ### Parts, Samples, Voices -/

theorem State.setPart_get (p q : Fin 16) (x : Part) : (s.setPart p x).parts[q] = if q = p then x else s.parts[q] := by
  simp only [State.setPart, Fin.getElem_fin, Vector.getElem_set]
  by_cases h : q = p
  · subst h; simp
  · have : (p : Nat) ≠ q := fun e => h (Fin.ext e.symm)
    simp [h, this]

theorem State.setPart_sampleAt (p q : Fin 16) (x : Part) (k : Nat) :
    (s.setPart p x).sampleAt q k = if q = p then x.samples[k]? else s.sampleAt q k := by
  unfold State.sampleAt; rw [State.setPart_get]; split <;> rfl

theorem State.setPart_voiceAt (p q : Fin 16) (x : Part) (i : Nat) :
    (s.setPart p x).voiceAt (.mapped q i) = if q = p then x.voices[i]? else s.voiceAt (.mapped q i) := by
  unfold State.voiceAt; simp only; rw [State.setPart_get]; split <;> rfl

@[simp] theorem State.setPart_voiceAt_lone (p : Fin 16) (x : Part) : (s.setPart p x).voiceAt .lone = s.voiceAt .lone := rfl

/-- Another list of Voices leaves the Samples and the stores of every Part. -/
theorem State.setVoices_part (p q : Fin 16) (vs : List Voice) :
    (s.setVoices p vs).parts[q] = { s.parts[q] with voices := if q = p then vs else s.parts[q].voices } := by
  unfold State.setVoices
  rw [State.setPart_get]
  split
  · rename_i h; subst h; rfl
  · rfl

@[simp] theorem State.setVoices_sampleAt (p q : Fin 16) (vs : List Voice) (k : Nat) :
    (s.setVoices p vs).sampleAt q k = s.sampleAt q k := by
  unfold State.sampleAt; rw [State.setVoices_part]

@[simp] theorem State.setVoices_same (p : Fin 16) (vs : List Voice) : (s.setVoices p vs).parts[p].voices = vs := by
  rw [State.setVoices_part, if_pos rfl]

/-- The last list of Voices stands. -/
theorem State.setVoices_setVoices (p : Fin 16) (vs ws : List Voice) :
    (s.setVoices p vs).setVoices p ws = s.setVoices p ws := by
  show ({ s with parts := _ } : State) = { s with parts := _ }
  congr 1
  apply Vector.ext
  intro i hi
  simp only [State.setPart, State.setVoices, Fin.getElem_fin, Vector.getElem_set]
  split <;> simp

theorem State.setVoices_self (p : Fin 16) : s.setVoices p s.parts[p].voices = s := by
  cases s
  show ({ parts := _, .. } : State) = _
  congr 1
  apply Vector.ext
  intro i hi
  simp only [Fin.getElem_fin, Vector.getElem_set]
  split
  · rename_i h; subst h; rfl
  · rfl

theorem State.setSample_sampleAt (p q : Fin 16) (k j : Nat) (smp : Sample) :
    (s.setSample p k smp).sampleAt q j
      = if q = p ∧ j = k then (s.sampleAt p k).map fun _ => smp else s.sampleAt q j := by
  unfold State.setSample
  rw [State.setPart_sampleAt]
  by_cases h : q = p
  · subst h
    by_cases hk : j = k
    · subst hk
      simp only [List.getElem?_set_self', State.sampleAt, and_self, ↓reduceIte]
      rfl
    · simp [List.getElem?_set_ne (Ne.symm hk), hk, State.sampleAt]
  · simp [h]

@[simp] theorem State.setSample_voiceAt (p : Fin 16) (k : Nat) (smp : Sample) (l : VoiceLoc) :
    (s.setSample p k smp).voiceAt l = s.voiceAt l := by
  cases l with
  | lone => rfl
  | mapped q i =>
    unfold State.setSample
    rw [State.setPart_voiceAt]
    split
    · rename_i h; subst h; rfl
    · rfl

@[simp] theorem State.setVoice_sampleAt (l : VoiceLoc) (v : Voice) (q : Fin 16) (k : Nat) :
    (s.setVoice l v).sampleAt q k = s.sampleAt q k := by
  cases l with
  | lone => rfl
  | mapped p i =>
    simp only [State.setVoice]
    rw [State.setPart_sampleAt]
    split
    · rename_i h; subst h; rfl
    · rfl

theorem State.setVoice_voiceAt (l m : VoiceLoc) (v : Voice) (h : (s.voiceAt l).isSome) :
    (s.setVoice l v).voiceAt m = if m = l then some v else s.voiceAt m := by
  cases l with
  | lone => cases m <;> simp [State.setVoice, State.voiceAt]
  | mapped p i =>
    cases m with
    | lone => simp [State.setVoice, State.voiceAt]
    | mapped q j =>
      simp only [State.setVoice]
      rw [State.setPart_voiceAt]
      by_cases hq : q = p
      · subst hq
        by_cases hj : j = i
        · subst hj
          simp only [State.voiceAt, Option.isSome_iff_exists, List.getElem?_eq_some_iff] at h
          obtain ⟨_, hlt, _⟩ := h
          simp only [↓reduceIte]
          exact List.getElem?_set_self hlt
        · simp [List.getElem?_set_ne (Ne.symm hj), hj, State.voiceAt]
      · simp [hq]

/-- The stores of a Part are not those `setSample` changes. -/
theorem State.setSample_part (p q : Fin 16) (k : Nat) (smp : Sample) :
    (s.setSample p k smp).parts[q].pitchbend = s.parts[q].pitchbend ∧
      (s.setSample p k smp).parts[q].controllers = s.parts[q].controllers ∧
      (s.setSample p k smp).parts[q].voices = s.parts[q].voices := by
  unfold State.setSample
  rw [State.setPart_get]
  split
  · rename_i h; subst h; exact ⟨rfl, rfl, rfl⟩
  · exact ⟨rfl, rfl, rfl⟩

/-- The stores of a Part are not those `setVoice` changes. -/
theorem State.setVoice_part (l : VoiceLoc) (v : Voice) (q : Fin 16) :
    (s.setVoice l v).parts[q].pitchbend = s.parts[q].pitchbend ∧
      (s.setVoice l v).parts[q].controllers = s.parts[q].controllers ∧
      (s.setVoice l v).parts[q].samples = s.parts[q].samples := by
  cases l with
  | lone => exact ⟨rfl, rfl, rfl⟩
  | mapped p i =>
    simp only [State.setVoice]
    rw [State.setPart_get]
    split
    · rename_i h; subst h; exact ⟨rfl, rfl, rfl⟩
    · exact ⟨rfl, rfl, rfl⟩

/-! ### Instances after `setVoice` and `setSample` -/

theorem State.setVoice_envAt (l : VoiceLoc) (v : Voice) (h : (s.voiceAt l).isSome) (m : EnvLoc) :
    (s.setVoice l v).envAt m
      = match m with
        | .lone => s.envAt .lone
        | .template p k w => s.envAt (.template p k w)
        | .voice vl w => if vl = l then some (v.envOf w) else s.envAt (.voice vl w) := by
  cases m with
  | lone => simp [State.envAt]
  | template p k w => simp [State.envAt]
  | voice vl w =>
    simp only [State.envAt]
    rw [State.setVoice_voiceAt s l vl v h]
    split <;> rfl

theorem State.setVoice_lfoAt (l : VoiceLoc) (v : Voice) (h : (s.voiceAt l).isSome) (m : LfoLoc) :
    (s.setVoice l v).lfoAt m
      = match m with
        | .lone => s.lfoAt .lone
        | .template p k j => s.lfoAt (.template p k j)
        | .voice vl j => if vl = l then some v.lfos[j] else s.lfoAt (.voice vl j) := by
  cases m with
  | lone => simp [State.lfoAt]
  | template p k w => simp [State.lfoAt]
  | voice vl w =>
    simp only [State.lfoAt]
    rw [State.setVoice_voiceAt s l vl v h]
    split <;> rfl

theorem State.setVoice_fltAt (l : VoiceLoc) (v : Voice) (h : (s.voiceAt l).isSome) (m : FltLoc) :
    (s.setVoice l v).fltAt m
      = match m with
        | .lone => s.fltAt .lone
        | .template p k => s.fltAt (.template p k)
        | .voice vl => if vl = l then some v.flt else s.fltAt (.voice vl) := by
  cases m with
  | lone => simp [State.fltAt]
  | template p k => simp [State.fltAt]
  | voice vl =>
    simp only [State.fltAt]
    rw [State.setVoice_voiceAt s l vl v h]
    split <;> rfl

@[simp] theorem State.setVoice_mtxAt (l : VoiceLoc) (v : Voice) (m : MtxLoc) : (s.setVoice l v).mtxAt m = s.mtxAt m := by
  cases m <;> simp [State.mtxAt]

theorem State.setSample_envAt (p : Fin 16) (k : Nat) (smp : Sample) (h : (s.sampleAt p k).isSome) (m : EnvLoc) :
    (s.setSample p k smp).envAt m
      = match m with
        | .lone => s.envAt .lone
        | .template q j w => if q = p ∧ j = k then some (smp.envOf w) else s.envAt (.template q j w)
        | .voice vl w => s.envAt (.voice vl w) := by
  cases m with
  | lone => simp [State.envAt]
  | template q j w =>
    simp only [State.envAt]
    rw [State.setSample_sampleAt]
    obtain ⟨x, hx⟩ := Option.isSome_iff_exists.mp h
    split
    · simp [hx]
    · rfl
  | voice vl w => simp [State.envAt]

theorem State.setSample_lfoAt (p : Fin 16) (k : Nat) (smp : Sample) (h : (s.sampleAt p k).isSome) (m : LfoLoc) :
    (s.setSample p k smp).lfoAt m
      = match m with
        | .lone => s.lfoAt .lone
        | .template q j i => if q = p ∧ j = k then some smp.lfos[i] else s.lfoAt (.template q j i)
        | .voice vl i => s.lfoAt (.voice vl i) := by
  cases m with
  | lone => simp [State.lfoAt]
  | template q j w =>
    simp only [State.lfoAt]
    rw [State.setSample_sampleAt]
    obtain ⟨x, hx⟩ := Option.isSome_iff_exists.mp h
    split
    · simp [hx]
    · rfl
  | voice vl w => simp [State.lfoAt]

theorem State.setSample_fltAt (p : Fin 16) (k : Nat) (smp : Sample) (h : (s.sampleAt p k).isSome) (m : FltLoc) :
    (s.setSample p k smp).fltAt m
      = match m with
        | .lone => s.fltAt .lone
        | .template q j => if q = p ∧ j = k then some smp.flt else s.fltAt (.template q j)
        | .voice vl => s.fltAt (.voice vl) := by
  cases m with
  | lone => simp [State.fltAt]
  | template q j =>
    simp only [State.fltAt]
    rw [State.setSample_sampleAt]
    obtain ⟨x, hx⟩ := Option.isSome_iff_exists.mp h
    split
    · simp [hx]
    · rfl
  | voice vl => simp [State.fltAt]

theorem State.setSample_mtxAt (p : Fin 16) (k : Nat) (smp : Sample) (h : (s.sampleAt p k).isSome) (m : MtxLoc) :
    (s.setSample p k smp).mtxAt m
      = match m with
        | .lone => s.mtxAt .lone
        | .sample q j => if q = p ∧ j = k then some smp.mtx else s.mtxAt (.sample q j) := by
  cases m with
  | lone => simp [State.mtxAt]
  | sample q j =>
    simp only [State.mtxAt]
    rw [State.setSample_sampleAt]
    obtain ⟨x, hx⟩ := Option.isSome_iff_exists.mp h
    split
    · simp [hx]
    · rfl

/-! ### Scratch buffers -/

/-- A scratch buffer depends on the context's and on the Voices alone. -/
theorem State.bufAt_congr {s t : State} (hs : t.scratch = s.scratch) (hv : ∀ l, t.voiceAt l = s.voiceAt l) (m : BufLoc) :
    t.bufAt m = s.bufAt m := by
  cases m with
  | context => simp only [State.bufAt]; rw [hs]
  | voice vl => simp only [State.bufAt]; rw [hv vl]

@[simp] theorem State.setSample_bufAt (p : Fin 16) (k : Nat) (smp : Sample) (m : BufLoc) :
    (s.setSample p k smp).bufAt m = s.bufAt m := State.bufAt_congr (by simp) (by simp) m

theorem State.setVoice_bufAt (l : VoiceLoc) (v : Voice) (h : (s.voiceAt l).isSome) (m : BufLoc) :
    (s.setVoice l v).bufAt m = if m = .voice l then some v.scratch else s.bufAt m := by
  cases m with
  | context => simp [State.bufAt]
  | voice vl =>
    simp only [State.bufAt, BufLoc.voice.injEq]
    rw [State.setVoice_voiceAt s l vl v h]
    split <;> rfl

/-- A Voice replaced by one with the same buffer leaves every buffer. -/
theorem State.setVoice_bufAt_same {l : VoiceLoc} {v v' : Voice} (h : s.voiceAt l = some v) (hb : v'.scratch = v.scratch)
    (m : BufLoc) : (s.setVoice l v').bufAt m = s.bufAt m := by
  rw [State.setVoice_bufAt s l v' (by simp [h])]
  split
  · rename_i e; subst e; simp [State.bufAt, h, hb]
  · rfl

/-! ### Frames compose -/

/-- Nothing changes from a state to itself. -/
theorem SameBut.refl (fp : Footprint) : SameBut s s fp := by constructor <;> intros <;> rfl

/-- The responses and the draw counter are no part of a frame. -/
theorem SameBut.congr {s t t' : State} {fp : Footprint} (h : SameBut s t fp) (he : t'.env = t.env) (hl : t'.lfo = t.lfo)
    (hf : t'.flt = t.flt) (hm : t'.mtx = t.mtx) (hv : t'.voice = t.voice) (hp : t'.parts = t.parts)
    (hs : t'.scratch = t.scratch) (hb : t'.buses = t.buses) (hpol : t'.policy = t.policy) (hsel : t'.sel = t.sel)
    (hc : t'.cmd = t.cmd) : SameBut s t' fp := by
  obtain ⟨e, l, f, m, v, p, sc, b, pol, sel, d, c, r⟩ := t
  obtain ⟨e', l', f', m', v', p', sc', b', pol', sel', d', c', r'⟩ := t'
  simp only at he hl hf hm hv hp hs hb hpol hsel hc
  subst he hl hf hm hv hp hs hb hpol hsel hc
  exact ⟨h.env, h.lfo, h.flt, h.mtx, h.voice, h.sample, h.bus, h.busFrame, h.scratch, h.pitchbend, h.controller, h.sel,
    h.policy, h.cmd⟩

/-- A change of one Voice. -/
theorem State.setVoice_sameBut (l : VoiceLoc) (v : Voice) (h : (s.voiceAt l).isSome) :
    SameBut s (s.setVoice l v)
      { env := fun m => ∃ w, m = .voice l w
        lfo := fun m => ∃ j, m = .voice l j
        flt := fun m => m = .voice l
        voice := fun m => m = l
        scratch := fun m => m = .voice l } where
  env m hm := by
    rw [State.setVoice_envAt s l v h]
    cases m with
    | lone => rfl
    | template => rfl
    | voice vl w =>
      have : vl ≠ l := fun e => hm ⟨w, by rw [e]⟩
      simp [this]
  lfo m hm := by
    rw [State.setVoice_lfoAt s l v h]
    cases m with
    | lone => rfl
    | template => rfl
    | voice vl w =>
      have : vl ≠ l := fun e => hm ⟨w, by rw [e]⟩
      simp [this]
  flt m hm := by
    rw [State.setVoice_fltAt s l v h]
    cases m with
    | lone => rfl
    | template => rfl
    | voice vl =>
      have : vl ≠ l := fun e => hm (by rw [e])
      simp [this]
  mtx m _ := by simp
  voice m hm := by
    rw [State.setVoice_voiceAt s l m v h]
    have : m ≠ l := hm
    simp [this]
  sample p k := by simp
  bus b _ := by simp
  busFrame b := by simp
  scratch m hm := by
    have : m ≠ .voice l := hm
    rw [State.setVoice_bufAt s l v h, if_neg this]
  pitchbend p _ := (s.setVoice_part l v p).1
  controller p k _ := by rw [(s.setVoice_part l v p).2.1]
  sel := by simp
  policy := by simp
  cmd := by simp

/-- A change of the templates or the ModMatrix of one Sample. -/
theorem State.setSample_sameBut (p : Fin 16) (k : Nat) (old new : Sample) (h : s.sampleAt p k = some old)
    (hp : new.plain = old.plain) :
    SameBut s (s.setSample p k new)
      { env := fun m => ∃ w, m = .template p k w
        lfo := fun m => ∃ j, m = .template p k j
        flt := fun m => m = .template p k
        mtx := fun m => m = .sample p k } where
  env m hm := by
    rw [State.setSample_envAt s p k new (by simp [h])]
    cases m with
    | lone => rfl
    | voice => rfl
    | template q j w =>
      have : ¬ (q = p ∧ j = k) := fun e => hm ⟨w, by rw [e.1, e.2]⟩
      simp only [if_neg this]
  lfo m hm := by
    rw [State.setSample_lfoAt s p k new (by simp [h])]
    cases m with
    | lone => rfl
    | voice => rfl
    | template q j w =>
      have : ¬ (q = p ∧ j = k) := fun e => hm ⟨w, by rw [e.1, e.2]⟩
      simp only [if_neg this]
  flt m hm := by
    rw [State.setSample_fltAt s p k new (by simp [h])]
    cases m with
    | lone => rfl
    | voice => rfl
    | template q j =>
      have : ¬ (q = p ∧ j = k) := fun e => hm (by rw [e.1, e.2])
      simp only [if_neg this]
  mtx m hm := by
    rw [State.setSample_mtxAt s p k new (by simp [h])]
    cases m with
    | lone => rfl
    | sample q j =>
      have : ¬ (q = p ∧ j = k) := fun e => hm (by rw [e.1, e.2])
      simp only [if_neg this]
  voice m _ := by simp
  sample q j := by
    rw [State.setSample_sampleAt]
    split
    · rename_i e; rw [e.1, e.2, h]; simp [hp]
    · rfl
  bus b _ := by simp
  busFrame b := by simp
  scratch _ _ := by simp
  pitchbend q _ := (s.setSample_part p q k _).1
  controller q c _ := by rw [(s.setSample_part p q k _).2.1]
  sel := by simp
  policy := by simp
  cmd := by simp

/-! ### One instance replaced -/

/-- Replacing an ENV instance changes that instance and nothing else. -/
theorem State.setEnv_sameBut (l : EnvLoc) (e x : Env) (h : s.envAt l = some e) :
    SameBut s (s.setEnv l x) { env := fun m => m = l } ∧ (s.setEnv l x).envAt l = some x := by
  cases l with
  | lone =>
    refine ⟨⟨fun m hm => ?_, fun m hm => ?_, fun m hm => ?_, fun m hm => ?_, fun m _ => ?_, fun _ _ => rfl, fun _ _ => rfl,
      fun _ => rfl, fun m _ => State.bufAt_congr rfl (fun l => by cases l <;> rfl) m, fun _ _ => rfl, fun _ _ _ => rfl, rfl, rfl,
      rfl⟩, rfl⟩ <;> cases m <;>
      first | rfl | exact absurd rfl hm
  | template p k w =>
    obtain ⟨smp, hsmp, _⟩ := Option.map_eq_some_iff.mp h
    have hs : (s.sampleAt p k).isSome := by simp [hsmp]
    have hset : s.setEnv (.template p k w) x = s.setSample p k (smp.setEnvOf w x) := by simp [State.setEnv, hsmp]
    rw [hset]
    have hb := s.setSample_sameBut p k smp (smp.setEnvOf w x) hsmp (by cases w <;> rfl)
    refine ⟨⟨fun m hm => ?_, fun m hm => ?_, fun m hm => ?_, fun m hm => ?_, hb.voice, hb.sample, hb.bus, hb.busFrame,
      hb.scratch, hb.pitchbend, hb.controller, hb.sel, hb.policy, hb.cmd⟩, ?_⟩
    · rw [State.setSample_envAt s p k _ hs]
      cases m with
      | lone => rfl
      | voice => rfl
      | template q j i =>
        simp only
        split
        · rename_i hh; obtain ⟨rfl, rfl⟩ := hh
          rw [State.envAt, hsmp]
          cases w <;> cases i <;> first | rfl | exact absurd rfl hm
        · rfl
    · rw [State.setSample_lfoAt s p k _ hs]
      cases m with
      | lone => rfl
      | voice => rfl
      | template q j i =>
        simp only
        split
        · rename_i hh; obtain ⟨rfl, rfl⟩ := hh
          rw [State.lfoAt, hsmp]
          cases w <;> rfl
        · rfl
    · rw [State.setSample_fltAt s p k _ hs]
      cases m with
      | lone => rfl
      | voice => rfl
      | template q j =>
        simp only
        split
        · rename_i hh; obtain ⟨rfl, rfl⟩ := hh
          rw [State.fltAt, hsmp]
          cases w <;> rfl
        · rfl
    · rw [State.setSample_mtxAt s p k _ hs]
      cases m with
      | lone => rfl
      | sample q j =>
        simp only
        split
        · rename_i hh; obtain ⟨rfl, rfl⟩ := hh
          rw [State.mtxAt, hsmp]
          cases w <;> rfl
        · rfl
    · rw [State.setSample_envAt s p k _ hs]
      cases w <;> simp [Sample.setEnvOf, Sample.envOf]
  | voice l w =>
    obtain ⟨v, hvv, _⟩ := Option.map_eq_some_iff.mp h
    have hv : (s.voiceAt l).isSome := by simp [hvv]
    have hset : s.setEnv (.voice l w) x = s.setVoice l (v.setEnvOf w x) := by simp [State.setEnv, hvv]
    rw [hset]
    have hb := s.setVoice_sameBut l (v.setEnvOf w x) hv
    refine ⟨⟨fun m hm => ?_, fun m hm => ?_, fun m hm => ?_, hb.mtx, fun m _ => ?_, hb.sample, hb.bus, hb.busFrame,
      fun m _ => s.setVoice_bufAt_same hvv (by cases w <;> rfl) m,
      hb.pitchbend, hb.controller, hb.sel, hb.policy, hb.cmd⟩, ?_⟩
    · rw [State.setVoice_envAt s l _ hv]
      cases m with
      | lone => rfl
      | template => rfl
      | voice m' i =>
        simp only
        split
        · rename_i hh; subst hh
          rw [State.envAt, hvv]
          cases w <;> cases i <;> first | rfl | exact absurd rfl hm
        · rfl
    · rw [State.setVoice_lfoAt s l _ hv]
      cases m with
      | lone => rfl
      | template => rfl
      | voice m' i =>
        simp only
        split
        · rename_i hh; subst hh
          rw [State.lfoAt, hvv]
          cases w <;> rfl
        · rfl
    · rw [State.setVoice_fltAt s l _ hv]
      cases m with
      | lone => rfl
      | template => rfl
      | voice m' =>
        simp only
        split
        · rename_i hh; subst hh
          rw [State.fltAt, hvv]
          cases w <;> rfl
        · rfl
    · rw [State.setVoice_voiceAt s l m _ hv]
      split
      · rename_i hh; subst hh; rw [hvv]; cases w <;> rfl
      · rfl
    · rw [State.setVoice_envAt s l _ hv]
      cases w <;> simp [Voice.setEnvOf, Voice.envOf]

/-- Replacing an LFO instance changes that instance and nothing else. -/
theorem State.setLfo_sameBut (l : LfoLoc) (e x : Lfo) (h : s.lfoAt l = some e) :
    SameBut s (s.setLfo l x) { lfo := fun m => m = l } ∧ (s.setLfo l x).lfoAt l = some x := by
  cases l with
  | lone =>
    refine ⟨⟨fun m hm => ?_, fun m hm => ?_, fun m hm => ?_, fun m hm => ?_, fun m _ => ?_, fun _ _ => rfl, fun _ _ => rfl,
      fun _ => rfl, fun m _ => State.bufAt_congr rfl (fun l => by cases l <;> rfl) m, fun _ _ => rfl, fun _ _ _ => rfl, rfl, rfl,
      rfl⟩, rfl⟩ <;> cases m <;>
      first | rfl | exact absurd rfl hm
  | template p k w =>
    obtain ⟨smp, hsmp, _⟩ := Option.map_eq_some_iff.mp h
    have hs : (s.sampleAt p k).isSome := by simp [hsmp]
    have hset : s.setLfo (.template p k w) x = s.setSample p k { smp with lfos := smp.lfos.set w x } := by simp [State.setLfo, hsmp]
    rw [hset]
    have hb := s.setSample_sameBut p k smp { smp with lfos := smp.lfos.set w x } hsmp (rfl)
    refine ⟨⟨fun m hm => ?_, fun m hm => ?_, fun m hm => ?_, fun m hm => ?_, hb.voice, hb.sample, hb.bus, hb.busFrame,
      hb.scratch, hb.pitchbend, hb.controller, hb.sel, hb.policy, hb.cmd⟩, ?_⟩
    · rw [State.setSample_envAt s p k _ hs]
      cases m with
      | lone => rfl
      | voice => rfl
      | template q j i =>
        simp only
        split
        · rename_i hh; obtain ⟨rfl, rfl⟩ := hh
          rw [State.envAt, hsmp]
          cases i <;> rfl
        · rfl
    · rw [State.setSample_lfoAt s p k _ hs]
      cases m with
      | lone => rfl
      | voice => rfl
      | template q j i =>
        simp only
        split
        · rename_i hh; obtain ⟨rfl, rfl⟩ := hh
          have : (w : Nat) ≠ i := fun e => hm (by rw [Fin.ext e])
          simp [State.lfoAt, hsmp, Vector.getElem_set_ne, this]
        · rfl
    · rw [State.setSample_fltAt s p k _ hs]
      cases m with
      | lone => rfl
      | voice => rfl
      | template q j =>
        simp only
        split
        · rename_i hh; obtain ⟨rfl, rfl⟩ := hh
          rw [State.fltAt, hsmp]
          rfl
        · rfl
    · rw [State.setSample_mtxAt s p k _ hs]
      cases m with
      | lone => rfl
      | sample q j =>
        simp only
        split
        · rename_i hh; obtain ⟨rfl, rfl⟩ := hh
          rw [State.mtxAt, hsmp]
          rfl
        · rfl
    · rw [State.setSample_lfoAt s p k _ hs]
      simp
  | voice l w =>
    obtain ⟨v, hvv, _⟩ := Option.map_eq_some_iff.mp h
    have hv : (s.voiceAt l).isSome := by simp [hvv]
    have hset : s.setLfo (.voice l w) x = s.setVoice l { v with lfos := v.lfos.set w x } := by simp [State.setLfo, hvv]
    rw [hset]
    have hb := s.setVoice_sameBut l { v with lfos := v.lfos.set w x } hv
    refine ⟨⟨fun m hm => ?_, fun m hm => ?_, fun m hm => ?_, hb.mtx, fun m _ => ?_, hb.sample, hb.bus, hb.busFrame,
      fun m _ => s.setVoice_bufAt_same hvv (by rfl) m,
      hb.pitchbend, hb.controller, hb.sel, hb.policy, hb.cmd⟩, ?_⟩
    · rw [State.setVoice_envAt s l _ hv]
      cases m with
      | lone => rfl
      | template => rfl
      | voice m' i =>
        simp only
        split
        · rename_i hh; subst hh
          rw [State.envAt, hvv]
          cases i <;> rfl
        · rfl
    · rw [State.setVoice_lfoAt s l _ hv]
      cases m with
      | lone => rfl
      | template => rfl
      | voice m' i =>
        simp only
        split
        · rename_i hh; subst hh
          have : (w : Nat) ≠ i := fun e => hm (by rw [Fin.ext e])
          simp [State.lfoAt, hvv, Vector.getElem_set_ne, this]
        · rfl
    · rw [State.setVoice_fltAt s l _ hv]
      cases m with
      | lone => rfl
      | template => rfl
      | voice m' =>
        simp only
        split
        · rename_i hh; subst hh
          rw [State.fltAt, hvv]
          rfl
        · rfl
    · rw [State.setVoice_voiceAt s l m _ hv]
      split
      · rename_i hh; subst hh; rw [hvv]; rfl
      · rfl
    · rw [State.setVoice_lfoAt s l _ hv]
      simp

/-- Replacing a Filter instance changes that instance and nothing else. -/
theorem State.setFlt_sameBut (l : FltLoc) (e x : Flt) (h : s.fltAt l = some e) :
    SameBut s (s.setFlt l x) { flt := fun m => m = l } ∧ (s.setFlt l x).fltAt l = some x := by
  cases l with
  | lone =>
    refine ⟨⟨fun m hm => ?_, fun m hm => ?_, fun m hm => ?_, fun m hm => ?_, fun m _ => ?_, fun _ _ => rfl, fun _ _ => rfl,
      fun _ => rfl, fun m _ => State.bufAt_congr rfl (fun l => by cases l <;> rfl) m, fun _ _ => rfl, fun _ _ _ => rfl, rfl, rfl,
      rfl⟩, rfl⟩ <;> cases m <;>
      first | rfl | exact absurd rfl hm
  | template p k =>
    obtain ⟨smp, hsmp, _⟩ := Option.map_eq_some_iff.mp h
    have hs : (s.sampleAt p k).isSome := by simp [hsmp]
    have hset : s.setFlt (.template p k) x = s.setSample p k { smp with flt := x } := by simp [State.setFlt, hsmp]
    rw [hset]
    have hb := s.setSample_sameBut p k smp { smp with flt := x } hsmp (rfl)
    refine ⟨⟨fun m hm => ?_, fun m hm => ?_, fun m hm => ?_, fun m hm => ?_, hb.voice, hb.sample, hb.bus, hb.busFrame,
      hb.scratch, hb.pitchbend, hb.controller, hb.sel, hb.policy, hb.cmd⟩, ?_⟩
    · rw [State.setSample_envAt s p k _ hs]
      cases m with
      | lone => rfl
      | voice => rfl
      | template q j i =>
        simp only
        split
        · rename_i hh; obtain ⟨rfl, rfl⟩ := hh
          rw [State.envAt, hsmp]
          cases i <;> rfl
        · rfl
    · rw [State.setSample_lfoAt s p k _ hs]
      cases m with
      | lone => rfl
      | voice => rfl
      | template q j i =>
        simp only
        split
        · rename_i hh; obtain ⟨rfl, rfl⟩ := hh
          rw [State.lfoAt, hsmp]
          rfl
        · rfl
    · rw [State.setSample_fltAt s p k _ hs]
      cases m with
      | lone => rfl
      | voice => rfl
      | template q j =>
        simp only
        split
        · rename_i hh; obtain ⟨rfl, rfl⟩ := hh
          exact absurd rfl hm
        · rfl
    · rw [State.setSample_mtxAt s p k _ hs]
      cases m with
      | lone => rfl
      | sample q j =>
        simp only
        split
        · rename_i hh; obtain ⟨rfl, rfl⟩ := hh
          rw [State.mtxAt, hsmp]
          rfl
        · rfl
    · rw [State.setSample_fltAt s p k _ hs]
      simp
  | voice l =>
    obtain ⟨v, hvv, _⟩ := Option.map_eq_some_iff.mp h
    have hv : (s.voiceAt l).isSome := by simp [hvv]
    have hset : s.setFlt (.voice l) x = s.setVoice l { v with flt := x } := by simp [State.setFlt, hvv]
    rw [hset]
    have hb := s.setVoice_sameBut l { v with flt := x } hv
    refine ⟨⟨fun m hm => ?_, fun m hm => ?_, fun m hm => ?_, hb.mtx, fun m _ => ?_, hb.sample, hb.bus, hb.busFrame,
      fun m _ => s.setVoice_bufAt_same hvv (by rfl) m,
      hb.pitchbend, hb.controller, hb.sel, hb.policy, hb.cmd⟩, ?_⟩
    · rw [State.setVoice_envAt s l _ hv]
      cases m with
      | lone => rfl
      | template => rfl
      | voice m' i =>
        simp only
        split
        · rename_i hh; subst hh
          rw [State.envAt, hvv]
          cases i <;> rfl
        · rfl
    · rw [State.setVoice_lfoAt s l _ hv]
      cases m with
      | lone => rfl
      | template => rfl
      | voice m' i =>
        simp only
        split
        · rename_i hh; subst hh
          rw [State.lfoAt, hvv]
          rfl
        · rfl
    · rw [State.setVoice_fltAt s l _ hv]
      cases m with
      | lone => rfl
      | template => rfl
      | voice m' =>
        simp only
        split
        · rename_i hh; subst hh
          exact absurd rfl hm
        · rfl
    · rw [State.setVoice_voiceAt s l m _ hv]
      split
      · rename_i hh; subst hh; rw [hvv]; rfl
      · rfl
    · rw [State.setVoice_fltAt s l _ hv]
      simp

/-- Replacing a scratch buffer changes that buffer and nothing else. -/
theorem State.setBuf_sameBut (l : BufLoc) (e x : Scratch) (h : s.bufAt l = some e) :
    SameBut s (s.setBuf l x) { scratch := fun m => m = l } ∧ (s.setBuf l x).bufAt l = some x := by
  cases l with
  | context =>
    refine ⟨⟨fun m _ => ?_, fun m _ => ?_, fun m _ => ?_, fun m _ => ?_, fun m _ => ?_, fun _ _ => rfl, fun _ _ => rfl,
      fun _ => rfl, fun m hm => ?_, fun _ _ => rfl, fun _ _ _ => rfl, rfl, rfl, rfl⟩, rfl⟩
    · cases m with
      | lone => rfl
      | template => rfl
      | voice vl => cases vl <;> rfl
    · cases m with
      | lone => rfl
      | template => rfl
      | voice vl => cases vl <;> rfl
    · cases m with
      | lone => rfl
      | template => rfl
      | voice vl => cases vl <;> rfl
    · cases m <;> rfl
    · cases m <;> rfl
    · cases m with
      | context => exact absurd rfl hm
      | voice vl => cases vl <;> rfl
  | voice l =>
    obtain ⟨v, hvv, _⟩ := Option.map_eq_some_iff.mp h
    have hv : (s.voiceAt l).isSome := by simp [hvv]
    have hset : s.setBuf (.voice l) x = s.setVoice l { v with scratch := x } := by simp [State.setBuf, hvv]
    rw [hset]
    have hb := s.setVoice_sameBut l { v with scratch := x } hv
    refine ⟨⟨fun m hm => ?_, fun m hm => ?_, fun m hm => ?_, hb.mtx, fun m _ => ?_, hb.sample, hb.bus, hb.busFrame,
      hb.scratch, hb.pitchbend, hb.controller, hb.sel, hb.policy, hb.cmd⟩, ?_⟩
    · rw [State.setVoice_envAt s l _ hv]
      cases m with
      | lone => rfl
      | template => rfl
      | voice m' i =>
        simp only
        split
        · rename_i hh; subst hh
          rw [State.envAt, hvv]
          cases i <;> rfl
        · rfl
    · rw [State.setVoice_lfoAt s l _ hv]
      cases m with
      | lone => rfl
      | template => rfl
      | voice m' i =>
        simp only
        split
        · rename_i hh; subst hh
          rw [State.lfoAt, hvv]
          rfl
        · rfl
    · rw [State.setVoice_fltAt s l _ hv]
      cases m with
      | lone => rfl
      | template => rfl
      | voice m' =>
        simp only
        split
        · rename_i hh; subst hh
          rw [State.fltAt, hvv]
          rfl
        · rfl
    · rw [State.setVoice_voiceAt s l m _ hv]
      split
      · rename_i hh; subst hh; rw [hvv]; rfl
      · rfl
    · rw [State.setVoice_bufAt s l _ hv]
      simp

/-- Replacing a ModMatrix instance changes that instance and nothing else. -/
theorem State.setMtx_sameBut (l : MtxLoc) (e x : Mtx) (h : s.mtxAt l = some e) :
    SameBut s (s.setMtx l x) { mtx := fun m => m = l } ∧ (s.setMtx l x).mtxAt l = some x := by
  cases l with
  | lone =>
    refine ⟨⟨fun m hm => ?_, fun m hm => ?_, fun m hm => ?_, fun m hm => ?_, fun m _ => ?_, fun _ _ => rfl, fun _ _ => rfl,
      fun _ => rfl, fun m _ => State.bufAt_congr rfl (fun l => by cases l <;> rfl) m, fun _ _ => rfl, fun _ _ _ => rfl, rfl, rfl,
      rfl⟩, rfl⟩ <;> cases m <;>
      first | rfl | exact absurd rfl hm
  | sample p k =>
    obtain ⟨smp, hsmp, _⟩ := Option.map_eq_some_iff.mp h
    have hs : (s.sampleAt p k).isSome := by simp [hsmp]
    have hset : s.setMtx (.sample p k) x = s.setSample p k { smp with mtx := x } := by simp [State.setMtx, hsmp]
    rw [hset]
    have hb := s.setSample_sameBut p k smp { smp with mtx := x } hsmp (rfl)
    refine ⟨⟨fun m hm => ?_, fun m hm => ?_, fun m hm => ?_, fun m hm => ?_, hb.voice, hb.sample, hb.bus, hb.busFrame,
      hb.scratch, hb.pitchbend, hb.controller, hb.sel, hb.policy, hb.cmd⟩, ?_⟩
    · rw [State.setSample_envAt s p k _ hs]
      cases m with
      | lone => rfl
      | voice => rfl
      | template q j i =>
        simp only
        split
        · rename_i hh; obtain ⟨rfl, rfl⟩ := hh
          rw [State.envAt, hsmp]
          cases i <;> rfl
        · rfl
    · rw [State.setSample_lfoAt s p k _ hs]
      cases m with
      | lone => rfl
      | voice => rfl
      | template q j i =>
        simp only
        split
        · rename_i hh; obtain ⟨rfl, rfl⟩ := hh
          rw [State.lfoAt, hsmp]
          rfl
        · rfl
    · rw [State.setSample_fltAt s p k _ hs]
      cases m with
      | lone => rfl
      | voice => rfl
      | template q j =>
        simp only
        split
        · rename_i hh; obtain ⟨rfl, rfl⟩ := hh
          rw [State.fltAt, hsmp]
          rfl
        · rfl
    · rw [State.setSample_mtxAt s p k _ hs]
      cases m with
      | lone => rfl
      | sample q j =>
        simp only
        split
        · rename_i hh; obtain ⟨rfl, rfl⟩ := hh
          exact absurd rfl hm
        · rfl
    · rw [State.setSample_mtxAt s p k _ hs]
      simp

end Sys2Proof.Machine
end

