-- ==== Sys2Proof/Laws/Ops.lean ====
section
/-! SUPPORT. For each shared operation, once, everything it can do. -/

namespace Sys2Proof.Machine

variable (s t : State)

/-! ### Outcomes -/

@[simp] theorem outcome_ok : outcome (.ok s) = .next s := rfl

@[simp] theorem outcome_error (r : Refusal) : outcome (.error r) = .refused r := rfl

theorem outcome_next (x : Except Refusal State) : outcome x = .next t ↔ x = .ok t := by
  cases x <;> simp [outcome]

theorem outcome_refused (x : Except Refusal State) (r : Refusal) : outcome x = .refused r ↔ x = .error r := by
  cases x <;> simp [outcome]

/-! ### Draws (R57) -/

theorem floor_eq (x : Number) : ⌊x⌋ = x.floor := rfl

theorem frac_eq (x : Number) : Int.fract x = frac x := rfl

theorem frac_range (x : Number) : 0 ≤ frac x ∧ frac x < 1 := by
  unfold frac
  constructor
  · have := Rat.floor_le x; linarith
  · have := Rat.lt_floor_add_one x; push_cast at this; linarith

/-- A draw lies in its interval. -/
theorem drawUniform_range (lo hi : Number) (k : Nat) (h : lo < hi) : lo ≤ drawUniform lo hi k ∧ drawUniform lo hi k < hi := by
  unfold drawUniform
  obtain ⟨h0, h1⟩ := frac_range (Config.oracle k)
  constructor <;> nlinarith

/-! ### The selected instance -/

theorem State.onEnv_ok (f : Env → Except Refusal Env) :
    s.onEnv f = .ok t ↔ ∃ e e', s.envAt s.sel.env = some e ∧ f e = .ok e' ∧ t = s.setEnv s.sel.env e' := by
  unfold State.onEnv
  cases h : s.envAt s.sel.env with
  | none => simp
  | some e => cases hf : f e <;> simp [hf, eq_comm]

theorem State.onEnv_eq {e : Env} (h : s.envAt s.sel.env = some e) (f : Env → Except Refusal Env) :
    s.onEnv f = (f e).map (s.setEnv s.sel.env) := by
  unfold State.onEnv; rw [h]; simp only; cases f e <;> rfl

theorem State.readEnv_eq {e : Env} (h : s.envAt s.sel.env = some e) (f : Env → Reading) :
    s.readEnv f = .ok (s.respond .env (f e)) := by unfold State.readEnv; rw [h]

theorem State.readEnv_ok (f : Env → Reading) :
    s.readEnv f = .ok t ↔ ∃ e, s.envAt s.sel.env = some e ∧ t = s.respond .env (f e) := by
  unfold State.readEnv; cases h : s.envAt s.sel.env <;> simp [eq_comm]

theorem State.onLfo_eq {l : Lfo} (h : s.lfoAt s.sel.lfo = some l) (f : Lfo → Nat → Except Refusal (Lfo × Nat)) :
    s.onLfo f = (f l s.draws).map fun y => { s.setLfo s.sel.lfo y.1 with draws := y.2 } := by
  unfold State.onLfo; rw [h]; simp only; cases f l s.draws <;> rfl

theorem State.onLfo_ok (f : Lfo → Nat → Except Refusal (Lfo × Nat)) :
    s.onLfo f = .ok t ↔ ∃ l y, s.lfoAt s.sel.lfo = some l ∧ f l s.draws = .ok y ∧
      t = { s.setLfo s.sel.lfo y.1 with draws := y.2 } := by
  constructor
  · intro e
    cases h : s.lfoAt s.sel.lfo with
    | none => rw [State.onLfo, h] at e; cases e
    | some l =>
      rw [State.onLfo_eq s h] at e
      cases hf : f l s.draws with
      | error r => rw [hf] at e; cases e
      | ok y => rw [hf] at e; cases e; exact ⟨l, y, rfl, hf, rfl⟩
  · rintro ⟨_, _, h, hf, rfl⟩
    rw [State.onLfo_eq s h, hf]; rfl

theorem State.readLfo_eq {l : Lfo} (h : s.lfoAt s.sel.lfo = some l) (f : Lfo → Reading) :
    s.readLfo f = .ok (s.respond .lfo (f l)) := by unfold State.readLfo; rw [h]

theorem State.readLfo_ok (f : Lfo → Reading) :
    s.readLfo f = .ok t ↔ ∃ l, s.lfoAt s.sel.lfo = some l ∧ t = s.respond .lfo (f l) := by
  unfold State.readLfo; cases h : s.lfoAt s.sel.lfo <;> simp [eq_comm]

theorem State.onFlt_eq {x : Flt} (h : s.fltAt s.sel.flt = some x) (f : Flt → Except Refusal Flt) :
    s.onFlt f = (f x).map (s.setFlt s.sel.flt) := by
  unfold State.onFlt; rw [h]; simp only; cases f x <;> rfl

theorem State.onFlt_ok (f : Flt → Except Refusal Flt) :
    s.onFlt f = .ok t ↔ ∃ x y, s.fltAt s.sel.flt = some x ∧ f x = .ok y ∧ t = s.setFlt s.sel.flt y := by
  unfold State.onFlt
  cases h : s.fltAt s.sel.flt with
  | none => simp
  | some x => cases hf : f x <;> simp [hf, eq_comm]

/-- A Filter that exists has a buffer to run on. -/
theorem State.bufAt_buffer {l : FltLoc} {x : Flt} (h : s.fltAt l = some x) : ∃ b, s.bufAt l.buffer = some b := by
  cases l with
  | lone => exact ⟨_, rfl⟩
  | template => exact ⟨_, rfl⟩
  | voice vl =>
    obtain ⟨v, hv, _⟩ := Option.map_eq_some_iff.mp h
    exact ⟨v.scratch, by simp [FltLoc.buffer, State.bufAt, hv]⟩

theorem State.onFltBuf_eq {x : Flt} {b : Scratch} (h : s.fltAt s.sel.flt = some x) (hb : s.bufAt s.sel.flt.buffer = some b)
    (f : Flt → Scratch → Except Refusal (Flt × Scratch)) :
    s.onFltBuf f = (f x b).map fun y => (s.setFlt s.sel.flt y.1).setBuf s.sel.flt.buffer y.2 := by
  unfold State.onFltBuf; rw [h, hb]; simp only; cases f x b <;> rfl

theorem State.onFltBuf_ok (f : Flt → Scratch → Except Refusal (Flt × Scratch)) :
    s.onFltBuf f = .ok t ↔ ∃ x b y, s.fltAt s.sel.flt = some x ∧ s.bufAt s.sel.flt.buffer = some b ∧ f x b = .ok y ∧
      t = (s.setFlt s.sel.flt y.1).setBuf s.sel.flt.buffer y.2 := by
  cases h : s.fltAt s.sel.flt with
  | none => unfold State.onFltBuf; rw [h]; simp
  | some x =>
    obtain ⟨b, hb⟩ := s.bufAt_buffer h
    rw [State.onFltBuf_eq s h hb, hb]
    cases hf : f x b with
    | error r => simp [Except.map, hf]
    | ok y =>
      simp only [Except.map, Except.ok.injEq, Option.some.injEq]
      exact ⟨fun e => ⟨x, b, y, rfl, rfl, hf, e.symm⟩, fun ⟨_, _, _, hx, hy, hz, e⟩ => by
        subst hx hy; rw [hf] at hz; cases hz; exact e.symm⟩

theorem State.onMtx_ok (f : Mtx → Mtx) :
    s.onMtx f = .ok t ↔ ∃ m, s.mtxAt s.sel.mtx = some m ∧ t = s.setMtx s.sel.mtx (f m) := by
  unfold State.onMtx; cases h : s.mtxAt s.sel.mtx <;> simp [eq_comm]

theorem State.onMtx_eq {m : Mtx} (h : s.mtxAt s.sel.mtx = some m) (f : Mtx → Mtx) :
    s.onMtx f = .ok (s.setMtx s.sel.mtx (f m)) := by unfold State.onMtx; rw [h]

/-! ### The instances the respond and draw updates leave -/

@[simp] theorem State.respond_envAt (u : UnitCode) (rd : Reading) (l : EnvLoc) : (s.respond u rd).envAt l = s.envAt l := by
  cases l with
  | lone => rfl
  | template => rfl
  | voice vl => cases vl <;> rfl

@[simp] theorem State.respond_lfoAt (u : UnitCode) (rd : Reading) (l : LfoLoc) : (s.respond u rd).lfoAt l = s.lfoAt l := by
  cases l with
  | lone => rfl
  | template => rfl
  | voice vl => cases vl <;> rfl

@[simp] theorem State.respond_fltAt (u : UnitCode) (rd : Reading) (l : FltLoc) : (s.respond u rd).fltAt l = s.fltAt l := by
  cases l with
  | lone => rfl
  | template => rfl
  | voice vl => cases vl <;> rfl

@[simp] theorem State.respond_mtxAt (u : UnitCode) (rd : Reading) (l : MtxLoc) : (s.respond u rd).mtxAt l = s.mtxAt l := by
  cases l <;> rfl

@[simp] theorem State.respond_voiceAt (u : UnitCode) (rd : Reading) (l : VoiceLoc) :
    (s.respond u rd).voiceAt l = s.voiceAt l := by cases l <;> rfl

@[simp] theorem State.respond_sampleAt (u : UnitCode) (rd : Reading) (p : Fin 16) (k : Nat) :
    (s.respond u rd).sampleAt p k = s.sampleAt p k := rfl

@[simp] theorem State.respond_bufAt (u : UnitCode) (rd : Reading) (l : BufLoc) : (s.respond u rd).bufAt l = s.bufAt l :=
  State.bufAt_congr rfl (fun m => by simp) l

/-- A response changes nothing but the response port. -/
theorem State.respond_sameBut (u : UnitCode) (rd : Reading) : SameBut s (s.respond u rd) {} :=
  (SameBut.refl s {}).congr rfl rfl rfl rfl rfl rfl rfl rfl rfl rfl rfl

end Sys2Proof.Machine
end

