-- ==== Sys2Proof/Laws/Units.lean ====
section
/-! SUPPORT. For each operation of a unit, once, everything it can do: ENV, LFO, Filter, bus, construction of a Voice. -/

namespace Sys2Proof.Machine

/-! ### ENV -/

theorem clamp_unit (p : Number) : clamp p 0 1 = max 0 (min 1 p) := by
  unfold clamp
  split
  · rename_i h; rw [min_eq_right (by linarith), max_eq_left h.le]
  · split
    · rename_i h; rw [min_eq_left h.le]; norm_num
    · rename_i h1 h2; rw [min_eq_right (by linarith), max_eq_right (by linarith)]

theorem duration_nonneg (p : Number) : 0 ≤ duration p := by
  unfold duration Machine.sq Config.envDurScale
  nlinarith [mul_self_nonneg (clamp p 0 1)]

theorem Env.sustainInDomain_iff (e : Env) : e.sustainInDomain = true ↔ 0 ≤ e.s ∧ e.s ≤ 1 := by simp [Env.sustainInDomain]

/-- When `STEP` completes, and what it answers (R137, R150). -/
theorem Env.step_ok (e e' : Env) (el bpm : Number) :
    e.step el bpm = .ok e' ↔ 0 ≤ el ∧
      match e.state with
      | .none => e' = e
      | .attack => e' = e.stepAttack el
      | .decay => (0 ≤ e.s ∧ e.s ≤ 1) ∧ e' = e.stepDecay el
      | .sustain => (0 ≤ e.s ∧ e.s ≤ 1) ∧ e' = e.stepSustain
      | .release => e' = e.stepRelease el
      | .ended => e' = e := by
  unfold Env.step
  by_cases h : el < 0
  · simp [h]
  · rw [if_neg h]
    have h0 : 0 ≤ el := not_lt.mp h
    cases hs : e.state with
    | none => simp [h0, eq_comm]
    | attack => simp [h0, eq_comm]
    | decay => rw [← e.sustainInDomain_iff]; cases hd : e.sustainInDomain <;> simp [h0, eq_comm]
    | sustain => rw [← e.sustainInDomain_iff]; cases hd : e.sustainInDomain <;> simp [h0, eq_comm]
    | release => simp [h0, eq_comm]
    | ended => simp [h0, eq_comm]

/-- A step with a sustain level in range completes. -/
theorem Env.step_total (e : Env) {el : Number} (bpm : Number) (h : 0 ≤ el) (hs : 0 ≤ e.s ∧ e.s ≤ 1) :
    ∃ e', e.step el bpm = .ok e' := by
  have hd := e.sustainInDomain_iff.mpr hs
  unfold Env.step
  rw [if_neg (not_lt.mpr h)]
  cases e.state <;> simp [hd]

/-- No step changes a parameter (R137). -/
theorem Env.step_params {e e' : Env} {el bpm : Number} (h : e.step el bpm = .ok e') :
    e'.a = e.a ∧ e'.d = e.d ∧ e'.s = e.s ∧ e'.r = e.r := by
  obtain ⟨-, h⟩ := (e.step_ok e' el bpm).mp h
  cases hs : e.state <;> rw [hs] at h <;> simp only at h
  · subst h; simp
  · subst h; unfold Env.stepAttack; dsimp only; split <;> simp
  · obtain ⟨-, rfl⟩ := h; unfold Env.stepDecay; dsimp only; split <;> simp
  · obtain ⟨-, rfl⟩ := h; simp [Env.stepSustain]
  · subst h; unfold Env.stepRelease; dsimp only; split <;> simp
  · subst h; simp

/-- The state after a step: the same, or the next (R138 to R143, R146). -/
theorem Env.step_state {e e' : Env} {el bpm : Number} (h : e.step el bpm = .ok e') :
    match e.state with
    | .none => e'.state = .none
    | .attack => e'.state = .attack ∨ e'.state = .decay
    | .decay => e'.state = .decay ∨ e'.state = .sustain
    | .sustain => e'.state = .sustain
    | .release => e'.state = .release ∨ e'.state = .ended
    | .ended => e'.state = .ended := by
  obtain ⟨-, h⟩ := (e.step_ok e' el bpm).mp h
  cases hs : e.state <;> rw [hs] at h <;> simp only at h ⊢
  · rw [h, hs]
  · subst h; unfold Env.stepAttack; dsimp only; split <;> simp [hs]
  · obtain ⟨-, rfl⟩ := h; unfold Env.stepDecay; dsimp only; split <;> simp [hs]
  · obtain ⟨-, rfl⟩ := h; simp [Env.stepSustain, hs]
  · subst h; unfold Env.stepRelease; dsimp only; split <;> simp [hs]
  · rw [h, hs]

/-- A step moves a value in range to a value in range (R147). -/
theorem Env.step_inRange {e e' : Env} {el bpm : Number} (h : e.step el bpm = .ok e') (hr : e.InRange) : e'.InRange := by
  obtain ⟨hel, h⟩ := (e.step_ok e' el bpm).mp h
  have hq : ∀ p, 0 ≤ el / duration p := fun p => div_nonneg hel (duration_nonneg p)
  cases hs : e.state <;> rw [hs] at h <;> simp only at h
  · subst h; exact hr
  · have h0 := hr.nonneg
    have hp := hq e.a
    subst h
    unfold Env.stepAttack
    dsimp only
    split
    · exact ⟨by norm_num, le_rfl, nofun, nofun, nofun⟩
    · rename_i hv
      have hv0 : 0 ≤ stageValue (duration e.a) 1 (e.value + el / duration e.a) := by
        unfold stageValue; split
        · norm_num
        · linarith
      exact ⟨hv0, (not_le.mp hv).le, fun hc => by simp [hs] at hc, fun _ => not_le.mp hv, fun hc => by simp [hs] at hc⟩
  · obtain ⟨⟨hs0, hs1⟩, rfl⟩ := h
    have h1 := hr.le_one
    have hp := hq e.d
    unfold Env.stepDecay
    dsimp only
    split
    · exact ⟨hs0, hs1, nofun, nofun, nofun⟩
    · rename_i hv
      have hv1 : stageValue (duration e.d) e.s (e.value - el / duration e.d) ≤ 1 := by
        unfold stageValue; split
        · exact hs1
        · linarith
      exact ⟨hs0.trans (not_le.mp hv).le, hv1, fun hc => by simp [hs] at hc, fun hc => by simp [hs] at hc,
        fun hc => by simp [hs] at hc⟩
  · obtain ⟨⟨hs0, hs1⟩, rfl⟩ := h
    exact ⟨hs0, hs1, fun hc => by simp [Env.stepSustain, hs] at hc, fun hc => by simp [Env.stepSustain, hs] at hc,
      fun hc => by simp [Env.stepSustain, hs] at hc⟩
  · have h1 := hr.le_one
    have hp := hq e.r
    subst h
    unfold Env.stepRelease
    dsimp only
    split
    · exact ⟨le_rfl, by norm_num, nofun, nofun, fun _ => rfl⟩
    · rename_i hv
      have hv1 : stageValue (duration e.r) 0 (e.value - el / duration e.r) ≤ 1 := by
        unfold stageValue; split
        · norm_num
        · linarith
      exact ⟨(not_le.mp hv).le, hv1, fun hc => by simp [hs] at hc, fun hc => by simp [hs] at hc, fun hc => by simp [hs] at hc⟩
  · subst h; exact hr

/-! ### LFO -/

theorem Lfo.step_ok (l : Lfo) (e bpm : Number) (k : Nat) (y : Lfo × Nat) :
    l.step e bpm k = .ok y ↔ l.refusal e bpm = none ∧ y = l.advance e bpm k := by
  unfold Lfo.step
  cases l.refusal e bpm <;> simp [eq_comm]

/-- Nothing refuses a step exactly under the premises of R170. -/
theorem Lfo.refusal_none (l : Lfo) (e bpm : Number) : l.refusal e bpm = none ↔ 0 ≤ e ∧ l.Premises bpm := by
  unfold Lfo.refusal
  constructor
  · intro h
    by_cases h0 : e < 0
    · simp [h0] at h
    · rw [if_neg h0] at h
      split at h
      · cases h
      split at h
      · cases h
      split at h
      · cases h
      split at h
      · cases h
      · rename_i a b c d
        simp only [Bool.and_eq_true, Bool.or_eq_true, decide_eq_true_eq, beq_iff_eq, not_and, not_or, not_le, not_lt] at a b c d
        exact ⟨not_lt.mp h0, ⟨fun hx => a (by tauto), b, fun hw => ⟨Nat.one_le_iff_ne_zero.mpr (c hw).1, (c hw).2⟩, d⟩⟩
  · rintro ⟨h0, ht, hb, hc, hq⟩
    rw [if_neg (not_lt.mpr h0), if_neg, if_neg, if_neg, if_neg]
    · simp only [Bool.and_eq_true, decide_eq_true_eq, not_and, not_lt]; exact hq
    · simp only [Bool.and_eq_true, Bool.or_eq_true, decide_eq_true_eq, beq_iff_eq, not_and, not_or, not_lt]
      exact fun hw => ⟨Nat.one_le_iff_ne_zero.mp (hc hw).1, (hc hw).2⟩
    · simp only [Bool.and_eq_true, decide_eq_true_eq, not_and, not_le]; exact hb
    · simp only [Bool.and_eq_true, Bool.or_eq_true, decide_eq_true_eq, not_and, not_le]
      exact fun hx => ht (by tauto)

theorem Lfo.step_total (l : Lfo) {e bpm : Number} (k : Nat) (h : 0 ≤ e) (hp : l.Premises bpm) :
    ∃ y, l.step e bpm k = .ok y :=
  ⟨_, (l.step_ok e bpm k _).mpr ⟨(l.refusal_none e bpm).mpr ⟨h, hp⟩, rfl⟩⟩

/-- A step changes the runtime registers alone (R173), and the held value only by a draw (R184). -/
theorem Lfo.advance_spec (l : Lfo) (e bpm : Number) (k : Nat) :
    ∃ t period hold value, (l.advance e bpm k).1 = { l with t := t, period := period, randHold := hold, value := value } ∧
      (hold = l.randHold ∨ -1 ≤ hold ∧ hold < 1) := by
  refine ⟨_, _, _, _, rfl, ?_⟩
  split
  · exact .inr (drawUniform_range (-1) 1 k (by norm_num))
  · exact .inl rfl

/-- `LFO.NOTE_ON` (R172, R186). -/
theorem Lfo.noteOn_spec (l : Lfo) (k : Nat) : ∃ ph hold,
    (l.noteOn k).1 = { l with startPhase := ph, period := 0, t := 0, randHold := hold, value := 0 } ∧
      (l.randphaseEn = true → 0 ≤ ph ∧ ph < 1) ∧ (l.randphaseEn = false → ph = 0) ∧ -1 ≤ hold ∧ hold < 1 := by
  unfold Lfo.noteOn
  split
  · rename_i hr
    exact ⟨_, _, rfl, fun _ => drawUniform_range 0 1 k (by norm_num), fun h => absurd hr (by simp [h]),
      drawUniform_range (-1) 1 (k + 1) (by norm_num)⟩
  · rename_i hr
    exact ⟨_, _, rfl, fun h => absurd h hr, fun _ => rfl, drawUniform_range (-1) 1 k (by norm_num)⟩

/-! ### Filter -/

theorem Flt.hz_range (f : Flt) : 1 ≤ f.hz ∧ f.hz ≤ 16000 := by
  have h : 0 ≤ f.cutEff ∧ f.cutEff ≤ 1 := by
    unfold Flt.cutEff; rw [clamp_unit]
    exact ⟨le_max_left _ _, max_le (by norm_num) (min_le_left _ _)⟩
  unfold Flt.hz Config.fltFMax
  constructor <;> nlinarith [h.1, h.2]

/-- An update changes the coefficients alone (R213, R216). -/
theorem Flt.update_ok {f g : Flt} {sr : Number} (h : f.update sr = .ok g) :
    g = { f with coeffs := g.coeffs } ∧ (f.type = .none → g = f) := by
  unfold Flt.update at h
  cases ht : f.type <;> rw [ht] at h <;> simp only at h
  · cases h; exact ⟨by rw [← ht], fun _ => rfl⟩
  all_goals
    split at h
    · cases h; exact ⟨rfl, nofun⟩
    · cases h

theorem Flt.update_total (f : Flt) {sr : Number} (h : f.Renderable sr) : ∃ g, f.update sr = .ok g := by
  rcases h with h | h
  · exact ⟨f, by simp [Flt.update, h]⟩
  · obtain ⟨h1, h2⟩ := f.hz_range
    have hr : f.rateOk sr = true := by
      simp only [Flt.rateOk, Bool.and_eq_true, decide_eq_true_eq]
      refine ⟨⟨?_, ?_⟩, ?_⟩ <;> linarith
    unfold Flt.update
    cases f.type <;> simp [hr]

theorem runChannel_length (c : Coeffs) (t : Taps) (xs : List Number) : (runChannel c t xs).2.length = xs.length := by
  induction xs generalizing t with
  | nil => rfl
  | cons x xs ih => simp [runChannel, ih]

/-- A run changes the taps, and the first `n` samples of the buffer (R218). -/
theorem Flt.run_ok {f : Flt} {b : Scratch} {n : Nat} {y : Flt × Scratch} (h : f.run b n = .ok y) :
    y.1 = { f with left := y.1.left, right := y.1.right } ∧ y.2.left.length = b.left.length ∧
      y.2.right.length = b.right.length ∧ (f.type = .none → y = (f, b)) := by
  unfold Flt.run at h
  split at h
  · rename_i hn
    simp only [Bool.and_eq_true, decide_eq_true_eq] at hn
    cases ht : f.type <;> rw [ht] at h <;> simp only at h
    · cases h; exact ⟨by rw [← ht], rfl, rfl, fun _ => rfl⟩
    all_goals
      cases h
      refine ⟨rfl, ?_, ?_, nofun⟩
      · simp only [List.length_append, runChannel_length, List.length_take, List.length_drop]; omega
      · simp only [List.length_append, runChannel_length, List.length_take, List.length_drop]; omega
  · cases h

theorem Flt.run_total (f : Flt) {b : Scratch} {n : Nat} (hl : n ≤ b.left.length) (hr : n ≤ b.right.length) :
    ∃ y, f.run b n = .ok y := by
  unfold Flt.run
  cases f.type <;> simp [hl, hr]

/-! ### Buses (R75) -/

theorem accumulate_length {cs xs : List Number} (h : xs.length ≤ cs.length) : (accumulate cs xs).length = cs.length := by
  induction cs generalizing xs with
  | nil => cases xs <;> simp_all [accumulate]
  | cons c cs ih =>
    cases xs with
    | nil => rfl
    | cons x xs => simp only [accumulate, List.length_cons]; rw [ih (by simpa using h)]

theorem accumulate_get {cs xs : List Number} (h : xs.length ≤ cs.length) (i : Nat) :
    (accumulate cs xs)[i]? = cs[i]?.map fun c => c + xs.getD i 0 := by
  induction cs generalizing xs i with
  | nil => cases xs <;> simp_all [accumulate]
  | cons c cs ih =>
    cases xs with
    | nil => simp [accumulate]
    | cons x xs =>
      cases i with
      | zero => simp [accumulate]
      | succ i => simpa [accumulate] using ih (by simpa using h) i

theorem accumulate_nil (cs : List Number) : accumulate cs [] = cs := by cases cs <;> rfl

/-- Accumulation changes the contents alone, below the length of what is added. -/
theorem Bus.add_ok {b b' : Bus} {l r : List Number} (h : b.add l r = .ok b') :
    ∃ cl cr, b.channels = [cl, cr] ∧ l.length ≤ cl.length ∧ r.length ≤ cr.length ∧
      b' = { b with channels := [accumulate cl l, accumulate cr r] } ∧ b'.frame = b.frame := by
  unfold Bus.add at h
  split at h
  · rename_i cl cr hc
    split at h
    · rename_i hn
      cases h
      exact ⟨cl, cr, hc, hn.2.1, hn.2.2.2, rfl,
        by simp [Bus.frame, hc, accumulate_length hn.2.1, accumulate_length hn.2.2.2]⟩
    · cases h
  · cases h

theorem Bus.add_total {b : Bus} {n : Nat} (h : b.Takes n) {l r : List Number} (hl : l.length ≤ n) (hr : r.length ≤ n) :
    ∃ b', b.add l r = .ok b' := by
  obtain ⟨hu, hc, hlong⟩ := h
  simp only [Bus.usable, Bool.and_eq_true, beq_iff_eq, Config.busChannels] at hu
  obtain ⟨cl, cr, hch⟩ := List.length_eq_two.mp hu.2
  rw [hch] at hlong
  have h1 := hlong cl (by simp)
  have h2 := hlong cr (by simp)
  refine ⟨{ b with channels := [accumulate cl l, accumulate cr r] }, ?_⟩
  unfold Bus.add
  rw [hch]
  exact if_pos ⟨hl.trans hc, hl.trans h1, hr.trans hc, hr.trans h2⟩

/-- Taking a block depends on the frame of the bus alone. -/
theorem Bus.takes_congr {b b' : Bus} (h : b'.frame = b.frame) (n : Nat) : b'.Takes n ↔ b.Takes n := by
  simp only [Bus.frame, Prod.mk.injEq] at h
  obtain ⟨h1, h2, h3⟩ := h
  have hlen : b'.channels.length = b.channels.length := by simpa using congrArg List.length h3
  have hall : (∀ c ∈ b'.channels, n ≤ c.length) ↔ ∀ c ∈ b.channels, n ≤ c.length := by
    have : (∀ m ∈ b'.channels.map List.length, n ≤ m) ↔ ∀ m ∈ b.channels.map List.length, n ≤ m := by rw [h3]
    simpa using this
  constructor
  · rintro ⟨a, b, c⟩; exact ⟨by simpa [Bus.usable, h1, hlen] using a, h2 ▸ b, hall.mp c⟩
  · rintro ⟨a, b, c⟩; exact ⟨by simpa [Bus.usable, h1, hlen] using a, h2 ▸ b, hall.mpr c⟩

theorem Bus.usable_congr {b b' : Bus} (h : b'.frame = b.frame) : b'.usable = b.usable := by
  simp only [Bus.frame, Prod.mk.injEq] at h
  obtain ⟨h1, -, h3⟩ := h
  have hlen : b'.channels.length = b.channels.length := by simpa using congrArg List.length h3
  simp [Bus.usable, h1, hlen]

/-! ### Construction (R271) -/

/-- A new Voice: triggered clones, the operands, zeros, a bipolar draw. -/
theorem Voice.construct_spec (p : Fin 16) (k : Nat) (smp : Sample) (note vel : Fin 128) (d : Nat) :
    let v := (Voice.construct p k smp note vel d).1
    v.part = p ∧ v.sample = k ∧ v.aeg = smp.aeg.noteOn ∧ v.eg2 = smp.eg2.noteOn ∧
      (∀ j : Fin 3, ∃ i, v.lfos[j] = (smp.lfos[j].noteOn i).1) ∧ v.flt = smp.flt ∧ v.offset = smp.startOffset ∧
      v.gate = true ∧ (-1 ≤ v.rnd ∧ v.rnd < 1) ∧ v.pitchMod = 0 ∧ v.panMod = 0 ∧ v.ampMod = 0 ∧ v.modCount = 0 ∧
      v.note = note ∧ v.velocity = vel := by
  refine ⟨rfl, rfl, rfl, rfl, ?_, rfl, rfl, rfl, drawUniform_range (-1) 1 _ (by norm_num), rfl, rfl, rfl, rfl, rfl, rfl⟩
  intro j
  match j with
  | 0 => exact ⟨_, rfl⟩
  | 1 => exact ⟨_, rfl⟩
  | 2 => exact ⟨_, rfl⟩

theorem newVoice_ok (p : Fin 16) (k : Nat) (smp : Sample) (note vel : Fin 128) (d : Nat) (y : Voice × Nat) :
    newVoice p k smp note vel d = .ok y ↔ 1 ≤ smp.src.numSamples ∧ y = Voice.construct p k smp note vel d := by
  unfold newVoice
  by_cases h : smp.src.numSamples = 0
  · simp [h]
  · rw [if_neg h]; simp [Nat.one_le_iff_ne_zero.mpr h, eq_comm]

end Sys2Proof.Machine
end

