-- ==== Sys2Proof/Laws/Render.lean ====
section
/-! SUPPORT. The sample loop and the end of a block: what they can do, what every block preserves (one induction for all such
claims), and when a block completes. -/

namespace Sys2Proof.Machine

variable {part : Part} {sampleRate bpm speed : Number}

/-! ### One modulation update (R286 to R288) -/

theorem stepLfos_ok {ls ls' : Vector Lfo 3} {el : Number} {d d' : Nat} (h : stepLfos ls el bpm d = .ok (ls', d')) :
    ∀ j : Fin 3, ∃ i x, ls[j].step el bpm i = .ok x ∧ ls'[j] = x.1 := by
  unfold stepLfos at h
  split at h
  · cases h
  rename_i l0 h0
  split at h
  · cases h
  rename_i l1 h1
  split at h
  · cases h
  rename_i l2 h2
  cases h
  intro j
  match j with
  | 0 => exact ⟨_, _, h0, rfl⟩
  | 1 => exact ⟨_, _, h1, rfl⟩
  | 2 => exact ⟨_, _, h2, rfl⟩

theorem stepLfos_total (ls : Vector Lfo 3) {el : Number} (d : Nat) (h : 0 ≤ el) (hp : ∀ j : Fin 3, ls[j].Premises bpm) :
    ∃ y, stepLfos ls el bpm d = .ok y := by
  obtain ⟨y0, e0⟩ := Lfo.step_total ls[0] d h (hp 0)
  obtain ⟨y1, e1⟩ := Lfo.step_total ls[1] y0.2 h (hp 1)
  obtain ⟨y2, e2⟩ := Lfo.step_total ls[2] y1.2 h (hp 2)
  refine ⟨(#v[y0.1, y1.1, y2.1], y2.2), ?_⟩
  unfold stepLfos
  simp only [e0, e1, e2]

/-- What a modulation update answers: the matrix from the values before the step, distributed, then the steps. -/
theorem modUpdate_ok {x y : Playing} (h : modUpdate part sampleRate bpm x = .ok y) :
    let m := x.smp.mtx.eval (x.voice.sources part x.smp)
    x.voice.aeg.step (modPeriod sampleRate) bpm = .ok y.voice.aeg ∧
    x.voice.eg2.step (modPeriod sampleRate) bpm = .ok y.voice.eg2 ∧
    stepLfos x.voice.lfos (modPeriod sampleRate) bpm x.draws = .ok (y.voice.lfos, y.draws) ∧
    y.voice = { x.voice.distribute m.mod with aeg := y.voice.aeg, eg2 := y.voice.eg2, lfos := y.voice.lfos } ∧
    y.smp = { x.smp with mtx := m } := by
  unfold modUpdate Voice.advance at h
  simp only [Voice.distribute] at h
  split at h
  · cases h
  rename_i z hz
  split at hz
  · cases hz
  rename_i aeg ha
  split at hz
  · cases hz
  rename_i eg2 he
  split at hz
  · cases hz
  rename_i ls hl
  cases hz
  cases h
  exact ⟨ha, he, hl, rfl, rfl⟩

theorem modUpdate_total {x : Playing} (hr : 0 < sampleRate) (hs : x.voice.Steppable sampleRate bpm) :
    ∃ y, modUpdate part sampleRate bpm x = .ok y := by
  have hel : 0 ≤ modPeriod sampleRate := div_nonneg (by norm_num [Config.modBlock]) hr.le
  obtain ⟨a, ha⟩ := Env.step_total x.voice.aeg bpm hel hs.aeg
  obtain ⟨e, he⟩ := Env.step_total x.voice.eg2 bpm hel hs.eg2
  obtain ⟨l, hl⟩ := stepLfos_total x.voice.lfos x.draws hel hs.lfo
  refine ⟨{ voice := { x.voice.distribute (x.smp.mtx.eval (x.voice.sources part x.smp)).mod with aeg := a, eg2 := e, lfos := l.1 }
            smp := { x.smp with mtx := x.smp.mtx.eval (x.voice.sources part x.smp) }, draws := l.2 }, ?_⟩
  unfold modUpdate Voice.advance
  simp only [Voice.distribute, ha, he, hl]

/-! ### One induction for what every block preserves -/

/-- A property of what is playing that the four changes a block makes preserve. -/
structure Preserved (part : Part) (sampleRate bpm : Number) (P : Playing → Prop) : Prop where
  offset : ∀ x o, P x → P { x with voice := { x.voice with offset := o } }
  tick : ∀ x, P x → P { x with voice := x.voice.tick }
  amp : ∀ x, P x → P { x with voice := x.voice.refreshAmp x.smp }
  update : ∀ x y, P x → modUpdate part sampleRate bpm x = .ok y → P y

/-- The turn of one output sample: stopped by loop handling, refused, stopped by the envelope, or rendered. -/
theorem renderSamples_succ (n : Nat) (x : Playing) :
    renderSamples part sampleRate bpm speed (n + 1) x =
      match handleLoop x.smp x.voice with
      | none => .ok (Block.stopped x)
      | some offset =>
        match handleModulations part sampleRate bpm { x with voice := { x.voice with offset := offset } } with
        | .error r => .error r
        | .ok y =>
          if endedByEnvelope y.2 (refreshIf y.2 y.1) then .ok (Block.stopped (refreshIf y.2 y.1))
          else
            match fetchBoth (refreshIf y.2 y.1) with
            | .error r => .error r
            | .ok lr =>
              (renderSamples part sampleRate bpm speed n ((refreshIf y.2 y.1).move speed)).map (Block.cons lr.1 lr.2) := rfl

theorem handleModulations_preserves {P : Playing → Prop} (hP : Preserved part sampleRate bpm P) {x : Playing}
    {y : Playing × Bool} (h : handleModulations part sampleRate bpm x = .ok y) (hx : P x) : P (refreshIf y.2 y.1) := by
  unfold handleModulations at h
  split at h
  · split at h
    · cases h
    · rename_i z hz
      cases h
      exact hP.amp _ (hP.tick _ (hP.update _ _ hx hz))
  · cases h
    exact hP.tick _ hx

/-- A block preserves every such property. -/
theorem renderSamples_preserves {P : Playing → Prop} (hP : Preserved part sampleRate bpm P) (n : Nat) {x : Playing} {b : Block}
    (h : renderSamples part sampleRate bpm speed n x = .ok b) (hx : P x) : P b.playing := by
  induction n generalizing x b with
  | zero => cases h; exact hx
  | succ n ih =>
    rw [renderSamples_succ] at h
    split at h
    · cases h; exact hx
    · rename_i o ho
      split at h
      · cases h
      · rename_i y hy
        have hz := handleModulations_preserves hP hy (hP.offset x o hx)
        split at h
        · cases h; exact hz
        · split at h
          · cases h
          · rename_i lr hlr
            cases hb : renderSamples part sampleRate bpm speed n ((refreshIf y.2 y.1).move speed) with
            | error r => rw [hb] at h; cases h
            | ok b' =>
              rw [hb] at h
              cases h
              exact ih (x := (refreshIf y.2 y.1).move speed) (b := b') hb (hP.offset _ _ hz)

/-- The two channels of a block have one length, at most the block's, and the whole of it unless the Voice stopped. -/
theorem renderSamples_length (n : Nat) {x : Playing} {b : Block}
    (h : renderSamples part sampleRate bpm speed n x = .ok b) :
    b.left.length = b.right.length ∧ b.left.length ≤ n ∧ (b.stop = false → b.left.length = n) := by
  induction n generalizing x b with
  | zero => cases h; exact ⟨rfl, le_rfl, fun _ => rfl⟩
  | succ n ih =>
    rw [renderSamples_succ] at h
    split at h
    · cases h; exact ⟨rfl, Nat.zero_le _, nofun⟩
    · split at h
      · cases h
      · rename_i y hy
        split at h
        · cases h; exact ⟨rfl, Nat.zero_le _, nofun⟩
        · split at h
          · cases h
          · cases hb : renderSamples part sampleRate bpm speed n ((refreshIf y.2 y.1).move speed) with
            | error r => rw [hb] at h; cases h
            | ok b' =>
              rw [hb] at h
              cases h
              obtain ⟨h1, h2, h3⟩ := ih hb
              simp only [Block.cons, List.length_cons]
              exact ⟨by omega, by omega, fun hs => by rw [h3 hs]⟩

/-- What a Voice keeps through every block: identity, gate, random value, note (R43). -/
def Voice.identity (v : Voice) := (v.part, v.sample, v.gate, v.rnd, v.note, v.velocity)

/-- Every block keeps the Voice's identity, the configuration of what it steps, and the Sample but for its matrix outputs. -/
theorem preserved_identity (part : Part) (sampleRate bpm : Number) (x0 : Playing) :
    Preserved part sampleRate bpm fun x =>
      x.voice.identity = x0.voice.identity ∧ x.smp = { x0.smp with mtx := x.smp.mtx } ∧ x.smp.mtx.slots = x0.smp.mtx.slots ∧
      x.voice.flt = { x0.voice.flt with cutoffMod := x.voice.flt.cutoffMod, resMod := x.voice.flt.resMod } := by
  refine ⟨fun x o h => h, fun x h => h, fun x h => h, fun x y h hy => ?_⟩
  obtain ⟨-, -, -, hv, hs⟩ := modUpdate_ok hy
  obtain ⟨h1, h2, h3, h4⟩ := h
  refine ⟨?_, ?_, ?_, ?_⟩
  · rw [hv]; exact h1
  · rw [hs, h2]
  · rw [hs]; exact h3
  · rw [hv]; simp only [Voice.distribute]; rw [h4]

/-- Every block keeps what can be stepped steppable (R130, R170, R210). -/
theorem preserved_steppable (part : Part) (sampleRate bpm : Number) :
    Preserved part sampleRate bpm fun x => x.voice.Steppable sampleRate bpm := by
  refine ⟨fun x o h => ⟨h.aeg, h.eg2, h.lfo, h.flt⟩, fun x h => ⟨h.aeg, h.eg2, h.lfo, h.flt⟩,
    fun x h => ⟨h.aeg, h.eg2, h.lfo, h.flt⟩, fun x y h hy => ?_⟩
  obtain ⟨ha, he, hl, hv, -⟩ := modUpdate_ok hy
  refine ⟨?_, ?_, fun j => ?_, ?_⟩
  · rw [(Env.step_params ha).2.2.1]; exact h.aeg
  · rw [(Env.step_params he).2.2.1]; exact h.eg2
  · obtain ⟨i, z, hz, hj⟩ := stepLfos_ok hl j
    rw [hj]
    obtain ⟨-, rfl⟩ := (Lfo.step_ok _ _ _ _ _).mp hz
    obtain ⟨t, p, r, v, hspec, -⟩ := Lfo.advance_spec x.voice.lfos[j] (modPeriod sampleRate) bpm i
    rw [hspec]
    obtain ⟨q1, q2, q3, q4⟩ := h.lfo j
    exact ⟨q1, q2, q3, q4⟩
  · rw [hv]; exact h.flt

/-- Every block keeps every ENV in range and triggered, and every LFO's ranges (R147, R393, R34). -/
theorem preserved_ranges (part : Part) (sampleRate bpm : Number) :
    Preserved part sampleRate bpm fun x =>
      (x.voice.aeg.InRange ∧ x.voice.eg2.InRange) ∧ (x.voice.aeg.state ≠ .none ∧ x.voice.eg2.state ≠ .none) := by
  refine ⟨fun x o h => h, fun x h => h, fun x h => h, fun x y h hy => ?_⟩
  obtain ⟨ha, he, -, -, -⟩ := modUpdate_ok hy
  have hn : ∀ {e e' : Env} {el : Number}, e.step el bpm = .ok e' → e.state ≠ .none → e'.state ≠ .none := by
    intro e e' el hs hne hc
    have := Env.step_state hs
    cases hst : e.state <;> rw [hst] at this <;> simp_all
  exact ⟨⟨Env.step_inRange ha h.1.1, Env.step_inRange he h.1.2⟩, hn ha h.2.1, hn he h.2.2⟩

/-! ### Blocks in pieces, ENV steps, and the Filter switched off -/

/-- What is playing, with the Filter switched off. -/
def Playing.dry (x : Playing) : Playing := { x with voice := { x.voice with flt := { x.voice.flt with type := .none } } }

/-- The Filter does not act on modulation. -/
theorem modUpdate_dry (x : Playing) :
    modUpdate part sampleRate bpm x.dry = (modUpdate part sampleRate bpm x).map Playing.dry := by
  have key : ∀ (v w : Voice), w = { v with flt := w.flt } → ∀ d,
      w.advance sampleRate bpm d = (v.advance sampleRate bpm d).map fun y => ({ y.1 with flt := w.flt }, y.2) := by
    intro v w h d
    rw [h]
    unfold Voice.advance
    simp only
    cases v.aeg.step (modPeriod sampleRate) bpm with
    | error r => rfl
    | ok a =>
      cases v.eg2.step (modPeriod sampleRate) bpm with
      | error r => rfl
      | ok e => cases stepLfos v.lfos (modPeriod sampleRate) bpm d <;> rfl
  unfold modUpdate
  simp only
  rw [key (x.voice.distribute (x.smp.mtx.eval (x.voice.sources part x.smp)).mod)
    (x.dry.voice.distribute (x.dry.smp.mtx.eval (x.dry.voice.sources part x.dry.smp)).mod) rfl]
  rw [show x.dry.draws = x.draws from rfl]
  cases h : (x.voice.distribute (x.smp.mtx.eval (x.voice.sources part x.smp)).mod).advance sampleRate bpm x.draws with
  | error r => rfl
  | ok y =>
    have hf : y.1.flt = (x.voice.distribute (x.smp.mtx.eval (x.voice.sources part x.smp)).mod).flt := by
      unfold Voice.advance at h
      simp only at h
      split at h
      · cases h
      split at h
      · cases h
      split at h
      · cases h
      cases h; rfl
    show Except.ok _ = Except.ok _
    simp only [Playing.dry, Except.ok.injEq, Playing.mk.injEq, and_true]
    rw [hf]
    exact ⟨rfl, rfl⟩

theorem handleModulations_dry (x : Playing) :
    handleModulations part sampleRate bpm x.dry
      = (handleModulations part sampleRate bpm x).map fun y => (y.1.dry, y.2) := by
  unfold handleModulations
  by_cases h : x.voice.modCount = 0
  · rw [if_pos h, if_pos (show x.dry.voice.modCount = 0 from h), modUpdate_dry]
    cases modUpdate part sampleRate bpm x <;> rfl
  · rw [if_neg h, if_neg (show ¬ x.dry.voice.modCount = 0 from h)]; rfl

/-- The Filter does not act on the sample loop: it runs over the block after it (R297). -/
theorem renderSamples_dry (n : Nat) (x : Playing) :
    renderSamples part sampleRate bpm speed n x.dry
      = (renderSamples part sampleRate bpm speed n x).map fun b => { b with playing := b.playing.dry } := by
  induction n generalizing x with
  | zero => rfl
  | succ n ih =>
    rw [renderSamples_succ, renderSamples_succ]
    rw [show handleLoop x.dry.smp x.dry.voice = handleLoop x.smp x.voice from rfl]
    cases handleLoop x.smp x.voice with
    | none => rfl
    | some o =>
      simp only
      rw [show ({ x.dry with voice := { x.dry.voice with offset := o } } : Playing)
        = ({ x with voice := { x.voice with offset := o } } : Playing).dry from rfl, handleModulations_dry]
      cases handleModulations part sampleRate bpm { x with voice := { x.voice with offset := o } } with
      | error r => rfl
      | ok y =>
        simp only [Except.map]
        rw [show refreshIf y.2 y.1.dry = (refreshIf y.2 y.1).dry from by unfold refreshIf; split <;> rfl]
        generalize refreshIf y.2 y.1 = z
        rw [show endedByEnvelope y.2 z.dry = endedByEnvelope y.2 z from rfl]
        split
        · rfl
        · rw [show fetchBoth z.dry = fetchBoth z from rfl]
          cases fetchBoth z with
          | error r => rfl
          | ok lr =>
            simp only
            rw [show z.dry.move speed = (z.move speed).dry from rfl, ih]
            cases renderSamples part sampleRate bpm speed n (z.move speed) <;> rfl

/-- A block that does not stop, and what follows it: one longer block (R290). -/
theorem renderSamples_add (m k : Nat) {x : Playing} {b : Block}
    (h : renderSamples part sampleRate bpm speed m x = .ok b) (hs : b.stop = false) :
    renderSamples part sampleRate bpm speed (m + k) x
      = (renderSamples part sampleRate bpm speed k b.playing).map fun c =>
          { c with left := b.left ++ c.left, right := b.right ++ c.right } := by
  induction m generalizing x b with
  | zero =>
    cases h
    rw [Nat.zero_add]
    cases renderSamples part sampleRate bpm speed k x <;> rfl
  | succ m ih =>
    rw [Nat.add_right_comm, renderSamples_succ]
    rw [renderSamples_succ] at h
    cases hl : handleLoop x.smp x.voice with
    | none => rw [hl] at h; cases h; cases hs
    | some o =>
      rw [hl] at h
      simp only at h ⊢
      cases hy : handleModulations part sampleRate bpm { x with voice := { x.voice with offset := o } } with
      | error r => rw [hy] at h; cases h
      | ok y =>
        rw [hy] at h
        simp only at h ⊢
        split at h
        · cases h; cases hs
        · rename_i he
          rw [if_neg he]
          cases hf : fetchBoth (refreshIf y.2 y.1) with
          | error r => rw [hf] at h; cases h
          | ok lr =>
            rw [hf] at h
            simp only at h ⊢
            cases hb : renderSamples part sampleRate bpm speed m ((refreshIf y.2 y.1).move speed) with
            | error r => rw [hb] at h; cases h
            | ok c =>
              rw [hb] at h
              cases h
              rw [ih hb hs]
              show Except.map _ (Except.map _ (renderSamples part sampleRate bpm speed k c.playing))
                = Except.map _ (renderSamples part sampleRate bpm speed k c.playing)
              cases renderSamples part sampleRate bpm speed k c.playing <;> rfl

/-- A block steps both ENVs once for each multiple of 128 that the modulation counter passes, fewer only if it stops (R286,
R288). -/
theorem renderSamples_steps (n : Nat) (x : Playing) (b : Block) (h : renderSamples part sampleRate bpm speed n x = .ok b) :
   ∃ k, k ≤ (x.voice.modCount.val + n + 127) / 128 - (x.voice.modCount.val + 127) / 128 ∧ 
    (b.stop = false → k = (x.voice.modCount.val + n + 127) / 128 - (x.voice.modCount.val + 127) / 128) ∧
    x.voice.SteppedTo sampleRate bpm k b.playing.voice := by
  induction n generalizing x b with
  | zero => cases h; exact ⟨0, by omega, fun _ => by omega, rfl, rfl⟩
  | succ n ih =>
    rw [renderSamples_succ] at h
    split at h
    · cases h; exact ⟨0, by omega, fun h => (by cases h), rfl, rfl⟩
    · rename_i o ho
      split at h
      · cases h
      · rename_i y hy
        have hlt := x.voice.modCount.isLt
        -- one turn
        have hturn : ∃ j, (x.voice.modCount.val = 0 → j = 1) ∧ (x.voice.modCount.val ≠ 0 → j = 0) ∧ 
            (∀ k w, (refreshIf y.2 y.1).voice.SteppedTo sampleRate bpm k w → x.voice.SteppedTo sampleRate bpm (j + k) w) ∧
            (refreshIf y.2 y.1).voice.modCount.val = (x.voice.modCount.val + 1) % 128 := by
          unfold handleModulations at hy
          split at hy
          · rename_i hm
            split at hy
            · cases hy
            · rename_i z hz
              obtain ⟨ha, he, -, hv, -⟩ := modUpdate_ok hz
              cases hy
              refine ⟨1, fun _ => rfl, fun c => absurd (congrArg Fin.val hm) c, ?_, ?_⟩
              · rintro k w ⟨k1, k2⟩
                rw [Nat.add_comm]
                constructor
                · unfold Env.stepTimes
                  have ha' : x.voice.aeg.step (128 / sampleRate) bpm = .ok z.voice.aeg := ha
                  rw [ha']; exact k1
                · unfold Env.stepTimes
                  have ha' : x.voice.eg2.step (128 / sampleRate) bpm = .ok z.voice.eg2 := he
                  rw [ha']; exact k2
              · show (z.voice.modCount + 1).val = _
                rw [hv, Fin.val_add]; rfl
          · rename_i hm
            cases hy
            refine ⟨0, fun c => absurd (Fin.ext c) hm, fun _ => rfl, ?_, ?_⟩
            · intro k w h; rw [Nat.zero_add]; exact h
            · show (x.voice.modCount + 1).val = _
              rw [Fin.val_add]; rfl
        obtain ⟨j, j0, j1, j2, j3⟩ := hturn
        split at h
        · cases h
          refine ⟨j + 0, ?_, fun h => (by cases h), j2 0 _ ⟨rfl, rfl⟩⟩
          by_cases hz : x.voice.modCount.val = 0
          · rw [j0 hz]; omega
          · rw [j1 hz]; omega
        · split at h
          · cases h
          · rename_i lr hlr
            cases hb : renderSamples part sampleRate bpm speed n ((refreshIf y.2 y.1).move speed) with
            | error r => rw [hb] at h; cases h
            | ok b' =>
              rw [hb] at h
              cases h
              obtain ⟨k, k1, k2, k3⟩ := ih _ _ hb
              have hmv : ((refreshIf y.2 y.1).move speed).voice.modCount.val = (x.voice.modCount.val + 1) % 128 := j3
              rw [hmv] at k1 k2
              refine ⟨j + k, ?_, fun hs => ?_, j2 k _ k3⟩
              · by_cases hz : x.voice.modCount.val = 0
                · rw [j0 hz]; omega
                · rw [j1 hz]; omega
              · have := k2 hs
                by_cases hz : x.voice.modCount.val = 0
                · rw [j0 hz]; omega
                · rw [j1 hz]; omega

/-! ### When a block completes -/

/-- What is playing can be rendered to the end of any block (R73, R170, R210). -/
structure Playing.Ready (x : Playing) (sampleRate bpm speed : Number) : Prop where
  source : x.smp.src.Stereo
  steppable : x.voice.Steppable sampleRate bpm
  reaches : Reaches x.smp x.voice speed

theorem sampleRead_total {src : Source} (h : src.Stereo) {ch idx : Int} (h0 : 0 ≤ ch) (h1 : ch < 2) (i0 : 0 ≤ idx)
    (i1 : idx < src.numSamples) : ∃ v, sampleRead src ch idx = .ok v := by
  have hc := h.channels
  obtain ⟨v, hv⟩ := Option.isSome_iff_exists.mp (h.filled ch.toNat idx.toNat (by omega) (by omega))
  refine ⟨v, ?_⟩
  unfold sampleRead
  rw [if_pos ⟨h0, by omega, i0, i1⟩, hv]

theorem fetchBoth_total {x : Playing} (h : x.smp.src.Stereo) (h0 : 0 ≤ x.voice.offset)
    (h1 : x.voice.offset < x.smp.src.numSamples) : ∃ lr, fetchBoth x = .ok lr := by
  have i0 : 0 ≤ x.voice.offset.floor := Rat.le_floor_iff.mpr (by simpa using h0)
  have i1 : x.voice.offset.floor < (x.smp.src.numSamples : Int) := by
    rw [Rat.floor_lt_iff]; exact_mod_cast h1
  obtain ⟨l, hl⟩ := sampleRead_total h (ch := 0) le_rfl (by norm_num) i0 i1
  obtain ⟨r, hr⟩ := sampleRead_total h (ch := 1) (by norm_num) (by norm_num) i0 i1
  refine ⟨(l * ((x.voice.velocity.val : Number) / 127) * x.voice.ampL, r * ((x.voice.velocity.val : Number) / 127) * x.voice.ampR), ?_⟩
  unfold fetchBoth fetchScaled
  simp only [hl, hr]

/-- The wrap of a contained loop gives an index of the source, and the next offset is contained (R282, R295). -/
theorem loopWrap_contained {smp : Sample} {offset speed : Number} (h : LoopContained smp offset speed) :
    0 ≤ loopWrap smp offset ∧ loopWrap smp offset < smp.src.numSamples ∧
      LoopContained smp (loopWrap smp offset + speed) speed := by
  obtain ⟨h0, h1, h2⟩ := h
  unfold loopWrap LoopContained
  cases hr : smp.reverse <;> rw [hr] at h2 <;> simp only [Bool.false_eq_true, if_false, if_pos] at h2 ⊢
  · obtain ⟨a, b, c, d, e⟩ := h2
    split
    · refine ⟨?_, ?_, h0, h1, a, ?_, ?_, d, e⟩ <;> linarith
    · rename_i hn
      have := not_le.mp hn
      refine ⟨?_, ?_, h0, h1, a, ?_, ?_, d, e⟩ <;> linarith
  · obtain ⟨a, b, c, d, e⟩ := h2
    split
    · refine ⟨?_, ?_, h0, h1, a, ?_, ?_, d, e⟩ <;> linarith
    · rename_i hn
      have := not_le.mp hn
      refine ⟨?_, ?_, h0, h1, a, ?_, ?_, d, e⟩ <;> linarith

/-- Loop handling of a Voice that reaches every index: the offset names an index, and the next offset does after it (R280). -/
theorem handleLoop_reaches {smp : Sample} {v : Voice} {speed o : Number} (h : Reaches smp v speed)
    (ho : handleLoop smp v = some o) :
    0 ≤ o ∧ o < smp.src.numSamples ∧ ∀ v' : Voice, v'.gate = v.gate → v'.offset = o + speed → Reaches smp v' speed := by
  unfold handleLoop at ho
  unfold Reaches at h ⊢
  cases hm : smp.playMode <;> rw [hm] at ho h <;> simp only at ho h ⊢
  · split at ho
    · cases ho
    · rename_i hn
      push Not at hn
      cases ho
      exact ⟨hn.1, hn.2, fun _ _ _ => trivial⟩
  · cases ho
    obtain ⟨a, b, c⟩ := loopWrap_contained h
    exact ⟨a, b, fun v' _ hv' => hv' ▸ c⟩
  · split at ho
    · cases ho
    · rename_i hn
      push Not at hn
      cases ho
      exact ⟨hn.1, hn.2, fun _ _ _ => trivial⟩
  · split at ho
    · rename_i hg
      cases ho
      obtain ⟨a, b, c⟩ := loopWrap_contained (h.resolve_left (by simp [hg]))
      exact ⟨a, b, fun v' _ hv' => .inr (hv' ▸ c)⟩
    · cases ho

/-- Between loop handling and the advance the offset does not move. -/
theorem handleModulations_offset {x : Playing} {y : Playing × Bool}
    (h : handleModulations part sampleRate bpm x = .ok y) : (refreshIf y.2 y.1).voice.offset = x.voice.offset := by
  unfold handleModulations at h
  split at h
  · split at h
    · cases h
    · rename_i z hz
      obtain ⟨-, -, -, hv, -⟩ := modUpdate_ok hz
      cases h
      show z.voice.offset = _
      rw [hv]; rfl
  · cases h; rfl

theorem handleModulations_total (hr : 0 < sampleRate) {x : Playing} (h : x.voice.Steppable sampleRate bpm) :
    ∃ y, handleModulations part sampleRate bpm x = .ok y := by
  unfold handleModulations
  split
  · obtain ⟨z, hz⟩ := modUpdate_total (part := part) hr h
    exact ⟨({ z with voice := z.voice.tick }, true), by simp only [hz]⟩
  · exact ⟨_, rfl⟩

/-- A block of any length completes. -/
theorem renderSamples_total (hr : 0 < sampleRate) (n : Nat) {x : Playing} (h : x.Ready sampleRate bpm speed) :
    ∃ b, renderSamples part sampleRate bpm speed n x = .ok b := by
  induction n generalizing x with
  | zero => exact ⟨_, rfl⟩
  | succ n ih =>
    rw [renderSamples_succ]
    cases hl : handleLoop x.smp x.voice with
    | none => exact ⟨_, rfl⟩
    | some o =>
      obtain ⟨o0, o1, hnext⟩ := handleLoop_reaches h.reaches hl
      obtain ⟨y, hy⟩ := handleModulations_total (part := part) (bpm := bpm) hr
        ((preserved_steppable part sampleRate bpm).offset x o h.steppable)
      have hst := handleModulations_preserves (preserved_steppable part sampleRate bpm) hy
        ((preserved_steppable part sampleRate bpm).offset x o h.steppable)
      obtain ⟨hid, hsmp, -, -⟩ := handleModulations_preserves
        (preserved_identity part sampleRate bpm { x with voice := { x.voice with offset := o } }) hy ⟨rfl, rfl, rfl, rfl⟩
      have ho := handleModulations_offset hy
      simp only [hy]
      split
      · exact ⟨_, rfl⟩
      · generalize refreshIf y.2 y.1 = z at hst hid hsmp ho ⊢
        have hsrc : z.smp.src = x.smp.src := by rw [hsmp]
        have hg : z.voice.gate = x.voice.gate := congrArg (fun i => i.2.2.1) hid
        obtain ⟨lr, hlr⟩ := fetchBoth_total (x := z) (hsrc ▸ h.source) (by rw [ho]; exact o0) (by rw [ho, hsrc]; exact o1)
        obtain ⟨b, hb⟩ := ih (x := z.move speed)
          { source := hsrc ▸ h.source
            steppable := (preserved_steppable part sampleRate bpm).offset z _ hst
            reaches := by
              have hreach : ∀ v : Voice, Reaches z.smp v speed = Reaches x.smp v speed := fun v => by rw [hsmp]; rfl
              show Reaches z.smp _ speed
              rw [hreach]
              exact hnext _ hg (by show z.voice.offset + speed = o + speed; rw [ho]) }
        exact ⟨Block.cons lr.1 lr.2 b, by simp only [hlr, hb]; rfl⟩

/-! ### The end of a block (R297, R298) -/

theorem Scratch.overlay_length (b : Scratch) (l r : List Number) :
    l.length ≤ (b.overlay l r).left.length ∧ r.length ≤ (b.overlay l r).right.length := by
  simp [Scratch.overlay]

/-- A run over the samples just rendered: their outputs, and the taps (R218, R297). -/
theorem Flt.run_overlay (f : Flt) (sc : Scratch) (l r : List Number) (h : l.length = r.length) : 
   ∃ fr, f.run (sc.overlay l r) l.length = .ok fr ∧ 
     fr.2.left.take l.length = (if f.type = .none then (f.left, l) else runChannel f.coeffs f.left l).2 ∧
     fr.2.right.take l.length = (if f.type = .none then (f.right, r) else runChannel f.coeffs f.right r).2 ∧
     fr.1 = { f with
      left := (if f.type = .none then (f.left, l) else runChannel f.coeffs f.left l).1
      right := (if f.type = .none then (f.right, r) else runChannel f.coeffs f.right r).1 } := by
  have h1 : (sc.overlay l r).left.take l.length = l := by simp [Scratch.overlay]
  have h2 : (sc.overlay l r).right.take l.length = r := by simp [Scratch.overlay, h]
  obtain ⟨o1, o2⟩ := sc.overlay_length l r
  unfold Flt.run
  rw [if_pos (by simp; omega)]
  have e1 : ∀ t : Taps, ((runChannel f.coeffs t l).2 ++ (sc.overlay l r).left.drop l.length).take l.length
      = (runChannel f.coeffs t l).2 := fun t => List.take_left' (runChannel_length _ _ _)
  have e2 : ∀ t : Taps, ((runChannel f.coeffs t r).2 ++ (sc.overlay l r).right.drop l.length).take l.length
      = (runChannel f.coeffs t r).2 := fun t => List.take_left' ((runChannel_length _ _ _).trans h.symm)
  cases ht : f.type with
  | none => refine ⟨_, rfl, by simpa using h1, by simpa using h2, ?_⟩; simp
            rw [← ht]
  | lowpass => 
    refine ⟨_, rfl, ?_, ?_, ?_⟩
    · simp only [h1]; rw [e1]; simp
    · simp only [h2]; rw [e2]; simp
    · simp only [h1, h2]; simp
  | highpass => 
    refine ⟨_, rfl, ?_, ?_, ?_⟩
    · simp only [h1]; rw [e1]; simp
    · simp only [h2]; rw [e2]; simp
    · simp only [h1, h2]; simp

/-- What the end of a block changes: of the Voice, the Filter's coefficients and taps and the scratch buffer; of the bus, the
contents below the length rendered. -/
theorem finishBlock_ok {keep : Bool} {b : Block} {bus : Bus} {fin : Finished}
    (h : finishBlock keep sampleRate b bus = .ok fin) (hlen : b.left.length = b.right.length) :
    (∃ (f : Flt) (buf : Scratch), fin.voice = { b.playing.voice with flt := f, scratch := buf } ∧
      f = { b.playing.voice.flt with coeffs := f.coeffs, left := f.left, right := f.right } ∧
      (b.playing.voice.flt.type = .none → f = b.playing.voice.flt)) ∧
    fin.bus.frame = bus.frame ∧
    (∀ c i, b.left.length ≤ i → element fin.bus.channels c i = element bus.channels c i) := by
  unfold finishBlock at h
  dsimp only at h
  split at h
  · cases h
    exact ⟨⟨_, _, rfl, rfl, fun _ => rfl⟩, rfl, fun _ _ _ => rfl⟩
  · split at h
    · cases h
    rename_i f hf
    split at h
    · cases h
    rename_i fr hfr
    split at h
    · cases h
    rename_i bus' hb
    cases h
    obtain ⟨cl, cr, hch, hl, hr, heq, hframe⟩ := Bus.add_ok hb
    obtain ⟨u1, u2⟩ := Flt.update_ok hf
    obtain ⟨r1, -, -, r4⟩ := Flt.run_ok hfr
    refine ⟨⟨fr.1, fr.2, rfl, ?_, fun ht => ?_⟩, hframe, fun c i hi => ?_⟩
    · rw [r1, u1]
    · have := u2 ht
      subst this
      rw [r4 ht]
    · simp only
      rw [heq, hch]
      have h1 : (fr.2.left.take b.left.length).length ≤ i := (List.length_take_le _ _).trans hi
      have h2 : (fr.2.right.take b.right.length).length ≤ i := (List.length_take_le _ _).trans (hlen ▸ hi)
      unfold element
      match c with
      | 0 =>
        show (accumulate cl _)[i]? = cl[i]?
        rw [accumulate_get hl, List.getD_eq_default _ _ h1]; simp
      | 1 =>
        show (accumulate cr _)[i]? = cr[i]?
        rw [accumulate_get hr, List.getD_eq_default _ _ h2]; simp
      | c + 2 => rfl

theorem finishBlock_total {keep : Bool} {b : Block} {bus : Bus} {n : Nat}
    (hf : b.playing.voice.flt.Renderable sampleRate) (hb : bus.Takes n) (hn : b.left.length ≤ n)
    (hlen : b.left.length = b.right.length) : ∃ fin, finishBlock keep sampleRate b bus = .ok fin := by
  unfold finishBlock
  dsimp only
  split
  · exact ⟨_, rfl⟩
  · obtain ⟨f, hu⟩ := Flt.update_total b.playing.voice.flt hf
    obtain ⟨o1, o2⟩ := b.playing.voice.scratch.overlay_length b.left b.right
    obtain ⟨fr, hr⟩ := Flt.run_total f (b := b.playing.voice.scratch.overlay b.left b.right) (n := b.left.length) o1 (hlen ▸ o2)
    obtain ⟨bus', ha⟩ := Bus.add_total hb (l := fr.2.left.take b.left.length) (r := fr.2.right.take b.right.length)
      ((List.length_take_le _ _).trans hn) ((List.length_take_le _ _).trans (hlen ▸ hn))
    exact ⟨{ voice := { b.playing.voice with flt := fr.1, scratch := fr.2 }, bus := bus' }, by simp only [hu, hr, ha]⟩

/-! ### A render in the machine -/

theorem renderBlock_ok {smp : Sample} {v : Voice} {d n : Nat} {b : Block}
    (h : renderBlock part smp v d n sampleRate bpm = .ok b) :
    0 < sampleRate ∧ 1 ≤ smp.src.numSamples ∧
      renderSamples part sampleRate bpm (speedOf part smp v sampleRate) n
        { voice := v.refreshAmp smp, smp := smp, draws := d } = .ok b := by
  unfold renderBlock at h
  split at h
  · cases h
  · rename_i h0
    split at h
    · cases h
    · rename_i h1
      exact ⟨not_le.mp h0, Nat.one_le_iff_ne_zero.mpr h1, h⟩

theorem renderBlock_total {smp : Sample} {v : Voice} (d n : Nat) (h : Playable part smp v sampleRate bpm) :
    ∃ b, renderBlock part smp v d n sampleRate bpm = .ok b := by
  unfold renderBlock
  rw [if_neg (not_le.mpr h.rate), if_neg (Nat.one_le_iff_ne_zero.mp h.source.nonempty)]
  refine renderSamples_total h.rate n ⟨h.source, ?_, h.reaches⟩
  exact (preserved_steppable part sampleRate bpm).amp { voice := v, smp := smp, draws := d } h.steppable

/-- What a render answers: the block of the Voice, and its end on the bus. -/
theorem renderVoice_ok {s : State} {v : Voice} {k n : Nat} {x : Rendered}
    (h : renderVoice s v k n sampleRate bpm = .ok x) :
    ∃ smp bus b fin, s.sampleAt v.part v.sample = some smp ∧ s.buses[k]? = some bus ∧ bus.usable = true ∧
      renderBlock s.parts[v.part] smp v s.draws n sampleRate bpm = .ok b ∧
      finishBlock Config.keepPartialBlock sampleRate b bus = .ok fin ∧
      x = { state :=
              { s.setSample v.part v.sample b.playing.smp with
                buses := s.buses.set k fin.bus
                draws := b.playing.draws }
            voice := fin.voice
            stop := b.stop } := by
  unfold renderVoice at h
  split at h
  · cases h
  rename_i smp hs
  split at h
  · cases h
  rename_i bus hb
  split at h
  · rename_i hu
    split at h
    · cases h
    rename_i b hbl
    split at h
    · cases h
    rename_i fin hf
    cases h
    exact ⟨smp, bus, b, fin, hs, hb, hu, hbl, hf, rfl⟩
  · cases h

theorem renderVoice_total {s : State} {v : Voice} {k n : Nat} {smp : Sample} {bus : Bus}
    (hs : s.sampleAt v.part v.sample = some smp) (hb : s.buses[k]? = some bus) (ht : bus.Takes n)
    (hp : Playable s.parts[v.part] smp v sampleRate bpm) : ∃ x, renderVoice s v k n sampleRate bpm = .ok x := by
  obtain ⟨b, hbl⟩ := renderBlock_total (n := n) s.draws hp
  obtain ⟨-, -, hrs⟩ := renderBlock_ok hbl
  obtain ⟨l1, l2, -⟩ := renderSamples_length n hrs
  have hst := renderSamples_preserves (preserved_steppable s.parts[v.part] sampleRate bpm) n hrs
    ((preserved_steppable s.parts[v.part] sampleRate bpm).amp { voice := v, smp := smp, draws := s.draws } hp.steppable)
  obtain ⟨fin, hf⟩ := finishBlock_total (keep := Config.keepPartialBlock) hst.flt ht l2 l1
  unfold renderVoice
  simp only [hs, hb, ht.usable, if_true, hbl, hf]
  exact ⟨_, rfl⟩

/-- The same of a render. -/
theorem renderVoice_steps {s : State} {v : Voice} {i n : Nat} {x : Rendered} (h : renderVoice s v i n sampleRate bpm = .ok x) :
   ∃ k, k ≤ (v.modCount.val + n + 127) / 128 - (v.modCount.val + 127) / 128 ∧ 
    (x.stop = false → k = (v.modCount.val + n + 127) / 128 - (v.modCount.val + 127) / 128) ∧ v.SteppedTo sampleRate bpm k x.voice := by
  obtain ⟨smp', bus', blk, fin, hs', hb', -, hbl, hf, rfl⟩ := renderVoice_ok h
  obtain ⟨-, -, hrs⟩ := renderBlock_ok hbl
  obtain ⟨l1, l2, -⟩ := renderSamples_length n hrs
  obtain ⟨⟨f, buf, hfv, -, -⟩, -, -⟩ := finishBlock_ok hf l1
  obtain ⟨k, a, b, c⟩ := renderSamples_steps _ _ _ hrs
  refine ⟨k, a, b, ?_⟩
  simp only [hfv]
  exact c

/-- A Voice with its Filter off that renders `n` samples adds one number to each of the first `n` elements of both channels (R75,
R297). -/
theorem renderVoice_adds {s : State} {v : Voice} {k n : Nat} {x : Rendered}
    (h : renderVoice s v k n sampleRate bpm = .ok x) (ht : v.flt.type = .none) (hs : x.stop = false) :
    ∃ (b b' : Bus) (u0 u1 : List Number), s.buses[k]? = some b ∧ x.state.buses[k]? = some b' ∧ u0.length = n ∧ u1.length = n ∧
      (∀ j, element b'.channels 0 j = (element b.channels 0 j).map fun c => c + u0.getD j 0) ∧
      (∀ j, element b'.channels 1 j = (element b.channels 1 j).map fun c => c + u1.getD j 0) := by
  obtain ⟨smp, bus, b, fin, -, hb, -, hbl, hf, rfl⟩ := renderVoice_ok h
  obtain ⟨-, -, hrs⟩ := renderBlock_ok hbl
  obtain ⟨l1, -, l3⟩ := renderSamples_length n hrs
  obtain ⟨-, -, -, hflt⟩ := renderSamples_preserves
    (preserved_identity s.parts[v.part] sampleRate bpm { voice := v.refreshAmp smp, smp := smp, draws := s.draws }) n hrs
    ⟨rfl, rfl, rfl, rfl⟩
  have htype : b.playing.voice.flt.type = .none := by rw [hflt]; exact ht
  have hlt := (List.getElem?_eq_some_iff.mp hb).1
  refine ⟨bus, fin.bus, b.left, b.right, hb, by simp [List.getElem?_set_self hlt], l3 hs, l1 ▸ l3 hs, ?_⟩
  have hstop : b.stop = false := hs
  unfold finishBlock at hf
  simp only [hstop, Bool.false_and, Bool.false_eq_true, if_false] at hf
  split at hf
  · cases hf
  rename_i f hu
  have hfe : f = b.playing.voice.flt := (Flt.update_ok hu).2 htype
  obtain ⟨fr, hfr, t1, t2, -⟩ := Flt.run_overlay f b.playing.voice.scratch b.left b.right l1
  rw [hfr] at hf
  simp only at hf
  split at hf
  · cases hf
  rename_i bus' hadd
  cases hf
  obtain ⟨cl, cr, hch, z1, z2, heq, -⟩ := Bus.add_ok hadd
  rw [hfe, if_pos htype] at t1 t2
  rw [t1] at z1 heq
  rw [← l1, t2] at z2 heq
  refine ⟨fun j => ?_, fun j => ?_⟩ <;> unfold element <;> rw [heq, hch]
  · exact accumulate_get z1 j
  · exact accumulate_get z2 j

/-! ### The frame of a render -/

/-- Frames compose. -/
theorem SameBut.trans {s t u : State} {fp : Footprint} (h : SameBut s t fp) (k : SameBut t u fp) : SameBut s u fp where
  env l hl := (k.env l hl).trans (h.env l hl)
  lfo l hl := (k.lfo l hl).trans (h.lfo l hl)
  flt l hl := (k.flt l hl).trans (h.flt l hl)
  mtx l hl := (k.mtx l hl).trans (h.mtx l hl)
  voice l hl := (k.voice l hl).trans (h.voice l hl)
  sample p i := (k.sample p i).trans (h.sample p i)
  bus b hb := (k.bus b hb).trans (h.bus b hb)
  busFrame b := (k.busFrame b).trans (h.busFrame b)
  scratch l hl := (k.scratch l hl).trans (h.scratch l hl)
  pitchbend p hp := (k.pitchbend p hp).trans (h.pitchbend p hp)
  controller p i hp := (k.controller p i hp).trans (h.controller p i hp)
  sel := k.sel.trans h.sel
  policy := k.policy.trans h.policy
  cmd := k.cmd.trans h.cmd

/-- A footprint may grow. -/
theorem SameBut.mono {s t : State} {fp fp' : Footprint} (h : SameBut s t fp) (he : ∀ l, fp.env l → fp'.env l)
    (hl : ∀ l, fp.lfo l → fp'.lfo l) (hf : ∀ l, fp.flt l → fp'.flt l) (hm : ∀ l, fp.mtx l → fp'.mtx l)
    (hv : ∀ l, fp.voice l → fp'.voice l) (hb : ∀ b, fp.bus b → fp'.bus b) (hs : ∀ l, fp.scratch l → fp'.scratch l)
    (hp : ∀ p, fp.pitchbend p → fp'.pitchbend p) (hc : ∀ p k, fp.controller p k → fp'.controller p k) : SameBut s t fp' where
  env l x := h.env l fun y => x (he l y)
  lfo l x := h.lfo l fun y => x (hl l y)
  flt l x := h.flt l fun y => x (hf l y)
  mtx l x := h.mtx l fun y => x (hm l y)
  voice l x := h.voice l fun y => x (hv l y)
  sample := h.sample
  bus b x := h.bus b fun y => x (hb b y)
  busFrame := h.busFrame
  scratch l x := h.scratch l fun y => x (hs l y)
  pitchbend p x := h.pitchbend p fun y => x (hp p y)
  controller p k x := h.controller p k fun y => x (hc p k y)
  sel := h.sel
  policy := h.policy
  cmd := h.cmd

/-- The templates and the plain fields of a Sample, all but its matrix. -/
theorem State.setSample_mtx_sameBut (s : State) (p : Fin 16) (k : Nat) (old : Sample) (m : Mtx)
    (h : s.sampleAt p k = some old) :
    SameBut s (s.setSample p k { old with mtx := m }) { mtx := fun l => l = .sample p k } where
  env l _ := by
    rw [State.setSample_envAt s p k _ (by simp [h])]
    cases l with
    | lone => rfl
    | voice => rfl
    | template q j w =>
      simp only
      split
      · rename_i e; rw [e.1, e.2, State.envAt, h]; cases w <;> rfl
      · rfl
  lfo l _ := by
    rw [State.setSample_lfoAt s p k _ (by simp [h])]
    cases l with
    | lone => rfl
    | voice => rfl
    | template q j w =>
      simp only
      split
      · rename_i e; rw [e.1, e.2, State.lfoAt, h]; rfl
      · rfl
  flt l _ := by
    rw [State.setSample_fltAt s p k _ (by simp [h])]
    cases l with
    | lone => rfl
    | voice => rfl
    | template q j =>
      simp only
      split
      · rename_i e; rw [e.1, e.2, State.fltAt, h]; rfl
      · rfl
  mtx l hl := (s.setSample_sameBut p k old { old with mtx := m } h rfl).mtx l hl
  voice l hl := (s.setSample_sameBut p k old { old with mtx := m } h rfl).voice l hl
  sample := (s.setSample_sameBut p k old { old with mtx := m } h rfl).sample
  bus b hb := (s.setSample_sameBut p k old { old with mtx := m } h rfl).bus b hb
  busFrame := (s.setSample_sameBut p k old { old with mtx := m } h rfl).busFrame
  scratch l hl := (s.setSample_sameBut p k old { old with mtx := m } h rfl).scratch l hl
  pitchbend q hq := (s.setSample_sameBut p k old { old with mtx := m } h rfl).pitchbend q hq
  controller q i hq := (s.setSample_sameBut p k old { old with mtx := m } h rfl).controller q i hq
  sel := (s.setSample_sameBut p k old { old with mtx := m } h rfl).sel
  policy := (s.setSample_sameBut p k old { old with mtx := m } h rfl).policy
  cmd := (s.setSample_sameBut p k old { old with mtx := m } h rfl).cmd

/-- Other contents of one bus, and other draws. -/
theorem State.setBus_sameBut (s : State) (k d : Nat) (bus bus' : Bus) (h : s.buses[k]? = some bus)
    (hf : bus'.frame = bus.frame) :
    SameBut s { s with buses := s.buses.set k bus', draws := d } { bus := fun j => j = k } where
  env l _ := by
    cases l with
    | lone => rfl
    | template => rfl
    | voice vl => cases vl <;> rfl
  lfo l _ := by
    cases l with
    | lone => rfl
    | template => rfl
    | voice vl => cases vl <;> rfl
  flt l _ := by
    cases l with
    | lone => rfl
    | template => rfl
    | voice vl => cases vl <;> rfl
  mtx l _ := by cases l <;> rfl
  voice l _ := by cases l <;> rfl
  sample _ _ := rfl
  bus b hb := by
    have : k ≠ b := fun e => hb e.symm
    simp [List.getElem?_set_ne this]
  busFrame b := by
    by_cases e : k = b
    · subst e
      have hlt : k < s.buses.length := (List.getElem?_eq_some_iff.mp h).1
      simp [List.getElem?_set_self hlt, h, hf]
    · simp [List.getElem?_set_ne e]
  scratch l _ := State.bufAt_congr rfl (fun m => by cases m <;> rfl) l
  pitchbend _ _ := rfl
  controller _ _ _ := rfl
  sel := rfl
  policy := rfl
  cmd := rfl

/-- What a render leaves of the machine besides the Voice: the Sample's matrix outputs and one bus. -/
theorem renderVoice_frame {s : State} {v : Voice} {k n : Nat} {x : Rendered}
    (h : renderVoice s v k n sampleRate bpm = .ok x) :
    SameBut s x.state { mtx := fun l => l = .sample v.part v.sample, bus := fun j => j = k } := by
  obtain ⟨smp, bus, b, fin, hs, hb, -, hbl, hf, rfl⟩ := renderVoice_ok h
  obtain ⟨-, -, hrs⟩ := renderBlock_ok hbl
  obtain ⟨l1, -, -⟩ := renderSamples_length n hrs
  obtain ⟨-, hsmp, -, -⟩ := renderSamples_preserves
    (preserved_identity s.parts[v.part] sampleRate bpm { voice := v.refreshAmp smp, smp := smp, draws := s.draws }) n hrs
    ⟨rfl, rfl, rfl, rfl⟩
  obtain ⟨-, hframe, -⟩ := finishBlock_ok hf l1
  have h1 := s.setSample_mtx_sameBut v.part v.sample smp b.playing.smp.mtx hs
  rw [← hsmp] at h1
  have h2 := (s.setSample v.part v.sample b.playing.smp).setBus_sameBut k b.playing.draws bus fin.bus
    (by simpa using hb) hframe
  exact (h1.mono (by simp) (by simp) (by simp) (by simp) (by simp) (by simp) (by simp) (by simp) (by simp)).trans
    (h2.mono (by simp) (by simp) (by simp) (by simp) (by simp) (by simp) (by simp) (by simp) (by simp))

end Sys2Proof.Machine
end

