-- ==== Sys2Proof/Laws/Engine.lean ====
section
/-! SUPPORT. The note map, note-on and the rendering pass: what they can do. -/

namespace Sys2Proof.Machine

variable {sampleRate bpm : Number}

/-! ### The note map (R46, R331) -/

/-- Voices stand in note order. -/
def Ordered (vs : List Voice) : Prop := vs.Pairwise fun a b => a.note ≤ b.note

theorem mem_register (vs : List Voice) (v u : Voice) : u ∈ register vs v ↔ u = v ∨ u ∈ vs := by
  induction vs with
  | nil => simp [register]
  | cons x xs ih =>
    unfold register
    split
    · simp only [List.mem_cons, ih]; tauto
    · simp only [List.mem_cons]

theorem register_ordered {vs : List Voice} (v : Voice) (h : Ordered vs) : Ordered (register vs v) := by
  induction vs with
  | nil => simp [register, Ordered]
  | cons x xs ih =>
    have hx := List.pairwise_cons.mp h
    unfold register
    split
    · rename_i hle
      refine List.pairwise_cons.mpr ⟨fun u hu => ?_, ih hx.2⟩
      rcases (mem_register xs v u).mp hu with rfl | hu
      · exact hle
      · exact hx.1 u hu
    · rename_i hlt
      have hlt := (not_le.mp hlt).le
      refine List.pairwise_cons.mpr ⟨fun u hu => ?_, h⟩
      rcases List.mem_cons.mp hu with rfl | hu
      · exact hlt
      · exact hlt.trans (hx.1 u hu)

/-- Registration puts the Voice after those under its note, and moves no other. -/
theorem register_filter {vs : List Voice} (v : Voice) (h : Ordered vs) (note : Fin 128) :
    (register vs v).filter (fun u => u.note = note)
      = vs.filter (fun u => u.note = note) ++ if v.note = note then [v] else [] := by
  induction vs with
  | nil => by_cases e : v.note = note <;> simp [register, e]
  | cons x xs ih =>
    have hx := List.pairwise_cons.mp h
    unfold register
    split
    · rw [List.filter_cons, ih hx.2, List.filter_cons]
      by_cases e : x.note = note <;> simp [e]
    · rename_i hlt
      have hlt := not_le.mp hlt
      by_cases e : v.note = note
      · have : (x :: xs).filter (fun u => u.note = note) = [] := by
          rw [List.filter_eq_nil_iff]
          intro u hu hc
          have hn : u.note = note := by simpa using hc
          have : x.note ≤ u.note := by
            rcases List.mem_cons.mp hu with rfl | hu
            · exact le_rfl
            · exact hx.1 u hu
          rw [hn, ← e] at this
          exact absurd hlt (not_lt.mpr this)
        rw [List.filter_cons, this]; simp [e]
      · rw [List.filter_cons]; simp [e]

theorem register_filter_ne (vs : List Voice) (v : Voice) :
    (register vs v).filter (fun u => u.note ≠ v.note) = vs.filter (fun u => u.note ≠ v.note) := by
  induction vs with
  | nil => simp [register]
  | cons x xs ih =>
    unfold register
    split
    · rw [List.filter_cons, ih, List.filter_cons]
    · rw [List.filter_cons]; simp

/-- The same, for a note-on's Voices one after another. -/
theorem foldl_register {vs new : List Voice} {note : Fin 128} (h : Ordered vs) (hn : ∀ v ∈ new, v.note = note) :
    Ordered (new.foldl register vs) ∧
    (new.foldl register vs).filter (fun u => u.note = note) = vs.filter (fun u => u.note = note) ++ new ∧
    (new.foldl register vs).filter (fun u => u.note ≠ note) = vs.filter (fun u => u.note ≠ note) ∧
    ∀ u, u ∈ new.foldl register vs ↔ u ∈ vs ∨ u ∈ new := by
  induction new generalizing vs with
  | nil => simp [h]
  | cons v vs' ih =>
    have hv := hn v (by simp)
    obtain ⟨a, b, c, d⟩ := ih (register_ordered v h) fun u hu => hn u (by simp [hu])
    refine ⟨a, ?_, ?_, fun u => ?_⟩
    · rw [List.foldl_cons, b, register_filter v h note, if_pos hv, List.append_assoc]; rfl
    · rw [List.foldl_cons, c, ← hv, register_filter_ne]
    · rw [List.foldl_cons, d, mem_register, List.mem_cons]; tauto

/-! ### Note-on (R321, R271) -/

/-- One Voice for each Sample of the list, in order. -/
theorem newVoices_ok {p : Fin 16} {note vel : Fin 128} {xs : List (Sample × Nat)} {d : Nat} {y : List Voice × Nat}
    (h : newVoices p note vel xs d = .ok y) :
    List.Forall₂ (fun x v => 1 ≤ x.1.src.numSamples ∧ ∃ k, v = (Voice.construct p x.2 x.1 note vel k).1) xs y.1 := by
  induction xs generalizing d y with
  | nil => cases h; exact .nil
  | cons x xs ih =>
    unfold newVoices at h
    split at h
    · cases h
    rename_i v hv
    split at h
    · cases h
    rename_i vs hvs
    cases h
    obtain ⟨h1, rfl⟩ := (newVoice_ok p x.2 x.1 note vel d v).mp hv
    exact .cons ⟨h1, d, rfl⟩ (ih hvs)

theorem newVoices_total {p : Fin 16} {note vel : Fin 128} {xs : List (Sample × Nat)} (d : Nat)
    (h : ∀ x ∈ xs, 1 ≤ x.1.src.numSamples) : ∃ y, newVoices p note vel xs d = .ok y := by
  induction xs generalizing d with
  | nil => exact ⟨_, rfl⟩
  | cons x xs ih =>
    have hv := (newVoice_ok p x.2 x.1 note vel d _).mpr ⟨h x (by simp), rfl⟩
    obtain ⟨y, hy⟩ := ih (Voice.construct p x.2 x.1 note vel d).2 fun z hz => h z (by simp [hz])
    exact ⟨((Voice.construct p x.2 x.1 note vel d).1 :: y.1, y.2), by unfold newVoices; simp only [hv, hy]⟩

/-- The Samples a note-on starts are Samples of the Part, with their own indices. -/
theorem mem_startingSamples {part : Part} {pol : Policy} {p : Fin 16} {note vel : Nat} {x : Sample × Nat} :
    x ∈ startingSamples part pol p note vel ↔
      part.samples[x.2]? = some x.1 ∧ x.1.covers note vel = true ∧ pol.allows p x.2 = true := by
  unfold startingSamples
  rw [List.mem_filter, Bool.and_eq_true, List.mem_zipIdx_iff_getElem?]

/-! ### The pass (R330) -/

/-- Only a Voice with a usable bus is rendered; a turn that completes leaves the machine or renders into that bus. -/
theorem processVoice_ok {s : State} {v : Voice} {t : Turn} (h : processVoice s v sampleRate bpm = .ok t) :
    ∃ smp, s.sampleAt v.part v.sample = some smp ∧
      ((t = { state := s, left := none } ∧ ∀ b, s.buses[smp.bus]? = some b → b.usable = false) ∨
       ∃ bus x, s.buses[smp.bus]? = some bus ∧ bus.usable = true ∧
        renderVoice s v smp.bus bus.sampleCount sampleRate bpm = .ok x ∧
        t = { state := x.state, left := if x.stop then none else some x.voice }) := by
  unfold processVoice at h
  split at h
  · cases h
  rename_i smp hs
  refine ⟨smp, hs, ?_⟩
  split at h
  · rename_i hb
    cases h
    exact .inl ⟨rfl, fun b e => by rw [hb] at e; cases e⟩
  · rename_i bus hb
    split at h
    · rename_i hu
      split at h
      · cases h
      rename_i x hx
      cases h
      exact .inr ⟨bus, x, hb, hu, hx, rfl⟩
    · rename_i hu
      cases h
      exact .inl ⟨rfl, fun b e => by rw [hb] at e; cases e; simpa using hu⟩

/-- What a render keeps of the Voice. -/
theorem renderVoice_identity {s : State} {v : Voice} {k n : Nat} {x : Rendered}
    (h : renderVoice s v k n sampleRate bpm = .ok x) : x.voice.identity = v.identity := by
  obtain ⟨smp, bus, b, fin, -, -, -, hbl, hf, rfl⟩ := renderVoice_ok h
  obtain ⟨-, -, hrs⟩ := renderBlock_ok hbl
  obtain ⟨l1, -, -⟩ := renderSamples_length n hrs
  obtain ⟨hid, -, -, -⟩ := renderSamples_preserves
    (preserved_identity s.parts[v.part] sampleRate bpm { voice := v.refreshAmp smp, smp := smp, draws := s.draws }) n hrs
    ⟨rfl, rfl, rfl, rfl⟩
  obtain ⟨⟨f, buf, hfv, -, -⟩, -, -⟩ := finishBlock_ok hf l1
  show fin.voice.identity = _
  rw [hfv]; exact hid

/-- A Sample but for its matrix outputs. -/
def Sample.still (smp : Sample) : Sample := { smp with mtx := { smp.mtx with mod := ⟨0, 0, 0, 0, 0⟩ } }

/-- From `s` to `t` the Voices, the Parts' stores, the responses, the Samples but for matrix outputs, and the shapes of the
buses are the same. -/
structure StillPlaying (s t : State) : Prop where
  voices : ∀ p : Fin 16, t.parts[p].voices = s.parts[p].voices
  pitchbend : ∀ p : Fin 16, t.parts[p].pitchbend = s.parts[p].pitchbend
  samples : ∀ p k, (t.sampleAt p k).map Sample.still = (s.sampleAt p k).map Sample.still
  buses : ∀ b : Nat, (t.buses[b]?).map Bus.frame = (s.buses[b]?).map Bus.frame
  lone : t.voice = s.voice
  resp : t.resp = s.resp

theorem StillPlaying.refl (s : State) : StillPlaying s s := ⟨fun _ => rfl, fun _ => rfl, fun _ _ => rfl, fun _ => rfl, rfl, rfl⟩

theorem StillPlaying.trans {s t u : State} (h : StillPlaying s t) (k : StillPlaying t u) : StillPlaying s u :=
  ⟨fun p => (k.voices p).trans (h.voices p), fun p => (k.pitchbend p).trans (h.pitchbend p),
    fun p j => (k.samples p j).trans (h.samples p j), fun b => (k.buses b).trans (h.buses b), k.lone.trans h.lone,
    k.resp.trans h.resp⟩

/-- A render leaves every Voice list, and every Sample but for matrix outputs. -/
theorem renderVoice_still {s : State} {v : Voice} {k n : Nat} {x : Rendered}
    (h : renderVoice s v k n sampleRate bpm = .ok x) : StillPlaying s x.state := by
  have hframe := renderVoice_frame h
  obtain ⟨smp, bus, b, fin, hs, -, -, hbl, hf, rfl⟩ := renderVoice_ok h
  obtain ⟨-, -, hrs⟩ := renderBlock_ok hbl
  obtain ⟨-, hsmp, hslots, -⟩ := renderSamples_preserves
    (preserved_identity s.parts[v.part] sampleRate bpm { voice := v.refreshAmp smp, smp := smp, draws := s.draws }) n hrs
    ⟨rfl, rfl, rfl, rfl⟩
  refine ⟨fun p => (s.setSample_part v.part p v.sample b.playing.smp).2.2,
    fun p => (s.setSample_part v.part p v.sample b.playing.smp).1, fun p j => ?_, hframe.busFrame, rfl, rfl⟩
  show ((s.setSample v.part v.sample b.playing.smp).sampleAt p j).map _ = _
  rw [State.setSample_sampleAt]
  split
  · rename_i e
    rw [e.1, e.2, hs, hsmp]
    simp only [Option.map_some, Sample.still]
    rw [hslots]
  · rfl

/-- What a render asks of the Sample and the Part does not depend on matrix outputs (R270). -/
theorem Playable.congr {part part' : Part} {smp smp' : Sample} {v : Voice} (h : Playable part smp v sampleRate bpm)
    (hs : smp'.still = smp.still) (hp : part'.pitchbend = part.pitchbend) : Playable part' smp' v sampleRate bpm := by
  have he : smp' = { smp with mtx := smp'.mtx } := by
    cases smp; cases smp'; simp only [Sample.still, Sample.mk.injEq] at hs ⊢; simp_all
  rw [he]
  have hspeed : speedOf part' { smp with mtx := smp'.mtx } v sampleRate = speedOf part smp v sampleRate := by
    unfold speedOf semitones; rw [hp]
  exact ⟨h.rate, h.source, h.steppable, by rw [hspeed]; exact h.reaches⟩

/-- A Voice that can take its turn can still take it after others have. -/
theorem ProcessReady.still {s t : State} {v : Voice} (h : ProcessReady s v sampleRate bpm) (k : StillPlaying s t) :
    ProcessReady t v sampleRate bpm := by
  obtain ⟨smp, hs, hb⟩ := h
  have hsm := k.samples v.part v.sample
  rw [hs, Option.map_some, Option.map_eq_some_iff] at hsm
  obtain ⟨smp', hs', he⟩ := hsm
  refine ⟨smp', hs', fun b hbt hu => ?_⟩
  have hbus : smp'.bus = smp.bus := by
    show smp'.still.bus = smp.still.bus
    rw [he]
  rw [hbus] at hbt
  have hbf := k.buses smp.bus
  rw [hbt, Option.map_some] at hbf
  obtain ⟨b0, hb0, hf⟩ := Option.map_eq_some_iff.mp hbf.symm
  obtain ⟨h1, h2⟩ := hb b0 hb0 (by rw [Bus.usable_congr hf, hu])
  have hc : b.sampleCount = b0.sampleCount := (congrArg (fun z => z.2.1) hf).symm
  exact ⟨by rw [hc]; exact (Bus.takes_congr hf.symm _).mpr h1, h2.congr he (k.pitchbend v.part)⟩

/-- A ready Voice takes its turn. -/
theorem processVoice_total {s : State} {v : Voice} (h : ProcessReady s v sampleRate bpm) :
    ∃ t, processVoice s v sampleRate bpm = .ok t := by
  obtain ⟨smp, hs, hb⟩ := h
  unfold processVoice
  simp only [hs]
  split
  · exact ⟨_, rfl⟩
  · rename_i bus hbus
    split
    · rename_i hu
      obtain ⟨h1, h2⟩ := hb bus hbus hu
      obtain ⟨x, hx⟩ := renderVoice_total hs hbus h1 h2
      exact ⟨{ state := x.state, left := if x.stop then none else some x.voice }, by simp only [hx]⟩
    · exact ⟨_, rfl⟩

/-- The footprint of a turn, but for the Voice: matrix outputs and buses. -/
def turnPrint : Footprint :=
  { mtx := fun l => ∃ p k, l = .sample p k
    bus := fun _ => True }

/-- What a turn changes, and the Voice it leaves. -/
theorem processVoice_frame {s : State} {v : Voice} {t : Turn} (h : processVoice s v sampleRate bpm = .ok t) :
    StillPlaying s t.state ∧ SameBut s t.state turnPrint ∧ ∀ w, t.left = some w → w.identity = v.identity := by
  obtain ⟨smp, -, hn | ⟨bus, x, -, -, hx, ht⟩⟩ := processVoice_ok h
  · rw [hn.1]
    exact ⟨StillPlaying.refl s, SameBut.refl s _, fun w hw => by cases hw⟩
  · rw [ht]
    refine ⟨renderVoice_still hx, ?_, fun w hw => ?_⟩
    · refine (renderVoice_frame hx).mono ?_ ?_ ?_ ?_ ?_ ?_ ?_ ?_ ?_ <;> simp [turnPrint]
    · simp only at hw
      split at hw
      · cases hw
      · cases hw; exact renderVoice_identity hx

/-- A pass over Voices: those left are among them in order, and it is dirty exactly if one is missing. -/
theorem processVoices_frame {vs : List Voice} {s : State} {x : Pass} (h : processVoices sampleRate bpm s vs = .ok x) :
    StillPlaying s x.state ∧ SameBut s x.state turnPrint ∧
      (x.voices.map Voice.identity).Sublist (vs.map Voice.identity) ∧
      (x.dirty = true ↔ x.voices.length < vs.length) := by
  induction vs generalizing s x with
  | nil => cases h; exact ⟨StillPlaying.refl s, SameBut.refl s _, List.Sublist.refl _, by simp⟩
  | cons v vs ih =>
    unfold processVoices at h
    split at h
    · cases h
    rename_i t ht
    cases hy : processVoices sampleRate bpm t.state vs with
    | error r => rw [hy] at h; cases h
    | ok y =>
      rw [hy] at h
      cases h
      obtain ⟨a1, a2, a3⟩ := processVoice_frame ht
      obtain ⟨b1, b2, b3, b4⟩ := ih hy
      have hl := b3.length_le
      simp only [List.length_map] at hl
      cases hleft : t.left with
      | none =>
        refine ⟨a1.trans b1, a2.trans b2, ?_, ?_⟩
        · exact b3.trans (List.sublist_cons_self _ _)
        · simp only [Pass.cons, List.length_cons, true_iff]; omega
      | some w =>
        refine ⟨a1.trans b1, a2.trans b2, ?_, ?_⟩
        · simp only [Pass.cons, List.map_cons, a3 w hleft]; exact b3.cons_cons _
        · simp only [Pass.cons, List.length_cons, b4]; omega

/-- A pass over ready Voices completes. -/
theorem processVoices_total {vs : List Voice} {s : State} (h : ∀ v ∈ vs, ProcessReady s v sampleRate bpm) :
    ∃ x, processVoices sampleRate bpm s vs = .ok x := by
  induction vs generalizing s with
  | nil => exact ⟨_, rfl⟩
  | cons v vs ih =>
    obtain ⟨t, ht⟩ := processVoice_total (h v (by simp))
    obtain ⟨y, hy⟩ := ih fun w hw => (h w (by simp [hw])).still (processVoice_frame ht).1
    exact ⟨Pass.cons t.left y, by unfold processVoices; simp only [ht, hy]; rfl⟩

/-- Another list of Voices in one Part, and nothing else. -/
theorem State.setVoices_sameBut (s : State) (p : Fin 16) (vs : List Voice) : SameBut s (s.setVoices p vs) (voicesOf p) := by
  have hvoice : ∀ l, (¬ ∃ i, l = .mapped p i) → (s.setVoices p vs).voiceAt l = s.voiceAt l := by
    intro l hl
    cases l with
    | lone => rfl
    | mapped q i =>
      have : q ≠ p := fun e => hl ⟨i, by rw [e]⟩
      simp only [State.voiceAt]
      rw [State.setVoices_part, if_neg this]
  refine ⟨?_, ?_, ?_, ?_, ?_, ?_, ?_, ?_, ?_, ?_, ?_, rfl, rfl, rfl⟩
  · intro l hl
    cases l with
    | lone => rfl
    | template q k w => simp only [State.envAt, State.setVoices_sampleAt]
    | voice vl w =>
      simp only [State.envAt]; rw [hvoice]
      rintro ⟨i, rfl⟩; exact hl ⟨i, w, rfl⟩
  · intro l hl
    cases l with
    | lone => rfl
    | template q k w => simp only [State.lfoAt, State.setVoices_sampleAt]
    | voice vl w =>
      simp only [State.lfoAt]; rw [hvoice]
      rintro ⟨i, rfl⟩; exact hl ⟨i, w, rfl⟩
  · intro l hl
    cases l with
    | lone => rfl
    | template q k => simp only [State.fltAt, State.setVoices_sampleAt]
    | voice vl =>
      simp only [State.fltAt]; rw [hvoice]
      rintro ⟨i, rfl⟩; exact hl ⟨i, rfl⟩
  · intro l hl
    cases l with
    | lone => rfl
    | sample q k => simp only [State.mtxAt, State.setVoices_sampleAt]
  · intro l hl
    rw [hvoice l hl]
  · intro q k; rw [State.setVoices_sampleAt]
  · intros; rfl
  · intros; rfl
  · intro l hl
    cases l with
    | context => rfl
    | voice vl =>
      simp only [State.bufAt]; rw [hvoice]
      rintro ⟨i, rfl⟩; exact hl ⟨i, rfl⟩
  · intro q _; rw [State.setVoices_part]
  · intro q k _; rw [State.setVoices_part]

/-- The footprint of the whole pass. -/
def passPrint : Footprint :=
  { env := fun l => ∃ p i w, l = .voice (.mapped p i) w
    lfo := fun l => ∃ p i j, l = .voice (.mapped p i) j
    flt := fun l => ∃ p i, l = .voice (.mapped p i)
    mtx := fun l => ∃ p k, l = .sample p k
    voice := fun l => ∃ p i, l = .mapped p i
    bus := fun _ => True
    scratch := fun l => ∃ p i, l = .voice (.mapped p i) }

/-- One Part's pass: its own Voices are some of those there were, in order; other Parts keep theirs; every Sample is as before but
for matrix outputs; and Voices that could take their turn before it still can. -/
theorem processPart_frame {s : State} {p : Fin 16} {y : State × Bool} (h : processPart sampleRate bpm s p = .ok y) :
    (∀ q, q ≠ p → y.1.parts[q].voices = s.parts[q].voices) ∧ (y.1.parts[p].voices.map Voice.identity).Sublist (s.parts[p].voices.map Voice.identity) ∧
    (y.2 = true ↔ y.1.parts[p].voices.length < s.parts[p].voices.length) ∧ y.1.resp = s.resp ∧
    (∀ q k, (y.1.sampleAt q k).map Sample.still = (s.sampleAt q k).map Sample.still) ∧
    SameBut s y.1 passPrint ∧ (∀ v, ProcessReady s v sampleRate bpm → ProcessReady y.1 v sampleRate bpm) := by
  unfold processPart at h
  split at h
  · cases h
  rename_i x hx
  cases h
  obtain ⟨a, b, c, d⟩ := processVoices_frame hx
  refine ⟨fun q hq => ?_, ?_, ?_, a.resp, fun q k => by rw [State.setVoices_sampleAt]; exact a.samples q k, ?_, ?_⟩
  · rw [State.setVoices_part, if_neg hq, a.voices]
  · rw [State.setVoices_same]; exact c
  · rw [State.setVoices_same]; exact d
  · refine (b.mono ?_ ?_ ?_ ?_ ?_ ?_ ?_ ?_ ?_).trans ((x.state.setVoices_sameBut p x.voices).mono ?_ ?_ ?_ ?_ ?_ ?_ ?_ ?_ ?_) <;> simp only [turnPrint, voicesOf, passPrint] <;> (first | (rintro l ⟨i, w, rfl⟩; exact ⟨_, _, _, rfl⟩) | (rintro l ⟨i, rfl⟩; exact ⟨_, _, rfl⟩) | simp)
  · intro v hv
    obtain ⟨smp, hs, hb⟩ := hv.still a
    refine ⟨smp, by rw [State.setVoices_sampleAt]; exact hs, fun b hbt hu => ?_⟩
    obtain ⟨h1, h2⟩ := hb b hbt hu
    exact ⟨h1, h2.congr rfl (by rw [State.setVoices_part])⟩

/-! ### A render asks nothing of the other Voices and of the chip select (R375) -/

theorem modUpdate_congr {part part' : Part} (h : part'.controllers = part.controllers) (x : Playing) :
    modUpdate part' sampleRate bpm x = modUpdate part sampleRate bpm x := by
  unfold modUpdate Voice.sources; rw [h]

theorem renderSamples_congr {part part' : Part} (h : part'.controllers = part.controllers) (speed : Number) (n : Nat)
    (x : Playing) : renderSamples part' sampleRate bpm speed n x = renderSamples part sampleRate bpm speed n x := by
  have hm : ∀ y, handleModulations part' sampleRate bpm y = handleModulations part sampleRate bpm y := fun y => by
    unfold handleModulations; rw [modUpdate_congr h]
  induction n generalizing x with
  | zero => rfl
  | succ n ih => simp only [renderSamples_succ, hm, ih]

/-- A block asks the pitchbend and the controllers of the Part, not its Voices or its other Samples. -/
theorem renderBlock_congr {part part' : Part} (hp : part'.pitchbend = part.pitchbend)
    (hc : part'.controllers = part.controllers) (smp : Sample) (v : Voice) (d n : Nat) :
    renderBlock part' smp v d n sampleRate bpm = renderBlock part smp v d n sampleRate bpm := by
  have : speedOf part' smp v sampleRate = speedOf part smp v sampleRate := by unfold speedOf semitones; rw [hp]
  unfold renderBlock; rw [this, renderSamples_congr hc]

theorem State.setVoices_setSample (s : State) (p q : Fin 16) (vs : List Voice) (k : Nat) (smp : Sample) :
    (s.setVoices p vs).setSample q k smp = (s.setSample q k smp).setVoices p vs := by
  unfold State.setVoices State.setSample State.setPart
  congr 1
  apply Vector.ext
  intro i hi
  simp only [Fin.getElem_fin, Vector.getElem_set]
  by_cases h1 : q.val = p.val
  · have : q = p := Fin.ext h1
    subst this
    simp only [if_true]
    split <;> rfl
  · by_cases h3 : q.val = i <;> by_cases h4 : p.val = i <;> first | (exfalso; omega) | simp [h3, h4]

/-- A render does not ask which other Voices a Part has, and leaves them. -/
theorem renderVoice_setVoices (s : State) (p : Fin 16) (vs : List Voice) (v : Voice) (k n : Nat) :
    renderVoice (s.setVoices p vs) v k n sampleRate bpm
      = (renderVoice s v k n sampleRate bpm).map fun x => { x with state := x.state.setVoices p vs } := by
  unfold renderVoice
  rw [State.setVoices_sampleAt, State.setVoices_buses, State.setVoices_draws]
  cases s.sampleAt v.part v.sample with
  | none => rfl
  | some smp =>
    cases s.buses[k]? with
    | none => rfl
    | some bus =>
      simp only
      split
      · rw [renderBlock_congr (part := s.parts[v.part]) (part' := (s.setVoices p vs).parts[v.part])
          (by rw [State.setVoices_part]) (by rw [State.setVoices_part])]
        cases renderBlock s.parts[v.part] smp v s.draws n sampleRate bpm with
        | error r => rfl
        | ok b =>
          simp only
          cases finishBlock Config.keepPartialBlock sampleRate b bus with
          | error r => rfl
          | ok fin => simp only [Except.map, State.setVoices_setSample]; rfl
      · rfl

/-- A render does not ask what the chip select names, and leaves it. -/
theorem renderVoice_withSel (s : State) (c : ChipSelect) (v : Voice) (k n : Nat) :
    renderVoice { s with sel := c } v k n sampleRate bpm
      = (renderVoice s v k n sampleRate bpm).map fun x => { x with state := { x.state with sel := c } } := by
  unfold renderVoice
  show (match s.sampleAt v.part v.sample with | none => _ | some smp => _) = _
  cases s.sampleAt v.part v.sample with
  | none => rfl
  | some smp =>
    simp only
    cases s.buses[k]? with
    | none => rfl
    | some bus =>
      simp only
      split
      · show (match renderBlock s.parts[v.part] smp v s.draws n sampleRate bpm with | .error r => _ | .ok b => _) = _
        cases renderBlock s.parts[v.part] smp v s.draws n sampleRate bpm with
        | error r => rfl
        | ok b =>
          simp only
          cases finishBlock Config.keepPartialBlock sampleRate b bus <;> rfl
      · rfl

/-! ### Edits of a loaded Sample (R404) -/

/-- What an edit can do: Sample `k` of Part `p`, if there is one, has the new plain fields; every other Sample stays. -/
theorem State.editSample_sampleAt (s : State) (p q : Fin 16) (k j : Nat) (new : Sample) :
    (s.editSample p k new).sampleAt q j
      = if q = p ∧ j = k then (s.sampleAt p k).map (·.withPlainFields new) else s.sampleAt q j := by
  unfold State.editSample
  cases h : s.sampleAt p k with
  | none =>
    simp only [Option.map_none]
    split
    · rename_i e; rw [e.1, e.2, h]
    · rfl
  | some smp => simp only [State.setSample_sampleAt, h, Option.map_some]

/-- An edit stops no Voice and writes nothing into one. -/
@[simp] theorem State.editSample_voiceAt (s : State) (p : Fin 16) (k : Nat) (new : Sample) (l : VoiceLoc) :
    (s.editSample p k new).voiceAt l = s.voiceAt l := by
  unfold State.editSample
  split
  · exact State.setSample_voiceAt s p k _ l
  · rfl

/-! ### Loads and deletions (R396, R217, R277) -/

@[simp] theorem Env.loaded_state (e : Env) : e.loaded.state = .none := rfl
@[simp] theorem Env.loaded_value (e : Env) : e.loaded.value = 0 := rfl
@[simp] theorem Flt.loaded_left (f : Flt) : f.loaded.left = Taps.reset := rfl
@[simp] theorem Flt.loaded_right (f : Flt) : f.loaded.right = Taps.reset := rfl
@[simp] theorem Mtx.loaded_slots (m : Mtx) : m.loaded.slots = m.slots := rfl
@[simp] theorem Mtx.loaded_mod (m : Mtx) : m.loaded.mod = ⟨0, 0, 0, 0, 0⟩ := rfl

/-- A loaded template ENV is in range (R147), whatever its parameters. -/
theorem Env.loaded_inRange (e : Env) : e.loaded.InRange := by constructor <;> simp

/-- What a load can do: the Part's Samples stay at their indices and the new one stands behind them. -/
theorem State.loadSample_sampleAt (s : State) (p q : Fin 16) (k : Nat) (smp : Sample) :
    (s.loadSample p smp).sampleAt q k
      = if q = p ∧ k = s.parts[p].samples.length then some smp.loaded else s.sampleAt q k := by
  unfold State.loadSample
  rw [State.setPart_sampleAt]
  by_cases h : q = p
  · subst h
    by_cases hk : k = s.parts[q].samples.length
    · subst hk; simp
    · rw [if_pos rfl, if_neg fun e => hk e.2]
      unfold State.sampleAt
      rcases Nat.lt_or_gt_of_ne hk with hl | hg
      · exact List.getElem?_append_left hl
      · rw [List.getElem?_eq_none (by simp; omega), List.getElem?_eq_none (by omega)]
  · rw [if_neg h, if_neg fun e => h e.1]

/-- A load stops no Voice and writes nothing into one. -/
@[simp] theorem State.loadSample_voiceAt (s : State) (p : Fin 16) (smp : Sample) (l : VoiceLoc) :
    (s.loadSample p smp).voiceAt l = s.voiceAt l := by
  cases l with
  | lone => rfl
  | mapped q i =>
    unfold State.loadSample
    rw [State.setPart_voiceAt]
    split
    · rename_i h; subst h; rfl
    · rfl

/-- What the deletion of a note can do: no Voice is left under it, and those under the other notes of every Part stay. -/
theorem State.deleteNote_voicesUnder (s : State) (p q : Fin 16) (note n : Fin 128) :
    voicesUnder (s.deleteNote p note).parts[q] n = if q = p ∧ n = note then [] else voicesUnder s.parts[q] n := by
  unfold State.deleteNote voicesUnder
  rw [State.setVoices_part]
  by_cases h : q = p
  · subst h
    simp only [true_and, if_true, List.filter_filter]
    split
    · rename_i e; subst e; simp
    · rename_i e
      refine List.filter_congr fun v _ => ?_
      by_cases hv : v.note = n
      · simp [hv, e]
      · simp [hv]
  · simp [h]

end Sys2Proof.Machine
end

