-- ==== Sys2Proof/Laws/Memory.lean ====
section
/-! SUPPORT. The laws of the sparse stores: a read after a write, and the canonical form kept by every operation. -/

namespace Sys2Proof.Machine

variable {dflt : Nat → Number}

/-- An index below every entry reads as an unlisted one. -/
theorem Memory.read_of_wfFrom {m : Memory} {lo i : Nat} (h : Memory.wfFrom dflt lo m) (hi : i < lo) :
    Memory.read dflt m i = dflt i := by
  induction m generalizing lo with
  | nil => rfl
  | cons e m ih =>
    obtain ⟨j, v⟩ := e
    simp only [Memory.wfFrom, Bool.and_eq_true, decide_eq_true_eq] at h
    have hne : i ≠ j := by omega
    simp only [Memory.read, if_neg hne]
    exact ih h.2 (by omega)

theorem Memory.wfFrom_mono {m : Memory} {lo lo' : Nat} (h : Memory.wfFrom dflt lo m) (hl : lo' ≤ lo) :
    Memory.wfFrom dflt lo' m := by
  cases m with
  | nil => rfl
  | cons e m =>
    obtain ⟨j, v⟩ := e
    simp only [Memory.wfFrom, Bool.and_eq_true, decide_eq_true_eq] at h ⊢
    exact ⟨⟨by omega, h.1.2⟩, h.2⟩

/-- A write keeps the canonical form. -/
theorem Memory.wfFrom_write {m : Memory} {lo i : Nat} (v : Number) (h : Memory.wfFrom dflt lo m) (hi : lo ≤ i) :
    Memory.wfFrom dflt lo (Memory.write dflt m i v) := by
  induction m generalizing lo with
  | nil =>
    simp only [Memory.write]
    split
    · rfl
    · rename_i hv; simp [Memory.wfFrom, hi, hv]
  | cons e m ih =>
    obtain ⟨j, w⟩ := e
    have h' := h
    simp only [Memory.wfFrom, Bool.and_eq_true, decide_eq_true_eq] at h
    obtain ⟨⟨h1, h2⟩, h3⟩ := h
    simp only [Memory.write]
    split
    · rename_i hlt
      split
      · exact h'
      · rename_i hv
        simp only [Memory.wfFrom, Bool.and_eq_true, decide_eq_true_eq]
        exact ⟨⟨hi, hv⟩, ⟨by omega, h2⟩, h3⟩
    · split
      · rename_i hij; subst hij
        split
        · exact Memory.wfFrom_mono h3 (by omega)
        · rename_i hv
          simp only [Memory.wfFrom, Bool.and_eq_true, decide_eq_true_eq]
          exact ⟨⟨hi, hv⟩, h3⟩
      · simp only [Memory.wfFrom, Bool.and_eq_true, decide_eq_true_eq]
        exact ⟨⟨h1, h2⟩, ih h3 (by omega)⟩

theorem Memory.wf_write {m : Memory} (i : Nat) (v : Number) (h : Memory.wf dflt m) : Memory.wf dflt (Memory.write dflt m i v) :=
  Memory.wfFrom_write v h (Nat.zero_le i)

/-- The empty store is in canonical form. -/
@[simp] theorem Memory.wf_nil : Memory.wf dflt [] = true := rfl

/-- A read after a write to the same index gives the value written, in a canonical store. -/
theorem Memory.read_write_same_from {m : Memory} {lo : Nat} (h : Memory.wfFrom dflt lo m) (i : Nat) (v : Number) :
    Memory.read dflt (Memory.write dflt m i v) i = v := by
  induction m generalizing lo with
  | nil =>
    simp only [Memory.write]
    split
    · rename_i hv; simp [Memory.read, hv]
    · simp [Memory.read]
  | cons e m ih =>
    obtain ⟨j, w⟩ := e
    simp only [Memory.wfFrom, Bool.and_eq_true, decide_eq_true_eq] at h
    obtain ⟨⟨h1, h2⟩, h3⟩ := h
    simp only [Memory.write]
    split
    · rename_i hlt
      split
      · rename_i hv
        have hne : i ≠ j := by omega
        simp only [Memory.read, if_neg hne]
        rw [Memory.read_of_wfFrom h3 (by omega), hv]
      · simp [Memory.read]
    · split
      · rename_i hij; subst hij
        split
        · rename_i hv; rw [Memory.read_of_wfFrom h3 (by omega), hv]
        · simp [Memory.read]
      · rename_i hne
        simp only [Memory.read, if_neg hne]
        exact ih h3

theorem Memory.read_write_same {m : Memory} (h : Memory.wf dflt m) (i : Nat) (v : Number) :
    Memory.read dflt (Memory.write dflt m i v) i = v := Memory.read_write_same_from h i v

/-- A write leaves every other index alone, in a canonical store. -/
theorem Memory.read_write_other {m : Memory} {i k : Nat} (v : Number) (hk : k ≠ i) :
    Memory.read dflt (Memory.write dflt m i v) k = Memory.read dflt m k := by
  induction m with
  | nil =>
    simp only [Memory.write]
    split
    · rfl
    · simp [Memory.read, hk]
  | cons e m ih =>
    obtain ⟨j, w⟩ := e
    simp only [Memory.write]
    split
    · split
      · rfl
      · simp [Memory.read, hk]
    · split
      · rename_i hij; subst hij
        split
        · simp [Memory.read, hk]
        · simp [Memory.read, hk]
      · simp only [Memory.read, ih]

end Sys2Proof.Machine
end

