-- ==== Sys2Proof/Laws/PerInstr.lean ====
section
/-! SUPPORT. Per command: its words number 1, 2, 3, 4 or 14, and its header alone tells how many operand words follow (R105). -/

set_option Elab.async false

namespace Sys2Proof.Laws.EncodeLength

/-- R105: "Commands are 1, 2, 3, 4 or 14 words long", and the length is known from the header. -/
def Statement (i : Instr) : Prop :=
  ∃ h ws sh, encode i = h :: ws ∧ headerShape h = .ok sh ∧ sh.operands = ws.length ∧ (ws.length + 1) ∈ [1, 2, 3, 4, 14]

/-- The statement of a command, from the shape of its own header. -/
theorem of_header {i : Instr} {u : UnitCode} {op idx : Nat} {ws : List Word} {sh : Shape} (he : encode i = header u op idx :: ws)
    (ho : op < 16) (hi : idx < 256) (hsh : shapeOf u.code op idx = .ok sh) (hn : sh.operands = ws.length)
    (hl : (ws.length + 1) ∈ [1, 2, 3, 4, 14]) : Statement i :=
  ⟨_, ws, sh, he, by rw [headerShape_header u ho hi, hsh], hn, hl⟩

theorem noteOn : Statement .noteOn := of_header rfl (by decide) (by decide) rfl rfl (by decide)
theorem noteOff : Statement .noteOff := of_header rfl (by decide) (by decide) rfl rfl (by decide)
theorem step (e bpm : Number) : Statement (.step e bpm) := of_header rfl (by decide) (by decide) rfl rfl (by simp)
theorem hasEnded : Statement .hasEnded := of_header rfl (by decide) (by decide) rfl rfl (by decide)
theorem wr (reg : EnvParam) (v : Number) : Statement (.wr reg v) :=
  of_header rfl (by decide) reg.idx_lt (by simp [shapeOf, UnitCode.code, withIdx]; rfl) rfl (by simp)
theorem rd (reg : EnvReg) : Statement (.rd reg) :=
  of_header rfl (by decide) reg.idx_lt (by simp [shapeOf, UnitCode.code, withIdx]; rfl) rfl (by simp)
theorem lfoNoteOn : Statement .lfoNoteOn := of_header rfl (by decide) (by decide) rfl rfl (by decide)
theorem lfoStep (e bpm : Number) : Statement (.lfoStep e bpm) := of_header rfl (by decide) (by decide) rfl rfl (by simp)
theorem lfoWr (w : LfoWrite) : Statement (.lfoWr w) :=
  of_header rfl (by decide) w.reg.idx_lt (by simp [shapeOf, UnitCode.code, withIdx, lfoWrShape]; rfl) rfl (by simp)
theorem lfoRd (reg : LfoReg) : Statement (.lfoRd reg) :=
  of_header rfl (by decide) reg.idx_lt (by simp [shapeOf, UnitCode.code, withIdx]; rfl) rfl (by simp)
theorem lfoWrStep (k : Fin 256) (v : Number) : Statement (.lfoWrStep k v) :=
  of_header rfl (by decide) k.isLt (by simp only [shapeOf, UnitCode.code]; rfl) rfl (by simp)
theorem lfoRdStep (k : Fin 256) : Statement (.lfoRdStep k) :=
  of_header rfl (by decide) k.isLt (by simp only [shapeOf, UnitCode.code]; rfl) rfl (by simp)
theorem fltWr (w : FltWrite) : Statement (.fltWr w) := by
  cases w <;> exact of_header rfl (by decide) (by simp only [FltWrite.idx]; decide) rfl rfl (by simp)
theorem fltRd (reg : FltReg) : Statement (.fltRd reg) :=
  of_header rfl (by decide) reg.idx_lt (by simp [shapeOf, UnitCode.code, withIdx]; rfl) rfl (by simp)
theorem fltUpdate (sampleRate : Number) : Statement (.fltUpdate sampleRate) :=
  of_header rfl (by decide) (by decide) rfl rfl (by simp)
theorem fltRun (n : Nat) : Statement (.fltRun n) := of_header rfl (by decide) (by decide) rfl rfl (by simp)
theorem mtxWr (slot : Fin 32) (w : SlotWrite) : Statement (.mtxWr slot w) :=
  of_header rfl (by decide) (slotIdx_lt slot w.field)
    (by simp only [shapeOf, UnitCode.code, slotIdx_mod, SlotField.ofIdx_idx, withIdx]; rfl) rfl (by simp)
theorem mtxRd (reg : MtxReg) : Statement (.mtxRd reg) := by
  obtain ⟨r, hr⟩ := Option.isSome_iff_exists.mp reg.ofIdx_idx_isSome
  exact of_header rfl (by decide) reg.idx_lt (by simp [shapeOf, UnitCode.code, withIdx, hr]; rfl) rfl (by simp)
theorem mtxEval (srcs : Sources) : Statement (.mtxEval srcs) :=
  of_header rfl (by decide) (by decide) rfl rfl (by simp [Sources.toList])
theorem voiceNoteOn (note vel : Fin 128) : Statement (.voiceNoteOn note vel) :=
  of_header rfl (by decide) (by decide) rfl rfl (by simp)
theorem voiceNoteOff : Statement .voiceNoteOff := of_header rfl (by decide) (by decide) rfl rfl (by decide)
theorem voiceRd (reg : VoiceReg) : Statement (.voiceRd reg) :=
  of_header rfl (by decide) reg.idx_lt (by simp [shapeOf, UnitCode.code, withIdx]; rfl) rfl (by simp)
theorem voiceRender (n : Nat) (sampleRate bpm : Number) : Statement (.voiceRender n sampleRate bpm) :=
  of_header rfl (by decide) (by decide) rfl rfl (by simp)
theorem engNoteOn (part : Nat) (note vel : Fin 128) : Statement (.engNoteOn part note vel) :=
  of_header rfl (by decide) (by decide) rfl rfl (by simp)
theorem engNoteOff (part : Nat) (note vel : Fin 128) : Statement (.engNoteOff part note vel) :=
  of_header rfl (by decide) (by decide) rfl rfl (by simp)
theorem engPitchbend (part : Nat) (value : Number) : Statement (.engPitchbend part value) :=
  of_header rfl (by decide) (by decide) rfl rfl (by simp)
theorem engCc (part : Nat) (cc : Fin 256) (value : Number) : Statement (.engCc part cc value) :=
  of_header rfl (by decide) (by decide) rfl rfl (by simp)
theorem engProcess (sampleRate bpm : Number) : Statement (.engProcess sampleRate bpm) :=
  of_header rfl (by decide) (by decide) rfl rfl (by simp)

end Sys2Proof.Laws.EncodeLength
end

