-- ==== Sys2Proof/Tests/Slice0.lean ====
section
/-! SUPPORT. Tests: what the well-formedness check refuses, the spec's own words decoded, one step of the commands against the
spec's vectors (95_test_vectors.md), and for every statement with hypotheses a witness that they can be met. -/

set_option Elab.async false

namespace Sys2Proof.Tests

open Sys2Proof.Machine

/-! ### WellFormed refuses each ill-formed term -/

theorem test_wf_binary32_tenth : isBinary32 (1 / 10) = false := by decide +kernel
theorem test_wf_binary32_overflow : isBinary32 (2 ^ 128) = false := by decide +kernel
theorem test_wf_binary32_underflow : isBinary32 (1 / 2 ^ 150) = false := by decide +kernel
theorem test_wf_binary32_25_bits : isBinary32 (2 ^ 24 + 1) = false := by decide +kernel
theorem test_wf_binary32_extremes : isBinary32 (1 / 2 ^ 149) = true ∧ isBinary32 (-(2 ^ 128 - 2 ^ 104)) = true := by
  decide +kernel
theorem test_wf_int_word : isIntWord (2 ^ 32) = false := by decide
theorem test_wf_step_negative : (Instr.step (-1) 120).wellFormed = false := by decide +kernel
theorem test_wf_step_tenth : (Instr.step (1 / 10) 120).wellFormed = false := by decide +kernel
theorem test_wf_lfoStep_negative : (Instr.lfoStep (-1) 120).wellFormed = false := by decide +kernel
theorem test_wf_wr : (Instr.wr .a (1 / 3)).wellFormed = false := by decide +kernel
theorem test_wf_lfoWr_num : (Instr.lfoWr (.freqHz (1 / 3))).wellFormed = false := by decide +kernel
theorem test_wf_lfoWr_int : (Instr.lfoWr (.numSteps (2 ^ 32))).wellFormed = false := by decide +kernel
theorem test_wf_lfoWrStep : (Instr.lfoWrStep 0 (1 / 3)).wellFormed = false := by decide +kernel
theorem test_wf_fltWr : (Instr.fltWr (.cutoff (1 / 3))).wellFormed = false := by decide +kernel
theorem test_wf_fltUpdate : (Instr.fltUpdate (1 / 3)).wellFormed = false := by decide +kernel
theorem test_wf_fltRun : (Instr.fltRun (2 ^ 32)).wellFormed = false := by decide +kernel
theorem test_wf_mtxWr : (Instr.mtxWr 0 (.amount (1 / 3))).wellFormed = false := by decide +kernel
theorem test_wf_mtxRd_output_index : (Instr.mtxRd (.field 8 .enabled)).wellFormed = false := by decide +kernel
theorem test_wf_mtxEval : (Instr.mtxEval ⟨0, 0, 0, 0, 0, 0, 1 / 3, 0, 0, 0, 0, 0, 0⟩).wellFormed = false := by
  decide +kernel
theorem test_wf_voiceRender : (Instr.voiceRender (2 ^ 32) 48000 120).wellFormed = false := by decide +kernel
theorem test_wf_engPart : (Instr.engNoteOn (2 ^ 32) 60 100).wellFormed = false := by decide +kernel
theorem test_wf_engPitchbend : (Instr.engPitchbend 0 (3 / 2)).wellFormed = false := by decide +kernel
theorem test_wf_engCc : (Instr.engCc 0 1 2).wellFormed = false := by decide +kernel
theorem test_wf_engProcess : (Instr.engProcess (1 / 3) 120).wellFormed = false := by decide +kernel

/-! ### The words of 95_test_vectors.md 4.0, row by row -/

theorem test_decode_noteOn : decode [0x01000000#32] = .command .noteOn [] := by decide +kernel
theorem test_decode_noteOff : decode [0x02000000#32] = .command .noteOff [] := by decide +kernel
theorem test_decode_step : decode [0x03000000#32, 0x3F200000#32, 0x42F00000#32] = .command (.step (5 / 8) 120) [] := by
  decide +kernel
theorem test_decode_hasEnded : decode [0x04000000#32] = .command .hasEnded [] := by decide +kernel
theorem test_decode_wr : decode [0x05020000#32, 0x3F000000#32] = .command (.wr .s (1 / 2)) [] := by decide +kernel
theorem test_decode_rd : decode [0x06040000#32] = .command (.rd .value) [] := by decide +kernel
theorem test_decode_lfoNoteOn : decode [0x11000000#32] = .command .lfoNoteOn [] := by decide +kernel
theorem test_decode_lfoStep :
    decode [0x13000000#32, 0x3F000000#32, 0x42F00000#32] = .command (.lfoStep (1 / 2) 120) [] := by decide +kernel
theorem test_decode_lfoWr : decode [0x15030000#32, 0x40800000#32] = .command (.lfoWr (.syncBeats 4)) [] := by
  decide +kernel
theorem test_decode_lfoRd : decode [0x16140000#32] = .command (.lfoRd (.run .value)) [] := by decide +kernel
theorem test_decode_lfoWrStep : decode [0x17020000#32, 0x3E800000#32] = .command (.lfoWrStep 2 (1 / 4)) [] := by
  decide +kernel
theorem test_decode_lfoRdStep : decode [0x18020000#32] = .command (.lfoRdStep 2) [] := by decide +kernel
theorem test_decode_fltWr : decode [0x25010000#32, 0x3F800000#32] = .command (.fltWr (.cutoff 1)) [] := by
  decide +kernel
theorem test_decode_fltRd : decode [0x26080000#32] = .command (.fltRd .a1) [] := by decide +kernel
theorem test_decode_fltUpdate : decode [0x29000000#32, 0x477A0000#32] = .command (.fltUpdate 64000) [] := by
  decide +kernel
theorem test_decode_fltRun : decode [0x2A000000#32, 0x00000004#32] = .command (.fltRun 4) [] := by decide +kernel
theorem test_decode_mtxWr : decode [0x35050000#32, 0x40800000#32] = .command (.mtxWr 0 (.amount 4)) [] := by
  decide +kernel
theorem test_decode_mtxRd : decode [0x36400000#32] = .command (.mtxRd (.output .filterCutoff)) [] := by decide +kernel
theorem test_decode_mtxEval :
    decode [0x3B000000#32, 0#32, 0#32, 0#32, 0#32, 0#32, 0#32, 0x3F000000#32, 0#32, 0#32, 0#32, 0#32, 0#32, 0#32]
      = .command (.mtxEval ⟨0, 0, 0, 0, 0, 0, 1 / 2, 0, 0, 0, 0, 0, 0⟩) [] := by decide +kernel
theorem test_decode_voiceNoteOn :
    decode [0x41000000#32, 0x0000003C#32, 0x0000007F#32] = .command (.voiceNoteOn 60 127) [] := by decide +kernel
theorem test_decode_voiceNoteOff : decode [0x42000000#32] = .command .voiceNoteOff [] := by decide +kernel
theorem test_decode_voiceRd : decode [0x46000000#32] = .command (.voiceRd .offset) [] := by decide +kernel
theorem test_decode_voiceRender :
    decode [0x4C000000#32, 0x00000080#32, 0x473B8000#32, 0x42F00000#32] = .command (.voiceRender 128 48000 120) [] := by
  decide +kernel
theorem test_decode_engNoteOn :
    decode [0x51000000#32, 0x00000000#32, 0x0000003C#32, 0x00000064#32] = .command (.engNoteOn 0 60 100) [] := by
  decide +kernel
theorem test_decode_engNoteOff :
    decode [0x52000000#32, 0x00000000#32, 0x0000003C#32, 0x00000000#32] = .command (.engNoteOff 0 60 0) [] := by
  decide +kernel
theorem test_decode_engPitchbend :
    decode [0x5D000000#32, 0x00000000#32, 0x3F800000#32] = .command (.engPitchbend 0 1) [] := by decide +kernel
theorem test_decode_engCc :
    decode [0x5E000000#32, 0x00000000#32, 0x00000001#32, 0x3F000000#32] = .command (.engCc 0 1 (1 / 2)) [] := by
  decide +kernel
theorem test_decode_engProcess :
    decode [0x5F000000#32, 0x473B8000#32, 0x42F00000#32] = .command (.engProcess 48000 120) [] := by decide +kernel

/-- V-ENV-18: the reserved headers. -/
theorem test_reserved_headers :
    decode [0x05040000#32, 0#32] = .reserved .index ∧ decode [0x05050000#32, 0#32] = .reserved .index ∧
    decode [0x06060000#32] = .reserved .index ∧ decode [0x03010000#32, 0#32, 0#32] = .reserved .index ∧
    decode [0x03000001#32, 0#32, 0#32] = .reserved .zeroField ∧ decode [0x00000000#32] = .reserved .opcode ∧
    decode [0x07000000#32] = .reserved .opcode ∧ decode [0x60000000#32] = .reserved .opcode := by decide +kernel

/-- V-ENV-18: infinity, a NaN and a negative elapsed time are reserved operands, and negative zero is 0. -/
theorem test_reserved_operands :
    decode [0x03000000#32, 0x7F800000#32, 0x42F00000#32] = .reserved .operand ∧
    decode [0x03000000#32, 0x7FC00000#32, 0x42F00000#32] = .reserved .operand ∧
    decode [0x03000000#32, 0xBF800000#32, 0x42F00000#32] = .reserved .operand ∧
    decode [0x03000000#32, 0x80000000#32, 0x42F00000#32] = .command (.step 0 120) [] := by decide +kernel

/-- R109 and 4.0: rows 3 and 5 as stored bytes. -/
theorem test_bytes :
    serialise [0x03000000#32, 0x3F200000#32, 0x42F00000#32]
      = [0#8, 0#8, 0#8, 3#8, 0#8, 0#8, 0x20#8, 0x3F#8, 0#8, 0#8, 0xF0#8, 0x42#8] ∧
    serialise [0x05020000#32, 0x3F000000#32] = [0#8, 0#8, 2#8, 5#8, 0#8, 0#8, 0#8, 0x3F#8] := by decide +kernel

/-- 4.0: response words, the last one rounded. -/
theorem test_response_words : encodeNum (1 / 4) = 0x3E800000#32 ∧ encodeNum (2 / 5) = 0x3ECCCCCD#32 := by decide +kernel

/-- The host's view of row 3 (96 bits, the first word lowest). -/
theorem test_tableWord :
    decodeTableWord 96 (0x03000000 + 0x3F200000 * 2 ^ 32 + 0x42F00000 * 2 ^ 64) = some (.step (5 / 8) 120) := by
  decide +kernel

/-! ### Small states -/

/-- An ENV with the parameters of V-ENV-2. -/
def env (st : EnvState) (v : Number) : Env := ⟨1 / 2, 1 / 2, 1 / 2, 1 / 2, v, st⟩

/-- The machine after reset, with this ENV. -/
def withEnv (e : Env) : State := { State.reset with env := e }

/-- The LFO of T0: sawtooth, frequency 0, every flag 0. -/
def lfo : Lfo :=
  { waveform := .sawtooth, freqHz := 0, syncEn := false, syncBeats := 0, delaySec := 0, delaySyncEn := false, delayBeats := 0,
    fadeSec := 0, fadeSyncEn := false, fadeBeats := 0, onceEn := false, randphaseEn := false, quantEn := false,
    quantLevels := 0, numSteps := 0, period := 0, startPhase := 0, t := 0, randHold := 0, value := 0, steps := [] }

/-- The machine after reset, with this LFO. -/
def withLfo (l : Lfo) : State := { State.reset with lfo := l }

/-- A Filter of a type with the coefficients of V-FLT-2's lowpass and zero taps. -/
def flt (type : FilterType) : Flt :=
  ⟨type, 1, 1, 0, 0, ⟨10 / 21, 20 / 21, 10 / 21, 0, 19 / 21⟩, ⟨0, 0, 0, 0⟩, ⟨0, 0, 0, 0⟩⟩

/-- The machine after reset, with this Filter and one impulse in the context's scratch buffer. -/
def withFlt (x : Flt) : State := { State.reset with flt := x, scratch := ⟨[1, 0, 0, 0], [1, 0, 0, 0]⟩ }

/-- A disabled slot. -/
def off : MtxSlot := ⟨false, .none, .none, .filterCutoff, .identity, 0⟩

/-- A matrix with two slots given and the others disabled. -/
def mtx (a b : MtxSlot) : Mtx := ⟨#v[a, b, off, off, off], ⟨0, 0, 0, 0, 0⟩⟩

/-- The machine after reset, with this matrix. -/
def withMtx (m : Mtx) : State := { State.reset with mtx := m }

/-- The source of T0 (3.4), as 16-bit codes. -/
def src : Source :=
  { data := .bits16 [[0x4000#16, 0x2000#16, 0xC000#16, 0x7FFF#16], [0x2000#16, 0x2000#16, 0x2000#16, 0x2000#16]]
    sampleRate := 48000, numSamples := 4, loopStart := 0, loopEnd := 4, loopFlag := false, raw := [] }

/-- The Sample T0 (3.4). -/
def t0 : Sample :=
  { name := "T0", minNote := 0, maxNote := 127, minVelocity := 0, maxVelocity := 127, baseNote := 60, detune := 0, pan := 0,
    gain := 1, keytrack := 100, pitchbendRange := 12, playMode := .standard, reverse := false, outputBus := some 0, layer := 0,
    aeg := ⟨0, 0, 1, 0, 0, .none⟩, eg2 := ⟨0, 0, 1, 0, 0, .none⟩, lfos := #v[lfo, lfo, lfo], flt := flt .none,
    mtx := mtx off off, src := src }

/-- A Voice on Sample 0 of Part 0, playing note 60 at velocity 127. -/
def voice : Voice :=
  { part := 0, sample := 0, aeg := ⟨0, 0, 1, 0, 0, .attack⟩, eg2 := ⟨0, 0, 1, 0, 0, .attack⟩, lfos := #v[lfo, lfo, lfo],
    flt := flt .none, offset := 0, gate := true, rnd := 0, pitchMod := 0, panMod := 0, ampMod := 0, modCount := 0, ampL := 0,
    ampR := 0, note := 60, velocity := 127, scratch := ⟨[], []⟩ }

/-- A usable bus of four zeros a channel. -/
def bus : Bus := ⟨true, 4, [[0, 0, 0, 0], [0, 0, 0, 0]]⟩

/-- A machine with one Sample in Part 0, Voices in its note map, a lone Voice and one bus. -/
def rig (smp : Sample) (lone : Voice) (mapped : List Voice) (b : Bus) : State :=
  { State.reset.setPart 0 ⟨[smp], mapped, 0, []⟩ with voice := some lone, buses := [b] }

/-- Whether a step answers a next state. -/
def completes (o : Host.Outcome State Fault Refusal) : Bool :=
  match o with
  | .next _ => true
  | .fault _ => false
  | .refused _ => false

/-- What is seen of the next state, if there is one. -/
def seen {α : Type} (o : Host.Outcome State Fault Refusal) (f : State → α) : Option α :=
  match o with
  | .next t => some (f t)
  | .fault _ => none
  | .refused _ => none

theorem completes_next {o : Host.Outcome State Fault Refusal} (h : completes o = true) : ∃ t, o = .next t := by
  cases o with
  | next t => exact ⟨t, rfl⟩
  | fault f => cases f
  | refused r => simp [completes] at h

theorem seen_next {α : Type} {o : Host.Outcome State Fault Refusal} {f : State → α} {x : α} (h : seen o f = some x) :
    ∃ t, o = .next t ∧ f t = x := by
  cases o with
  | next t => exact ⟨t, rfl, Option.some.inj h⟩
  | fault f => cases f
  | refused r => simp [seen] at h

/-- What a step answers instead of a next state. -/
def refusal (o : Host.Outcome State Fault Refusal) : Option Refusal :=
  match o with
  | .next _ => none
  | .fault _ => none
  | .refused r => some r

theorem refusal_refused {o : Host.Outcome State Fault Refusal} {r : Refusal} (h : refusal o = some r) : Refused o := by
  cases o with
  | next t => simp [refusal] at h
  | fault f => cases f
  | refused q => exact ⟨q, rfl⟩

/-! ### One step of each command, against the spec's vectors -/

/-- V-ENV-6, from Sustain. -/
theorem test_noteOn : seen (exec .noteOn (withEnv (env .sustain (1 / 2)))) (·.env) = some (env .attack 0) := by
  decide +kernel

/-- V-ENV-7, from Attack. -/
theorem test_noteOff : seen (exec .noteOff (withEnv (env .attack (1 / 4)))) (·.env) = some (env .release (1 / 4)) := by
  decide +kernel

/-- V-ENV-3, the third step: the overshoot is dropped. -/
theorem test_step_attack : seen (exec (.step 1 120) (withEnv (env .attack (4 / 5)))) (·.env) = some (env .decay 1) := by
  decide +kernel

/-- V-ENV-14: in Decay at 0.75 the value is set up to a sustain level of 1. -/
theorem test_step_decay :
    seen (exec (.step (5 / 8) 120) (withEnv ⟨1 / 2, 1 / 2, 1, 1 / 2, 3 / 4, .decay⟩)) (·.env)
      = some ⟨1 / 2, 1 / 2, 1, 1 / 2, 1, .sustain⟩ := by decide +kernel

/-- V-ENV-2, rows 10 and 11. -/
theorem test_hasEnded :
    seen (exec .hasEnded (withEnv (env .release (1 / 4)))) (·.resp) = some [⟨.env, 0#32⟩] ∧
    seen (exec .hasEnded (withEnv (env .ended 0))) (·.resp) = some [⟨.env, 1#32⟩] := by decide +kernel

/-- V-ENV-5: the register keeps what was written. -/
theorem test_wr : seen (exec (.wr .a 2) (withEnv (env .attack 0))) (·.env) = some ⟨2, 1 / 2, 1 / 2, 1 / 2, 0, .attack⟩ := by
  decide +kernel

/-- 4.0: `RD VALUE` of 2/5 and `RD STATE` in Release. -/
theorem test_rd :
    seen (exec (.rd .value) (withEnv (env .attack (2 / 5)))) (·.resp) = some [⟨.env, 0x3ECCCCCD#32⟩] ∧
    seen (exec (.rd .state) (withEnv (env .release 0))) (·.resp) = some [⟨.env, 4#32⟩] := by decide +kernel

/-- 3.1: `LFO.NOTE_ON` without random phase. -/
theorem test_lfoNoteOn :
    seen (exec .lfoNoteOn (withLfo { lfo with period := 3, startPhase := 1 / 2, t := 3, value := 1 }))
      (fun t => (t.lfo.period, t.lfo.startPhase, t.lfo.t, t.lfo.value)) = some (0, 0, 0, 0) := by decide +kernel

/-- V-LFO-5, step 4: delay and fade. -/
theorem test_lfoStep_fade :
    seen (exec (.lfoStep (1 / 4) 120)
        (withLfo { lfo with freqHz := 1, delaySec := 1 / 2, fadeSec := 1, t := 3 / 4, period := 3 / 4 }))
      (fun t => (t.lfo.t, t.lfo.period, t.lfo.value)) = some (1, 1, 1 / 2) := by decide +kernel

/-- The LFO of V-LFO-7. -/
def stepped (quant : Bool) (period : Number) : Lfo :=
  { lfo with
    waveform := .custom, freqHz := 1, numSteps := 4, quantEn := quant, quantLevels := 3, period := period
    steps := [(0, -1), (1, -1 / 2), (2, 1 / 4), (3, 1)] }

/-- V-LFO-7: the four steps, then with three levels: -0.5 lies midway and rounds up. -/
theorem test_lfoStep_custom :
    [0, 1 / 4, 1 / 2, 3 / 4].map (fun p => ((stepped false p).advance (1 / 4) 120 0).1.value) = [-1 / 2, 1 / 4, 1, -1] ∧
    [0, 1 / 4, 1 / 2, 3 / 4].map (fun p => ((stepped true p).advance (1 / 4) 120 0).1.value) = [0, 0, 1, -1] := by
  decide +kernel

/-- R190. -/
theorem test_lfoWr :
    seen (exec (.lfoWr (.syncBeats 4)) (withLfo lfo)) (·.lfo) = some { lfo with syncBeats := 4 } := by decide +kernel

/-- R191: an `Enum`, a `Bool` and a runtime register. -/
theorem test_lfoRd :
    seen (exec (.lfoRd (.cfg .waveform)) (withLfo lfo)) (·.resp) = some [⟨.lfo, 4#32⟩] ∧
    seen (exec (.lfoRd (.run .period)) (withLfo { lfo with period := 1 / 4 })) (·.resp) = some [⟨.lfo, 0x3E800000#32⟩] := by
  decide +kernel

/-- R192, R193 on element 0, which every capacity admits. -/
theorem test_lfoRdStep (v : Number) :
    seen (exec (.lfoRdStep 0) (withLfo { lfo with steps := [(0, v)] })) (·.resp) = some [⟨.lfo, encodeNum v⟩] := by
  simp [exec, execLfoRdStep, Config.lfoNStepsMax, State.readLfo, State.lfoAt, withLfo, State.reset, ChipSelect.reset, seen,
    outcome, State.respond, State.emit, Lfo.readStep, Memory.read, readingWord]

/-- R211. -/
theorem test_fltWr :
    seen (exec (.fltWr (.cutoffMod 2)) (withFlt (flt .none))) (·.flt) = some { flt .none with cutoffMod := 2 } := by
  decide +kernel

/-- R212: `A1` and `Y2` of the right channel. -/
theorem test_fltRd :
    seen (exec (.fltRd .b1) (withFlt (flt .lowpass))) (·.resp) = some [⟨.flt, 0#32⟩] ∧
    seen (exec (.fltRd .y2R) (withFlt { flt .lowpass with right := ⟨0, 0, 0, 1 / 2⟩ })) (·.resp)
      = some [⟨.flt, 0x3F000000#32⟩] := by decide +kernel

/-- V-FLT-6: at 32000 Hz the highest cutoff is refused; with type none 32000, 0 and -48000 are accepted and do nothing. -/
theorem test_fltUpdate :
    Refused (exec (.fltUpdate 32000) (withFlt (flt .lowpass))) ∧
    ∀ sr ∈ [32000, 0, -48000], seen (exec (.fltUpdate sr) (withFlt (flt .none))) (·.flt) = some (flt .none) := by
  refine ⟨⟨.filterRate, ?_⟩, by decide +kernel⟩
  have h : Config.fn.exp2 0 = 1 := by simpa using Config.fn.exp2_int 0
  simp [exec, execFltUpdate, State.onFlt, withFlt, State.reset, ChipSelect.reset, State.fltAt, Flt.update, flt, Flt.rateOk,
    Flt.hz, Flt.cutEff, h, clamp, Config.fltFMax, outcome]
  norm_num

/-- V-FLT-2: the lowpass impulse response, and the taps it leaves. -/
theorem test_fltRun :
    seen (exec (.fltRun 4) (withFlt (flt .lowpass))) (fun t => (t.scratch.left, t.flt.right))
      = some ([10 / 21, 20 / 21, 20 / 441, -380 / 441], ⟨0, 0, -380 / 441, 20 / 441⟩) := by decide +kernel

/-- R44, R375: a Voice's Filter runs on that Voice's buffer and leaves the context's. -/
theorem test_fltRun_ownBuffer :
    (let s := rig t0 { voice with flt := flt .lowpass, scratch := ⟨[1], [0]⟩ } [] bus
     seen (exec (.fltRun 1) { s with sel := { s.sel with flt := .voice .lone }, scratch := ⟨[1], [1]⟩ })
      (fun t => (t.voice.map (·.scratch), t.scratch))) = some (some ⟨[10 / 21], [0]⟩, ⟨[1], [1]⟩) := by decide +kernel

/-- V-LFO-10: the sine at the quarters of its cycle. -/
theorem test_lfoSine :
    ([0, 1 / 4, 1 / 2, 3 / 4].map fun ph => ({ lfo with waveform := .sine } : Lfo).shape 0 ph) = [0, 1, 0, -1] := by
  have h : ∀ ph, ({ lfo with waveform := .sine } : Lfo).shape 0 ph = Config.fn.sin (2 * Config.fn.pi * ph) := fun _ => rfl
  simp only [List.map_cons, List.map_nil, h]
  rw [mul_zero, Config.fn.sin_zero, show 2 * Config.fn.pi * (1 / 4) = Config.fn.pi / 2 by ring, Config.fn.sin_quarter,
    show 2 * Config.fn.pi * (1 / 2) = Config.fn.pi by ring, Config.fn.sin_half,
    show 2 * Config.fn.pi * (3 / 4) = 3 * Config.fn.pi / 2 by ring, Config.fn.sin_three_quarters]

/-- R102: an ENV block wired alone refuses another unit's header and runs its own. -/
theorem test_envAlone :
    (let s := { withEnv (env .ended 0) with sel := { ChipSelect.reset with envAlone := true } }
     refusal (step { s with cmd := [0x11000000#32] }) = some (.reserved .unit) ∧
     seen (step { s with cmd := [0x01000000#32] }) (·.env) = some (env .attack 0)) := by decide +kernel

/-- V-MTX-7: slot 0 is written, slot 5 is not. -/
theorem test_mtxWr :
    seen (exec (.mtxWr 0 (.amount 4)) (withMtx (mtx off off))) (·.mtx) = some (mtx { off with amount := 4 } off) ∧
    seen (exec (.mtxWr 5 (.enabled true)) (withMtx (mtx off off))) (·.mtx) = some (mtx off off) := by decide +kernel

/-- R242: a field and an output. -/
theorem test_mtxRd :
    seen (exec (.mtxRd (.field 1 .func)) (withMtx (mtx off { off with func := .neg }))) (·.resp) = some [⟨.mtx, 7#32⟩] ∧
    seen (exec (.mtxRd (.output .pan)) (withMtx { mtx off off with mod := ⟨0, 0, 0, 1 / 2, 0⟩ })) (·.resp)
      = some [⟨.mtx, 0x3F000000#32⟩] := by decide +kernel

/-- V-MTX-3: secondary source, function after the amount, summation. -/
theorem test_mtxEval :
    seen (exec (.mtxEval ⟨1 / 2, 1 / 2, -1 / 2, 0, 0, 0, 0, 0, 0, 0, 0, 0, 0⟩)
        (withMtx (mtx ⟨true, .aeg, .lfo1, .pitch, .identity, 12⟩ ⟨true, .eg2, .none, .pitch, .square, 2⟩)))
      (·.mtx.mod) = some ⟨0, 0, -2, 0, 0⟩ := by decide +kernel

/-- V-MTX-1 (S6): 64/127 times 4. -/
theorem test_mtxEval_velocity :
    seen (exec (.mtxEval ⟨0, 0, 0, 0, 0, 0, 64 / 127, 0, 0, 0, 0, 0, 0⟩)
        (withMtx (mtx ⟨true, .velocity, .none, .filterCutoff, .identity, 4⟩ off)))
      (·.mtx.mod) = some ⟨256 / 127, 0, 0, 0, 0⟩ := by decide +kernel

/-- V-VOICE-13: construction, forward and in reverse. -/
theorem test_voiceNoteOn :
    seen (exec (.voiceNoteOn 60 100) (rig t0 voice [] bus))
      (fun t => t.voice.map fun v => (v.offset, v.gate, v.note, v.velocity, v.aeg))
      = some (some (0, true, 60, 100, ⟨0, 0, 1, 0, 0, .attack⟩)) := by decide +kernel

theorem test_voiceNoteOn_reverse :
    seen (exec (.voiceNoteOn 60 100) (rig { t0 with reverse := true } voice [] bus)) (fun t => t.voice.map (·.offset))
      = some (some 3) := by decide +kernel

/-- V-VOICE-7: note-off. -/
theorem test_voiceNoteOff :
    seen (exec .voiceNoteOff (rig t0 { voice with aeg := ⟨0, 0, 1, 0, 1, .sustain⟩ } [] bus))
      (fun t => t.voice.map fun v => (v.gate, v.aeg, v.eg2.state))
      = some (some (false, ⟨0, 0, 1, 0, 1, .release⟩, .release)) := by decide +kernel

/-- R276. -/
theorem test_voiceRd :
    seen (exec (.voiceRd .note) (rig t0 voice [] bus)) (·.resp) = some [⟨.voice, 60#32⟩] ∧
    seen (exec (.voiceRd .gate) (rig t0 voice [] bus)) (·.resp) = some [⟨.voice, 1#32⟩] := by decide +kernel

/-- V-VOICE-7, the last render: a Loop Voice in Release ends at its update, and nothing reaches the bus. -/
theorem test_voiceRender_ends :
    seen (exec (.voiceRender 4 48000 120)
        (rig { t0 with playMode := .loop } { voice with aeg := ⟨0, 0, 1, 0, 1, .release⟩, gate := false } [] bus))
      (fun t => (t.resp, t.voice.map (·.aeg.state), t.buses))
      = some ([⟨.voice, 1#32⟩], some .ended, [bus]) := by
  unfold exec execVoiceRender renderVoice
  generalize Config.keepPartialBlock = k
  revert k
  decide +kernel

/-- V-VOICE-9: LoopUntilRelease after release stops before anything else. -/
theorem test_voiceRender_released :
    seen (exec (.voiceRender 4 48000 120)
        (rig { t0 with playMode := .loopUntilRelease } { voice with aeg := ⟨0, 0, 1, 1 / 2, 1, .release⟩, gate := false } []
          bus))
      (fun t => (t.resp, t.voice.map (·.aeg.state), t.buses))
      = some ([⟨.voice, 1#32⟩], some .release, [bus]) := by
  unfold exec execVoiceRender renderVoice
  generalize Config.keepPartialBlock = k
  revert k
  decide +kernel

/-- V-VOICE-1: pan gains. -/
theorem test_panGains :
    [-2, -1, -1 / 2, 0, 3 / 10, 1 / 2, 1, 2].map getLeftAmp = [1, 1, 1, 1, 7 / 10, 1 / 2, 0, 0] ∧
    [-2, -1, -1 / 2, 0, 3 / 10, 1 / 2, 1, 2].map getRightAmp = [0, 0, 1 / 2, 1, 1, 1, 1, 1] := by decide +kernel

/-- V-VOICE-4 (S4): the loop wraps, with `ls = 100`, `le = 200`. -/
theorem test_loopWrap :
    [401 / 2, 200, 1999 / 10, 50, 350].map (loopWrap { t0 with src := { src with loopStart := 100, loopEnd := 200 } })
      = [201 / 2, 100, 1999 / 10, 50, 250] ∧
    [199 / 2, 100, 201 / 2].map
        (loopWrap { t0 with src := { src with loopStart := 100, loopEnd := 200 }, reverse := true })
      = [399 / 2, 200, 201 / 2] := by decide +kernel

/-- S15: 8-bit and 16-bit normalisation. -/
theorem test_stored :
    ({ src with data := .bits8 [[127#8, 128#8]] }.stored 0 0, { src with data := .bits8 [[127#8, 128#8]] }.stored 0 1)
      = (some (127 / 128), some (-1)) ∧
    (src.stored 0 3, src.stored 0 2, src.stored 1 4) = (some (32767 / 32768), some (-1 / 2), none) := by decide +kernel

/-- V-ENG-2: the new Voice stands after those under its note; V-ENG-1: part 16 changes nothing. -/
theorem test_engNoteOn :
    seen (exec (.engNoteOn 0 60 100) (rig t0 voice [{ voice with velocity := 1 }, { voice with note := 61 }] bus))
      (fun t => t.parts[0].voices.map fun v => (v.note, v.velocity)) = some [(60, 1), (60, 100), (61, 127)] ∧
    seen (exec (.engNoteOn 16 60 100) (rig t0 voice [voice] bus)) (fun t => t.parts[0].voices) = some [voice] := by
  decide +kernel

/-- V-ENG-3: solo is active and the Sample is not selected. -/
theorem test_engNoteOn_solo :
    seen (exec (.engNoteOn 0 60 100) { rig t0 voice [] bus with policy := ⟨true, [(0, 1)]⟩ })
      (fun t => t.parts[0].voices.length) = some 0 := by decide +kernel

/-- V-ENG-2: note-off to the Voices under the note, which stay. -/
theorem test_engNoteOff :
    seen (exec (.engNoteOff 0 60 0) (rig t0 voice [voice, { voice with note := 61 }] bus))
      (fun t => t.parts[0].voices.map (·.gate)) = some [false, true] := by decide +kernel

/-- V-ENG-6: the Part's pitchbend, and a reserved operand. -/
theorem test_engPitchbend :
    seen (exec (.engPitchbend 0 1) (rig t0 voice [] bus)) (fun t => t.parts[0].pitchbend) = some 1 ∧
    refusal (exec (.engPitchbend 0 (3 / 2)) (rig t0 voice [] bus)) = some .reservedOperand := by decide +kernel

/-- V-ENG-6: a controller, and a reserved operand. -/
theorem test_engCc :
    seen (exec (.engCc 0 7 (1 / 2)) (rig t0 voice [] bus)) (fun t => t.parts[0].controllers) = some [(7, 1 / 2)] ∧
    refusal (exec (.engCc 0 1 2) (rig t0 voice [] bus)) = some .reservedOperand := by decide +kernel

/-- V-ENG-4: a bus out of range: the Voice is removed unrendered, and the response is 1. -/
theorem test_engProcess_badBus :
    seen (exec (.engProcess 48000 120) (rig { t0 with outputBus := some 3 } voice [voice] bus))
      (fun t => (t.parts[0].voices.length, t.buses, t.resp)) = some (0, [bus], [⟨.eng, 1#32⟩]) := by decide +kernel

/-- V-VOICE-7 through `ENG.PROCESS`: a sounding Loop Voice stays, and the response is 0. -/
theorem test_engProcess_stays :
    seen (exec (.engProcess 48000 120)
        (rig { t0 with playMode := .loop } voice [{ voice with modCount := 127, offset := 1 }] { bus with sampleCount := 1 }))
      (fun t => (t.parts[0].voices.map (·.modCount), t.resp)) = some ([0], [⟨.eng, 0#32⟩]) := by decide +kernel

/-- R325, R390: after Sample 0 is removed its Voices are gone and the next Sample has its index, in a Voice and in the selection;
the reset of the selected mapped Voice removes that one. -/
theorem test_hostOps :
    (let s := { rig t0 { voice with sample := 1 } [voice, { voice with sample := 1 }] bus with policy := ⟨true, [(0, 0), (0, 1)]⟩ }
     let t := s.removeSample 0 0
     t.voice.map (·.sample) = some 0 ∧ t.parts[0].voices.map (·.sample) = [0] ∧ t.policy.selected = [(0, 0)] ∧
     (({ s with sel := { s.sel with voice := .mapped 0 0 } } : State).resetUnit .voice).parts[0].voices.map (·.sample) = [1]) := by
  decide +kernel

/-- R42: the four codes. -/
theorem test_playMode_codes :
    [0, 1, 2, 3, 4].map PlayMode.ofCode
      = [some .standard, some .loop, some .shot, some .loopUntilRelease, none] := by decide +kernel

/-- R217, R390, R396: a Sample that was playing elsewhere is loaded behind T0 with its taps, states and outputs at reset and its
parameters as configured; a note deleted afterwards takes its Voice (R277). -/
theorem test_loadSample :
    (let smp := { t0 with aeg := env .sustain (1 / 2), flt := { t0.flt with left := ⟨1, 2, 3, 4⟩ }, gain := 2 }
     let t := (rig t0 voice [voice] bus).loadSample 0 smp
     (t.sampleAt 0 1).map (fun x => (x.gain, x.flt.left)) = some (2, ⟨0, 0, 0, 0⟩) ∧
     (t.sampleAt 0 1).map (·.aeg) = some ⟨1 / 2, 1 / 2, 1 / 2, 1 / 2, 0, .none⟩ ∧
     t.parts[0].voices = [voice] ∧ (t.deleteNote 0 60).parts[0].voices = []) := by
  decide +kernel

/-- R404: after the gain is doubled and the Sample is panned, its Voice is still there with its amplitudes as they were. -/
theorem test_editSample :
    (let t := (rig t0 voice [voice] bus).editSample 0 0 { t0 with pan := -1, gain := 2, aeg := env .attack 0 }
     (t.sampleAt 0 0).map (fun x => (x.pan, x.gain, x.aeg)) = some (-1, 2, t0.aeg) ∧
     t.parts[0].voices = [voice] ∧ t.voice = some voice) := by
  decide +kernel

/-- R58: the document of the machine keeps the raw bytes of a payload, per Part in list order. -/
theorem test_persist :
    (rig { t0 with src := { src with raw := [7#8] } } voice [] bus).persist.parts[0].map (·.payload.rawBytes) = [[7#8]] := by
  decide +kernel

/-! ### Witnesses: for each statement with hypotheses, states and operands that meet them -/

/-- The machine after reset with words at the port. -/
def port (s : State) (ws : List Word) : State := { s with cmd := ws }

theorem witness_StepRunsDecodedCommand :
    decode (port State.reset [0x01000000#32, 0x02000000#32]).cmd = .command .noteOn [0x02000000#32] ∧
    Instr.noteOn.wellFormed = true ∧
    decode (port State.reset [0x03000000#32, 0#32]).cmd = .incomplete ∧ decode State.reset.cmd = .incomplete ∧
    decode (port State.reset [0x03000001#32]).cmd = .reserved .zeroField ∧ State.reset.sel.envAlone = false ∧
    ({ ChipSelect.reset with envAlone := true } : ChipSelect).envAlone = true ∧
    (0x11000000#32 : Word).extractLsb' 28 4 ≠ 0#4 ∧ (0x06040000#32 : Word).extractLsb' 28 4 = 0#4 := by decide +kernel

theorem witness_DecodeEncodeRoundTrip :
    (Instr.step 0 (-(2 ^ 128 - 2 ^ 104))).wellFormed = true ∧ (Instr.wr .r (1 / 2 ^ 149)).wellFormed = true ∧
    (Instr.lfoWr (.numSteps (2 ^ 32 - 1))).wellFormed = true ∧ (Instr.lfoWrStep 255 1).wellFormed = true ∧
    (Instr.mtxRd (.field 8 .amount)).wellFormed = true ∧ (Instr.mtxRd (.field 31 .amount)).wellFormed = true ∧
    (Instr.engPitchbend 0 (-1)).wellFormed = true ∧ (Instr.engCc 15 255 1).wellFormed = true := by decide +kernel

theorem witness_DecodedCommandsAreWellFormed :
    decode [0x13000000#32, 0x00000001#32, 0xFF7FFFFF#32, 7#32]
      = .command (.lfoStep (1 / 2 ^ 149) (-(2 ^ 128 - 2 ^ 104))) [7#32] := by decide +kernel

theorem witness_EncodeUndoesDecode :
    decode [0x05000000#32, 0x80000001#32, 7#32] = .command (.wr .a (-1 / 2 ^ 149)) [7#32] ∧
    ∀ w ∈ [0x05000000#32, 0x80000001#32, 7#32], w ≠ 0x80000000#32 := ⟨by decide +kernel, by simp⟩

/-- A header with a meaning, and how many operand words it announces. -/
def operandsOf (h : Word) : Option Nat :=
  match headerShape h with
  | .ok sh => some sh.operands
  | .error _ => none

theorem operandsOf_some {h : Word} {n : Nat} (e : operandsOf h = some n) : ∃ sh, headerShape h = .ok sh ∧ sh.operands = n := by
  unfold operandsOf at e
  cases hs : headerShape h with
  | error r => rw [hs] at e; cases e
  | ok sh => rw [hs] at e; exact ⟨sh, rfl, Option.some.inj e⟩

theorem witness_ReservedHeaders :
    (∃ sh, headerShape 0x16140000#32 = .ok sh ∧ sh.operands = 0) ∧
    (∃ sh, headerShape 0x35FD0000#32 = .ok sh ∧ sh.operands = 1) ∧
    ((0x36400000#32 : Word).extractLsb' 0 16 = 0#16 ∧
      ∃ r ∈ opcodeRows, r.unit = 3 ∧ r.op = 6 ∧ r.index 64 = true ∧ r.operands = 0) :=
  ⟨operandsOf_some (by decide +kernel), operandsOf_some (by decide +kernel), by decide +kernel,
    ⟨3, 6, 0, fun x => x % 8 ≤ 5⟩, by simp [opcodeRows], rfl, rfl, rfl, rfl⟩

theorem witness_NumWordValue :
    (0x7F800000#32 : Word).extractLsb' 23 8 = 255#8 ∧ (0xFF7FFFFF#32 : Word).extractLsb' 23 8 = 254#8 ∧
    (0x00800000#32 : Word).extractLsb' 23 8 = 1#8 ∧ (0x807FFFFF#32 : Word).extractLsb' 23 8 = 0#8 := by decide

theorem witness_ResponseWordNearest :
    decodeNum 0x00000001#32 = some (1 / 2 ^ 149) ∧ decodeNum 0#32 = some 0 ∧
    |(1 / 2 ^ 150 : Number) - 1 / 2 ^ 149| = |(1 / 2 ^ 150 : Number) - 0| ∧ encodeNum (1 / 2 ^ 150) = 0#32 := by
  refine ⟨by decide +kernel, by decide +kernel, ?_, by decide +kernel⟩
  norm_num [abs_of_nonneg, abs_of_nonpos]

/-! #### A machine with a sounding Voice, for the invariants -/

/-- The rig's Parts: Part 0 as given, the others as after reset. -/
theorem rig_parts (smp : Sample) (v : Voice) (vs : List Voice) (b : Bus) (q : Fin 16) :
    (rig smp v vs b).parts[q] = if q = 0 then ⟨[smp], vs, 0, []⟩ else Part.reset := by
  show (State.reset.setPart 0 ⟨[smp], vs, 0, []⟩).parts[q] = _
  rw [State.setPart_get]
  by_cases h : q = 0
  · simp [h]
  · rw [if_neg h, if_neg h]; simp [State.reset]

/-- The rig has one Sample. -/
theorem rig_sampleAt (smp : Sample) (v : Voice) (vs : List Voice) (b : Bus) (p : Fin 16) (k : Nat) :
    (rig smp v vs b).sampleAt p k = if p = 0 ∧ k = 0 then some smp else none := by
  rw [State.sampleAt, rig_parts]
  by_cases h : p = 0
  · cases k <;> simp [h]
  · simp [h, Part.reset]

/-- The machine of the witnesses below: T0, a lone Voice and one mapped Voice, an idle ENV, LFO, Filter and matrix. -/
def stage : State :=
  { rig t0 voice [voice] bus with env := env .sustain (1 / 2), lfo := lfo, flt := flt .none, mtx := mtx off off }

theorem stage_parts (q : Fin 16) : stage.parts[q] = if q = 0 then ⟨[t0], [voice], 0, []⟩ else Part.reset :=
  rig_parts t0 voice [voice] bus q

theorem stage_sampleAt (p : Fin 16) (k : Nat) : stage.sampleAt p k = if p = 0 ∧ k = 0 then some t0 else none :=
  rig_sampleAt t0 voice [voice] bus p k

theorem stage_voiceAt (l : VoiceLoc) (v : Voice) (h : stage.voiceAt l = some v) : v = voice := by
  cases l with
  | lone => exact (Option.some.inj h).symm
  | mapped p i =>
    rw [State.voiceAt, stage_parts] at h
    by_cases hp : p = 0
    · cases i <;> simp_all
    · simp [hp, Part.reset] at h

theorem stage_envAt (l : EnvLoc) (e : Env) (h : stage.envAt l = some e) :
    e = env .sustain (1 / 2) ∨ e = ⟨0, 0, 1, 0, 0, .none⟩ ∨ e = ⟨0, 0, 1, 0, 0, .attack⟩ := by
  cases l with
  | lone => exact .inl (Option.some.inj h).symm
  | template p k w =>
    rw [State.envAt, stage_sampleAt] at h
    split at h
    · cases w <;> exact .inr (.inl (Option.some.inj h).symm)
    · cases h
  | voice vl w =>
    rw [State.envAt, Option.map_eq_some_iff] at h
    obtain ⟨v, hv, rfl⟩ := h
    rw [stage_voiceAt vl v hv]
    cases w <;> exact .inr (.inr rfl)

theorem stage_lfoAt (l : LfoLoc) (x : Lfo) (h : stage.lfoAt l = some x) : x = lfo := by
  have hl : ∀ j : Fin 3, (#v[lfo, lfo, lfo] : Vector Lfo 3)[j] = lfo := by decide +kernel
  cases l with
  | lone => exact (Option.some.inj h).symm
  | template p k j =>
    rw [State.lfoAt, stage_sampleAt] at h
    split at h
    · exact (Option.some.inj h).symm.trans (hl j)
    · cases h
  | voice vl j =>
    rw [State.lfoAt, Option.map_eq_some_iff] at h
    obtain ⟨v, hv, rfl⟩ := h
    rw [stage_voiceAt vl v hv]
    exact hl j

/-- The machine with a `STEP` at the port, and the step it takes. -/
theorem witness_step : ∃ t, step (port stage [0x03000000#32, 0x3F200000#32, 0x42F00000#32]) = .next t :=
  completes_next (by decide +kernel)

theorem witness_StepKeepsEnvsInRange : (port stage [0x03000000#32, 0x3F200000#32, 0x42F00000#32]).EnvsInRange := by
  intro l e h
  rcases stage_envAt l e h with rfl | rfl | rfl <;> constructor <;> decide +kernel

theorem witness_StepKeepsVoicesTriggered :
    (port stage [0x03000000#32, 0x3F200000#32, 0x42F00000#32]).VoicesTriggered := by
  intro l v h
  rw [stage_voiceAt l v h]
  exact ⟨by decide, by decide⟩

theorem witness_StepKeepsNoteMapValid : (port stage [0x03000000#32, 0x3F200000#32, 0x42F00000#32]).NoteMapValid := by
  have hr : State.RefValid (port stage [0x03000000#32, 0x3F200000#32, 0x42F00000#32]) voice := by
    show (stage.sampleAt 0 0).isSome = true
    rw [stage_sampleAt]; rfl
  have hp : ∀ p : Fin 16, (port stage [0x03000000#32, 0x3F200000#32, 0x42F00000#32]).parts[p] =
      if p = 0 then ⟨[t0], [voice], 0, []⟩ else Part.reset := stage_parts
  constructor
  · intro v h
    rw [stage_voiceAt .lone v h]; exact hr
  · intro p v h
    rw [hp] at h
    by_cases h0 : p = 0
    · rw [if_pos h0] at h
      rw [List.mem_singleton.mp h]; exact ⟨h0.symm, hr⟩
    · rw [if_neg h0] at h; simp [Part.reset] at h
  · intro p
    rw [hp]
    by_cases h0 : p = 0 <;> simp [h0, Part.reset]

theorem witness_StepKeepsStoresCanonical :
    (port stage [0x03000000#32, 0x3F200000#32, 0x42F00000#32]).StoresCanonical := by
  constructor
  · intro p
    rw [show (port stage [0x03000000#32, 0x3F200000#32, 0x42F00000#32]).parts[p] = stage.parts[p] from rfl, stage_parts]
    by_cases h0 : p = 0 <;> simp [h0, Part.reset, Memory.wf, Memory.wfFrom]
  · intro l x h
    rw [stage_lfoAt l x h]; rfl

theorem witness_StepKeepsValuesInRange :
    (port stage [0x03000000#32, 0x3F200000#32, 0x42F00000#32]).ValuesInRange := by
  have hp : ∀ p : Fin 16, (port stage [0x03000000#32, 0x3F200000#32, 0x42F00000#32]).parts[p] =
      if p = 0 then ⟨[t0], [voice], 0, []⟩ else Part.reset := stage_parts
  constructor
  · intro l x h; rw [stage_lfoAt l x h]; exact ⟨by decide +kernel, by decide +kernel⟩
  · intro l x h; rw [stage_lfoAt l x h]; exact ⟨by decide +kernel, by decide +kernel⟩
  · intro l v h; rw [stage_voiceAt l v h]; exact ⟨by decide +kernel, by decide +kernel⟩
  · intro p; rw [hp]
    by_cases h0 : p = 0 <;> simp [h0, Part.reset]
  · intro p k; rw [hp]
    by_cases h0 : p = 0 <;> simp [h0, Part.reset, Memory.read, controllerDefault]

theorem witness_StepKeepsContext :
    ∃ t, step (port stage [0x52000000#32, 0#32, 60#32, 0#32]) = .next t ∧ (t.parts[0].voices.map (·.gate)) = [false] :=
  seen_next (by decide +kernel)

theorem witness_CommandsThatRespond :
    (∃ t, exec .hasEnded stage = .next t ∧ t.resp.length = 1) ∧ ∃ t, exec .noteOn stage = .next t ∧ t.resp.length = 0 :=
  ⟨seen_next (by decide +kernel), seen_next (by decide +kernel)⟩

theorem witness_EnvStateOrder :
    (∃ t, exec .noteOff stage = .next t ∧ t.envAt .lone = some (env .release (1 / 2))) ∧
    stage.envAt .lone = some (env .sustain (1 / 2)) ∧
    (∃ t, exec .noteOn (withEnv (env .ended 0)) = .next t ∧ t.envAt .lone = some (env .attack 0)) ∧
    (∃ t, exec (.engNoteOn 0 60 100) stage = .next t ∧ t.envAt (.template 0 0 .aeg) = some ⟨0, 0, 1, 0, 0, .none⟩) ∧
    stage.envAt (.template 0 0 .aeg) = some ⟨0, 0, 1, 0, 0, .none⟩ ∧
    (∃ t, exec .voiceNoteOff stage = .next t ∧ t.envAt (.voice .lone .eg2) = some ⟨0, 0, 1, 0, 0, .release⟩) ∧
    stage.envAt (.voice .lone .eg2) = some ⟨0, 0, 1, 0, 0, .attack⟩ ∧
    (∃ t, exec (.engNoteOff 0 60 0) stage = .next t ∧
      t.envAt (.voice (.mapped 0 0) .aeg) = some ⟨0, 0, 1, 0, 0, .release⟩) ∧
    stage.envAt (.voice (.mapped 0 0) .aeg) = some ⟨0, 0, 1, 0, 0, .attack⟩ :=
  ⟨seen_next (by decide +kernel), by decide +kernel, seen_next (by decide +kernel), seen_next (by decide +kernel),
    by decide +kernel, seen_next (by decide +kernel), by decide +kernel, seen_next (by decide +kernel), by decide +kernel⟩

/-- The clauses on `VOICE.RENDER` (a modulation update at counter 0, and none at 127), `ENG.PROCESS` and `ENG.NOTE_ON`. -/
theorem witness_EnvStateOrder_voices :
    (∃ t, exec (.voiceRender 1 48000 120) stage = .next t ∧
      (t.resp, (t.voiceAt .lone).map (·.aeg.state)) = ([⟨.voice, 0#32⟩], some .decay)) ∧
    (∃ t, exec (.voiceRender 1 48000 120) (rig t0 { voice with modCount := 127 } [] bus) = .next t ∧
      (t.voiceAt .lone).map (·.aeg.state) = some .attack) ∧
    (∃ t, exec (.engProcess 48000 120) (rig t0 voice [voice] { bus with sampleCount := 1 }) = .next t ∧
      t.parts[0].voices.map (·.aeg.state) = [.decay]) ∧
    (∃ t, exec (.engNoteOn 0 60 100) stage = .next t ∧ t.parts[0].voices.map (·.aeg.state) = [.attack, .attack]) :=
  ⟨seen_next (by decide +kernel), seen_next (by decide +kernel), seen_next (by decide +kernel), seen_next (by decide +kernel)⟩

/-- A chip select that names nothing. -/
def nowhere : ChipSelect :=
  { env := .template 15 0 .eg2, lfo := .voice (.mapped 0 1) 2, flt := .template 0 1, mtx := .sample 1 0,
    voice := .mapped 0 1, newPart := 15, newSample := 0, bus := 1, envAlone := false }

theorem witness_RefusedForWantOfContext :
    (let s := { stage with sel := nowhere }
     s.envAt s.sel.env = none ∧ s.lfoAt s.sel.lfo = none ∧ s.fltAt s.sel.flt = none ∧ s.mtxAt s.sel.mtx = none ∧
      s.voiceAt s.sel.voice = none ∧ (∃ p i, s.sel.voice = .mapped p i) ∧ s.sampleAt s.sel.newPart s.sel.newSample = none ∧
      (∀ b, s.buses[s.sel.bus]? = some b → b.enabled = false ∨ b.channels.length ≠ 2)) ∧
    (let s := rig { t0 with src := { src with data := .bits8 [[], []], numSamples := 0 } } voice [] bus
     ∃ smp, s.sampleAt s.sel.newPart s.sel.newSample = some smp ∧ smp.src.numSamples = 0) ∧
    (let s := rig t0 voice [] { bus with enabled := false }
     ∀ b, s.buses[s.sel.bus]? = some b → b.enabled = false ∨ b.channels.length ≠ 2) ∧
    (let smp := { t0 with src := { src with data := .bits8 [[1#8]], numSamples := 1 } }
     let v := { voice with modCount := 127 }
     let s := rig smp v [] bus
     s.voiceAt s.sel.voice = some v ∧ s.sampleAt v.part v.sample = some smp ∧ smp.src.numChannels < 2 ∧
      smp.playMode = .standard ∧ 0 ≤ v.offset ∧ v.offset < smp.src.numSamples ∧ v.modCount ≠ 0) := by
  refine ⟨⟨by decide +kernel, by decide +kernel, by decide +kernel, by decide +kernel, by decide +kernel, ⟨0, 1, rfl⟩,
    by decide +kernel, fun b h => by cases h⟩, ⟨_, rfl, rfl⟩, ?_, by decide +kernel⟩
  intro s b h
  left
  rw [← Option.some.inj h]

/-! #### The ENV -/

theorem witness_EnvNoteOn : (withEnv (env .ended 0)).envAt (withEnv (env .ended 0)).sel.env = some (env .ended 0) := rfl

theorem witness_EnvNoteOff :
    (withEnv (env .attack 0)).envAt .lone = some (env .attack 0) ∧ (env .attack 0).state = .attack ∧
    (withEnv (env .none 0)).envAt .lone = some (env .none 0) ∧ (env .none 0).state = .none := ⟨rfl, rfl, rfl, rfl⟩

theorem witness_EnvStep (st : EnvState) :
    (withEnv (env st (1 / 4))).envAt .lone = some (env st (1 / 4)) ∧ (0 : Number) ≤ 0 ∧
    0 ≤ (env st (1 / 4)).s ∧ (env st (1 / 4)).s ≤ 1 ∧
    (withEnv ⟨0, 0, 1, 0, 0, st⟩).envAt .lone = some ⟨0, 0, 1, 0, 0, st⟩ ∧ (0 : Number) ≤ 1 ∧ (1 : Number) ≤ 1 := by
  refine ⟨rfl, le_rfl, ?_, ?_, rfl, ?_, le_rfl⟩ <;> norm_num [env]

theorem witness_EnvStepRefused :
    (withEnv ⟨0, 0, 3 / 2, 0, 1, .decay⟩).envAt .lone = some ⟨0, 0, 3 / 2, 0, 1, .decay⟩ ∧
    refusal (exec (.step 0 120) (withEnv ⟨0, 0, 3 / 2, 0, 1, .decay⟩)) = some .sustainOutOfRange ∧
    refusal (exec (.step (-1) 120) (withEnv (env .ended 0))) = some .negativeElapsed := by decide +kernel

theorem witness_EnvHasEnded :
    (withEnv (env .ended 0)).envAt .lone = some (env .ended 0) ∧ (withEnv (env .release 0)).envAt .lone = some (env .release 0) :=
  ⟨rfl, rfl⟩

theorem witness_EnvWr : stage.envAt stage.sel.env = some (env .sustain (1 / 2)) := rfl

theorem witness_EnvRd : stage.envAt stage.sel.env = some (env .sustain (1 / 2)) := rfl

/-- V-ENV-2: four Attack, two Decay and two Release steps of 0.625 s. -/
theorem witness_StageLengths :
    (withEnv (env .attack 0)).envAt .lone = some (env .attack 0) ∧ (0 : Number) < 5 / 8 ∧
    0 < duration (1 / 2) ∧ duration (1 / 2) / (5 / 8) = 4 ∧
    (withEnv (env .decay 1)).envAt .lone = some (env .decay 1) ∧ (1 - 1 / 2) * duration (1 / 2) / (5 / 8) = 2 ∧
    (withEnv (env .release (1 / 2))).envAt .lone = some (env .release (1 / 2)) ∧ (0 : Number) < 1 / 2 := by decide +kernel

/-! #### The LFO -/

theorem witness_LfoNoteOn :
    (withLfo lfo).lfoAt .lone = some lfo ∧ lfo.randphaseEn = false ∧
    (withLfo { lfo with randphaseEn := true }).lfoAt .lone = some { lfo with randphaseEn := true } := ⟨rfl, rfl, rfl⟩

/-- An LFO with every tempo flag set, quantised, at the smallest number of levels. -/
def synced : Lfo := { lfo with syncEn := true, syncBeats := 4, delaySyncEn := true, fadeSyncEn := true, quantEn := true, quantLevels := 2 }

theorem witness_LfoStep :
    (withLfo synced).lfoAt .lone = some synced ∧ (0 : Number) ≤ 0 ∧ synced.Premises 120 ∧
    (withLfo { lfo with waveform := .custom, numSteps := 1 }).lfoAt .lone = some { lfo with waveform := .custom, numSteps := 1 } ∧
    ({ lfo with waveform := .custom, numSteps := 1 } : Lfo).Premises 0 := by
  refine ⟨rfl, le_rfl, ⟨fun _ => (by norm_num), fun _ => (by norm_num [synced]), fun h => (by cases h), fun _ => le_rfl⟩, rfl,
    ⟨fun h => ?_, fun h => (by cases h), fun _ => ⟨le_rfl, ?_⟩, fun h => by cases h⟩⟩
  · rcases h with h | h | h <;> cases h
  · simp [Config.lfoNStepsMax]

theorem witness_LfoStepRefused :
    (withLfo synced).lfoAt .lone = some synced ∧
    refusal (exec (.lfoStep (-1) 120) (withLfo lfo)) = some .negativeElapsed ∧
    refusal (exec (.lfoStep (1 / 2) 0) (withLfo synced)) = some .lfoTempo ∧
    refusal (exec (.lfoStep (1 / 2) 120) (withLfo { synced with syncBeats := 0 })) = some .lfoSyncBeats ∧
    refusal (exec (.lfoStep (1 / 2) 120) (withLfo { lfo with waveform := .custom })) = some .lfoNumSteps ∧
    refusal (exec (.lfoStep (1 / 2) 120) (withLfo { lfo with quantEn := true, quantLevels := 1 })) = some .lfoQuantLevels := by
  decide +kernel

theorem witness_LfoWr : (withLfo lfo).lfoAt (withLfo lfo).sel.lfo = some lfo := rfl

theorem witness_LfoRd : (withLfo lfo).lfoAt (withLfo lfo).sel.lfo = some lfo := rfl

/-- Element 0 lies below every capacity; the last element an index can name is above it for a capacity below 256. -/
theorem witness_LfoWrStep :
    (withLfo lfo).lfoAt .lone = some lfo ∧ (0 : Fin 256).val < Config.lfoNStepsMax ∧ Memory.wf stepDefault lfo.steps = true ∧
    (Config.lfoNStepsMax ≤ 255 → Config.lfoNStepsMax ≤ (255 : Fin 256).val) := by
  refine ⟨rfl, ?_, rfl, id⟩
  simp [Config.lfoNStepsMax]

theorem witness_LfoRdStep : (withLfo lfo).lfoAt .lone = some lfo ∧ (0 : Fin 256).val < Config.lfoNStepsMax := by
  refine ⟨rfl, ?_⟩
  simp [Config.lfoNStepsMax]

theorem witness_LfoOutputRange :
    (∃ t, exec (.lfoStep (1 / 4) 120) (withLfo { lfo with freqHz := 1 }) = .next t ∧
      (t.lfoAt .lone).map (·.value) = some (1 / 2)) ∧
    (∀ k, k < lfo.numSteps → -1 ≤ lfo.readStep k ∧ lfo.readStep k ≤ 1) ∧ -1 ≤ lfo.randHold ∧ lfo.randHold ≤ 1 :=
  ⟨seen_next (by decide +kernel), fun _ h => (by cases h), by decide +kernel, by decide +kernel⟩

/-! #### The Filter -/

theorem witness_FltWr : (withFlt (flt .lowpass)).fltAt .lone = some (flt .lowpass) := rfl

theorem witness_FltRd : (withFlt (flt .highpass)).fltAt .lone = some (flt .highpass) := rfl

/-- `FN.exp2` at 0. -/
theorem exp2_zero : Config.fn.exp2 0 = 1 := by simpa using Config.fn.exp2_int 0

/-- V-FLT-2: cutoff 1 at 64000 Hz, 16000 Hz; V-FLT-6: at 32000 Hz the highest frequency is half the rate. -/
theorem witness_FltUpdate :
    (withFlt (flt .lowpass)).fltAt .lone = some (flt .lowpass) ∧ (flt .lowpass).type ≠ .none ∧ (0 : Number) < 64000 ∧
    1 + max 0 (min 1 ((flt .lowpass).cutoff * Config.fn.exp2 (flt .lowpass).cutoffMod)) * (16000 - 1) < (64000 : Number) / 2 ∧
    (withFlt (flt .none)).fltAt .lone = some (flt .none) ∧ (flt .none).type = .none := by
  refine ⟨rfl, by decide, by norm_num, ?_, rfl, rfl⟩
  simp only [flt, exp2_zero]
  norm_num

/-- V-FLT-6: at rates 0 and below a type is refused and none is not. -/
theorem witness_FltUpdateRefused_none :
    (withFlt (flt .none)).fltAt .lone = some (flt .none) ∧ (flt .none).type = .none ∧
    (∀ sr ∈ [0, -48000], refusal (exec (.fltUpdate sr) (withFlt (flt .highpass))) = some .filterRate ∧
      completes (exec (.fltUpdate sr) (withFlt (flt .none))) = true) := by decide +kernel

theorem witness_FltUpdateRefused :
    (withFlt (flt .highpass)).fltAt .lone = some (flt .highpass) ∧ (flt .highpass).type ≠ .none ∧
    ¬ (0 < (32000 : Number) ∧ 1 + max 0 (min 1 ((flt .highpass).cutoff * Config.fn.exp2 (flt .highpass).cutoffMod)) * (16000 - 1)
      < (32000 : Number) / 2) ∧ (32000 : Number) < 44100 := by
  refine ⟨rfl, by decide, ?_, by norm_num⟩
  simp only [flt, exp2_zero]
  norm_num

theorem witness_FltRun :
    (let s := withFlt (flt .lowpass)
     s.fltAt s.sel.flt = some (flt .lowpass) ∧ s.sel.flt = .lone ∧ s.scratch = ⟨[1, 0, 0, 0], [1, 0, 0, 0]⟩ ∧
      4 ≤ s.scratch.left.length ∧ 4 ≤ s.scratch.right.length ∧ s.scratch.left.length < 5 ∧ (flt .lowpass).type ≠ .none) ∧
    (let s := { stage with sel := { stage.sel with flt := .voice (.mapped 0 0) } }
     s.fltAt s.sel.flt = some (flt .none) ∧ (s.voiceAt (.mapped 0 0)).map (fun v => v.scratch) = some ⟨[], []⟩ ∧
      (flt .none).type = .none) := by decide +kernel

theorem witness_FltDcGain (type : FilterType) (h : type ≠ .none) :
    (withFlt (flt type)).fltAt .lone = some (flt type) ∧
    ∃ t x', exec (.fltUpdate 64000) (withFlt (flt type)) = .next t ∧ t.fltAt .lone = some x' := by
  have hr : (flt type).rateOk 64000 = true := by
    simp only [Flt.rateOk, Flt.hz, Flt.cutEff, flt, exp2_zero, clamp, Config.fltFMax]
    norm_num
  obtain ⟨x', hx⟩ : ∃ x', (flt type).update 64000 = .ok x' := by
    cases type with
    | none => exact absurd rfl h
    | lowpass => exact ⟨_, if_pos hr⟩
    | highpass => exact ⟨_, if_pos hr⟩
  refine ⟨rfl, (withFlt (flt type)).setFlt .lone x', x', ?_, rfl⟩
  simp only [exec, execFltUpdate]
  rw [State.onFlt_eq (withFlt (flt type)) (x := flt type) rfl, hx]
  rfl

/-! #### The Modulation Matrix -/

theorem witness_MtxWr : (withMtx (mtx off off)).mtxAt .lone = some (mtx off off) := rfl

theorem witness_MtxRd : (withMtx (mtx off off)).mtxAt .lone = some (mtx off off) := rfl

theorem witness_MtxEval : (withMtx (mtx off off)).mtxAt .lone = some (mtx off off) := rfl

/-! #### The Voice -/

theorem witness_VoiceNoteOn :
    stage.sel.voice = .lone ∧ stage.sampleAt stage.sel.newPart stage.sel.newSample = some t0 ∧ 1 ≤ t0.src.numSamples := by
  decide +kernel

theorem witness_VoiceNoteOff : stage.voiceAt stage.sel.voice = some voice := rfl

theorem witness_VoiceRd : stage.voiceAt stage.sel.voice = some voice := rfl

theorem bus_takes (n : Nat) (h : n ≤ 4) : bus.Takes n :=
  ⟨rfl, h, fun c hc => by simp [bus] at hc; rw [hc]; exact h⟩

theorem src_stereo : src.Stereo := by
  refine ⟨by decide, by decide, ?_⟩
  show ∀ ch i, ch < 2 → i < 4 → (src.stored ch i).isSome = true
  intro ch i hc hi
  interval_cases ch <;> interval_cases i <;> rfl

theorem lfo_premises : lfo.Premises 120 := by
  refine ⟨fun _ => (by norm_num), fun h => (by cases h), fun h => (by cases h), fun h => by cases h⟩

/-- A Voice with the LFOs and the Filter of T0 and a sustain level in range can be stepped. -/
theorem steppable (v : Voice) (ha : 0 ≤ v.aeg.s ∧ v.aeg.s ≤ 1) (he : 0 ≤ v.eg2.s ∧ v.eg2.s ≤ 1)
    (hl : v.lfos = #v[lfo, lfo, lfo]) (hf : v.flt = flt .none) : v.Steppable 48000 120 := by
  refine ⟨ha, he, ?_, ?_⟩
  · intro j
    have : v.lfos[j] = lfo := by
      rw [hl]; exact (show ∀ j : Fin 3, (#v[lfo, lfo, lfo] : Vector Lfo 3)[j] = lfo by decide +kernel) j
    rw [this]; exact lfo_premises
  · rw [hf]; exact .inl rfl

theorem voice_steppable : voice.Steppable 48000 120 :=
  steppable voice ⟨by decide +kernel, by decide +kernel⟩ ⟨by decide +kernel, by decide +kernel⟩ rfl rfl

/-- V-VOICE-3: note 60 on T0 plays at speed 1, reversed at -1. -/
theorem voice_speed (mode : PlayMode) (rev : Bool) (part : Part) (h : part.pitchbend = 0) :
    speedOf part { t0 with playMode := mode, reverse := rev } voice 48000 = if rev then -1 else 1 := by
  have hs : semitones part { t0 with playMode := mode, reverse := rev } voice / 12 = 0 := by
    simp only [semitones, t0, voice, h]; norm_num
  unfold speedOf
  rw [hs, exp2_zero]
  cases rev <;> norm_num [t0, src]

theorem witness_VoiceRenderCompletes :
    stage.voiceAt stage.sel.voice = some voice ∧ stage.sampleAt voice.part voice.sample = some t0 ∧
    stage.buses[stage.sel.bus]? = some bus ∧ bus.Takes 4 ∧ Playable stage.parts[voice.part] t0 voice 48000 120 :=
  ⟨rfl, by decide +kernel, rfl, bus_takes 4 le_rfl, ⟨by norm_num, src_stereo, voice_steppable, trivial⟩⟩

/-- The other play modes: a loop of the whole source forward from its start, in reverse inside it from its last index, and a released
LoopUntilRelease. -/
theorem witness_VoiceRenderCompletes_modes :
    Playable stage.parts[voice.part] { t0 with playMode := .shot } voice 48000 120 ∧
    Playable stage.parts[voice.part] { t0 with playMode := .loop } voice 48000 120 ∧
    Reaches { t0 with playMode := .loop, reverse := true, src := { src with loopEnd := 3 } } { voice with offset := 3 } (-1) ∧
    Reaches { t0 with playMode := .loopUntilRelease } { voice with gate := false } 7 := by
  have hb : stage.parts[voice.part].pitchbend = 0 := by decide +kernel
  refine ⟨⟨by norm_num, src_stereo, voice_steppable, trivial⟩, ⟨by norm_num, src_stereo, voice_steppable, ?_⟩, ?_, .inl rfl⟩
  · have hs := voice_speed .loop false stage.parts[voice.part] hb
    rw [show ({ t0 with playMode := .loop, reverse := false } : Sample) = { t0 with playMode := .loop } from rfl] at hs
    rw [hs]
    show LoopContained { t0 with playMode := .loop } voice.offset 1
    refine ⟨?_, ?_, ?_⟩ <;> norm_num [t0, src, voice]
  · show LoopContained _ _ _
    refine ⟨?_, ?_, ?_⟩ <;> norm_num [t0, src, voice]

/-- The rate of V-FLT-2, above twice the highest cutoff: T0's lowpass can be updated. -/
theorem lowpass_update : ∃ f, (flt .lowpass).update 64000 = .ok f :=
  Flt.update_total _ (.inr (by norm_num))

/-- R281 at both ends, R282 with a wrap, R284: the clauses of the one-sample statement, with a Filter and without. -/
theorem witness_VoiceRenderOneSample :
    (let v := { voice with modCount := 127 }
     let s := rig t0 v [] bus
     s.voiceAt s.sel.voice = some v ∧ s.sampleAt v.part v.sample = some t0 ∧ s.buses[s.sel.bus]? = some bus ∧
      bus.enabled = true ∧ bus.channels = [0 :: [0, 0, 0], 0 :: [0, 0, 0]] ∧ 1 ≤ bus.sampleCount ∧ (0 : Number) < 48000 ∧
      v.modCount ≠ 0 ∧ v.flt.update 48000 = .ok (flt .none) ∧ 2 ≤ t0.src.numChannels ∧ 0 ≤ v.offset ∧
      v.offset < t0.src.numSamples ∧ ⌊v.offset⌋ = (0 : Nat) ∧ 0 < t0.src.numSamples ∧ t0.src.stored 0 0 = some (1 / 2) ∧
      t0.src.stored 1 0 = some (1 / 4)) ∧
    (let v := { voice with offset := 7 / 2 }
     0 ≤ v.offset ∧ v.offset < (t0.src.numSamples : Number) ∧ ⌊v.offset⌋ = (3 : Nat) ∧ t0.src.stored 0 3 = some (32767 / 32768) ∧
      t0.src.stored 1 3 = some (1 / 4)) ∧
    (let v := { voice with offset := 4 }
     (t0.src.loopEnd : Number) ≤ v.offset ∧ v.offset - ((t0.src.loopEnd : Number) - t0.src.loopStart) = 0 ∧ v.gate = true) ∧
    (let v := { voice with offset := 0 }
     v.offset ≤ (t0.src.loopStart : Number) ∧ ⌊v.offset + (3 - (t0.src.loopStart : Number))⌋ = (3 : Nat)) ∧
    (let v := { voice with flt := flt .lowpass, modCount := 1 }
     v.modCount ≠ 0 ∧ v.flt = flt .lowpass ∧ (0 : Number) < 64000) := by
  decide +kernel

/-- The AEG of T0 in Attack at 0, or in Release at 1 (V-VOICE-7), after one modulation period. -/
theorem aeg_step :
    (⟨0, 0, 1, 0, 0, .attack⟩ : Env).step (128 / 48000) 120 = .ok ⟨0, 0, 1, 0, 1, .decay⟩ ∧
    (⟨0, 0, 1, 0, 1, .release⟩ : Env).step (128 / 48000) 120 = .ok ⟨0, 0, 1, 0, 0, .ended⟩ := by decide +kernel

/-- Standard at the first and the last index; Loop at its end, wrapped; Shot with an AEG that ends; LoopUntilRelease held. -/
theorem witness_VoiceRenderModulates :
    (stage.voiceAt stage.sel.voice = some voice ∧ stage.sampleAt voice.part voice.sample = some t0 ∧
      stage.buses[stage.sel.bus]? = some bus ∧ bus.Takes 1 ∧ Playable stage.parts[voice.part] t0 voice 48000 120 ∧
      voice.modCount = 0 ∧ t0.playMode = .standard ∧ 0 ≤ voice.offset ∧ voice.offset < t0.src.numSamples ∧
      voice.aeg.step (128 / 48000) 120 = .ok ⟨0, 0, 1, 0, 1, .decay⟩ ∧
      voice.eg2.step (128 / 48000) 120 = .ok ⟨0, 0, 1, 0, 1, .decay⟩ ∧ EnvState.decay ≠ .ended) ∧
    (let v := { voice with offset := 4 }
     (t0.src.loopEnd : Number) ≤ v.offset ∧ v.gate = true ∧
      Playable stage.parts[v.part] { t0 with playMode := .loop } v 48000 120 ∧
      Playable stage.parts[v.part] { t0 with playMode := .loopUntilRelease } v 48000 120) ∧
    (let v := { voice with aeg := ⟨0, 0, 1, 0, 1, .release⟩ }
     Playable stage.parts[v.part] { t0 with playMode := .shot } v 48000 120 ∧
      v.aeg.step (128 / 48000) 120 = .ok ⟨0, 0, 1, 0, 0, .ended⟩) := by
  have hb : stage.parts[voice.part].pitchbend = 0 := by decide +kernel
  have h01 : (0 : Number) ≤ 1 ∧ (1 : Number) ≤ 1 := ⟨by norm_num, le_rfl⟩
  have hloop : ∀ mode, LoopContained { t0 with playMode := mode } 4
      (speedOf stage.parts[voice.part] { t0 with playMode := mode } { voice with offset := 4 } 48000) := by
    intro mode
    have hs : speedOf stage.parts[voice.part] { t0 with playMode := mode } { voice with offset := 4 } 48000 = 1 :=
      voice_speed mode false stage.parts[voice.part] hb
    rw [hs]
    refine ⟨?_, ?_, ?_⟩ <;> norm_num [t0, src]
  exact ⟨⟨rfl, by decide +kernel, rfl, bus_takes 1 (by decide), ⟨by norm_num, src_stereo, voice_steppable, trivial⟩, rfl, rfl,
      by decide +kernel, by decide +kernel, aeg_step.1, aeg_step.1, by decide⟩,
    ⟨by decide +kernel, rfl, ⟨by norm_num, src_stereo, steppable _ h01 h01 rfl rfl, hloop .loop⟩,
      ⟨by norm_num, src_stereo, steppable _ h01 h01 rfl rfl, .inr (hloop .loopUntilRelease)⟩⟩,
    ⟨⟨by norm_num, src_stereo, steppable _ h01 h01 rfl rfl, trivial⟩, aeg_step.2⟩⟩

/-- A block of one sample that does not stop, in the middle of a modulation period. -/
theorem witness_VoiceRenderSchedule :
    (rig t0 { voice with modCount := 126 } [] bus).voiceAt .lone = some { voice with modCount := 126 } ∧
    (rig t0 { voice with modCount := 126 } [] bus).sampleAt 0 0 = some t0 ∧
    (∃ t, exec (.voiceRender 1 48000 120) (rig t0 { voice with modCount := 126 } [] bus) = .next t ∧
      (t.resp, (t.voiceAt .lone).map (·.modCount)) = ([⟨.voice, 0#32⟩], some 127)) ∧
    t0.playMode = .standard := by
  exact ⟨rfl, by decide +kernel, seen_next (by decide +kernel), rfl⟩

theorem witness_VoiceRenderStops :
    (let v := { voice with offset := 4 }
     let s := rig t0 v [] bus
     s.voiceAt s.sel.voice = some v ∧ s.sampleAt v.part v.sample = some t0 ∧ s.buses[s.sel.bus]? = some bus ∧ bus.Takes 4 ∧
      Playable s.parts[v.part] t0 v 48000 120 ∧ (t0.src.numSamples : Number) ≤ v.offset) ∧
    (let v := { voice with gate := false }
     let smp := { t0 with playMode := .loopUntilRelease }
     let s := rig smp v [] bus
     s.voiceAt s.sel.voice = some v ∧ s.sampleAt v.part v.sample = some smp ∧ s.buses[s.sel.bus]? = some bus ∧
      Playable s.parts[v.part] smp v 48000 120 ∧ v.gate = false) ∧
    (let v := { voice with aeg := ⟨0, 0, 1, 0, 1, .release⟩ }
     let s := rig t0 v [] bus
     s.voiceAt s.sel.voice = some v ∧ s.sampleAt v.part v.sample = some t0 ∧ s.buses[s.sel.bus]? = some bus ∧
      Playable s.parts[v.part] t0 v 48000 120 ∧ 0 ≤ v.offset ∧ v.offset < t0.src.numSamples ∧ v.modCount = 0 ∧
      v.aeg.step (128 / 48000) 120 = .ok ⟨0, 0, 1, 0, 0, .ended⟩ ∧ v.gate = true) := by
  have h01 : (0 : Number) ≤ 1 ∧ (1 : Number) ≤ 1 := ⟨by norm_num, le_rfl⟩
  refine ⟨⟨rfl, by decide +kernel, rfl, bus_takes 4 le_rfl, ⟨by norm_num, src_stereo, steppable _ h01 h01 rfl rfl, trivial⟩,
      by decide +kernel⟩,
    ⟨rfl, by decide +kernel, rfl, ⟨by norm_num, src_stereo, steppable _ h01 h01 rfl rfl, .inl rfl⟩, rfl⟩,
    ⟨rfl, by decide +kernel, rfl, ⟨by norm_num, src_stereo, steppable _ h01 h01 rfl rfl, trivial⟩, by decide +kernel,
      by decide +kernel, rfl, aeg_step.2, rfl⟩⟩

/-- A block of `m` samples that does not stop, of a Voice with its Filter off: the samples it adds are the premise of the third
clause. -/
theorem stops_after {smp : Sample} {v : Voice} {m : Nat} (hp : Playable stage.parts[v.part] smp v 48000 120) (hm : m ≤ 4)
    (hf : v.flt = flt .none) (hv : v.part = 0 ∧ v.sample = 0) {t : State}
    (he : exec (.voiceRender m 48000 120) (rig smp v [] bus) = .next t) (hr : t.resp = [⟨.voice, 0#32⟩]) :
    let s := rig smp v [] bus
    s.setVoice s.sel.voice { v with flt := { v.flt with type := .none } } = s ∧
    ∃ (b0 : Bus) (u0 u1 : List Number), t.buses[s.sel.bus]? = some b0 ∧ u0.length = m ∧ u1.length = m ∧
      (∀ j, element b0.channels 0 j = (element bus.channels 0 j).map fun x => x + u0.getD j 0) ∧
      (∀ j, element b0.channels 1 j = (element bus.channels 1 j).map fun x => x + u1.getD j 0) := by
  dsimp only
  have hs : (rig smp v [] bus).sampleAt v.part v.sample = some smp := by rw [rig_sampleAt, if_pos hv]
  have hpart : (rig smp v [] bus).parts[v.part].pitchbend = stage.parts[v.part].pitchbend := by
    rw [rig_parts, stage_parts]; split <;> rfl
  obtain ⟨x, hx⟩ := renderVoice_total (k := 0) (n := m) hs rfl (bus_takes m hm) (hp.congr rfl hpart)
  have hexec : exec (.voiceRender m 48000 120) (rig smp v [] bus)
      = .next ((x.state.setVoice .lone x.voice).respond .voice (boolReading x.stop)) := by
    show execVoiceRender m 48000 120 (rig smp v [] bus) = _
    have hlone : (rig smp v [] bus).voiceAt (rig smp v [] bus).sel.voice = some v := rfl
    simp only [execVoiceRender, hlone, show (rig smp v [] bus).sel.bus = 0 from rfl, hx]
    rfl
  rw [hexec] at he
  cases he
  obtain ⟨b, b', u0, u1, hb, hb', h0, h1, e0, e1⟩ := renderVoice_adds hx (by rw [hf]; rfl) (by
    cases h : x.stop with
    | false => rfl
    | true =>
      have hx0 : x.state.resp = [] := (renderVoice_still hx).resp
      simp [h, hx0, boolReading, readingWord, encodeInt] at hr)
  cases hb
  refine ⟨?_, b', u0, u1, hb', h0, h1, e0, e1⟩
  have : ({ v with flt := { v.flt with type := .none } } : Voice) = v := by rw [hf]; cases v; simp_all [flt]
  rw [this]; rfl

/-- The third clause: outside the source after no sample, and the AEG in End at the update after one sample of a Loop Voice. -/
theorem witness_VoiceRenderStops_inside :
    (let v := { voice with offset := 4 }
     (∃ t, exec (.voiceRender 0 48000 120) (rig t0 v [] bus) = .next t ∧
      (t.resp, (t.voiceAt .lone).map (·.offset), t.buses) = ([⟨.voice, 0#32⟩], some 4, [bus])) ∧
     (t0.src.numSamples : Number) ≤ 4) ∧
    (let v := { voice with modCount := 127, aeg := ⟨0, 0, 1, 0, 1, .release⟩ }
     let smp := { t0 with playMode := .loop }
     Playable stage.parts[v.part] smp v 48000 120 ∧
     ∃ t, ∃ (b0 : Bus) (u0 u1 : List Number), exec (.voiceRender 1 48000 120) (rig smp v [] bus) = .next t ∧
      (t.resp, (t.voiceAt .lone).map (fun w => (w.modCount, w.aeg))) = ([⟨.voice, 0#32⟩], some (0, ⟨0, 0, 1, 0, 1, .release⟩)) ∧
      t.buses[0]? = some b0 ∧ u0.length = 1 ∧ u1.length = 1 ∧
      (∀ j, element b0.channels 0 j = (element bus.channels 0 j).map fun x => x + u0.getD j 0) ∧
      (∀ j, element b0.channels 1 j = (element bus.channels 1 j).map fun x => x + u1.getD j 0)) := by
  refine ⟨⟨seen_next (by decide +kernel), by decide +kernel⟩, ?_⟩
  have h01 : (0 : Number) ≤ 1 ∧ (1 : Number) ≤ 1 := ⟨by norm_num, le_rfl⟩
  have hb : stage.parts[voice.part].pitchbend = 0 := by decide +kernel
  have hp : Playable stage.parts[voice.part] { t0 with playMode := .loop }
      { voice with modCount := 127, aeg := ⟨0, 0, 1, 0, 1, .release⟩ } 48000 120 := by
    refine ⟨by norm_num, src_stereo, steppable _ h01 h01 rfl rfl, ?_⟩
    have hs : speedOf stage.parts[voice.part] { t0 with playMode := .loop }
        { voice with modCount := 127, aeg := ⟨0, 0, 1, 0, 1, .release⟩ } 48000 = 1 := voice_speed .loop false _ hb
    rw [hs]
    refine ⟨?_, ?_, ?_⟩ <;> norm_num [t0, src, voice]
  obtain ⟨t, ht, hr⟩ := seen_next (o := exec (.voiceRender 1 48000 120) (rig { t0 with playMode := .loop }
      { voice with modCount := 127, aeg := ⟨0, 0, 1, 0, 1, .release⟩ } [] bus))
    (f := fun t => (t.resp, (t.voiceAt .lone).map fun w => (w.modCount, w.aeg)))
    (x := ([⟨.voice, 0#32⟩], some (0, ⟨0, 0, 1, 0, 1, .release⟩))) (by decide +kernel)
  obtain ⟨-, b0, u0, u1, h⟩ := stops_after hp (by norm_num) rfl ⟨rfl, rfl⟩ ht (congrArg Prod.fst hr)
  exact ⟨hp, t, b0, u0, u1, ht, hr, h⟩

/-! #### Part and Engine -/

theorem witness_EngNoteOn :
    stage.parts[(0 : Fin 16)].voices.Pairwise (fun a b => a.note ≤ b.note) ∧
    (∀ k smp, stage.sampleAt 0 k = some smp → 1 ≤ smp.src.numSamples) ∧ t0.covers 0 0 = true ∧ t0.covers 127 127 = true := by
  refine ⟨by rw [stage_parts]; simp, ?_, by decide, by decide⟩
  intro k smp h
  rw [stage_sampleAt] at h
  split at h
  · rw [← Option.some.inj h]; decide
  · cases h

theorem witness_EngPitchbend :
    (-1 : Number) ≤ -1 ∧ (-1 : Number) ≤ 1 ∧ (1 : Number) ≤ 1 ∧ (-3 / 2 : Number) < -1 ∧ (1 : Number) < 3 / 2 := by
  norm_num

theorem witness_EngCc :
    Memory.wf controllerDefault stage.parts[(0 : Fin 16)].controllers = true ∧ (0 : Number) ≤ 0 ∧ (0 : Number) ≤ 1 ∧
    (1 : Number) ≤ 1 ∧ (-1 / 2 : Number) < 0 ∧ (1 : Number) < 2 := by
  refine ⟨by decide +kernel, ?_⟩
  norm_num

theorem witness_EngPartOutOfRange :
    15 < 16 ∧ (-1 : Number) ≤ -1 ∧ (-1 : Number) ≤ 1 ∧ (0 : Number) ≤ 0 ∧ (0 : Number) ≤ 1 := by norm_num

theorem witness_EngProcessCompletes (p : Fin 16) (v : Voice) (h : v ∈ stage.parts[p].voices) :
    ProcessReady stage v 48000 120 := by
  rw [stage_parts] at h
  have hv : v = voice := by
    by_cases hp : p = 0
    · simpa [hp] using h
    · simp [hp, Part.reset] at h
  rw [hv]
  refine ⟨t0, by decide +kernel, fun b hb _ => ?_⟩
  rw [← show bus = b from Option.some.inj hb]
  exact ⟨bus_takes 4 le_rfl, ⟨by norm_num, src_stereo, voice_steppable, trivial⟩⟩

/-- V-ENG-4: the Sample's bus is out of range, and there is a Voice. -/
theorem witness_EngProcessBadBus :
    (∀ (p : Fin 16) v, v ∈ (rig { t0 with outputBus := some 3 } voice [voice] bus).parts[p].voices →
      ∃ smp, (rig { t0 with outputBus := some 3 } voice [voice] bus).sampleAt v.part v.sample = some smp ∧
        ∀ b, (rig { t0 with outputBus := some 3 } voice [voice] bus).buses[smp.outputBus.getD 0]? = some b →
          b.enabled = false ∨ b.channels.length ≠ 2) ∧
    (rig { t0 with outputBus := some 3 } voice [voice] bus).parts[(0 : Fin 16)].voices ≠ [] := by
  refine ⟨?_, by rw [rig_parts]; simp⟩
  intro p v h
  rw [rig_parts] at h
  have hv : v = voice := by
    by_cases hp : p = 0
    · simpa [hp] using h
    · simp [hp, Part.reset] at h
  rw [hv]
  exact ⟨{ t0 with outputBus := some 3 }, rfl, fun b hb => by cases hb⟩

end Sys2Proof.Tests
end

section
/-! PROOF of O16: the context that the caller supplies (R2, R42, R56, R75) and the words already emitted (R108) survive every
step. Each shared operation of the machine is shown once to keep them; a command is one of those operations. -/

namespace Sys2Proof.Machine

/-- From `s` to `t` the chip select, the policy, the plain fields of every Sample and the shape of every bus are the same, and the
emitted words grow at the end only. -/
structure SameContext (s t : State) : Prop where
  sel : t.sel = s.sel
  policy : t.policy = s.policy
  sample : ∀ p k, (t.sampleAt p k).map Sample.plain = (s.sampleAt p k).map Sample.plain
  busFrame : ∀ b : Nat, (t.buses[b]?).map Bus.frame = (s.buses[b]?).map Bus.frame
  resp : s.resp <+: t.resp

/-! ### How the relation composes -/

theorem SameContext.refl (s : State) : SameContext s s :=
  ⟨rfl, rfl, fun _ _ => rfl, fun _ => rfl, List.prefix_rfl⟩

theorem SameContext.trans {s t u : State} (h : SameContext s t) (k : SameContext t u) : SameContext s u :=
  ⟨k.sel.trans h.sel, k.policy.trans h.policy, fun p i => (k.sample p i).trans (h.sample p i),
    fun b => (k.busFrame b).trans (h.busFrame b), h.resp.trans k.resp⟩

/-- A frame, whatever its footprint, says all of the context but the responses. -/
theorem SameBut.sameContext {s t : State} {fp : Footprint} (h : SameBut s t fp) (hr : t.resp = s.resp) : SameContext s t :=
  ⟨h.sel, h.policy, h.sample, h.busFrame, hr ▸ List.prefix_rfl⟩

/-! ### The updates of the machine -/

section

variable (s : State)

theorem State.withDraws_sameContext (k : Nat) : SameContext s { s with draws := k } :=
  ⟨rfl, rfl, fun _ _ => rfl, fun _ => rfl, List.prefix_rfl⟩

theorem State.withCmd_sameContext (ws : List Word) : SameContext s { s with cmd := ws } :=
  ⟨rfl, rfl, fun _ _ => rfl, fun _ => rfl, List.prefix_rfl⟩

theorem State.withVoice_sameContext (v : Option Voice) : SameContext s { s with voice := v } :=
  ⟨rfl, rfl, fun _ _ => rfl, fun _ => rfl, List.prefix_rfl⟩

theorem State.emit_sameContext (u : UnitCode) (w : Word) : SameContext s (s.emit u w) :=
  ⟨rfl, rfl, fun _ _ => rfl, fun _ => rfl, List.prefix_append _ _⟩

theorem State.respond_sameContext (u : UnitCode) (rd : Reading) : SameContext s (s.respond u rd) :=
  s.emit_sameContext u (readingWord rd)

/-- A Part with the same Samples: other Voices, another pitchbend, other controllers. -/
theorem State.setPart_sameContext (p : Fin 16) (x : Part) (h : x.samples = s.parts[p].samples) :
    SameContext s (s.setPart p x) where
  sel := rfl
  policy := rfl
  sample q k := by
    rw [State.setPart_sampleAt]
    split
    · next hq => rw [hq, h]; rfl
    · rfl
  busFrame _ := rfl
  resp := List.prefix_rfl

theorem State.setVoices_sameContext (p : Fin 16) (vs : List Voice) : SameContext s (s.setVoices p vs) :=
  s.setPart_sameContext p { s.parts[p] with voices := vs } rfl

theorem State.setVoice_sameContext (l : VoiceLoc) (v : Voice) : SameContext s (s.setVoice l v) := by
  cases l with
  | lone => exact s.withVoice_sameContext (some v)
  | mapped p i => exact s.setVoices_sameContext p _

end

/-! ### Commands to the selected instance -/

section

variable {s t : State}

theorem State.onEnv_sameContext {f : Env → Except Refusal Env} (h : s.onEnv f = .ok t) : SameContext s t := by
  obtain ⟨e, e', he, -, rfl⟩ := (s.onEnv_ok t f).mp h
  exact (s.setEnv_sameBut _ e e' he).1.sameContext (s.setEnv_resp _ e')

theorem State.readEnv_sameContext {f : Env → Reading} (h : s.readEnv f = .ok t) : SameContext s t := by
  obtain ⟨e, -, rfl⟩ := (s.readEnv_ok t f).mp h
  exact s.respond_sameContext _ _

theorem State.onLfo_sameContext {f : Lfo → Nat → Except Refusal (Lfo × Nat)} (h : s.onLfo f = .ok t) : SameContext s t := by
  obtain ⟨l, y, hl, -, rfl⟩ := (s.onLfo_ok t f).mp h
  exact ((s.setLfo_sameBut _ l y.1 hl).1.sameContext (s.setLfo_resp _ y.1)).trans (State.withDraws_sameContext _ y.2)

theorem State.readLfo_sameContext {f : Lfo → Reading} (h : s.readLfo f = .ok t) : SameContext s t := by
  obtain ⟨l, -, rfl⟩ := (s.readLfo_ok t f).mp h
  exact s.respond_sameContext _ _

theorem State.onFlt_sameContext {f : Flt → Except Refusal Flt} (h : s.onFlt f = .ok t) : SameContext s t := by
  obtain ⟨x, y, hx, -, rfl⟩ := (s.onFlt_ok t f).mp h
  exact (s.setFlt_sameBut _ x y hx).1.sameContext (s.setFlt_resp _ y)

/-- The buffer of `FLT.RUN` is still there after the Filter was replaced (R218). -/
theorem State.onFltBuf_sameContext {f : Flt → Scratch → Except Refusal (Flt × Scratch)} (h : s.onFltBuf f = .ok t) :
    SameContext s t := by
  obtain ⟨x, b, y, hx, hb, -, rfl⟩ := (s.onFltBuf_ok t f).mp h
  have hflt := (s.setFlt_sameBut _ x y.1 hx).1
  have hbuf : (s.setFlt s.sel.flt y.1).bufAt s.sel.flt.buffer = some b := (hflt.scratch _ id).trans hb
  exact (hflt.sameContext (State.setFlt_resp _ _ _)).trans
    ((State.setBuf_sameBut _ _ b y.2 hbuf).1.sameContext (State.setBuf_resp _ _ _))

theorem State.onMtx_sameContext {f : Mtx → Mtx} (h : s.onMtx f = .ok t) : SameContext s t := by
  obtain ⟨m, hm, rfl⟩ := (s.onMtx_ok t f).mp h
  exact (s.setMtx_sameBut _ m (f m) hm).1.sameContext (s.setMtx_resp _ (f m))

/-! ### Commands that are written out -/

theorem execFltRd_sameContext {reg : FltReg} (h : execFltRd reg s = .next t) : SameContext s t := by
  unfold execFltRd at h
  split at h
  · cases h
  · cases h; exact s.respond_sameContext _ _

theorem execMtxRd_sameContext {reg : MtxReg} (h : execMtxRd reg s = .next t) : SameContext s t := by
  unfold execMtxRd at h
  split at h
  · cases h
  split at h
  · cases h; exact s.respond_sameContext _ _
  · cases h; exact (s.emit_sameContext _ _).trans (State.withDraws_sameContext _ _)

theorem execLfoWrStep_sameContext {i : Fin 256} {v : Number} (h : execLfoWrStep i v s = .next t) : SameContext s t := by
  unfold execLfoWrStep at h
  split at h
  · exact State.onLfo_sameContext ((outcome_next _ _).mp h)
  · cases h

theorem execLfoRdStep_sameContext {i : Fin 256} (h : execLfoRdStep i s = .next t) : SameContext s t := by
  unfold execLfoRdStep at h
  split at h
  · exact State.readLfo_sameContext ((outcome_next _ _).mp h)
  · cases h

theorem execVoiceNoteOn_sameContext {note vel : Fin 128} (h : execVoiceNoteOn note vel s = .next t) : SameContext s t := by
  unfold execVoiceNoteOn at h
  split at h
  · cases h
  split at h
  · cases h
  split at h
  · cases h
  next v _ => cases h; exact (s.withVoice_sameContext (some v.1)).trans (State.withDraws_sameContext _ v.2)

theorem execVoiceNoteOff_sameContext (h : execVoiceNoteOff s = .next t) : SameContext s t := by
  unfold execVoiceNoteOff at h
  split at h
  · cases h
  · cases h; exact s.setVoice_sameContext _ _

theorem execVoiceRd_sameContext {reg : VoiceReg} (h : execVoiceRd reg s = .next t) : SameContext s t := by
  unfold execVoiceRd at h
  split at h
  · cases h
  · cases h; exact s.respond_sameContext _ _

/-! ### Rendering: a block writes matrix outputs and bus contents, never a Sample's own fields or a bus's shape -/

theorem renderVoice_sameContext {v : Voice} {k n : Nat} {sampleRate bpm : Number} {x : Rendered}
    (h : renderVoice s v k n sampleRate bpm = .ok x) : SameContext s x.state :=
  (renderVoice_frame h).sameContext (renderVoice_still h).resp

theorem execVoiceRender_sameContext {n : Nat} {sampleRate bpm : Number} (h : execVoiceRender n sampleRate bpm s = .next t) :
    SameContext s t := by
  unfold execVoiceRender at h
  split at h
  · cases h
  split at h
  · cases h
  next hx =>
    cases h
    exact ((renderVoice_sameContext hx).trans (State.setVoice_sameContext _ _ _)).trans (State.respond_sameContext _ _ _)

theorem processPart_sameContext {p : Fin 16} {sampleRate bpm : Number} {y : State × Bool}
    (h : processPart sampleRate bpm s p = .ok y) : SameContext s y.1 := by
  obtain ⟨-, -, -, hresp, -, hframe, -⟩ := processPart_frame h
  exact hframe.sameContext hresp

theorem processParts_sameContext {ps : List (Fin 16)} {sampleRate bpm : Number} {y : State × Bool}
    (h : processParts sampleRate bpm s ps = .ok y) : SameContext s y.1 := by
  induction ps generalizing s y with
  | nil => cases h; exact SameContext.refl s
  | cons p ps ih =>
    unfold processParts at h
    split at h
    · cases h
    next x hx =>
      cases hrest : processParts sampleRate bpm x.1 ps with
      | error r => rw [hrest] at h; cases h
      | ok z => rw [hrest] at h; cases h; exact (processPart_sameContext hx).trans (ih (y := z) hrest)

theorem execEngProcess_sameContext {sampleRate bpm : Number} (h : execEngProcess sampleRate bpm s = .next t) :
    SameContext s t := by
  unfold execEngProcess at h
  split at h
  · cases h
  next hx => cases h; exact (processParts_sameContext hx).trans (State.respond_sameContext _ _ _)

/-! ### Events of the Engine: the Samples of the Part stay -/

theorem execEngNoteOn_sameContext {part : Nat} {note vel : Fin 128} (h : execEngNoteOn part note vel s = .next t) :
    SameContext s t := by
  unfold execEngNoteOn at h
  split at h
  · cases h; exact SameContext.refl s
  split at h
  · cases h
  · cases h; exact (s.setVoices_sameContext _ _).trans (State.withDraws_sameContext _ _)

theorem execEngNoteOff_sameContext {part : Nat} {note vel : Fin 128} (h : execEngNoteOff part note vel s = .next t) :
    SameContext s t := by
  unfold execEngNoteOff at h
  split at h
  · cases h; exact SameContext.refl s
  · cases h; exact s.setVoices_sameContext _ _

theorem execEngPitchbend_sameContext {part : Nat} {value : Number} (h : execEngPitchbend part value s = .next t) :
    SameContext s t := by
  unfold execEngPitchbend at h
  split at h
  · cases h
  split at h
  · cases h; exact SameContext.refl s
  · cases h; exact s.setPart_sameContext _ _ rfl

theorem execEngCc_sameContext {part : Nat} {cc : Fin 256} {value : Number} (h : execEngCc part cc value s = .next t) :
    SameContext s t := by
  unfold execEngCc at h
  split at h
  · cases h
  split at h
  · cases h; exact SameContext.refl s
  · cases h; exact s.setPart_sameContext _ _ rfl

/-! ### Every command, every step -/

theorem exec_sameContext {i : Instr} (h : exec i s = .next t) : SameContext s t := by
  cases i with
  | noteOn => exact State.onEnv_sameContext ((outcome_next _ _).mp h)
  | noteOff => exact State.onEnv_sameContext ((outcome_next _ _).mp h)
  | step => exact State.onEnv_sameContext ((outcome_next _ _).mp h)
  | hasEnded => exact State.readEnv_sameContext ((outcome_next _ _).mp h)
  | wr => exact State.onEnv_sameContext ((outcome_next _ _).mp h)
  | rd => exact State.readEnv_sameContext ((outcome_next _ _).mp h)
  | lfoNoteOn => exact State.onLfo_sameContext ((outcome_next _ _).mp h)
  | lfoStep => exact State.onLfo_sameContext ((outcome_next _ _).mp h)
  | lfoWr => exact State.onLfo_sameContext ((outcome_next _ _).mp h)
  | lfoRd => exact State.readLfo_sameContext ((outcome_next _ _).mp h)
  | lfoWrStep => exact execLfoWrStep_sameContext h
  | lfoRdStep => exact execLfoRdStep_sameContext h
  | fltWr => exact State.onFlt_sameContext ((outcome_next _ _).mp h)
  | fltRd => exact execFltRd_sameContext h
  | fltUpdate => exact State.onFlt_sameContext ((outcome_next _ _).mp h)
  | fltRun => exact State.onFltBuf_sameContext ((outcome_next _ _).mp h)
  | mtxWr => exact State.onMtx_sameContext ((outcome_next _ _).mp h)
  | mtxRd => exact execMtxRd_sameContext h
  | mtxEval => exact State.onMtx_sameContext ((outcome_next _ _).mp h)
  | voiceNoteOn => exact execVoiceNoteOn_sameContext h
  | voiceNoteOff => exact execVoiceNoteOff_sameContext h
  | voiceRd => exact execVoiceRd_sameContext h
  | voiceRender => exact execVoiceRender_sameContext h
  | engNoteOn => exact execEngNoteOn_sameContext h
  | engNoteOff part note vel => exact execEngNoteOff_sameContext (vel := vel) h
  | engPitchbend => exact execEngPitchbend_sameContext h
  | engCc => exact execEngCc_sameContext h
  | engProcess => exact execEngProcess_sameContext h

/-- A step takes a command off the port and executes it, or waits. -/
theorem step_sameContext (h : step s = .next t) : SameContext s t := by
  unfold step at h
  split at h
  · exact (s.withCmd_sameContext _).trans (exec_sameContext h)
  · cases h; exact SameContext.refl s
  · cases h

end

/-- Settles O16: every shared operation keeps the context, so every command does (`exec_sameContext`), so every step does. -/
theorem stepKeepsContext : Obligations.StepKeepsContext := by
  intro s t h
  obtain ⟨hsel, hpolicy, hsample, hbus, hresp⟩ := step_sameContext h
  exact ⟨hsel, hpolicy, hsample, hbus, hresp⟩

end Sys2Proof.Machine
end

section
/-! PROOF of O13 and O15, the part they share: what a command can do to the Voices, the LFOs and the Parts' stores, said once as a
chain of updates (`Evolves`). Each invariant follows by induction over that chain. -/

namespace Sys2Proof.Machine

/-! ### The ranges of one LFO and of one Voice (R34, R43) -/

/-- The ranges of R34 for one LFO. -/
structure Lfo.InRange (l : Lfo) : Prop where
  startPhase : 0 ≤ l.startPhase ∧ l.startPhase < 1
  randHold : -1 ≤ l.randHold ∧ l.randHold < 1

/-- The ranges of R34 and R43 for one Voice. -/
structure Voice.InRange (v : Voice) : Prop where
  rnd : -1 ≤ v.rnd ∧ v.rnd < 1
  lfos : ∀ j : Fin 3, v.lfos[j].InRange

/-- `LFO.NOTE_ON` establishes the ranges: what it does not draw it clears (R172, R186). -/
theorem Lfo.noteOn_inRange (l : Lfo) (k : Nat) : (l.noteOn k).1.InRange := by
  obtain ⟨ph, hold, heq, hdrawn, hzero, hhold⟩ := l.noteOn_spec k
  rw [heq]
  refine ⟨?_, hhold⟩
  cases hr : l.randphaseEn with
  | true => exact hdrawn hr
  | false =>
    show 0 ≤ ph ∧ ph < 1
    rw [hzero hr]
    norm_num

theorem Lfo.step_inRange {l : Lfo} {e bpm : Number} {k : Nat} {y : Lfo × Nat} (h : l.step e bpm k = .ok y)
    (hl : l.InRange) : y.1.InRange := by
  obtain ⟨-, rfl⟩ := (l.step_ok e bpm k y).mp h
  obtain ⟨t, period, hold, value, heq, hhold⟩ := l.advance_spec e bpm k
  rw [heq]
  refine ⟨hl.startPhase, ?_⟩
  rcases hhold with rfl | hdrawn
  · exact hl.randHold
  · exact hdrawn

/-- A configuration write leaves the runtime registers (R190). -/
theorem Lfo.write_inRange {l : Lfo} (w : LfoWrite) (hl : l.InRange) : (l.write w).InRange := by
  cases w <;> exact ⟨hl.startPhase, hl.randHold⟩

theorem Lfo.writeStep_inRange {l : Lfo} (k : Nat) (v : Number) (hl : l.InRange) : (l.writeStep k v).InRange :=
  ⟨hl.startPhase, hl.randHold⟩

theorem Voice.construct_inRange (p : Fin 16) (k : Nat) (smp : Sample) (note vel : Fin 128) (d : Nat) :
    (Voice.construct p k smp note vel d).1.InRange := by
  obtain ⟨-, -, -, -, hlfos, -, -, -, hrnd, -⟩ := Voice.construct_spec p k smp note vel d
  refine ⟨hrnd, fun j => ?_⟩
  obtain ⟨i, hi⟩ := hlfos j
  rw [hi]
  exact Lfo.noteOn_inRange _ i

/-- Every block keeps the ranges of the Voice's LFOs (R288). -/
theorem preserved_lfosInRange (part : Part) (sampleRate bpm : Number) :
    Preserved part sampleRate bpm fun x => ∀ j : Fin 3, x.voice.lfos[j].InRange := by
  refine ⟨fun x o h => h, fun x h => h, fun x h => h, fun x y h hy j => ?_⟩
  obtain ⟨-, -, hlfos, -, -⟩ := modUpdate_ok hy
  obtain ⟨i, z, hz, hj⟩ := stepLfos_ok hlfos j
  rw [hj]
  exact Lfo.step_inRange hz (h j)

/-! ### A Voice that plays on -/

/-- What a note map says of a Voice: its references and its note (R43, R46). -/
def Voice.refs (v : Voice) := (v.part, v.sample, v.note)

/-- `v'` is `v` later on: the same references, note and random value, and LFOs in range if they were. -/
structure Voice.Continues (v v' : Voice) : Prop where
  refs : v'.refs = v.refs
  rnd : v'.rnd = v.rnd
  lfos : (∀ j : Fin 3, v.lfos[j].InRange) → ∀ j : Fin 3, v'.lfos[j].InRange

theorem Voice.Continues.refl (v : Voice) : v.Continues v := ⟨rfl, rfl, id⟩

theorem Voice.Continues.inRange {v v' : Voice} (h : v.Continues v') (hv : v.InRange) : v'.InRange :=
  ⟨h.rnd ▸ hv.rnd, h.lfos hv.lfos⟩

theorem Voice.noteOff_continues (v : Voice) : v.Continues v.noteOff := ⟨rfl, rfl, id⟩

theorem renderVoice_continues {s : State} {v : Voice} {k n : Nat} {sampleRate bpm : Number} {x : Rendered}
    (h : renderVoice s v k n sampleRate bpm = .ok x) : v.Continues x.voice := by
  have hid := renderVoice_identity h
  simp only [Voice.identity, Prod.mk.injEq] at hid
  obtain ⟨hpart, hsample, -, hrnd, hnote, -⟩ := hid
  refine ⟨by simp only [Voice.refs, hpart, hsample, hnote], hrnd, fun hv => ?_⟩
  obtain ⟨smp, bus, b, fin, -, -, -, hblock, hfinish, rfl⟩ := renderVoice_ok h
  obtain ⟨-, -, hsamples⟩ := renderBlock_ok hblock
  obtain ⟨hlen, -, -⟩ := renderSamples_length n hsamples
  obtain ⟨⟨f, buf, hvoice, -, -⟩, -, -⟩ := finishBlock_ok hfinish hlen
  have hlfos := renderSamples_preserves (preserved_lfosInRange s.parts[v.part] sampleRate bpm) n hsamples hv
  simp only [hvoice]
  exact hlfos

/-- The list holds some of the Voices of `vs`, in order, each playing on. -/
abbrev ContinueIn (vs' vs : List Voice) : Prop := List.SublistForall₂ (fun v' v => v.Continues v') vs' vs

theorem ContinueIn.refs_sublist {vs' vs : List Voice} (h : ContinueIn vs' vs) :
    (vs'.map Voice.refs).Sublist (vs.map Voice.refs) := by
  induction h with
  | nil => exact List.nil_sublist _
  | cons hv _ ih => rw [List.map_cons, List.map_cons, hv.refs]; exact ih.cons_cons _
  | cons_right _ ih => exact ih.trans (List.sublist_cons_self _ _)

theorem ContinueIn.inRange {vs' vs : List Voice} (h : ContinueIn vs' vs) (hvs : ∀ v ∈ vs, v.InRange) :
    ∀ v ∈ vs', v.InRange := by
  induction h with
  | nil => exact fun v hv => absurd hv List.not_mem_nil
  | cons hv _ ih =>
    rw [List.forall_mem_cons] at hvs ⊢
    exact ⟨hv.inRange hvs.1, ih hvs.2⟩
  | cons_right _ ih => exact ih (List.forall_mem_cons.mp hvs).2

/-- A note-off releases some Voices and removes none (R324). -/
theorem releaseNote_continueIn (note : Fin 128) (vs : List Voice) : ContinueIn (releaseNote note vs) vs := by
  induction vs with
  | nil => exact .nil
  | cons v vs ih =>
    refine .cons ?_ ih
    dsimp only
    split
    · exact v.noteOff_continues
    · exact Voice.Continues.refl v

/-! ### Updates that leave the LFOs, the Voices' plain registers and the Parts' stores -/

/-- From `s` to `t` the plain registers of Voices and the plain fields of Samples are the same. -/
structure SameVoices (s t : State) : Prop where
  voice : ∀ l, (t.voiceAt l).map Voice.plain = (s.voiceAt l).map Voice.plain
  sample : ∀ p k, (t.sampleAt p k).map Sample.plain = (s.sampleAt p k).map Sample.plain

/-- From `s` to `t` the LFOs and the Parts' stores are the same too. -/
structure Quiet (s t : State) : Prop extends SameVoices s t where
  lfo : ∀ l, t.lfoAt l = s.lfoAt l
  pitchbend : ∀ p : Fin 16, t.parts[p].pitchbend = s.parts[p].pitchbend
  controller : ∀ (p : Fin 16) k,
    Memory.read controllerDefault t.parts[p].controllers k = Memory.read controllerDefault s.parts[p].controllers k

/-- A frame whose footprint names no Voice. -/
theorem SameBut.sameVoices {s t : State} {fp : Footprint} (h : SameBut s t fp)
    (hv : ∀ l, ¬ fp.voice l := by exact fun _ => id) : SameVoices s t :=
  ⟨fun l => h.voice l (hv l), h.sample⟩

/-- A frame whose footprint names no LFO, no Voice and no store of a Part. -/
theorem SameBut.quiet {s t : State} {fp : Footprint} (h : SameBut s t fp) (hl : ∀ l, ¬ fp.lfo l := by exact fun _ => id)
    (hv : ∀ l, ¬ fp.voice l := by exact fun _ => id) (hp : ∀ p, ¬ fp.pitchbend p := by exact fun _ => id)
    (hc : ∀ p k, ¬ fp.controller p k := by exact fun _ _ => id) : Quiet s t :=
  ⟨h.sameVoices hv, fun l => h.lfo l (hl l), fun p => h.pitchbend p (hp p), fun p k => h.controller p k (hc p k)⟩

/-- An LFO reads the same where the lone one, the Samples and the Voices are the same. -/
theorem State.lfoAt_congr {s t : State} (hlfo : t.lfo = s.lfo) (hsample : ∀ p k, t.sampleAt p k = s.sampleAt p k)
    (hvoice : ∀ l, t.voiceAt l = s.voiceAt l) (l : LfoLoc) : t.lfoAt l = s.lfoAt l := by
  cases l <;> simp only [State.lfoAt, hlfo, hsample, hvoice]

/-- The ports, the draw counter and the other fields of the context do not matter. -/
theorem Quiet.of_eq {s t : State} (hlfo : t.lfo = s.lfo) (hvoice : t.voice = s.voice) (hparts : t.parts = s.parts) :
    Quiet s t := by
  have hsample : ∀ p k, t.sampleAt p k = s.sampleAt p k := fun p k => by simp only [State.sampleAt, hparts]
  have hvoiceAt : ∀ l, t.voiceAt l = s.voiceAt l := fun l => by cases l <;> simp only [State.voiceAt, hvoice, hparts]
  exact ⟨⟨fun l => by rw [hvoiceAt], fun p k => by rw [hsample]⟩, State.lfoAt_congr hlfo hsample hvoiceAt,
    fun p => by rw [hparts], fun p k => by rw [hparts]⟩

theorem State.withCmd_quiet (s : State) (ws : List Word) : Quiet s { s with cmd := ws } := .of_eq rfl rfl rfl

/-- A Part whose Samples are kept leaves every Sample of the machine. -/
theorem State.setPart_sampleAt_same (s : State) (p : Fin 16) {x : Part} (h : x.samples = s.parts[p].samples) (q : Fin 16)
    (k : Nat) : (s.setPart p x).sampleAt q k = s.sampleAt q k := by
  rw [State.setPart_sampleAt]
  split
  next hq => rw [hq, h]; rfl
  · rfl

/-- A Part whose Voices are kept leaves every Voice of the machine. -/
theorem State.setPart_voiceAt_same (s : State) (p : Fin 16) {x : Part} (h : x.voices = s.parts[p].voices) (l : VoiceLoc) :
    (s.setPart p x).voiceAt l = s.voiceAt l := by
  cases l with
  | lone => rfl
  | mapped q i =>
    rw [State.setPart_voiceAt]
    split
    next hq => rw [hq, h]; rfl
    · rfl

theorem State.setPart_sameVoices (s : State) (p : Fin 16) {x : Part} (hs : x.samples = s.parts[p].samples)
    (hv : x.voices = s.parts[p].voices) : SameVoices s (s.setPart p x) :=
  ⟨fun l => by rw [s.setPart_voiceAt_same p hv], fun q k => by rw [s.setPart_sampleAt_same p hs]⟩

theorem SameVoices.sample_isSome {s t : State} (h : SameVoices s t) (p : Fin 16) (k : Nat) :
    (t.sampleAt p k).isSome = (s.sampleAt p k).isSome := by
  simpa only [Option.isSome_map] using congrArg Option.isSome (h.sample p k)

/-- What the plain registers determine of a Voice is the same. -/
theorem SameVoices.voiceAt_map {s t : State} {α : Type} {f : Voice → α} (h : SameVoices s t)
    (hf : ∀ v w : Voice, v.plain = w.plain → f v = f w) (l : VoiceLoc) : (t.voiceAt l).map f = (s.voiceAt l).map f := by
  have hplain := h.voice l
  cases hs : s.voiceAt l with
  | none => rw [hs] at hplain; rw [Option.map_eq_none_iff.mp hplain]
  | some v =>
    rw [hs] at hplain
    obtain ⟨w, hw, hwv⟩ := Option.map_eq_some_iff.mp hplain
    rw [hw, Option.map_some, Option.map_some, hf w v hwv]

theorem Voice.refs_of_plain {v w : Voice} (h : v.plain = w.plain) : v.refs = w.refs := by
  simp only [Voice.plain, Prod.mk.injEq] at h
  simp only [Voice.refs, h]

theorem Voice.rnd_of_plain {v w : Voice} (h : v.plain = w.plain) : v.rnd = w.rnd := by
  simp only [Voice.plain, Prod.mk.injEq] at h
  simp only [h]

/-! ### The updates of a command, in a chain -/

/-- The Voices a note-on starts: each constructed under the note on a Sample of the Part (R321, R271). -/
def Fresh (s : State) (p : Fin 16) (note vel : Fin 128) (v : Voice) : Prop :=
  ∃ k smp d, s.sampleAt p k = some smp ∧ v = (Voice.construct p k smp note vel d).1

/-- From `s` a command can come to a state in a chain of these updates. A controller is written in the state the command starts
from. -/
inductive Evolves (s : State) : State → Prop
  | refl : Evolves s s
  | controller (p : Fin 16) (k : Nat) (v : Number) (h0 : 0 ≤ v) (h1 : v ≤ 1) :
      Evolves s (s.setPart p { s.parts[p] with controllers := Memory.write controllerDefault s.parts[p].controllers k v })
  | pitchbend {t : State} (p : Fin 16) (v : Number) (ht : Evolves s t) (h0 : -1 ≤ v) (h1 : v ≤ 1) :
      Evolves s (t.setPart p { t.parts[p] with pitchbend := v })
  | quiet {t u : State} (ht : Evolves s t) (h : Quiet t u) : Evolves s u
  | lfo {t : State} (l : LfoLoc) (x x' : Lfo) (ht : Evolves s t) (h : t.lfoAt l = some x) (hx : x.InRange → x'.InRange) :
      Evolves s (t.setLfo l x')
  | voice {t : State} (l : VoiceLoc) (v v' : Voice) (ht : Evolves s t) (h : t.voiceAt l = some v) (hv : v.Continues v') :
      Evolves s (t.setVoice l v')
  | voices {t : State} (p : Fin 16) (vs : List Voice) (ht : Evolves s t) (h : ContinueIn vs t.parts[p].voices) :
      Evolves s (t.setVoices p vs)
  | loneVoice {t : State} (p : Fin 16) (note vel : Fin 128) (v : Voice) (ht : Evolves s t) (h : Fresh t p note vel v) :
      Evolves s { t with voice := some v }
  | noteOn {t : State} (p : Fin 16) (note vel : Fin 128) (vs : List Voice) (ht : Evolves s t)
      (h : ∀ v ∈ vs, Fresh t p note vel v) : Evolves s (t.setVoices p (vs.foldl register t.parts[p].voices))

section

variable {s t u : State}

theorem Evolves.of_quiet (h : Quiet s t) : Evolves s t := Evolves.refl.quiet h

theorem Evolves.withDraws (h : Evolves s t) (k : Nat) : Evolves s { t with draws := k } := h.quiet (.of_eq rfl rfl rfl)

theorem Evolves.emit (h : Evolves s t) (c : UnitCode) (w : Word) : Evolves s (t.emit c w) := h.quiet (.of_eq rfl rfl rfl)

theorem Evolves.respond (h : Evolves s t) (c : UnitCode) (rd : Reading) : Evolves s (t.respond c rd) := h.emit c (readingWord rd)

/-! ### Commands to the selected ENV, LFO, Filter or ModMatrix -/

theorem State.onEnv_evolves {f : Env → Except Refusal Env} (h : s.onEnv f = .ok t) : Evolves s t := by
  obtain ⟨e, e', he, -, rfl⟩ := (s.onEnv_ok t f).mp h
  exact .of_quiet ((s.setEnv_sameBut _ e e' he).1.quiet)

theorem State.readEnv_evolves {f : Env → Reading} (h : s.readEnv f = .ok t) : Evolves s t := by
  obtain ⟨e, -, rfl⟩ := (s.readEnv_ok t f).mp h
  exact Evolves.refl.respond _ _

theorem State.onLfo_evolves {f : Lfo → Nat → Except Refusal (Lfo × Nat)}
    (hf : ∀ l k y, f l k = .ok y → l.InRange → y.1.InRange) (h : s.onLfo f = .ok t) : Evolves s t := by
  obtain ⟨l, y, hl, hy, rfl⟩ := (s.onLfo_ok t f).mp h
  exact (Evolves.refl.lfo _ l y.1 hl (hf l _ y hy)).withDraws y.2

theorem State.readLfo_evolves {f : Lfo → Reading} (h : s.readLfo f = .ok t) : Evolves s t := by
  obtain ⟨l, -, rfl⟩ := (s.readLfo_ok t f).mp h
  exact Evolves.refl.respond _ _

theorem State.onFlt_evolves {f : Flt → Except Refusal Flt} (h : s.onFlt f = .ok t) : Evolves s t := by
  obtain ⟨x, y, hx, -, rfl⟩ := (s.onFlt_ok t f).mp h
  exact .of_quiet ((s.setFlt_sameBut _ x y hx).1.quiet)

theorem State.onFltBuf_evolves {f : Flt → Scratch → Except Refusal (Flt × Scratch)} (h : s.onFltBuf f = .ok t) :
    Evolves s t := by
  obtain ⟨x, b, y, hx, hb, -, rfl⟩ := (s.onFltBuf_ok t f).mp h
  have hflt := (s.setFlt_sameBut _ x y.1 hx).1
  have hbuf : (s.setFlt s.sel.flt y.1).bufAt s.sel.flt.buffer = some b := (hflt.scratch _ id).trans hb
  exact (Evolves.of_quiet hflt.quiet).quiet
    ((State.setBuf_sameBut _ _ b y.2 hbuf).1.quiet)

theorem State.onMtx_evolves {f : Mtx → Mtx} (h : s.onMtx f = .ok t) : Evolves s t := by
  obtain ⟨m, hm, rfl⟩ := (s.onMtx_ok t f).mp h
  exact .of_quiet ((s.setMtx_sameBut _ m (f m) hm).1.quiet)

theorem execLfoWrStep_evolves {i : Fin 256} {v : Number} (h : execLfoWrStep i v s = .next t) : Evolves s t := by
  unfold execLfoWrStep at h
  split at h
  · refine State.onLfo_evolves (fun l k y hy hl => ?_) ((outcome_next _ _).mp h)
    cases hy
    exact Lfo.writeStep_inRange i.val v hl
  · cases h

theorem execLfoRdStep_evolves {i : Fin 256} (h : execLfoRdStep i s = .next t) : Evolves s t := by
  unfold execLfoRdStep at h
  split at h
  · exact State.readLfo_evolves ((outcome_next _ _).mp h)
  · cases h

theorem execFltRd_evolves {reg : FltReg} (h : execFltRd reg s = .next t) : Evolves s t := by
  unfold execFltRd at h
  split at h
  · cases h
  · cases h; exact Evolves.refl.respond _ _

theorem execMtxRd_evolves {reg : MtxReg} (h : execMtxRd reg s = .next t) : Evolves s t := by
  unfold execMtxRd at h
  split at h
  · cases h
  split at h
  · cases h; exact Evolves.refl.respond _ _
  · cases h; exact (Evolves.refl.emit _ _).withDraws _

/-! ### Commands to the selected Voice -/

theorem execVoiceNoteOn_evolves {note vel : Fin 128} (h : execVoiceNoteOn note vel s = .next t) : Evolves s t := by
  unfold execVoiceNoteOn at h
  split at h
  · cases h
  split at h
  · cases h
  next smp hsmp =>
    split at h
    · cases h
    next v hv =>
      cases h
      obtain ⟨-, rfl⟩ := (newVoice_ok _ _ _ _ _ _ _).mp hv
      exact (Evolves.refl.loneVoice _ note vel _ ⟨_, smp, _, hsmp, rfl⟩).withDraws _

theorem execVoiceNoteOff_evolves (h : execVoiceNoteOff s = .next t) : Evolves s t := by
  unfold execVoiceNoteOff at h
  split at h
  · cases h
  next v hv => cases h; exact Evolves.refl.voice _ v _ hv v.noteOff_continues

theorem execVoiceRd_evolves {reg : VoiceReg} (h : execVoiceRd reg s = .next t) : Evolves s t := by
  unfold execVoiceRd at h
  split at h
  · cases h
  · cases h; exact Evolves.refl.respond _ _

/-- A render leaves every list of Voices to its caller, who replaces the Voice (R290). -/
theorem renderVoice_quiet {v : Voice} {k n : Nat} {sampleRate bpm : Number} {x : Rendered}
    (h : renderVoice s v k n sampleRate bpm = .ok x) : Quiet s x.state :=
  (renderVoice_frame h).quiet

theorem renderVoice_voiceAt {v : Voice} {k n : Nat} {sampleRate bpm : Number} {x : Rendered}
    (h : renderVoice s v k n sampleRate bpm = .ok x) (l : VoiceLoc) : x.state.voiceAt l = s.voiceAt l := by
  have hstill := renderVoice_still h
  cases l with
  | lone => exact hstill.lone
  | mapped p i => simp only [State.voiceAt, hstill.voices]

theorem execVoiceRender_evolves {n : Nat} {sampleRate bpm : Number} (h : execVoiceRender n sampleRate bpm s = .next t) :
    Evolves s t := by
  unfold execVoiceRender at h
  split at h
  · cases h
  next v hv =>
    split at h
    · cases h
    next x hx =>
      cases h
      have hrendered := Evolves.of_quiet (renderVoice_quiet hx)
      exact (hrendered.voice _ v _ ((renderVoice_voiceAt hx _).trans hv) (renderVoice_continues hx)).respond _ _

/-! ### Events of the Engine (R320 to R327) -/

theorem newVoices_fresh {p : Fin 16} {note vel : Fin 128} {pol : Policy} {d : Nat} {y : List Voice × Nat}
    (h : newVoices p note vel (startingSamples s.parts[p] pol p note vel) d = .ok y) : ∀ v ∈ y.1, Fresh s p note vel v := by
  intro v hv
  obtain ⟨i, hi, rfl⟩ := List.mem_iff_getElem.mp hv
  have hall := newVoices_ok h
  have hi' := hall.length_eq ▸ hi
  obtain ⟨-, d', hd'⟩ := hall.get hi' hi
  obtain ⟨hsmp, -, -⟩ := mem_startingSamples.mp (List.getElem_mem hi')
  exact ⟨_, _, d', hsmp, hd'⟩

theorem execEngNoteOn_evolves {part : Nat} {note vel : Fin 128} (h : execEngNoteOn part note vel s = .next t) :
    Evolves s t := by
  unfold execEngNoteOn at h
  split at h
  · cases h; exact .refl
  split at h
  · cases h
  next vs hvs => cases h; exact (Evolves.refl.noteOn _ note vel vs.1 (newVoices_fresh hvs)).withDraws _

theorem execEngNoteOff_evolves {part : Nat} {note vel : Fin 128} (h : execEngNoteOff part note vel s = .next t) :
    Evolves s t := by
  unfold execEngNoteOff at h
  split at h
  · cases h; exact .refl
  · cases h; exact Evolves.refl.voices _ _ (releaseNote_continueIn note _)

theorem execEngPitchbend_evolves {part : Nat} {value : Number} (h : execEngPitchbend part value s = .next t) :
    Evolves s t := by
  unfold execEngPitchbend at h
  split at h
  · cases h
  next hvalue =>
    obtain ⟨h0, h1⟩ := not_or.mp hvalue
    split at h
    · cases h; exact .refl
    · cases h; exact Evolves.refl.pitchbend _ value (not_lt.mp h0) (not_lt.mp h1)

theorem execEngCc_evolves {part : Nat} {cc : Fin 256} {value : Number} (h : execEngCc part cc value s = .next t) :
    Evolves s t := by
  unfold execEngCc at h
  split at h
  · cases h
  next hvalue =>
    obtain ⟨h0, h1⟩ := not_or.mp hvalue
    split at h
    · cases h; exact .refl
    · cases h; exact .controller _ cc.val value (not_lt.mp h0) (not_lt.mp h1)

/-! ### The rendering pass (R330 to R333) -/

theorem processVoice_continues {v w : Voice} {sampleRate bpm : Number} {y : Turn}
    (h : processVoice s v sampleRate bpm = .ok y) (hw : y.left = some w) : v.Continues w := by
  obtain ⟨smp, -, ⟨rfl, -⟩ | ⟨bus, x, -, -, hx, rfl⟩⟩ := processVoice_ok h
  · cases hw
  · simp only at hw
    split at hw
    · cases hw
    · cases hw; exact renderVoice_continues hx

theorem processVoices_continueIn {vs : List Voice} {sampleRate bpm : Number} {x : Pass}
    (h : processVoices sampleRate bpm s vs = .ok x) : ContinueIn x.voices vs := by
  induction vs generalizing s x with
  | nil => cases h; exact .nil
  | cons v vs ih =>
    unfold processVoices at h
    split at h
    · cases h
    next y hy =>
      cases hrest : processVoices sampleRate bpm y.state vs with
      | error r => rw [hrest] at h; cases h
      | ok z =>
        rw [hrest] at h
        cases h
        cases hleft : y.left with
        | none => exact .cons_right (ih (x := z) hrest)
        | some w => exact .cons (processVoice_continues hy hleft) (ih (x := z) hrest)

theorem Evolves.processPart {p : Fin 16} {sampleRate bpm : Number} {y : State × Bool} (ht : Evolves s t)
    (h : processPart sampleRate bpm t p = .ok y) : Evolves s y.1 := by
  unfold Machine.processPart at h
  split at h
  · cases h
  next x hx =>
    cases h
    obtain ⟨hstill, hframe, -, -⟩ := processVoices_frame hx
    have hpass := ht.quiet hframe.quiet
    exact hpass.voices p x.voices (hstill.voices p ▸ processVoices_continueIn hx)

theorem Evolves.processParts {ps : List (Fin 16)} {sampleRate bpm : Number} {y : State × Bool} (ht : Evolves s t)
    (h : processParts sampleRate bpm t ps = .ok y) : Evolves s y.1 := by
  induction ps generalizing t y with
  | nil => cases h; exact ht
  | cons p ps ih =>
    unfold Machine.processParts at h
    split at h
    · cases h
    next x hx =>
      cases hrest : Machine.processParts sampleRate bpm x.1 ps with
      | error r => rw [hrest] at h; cases h
      | ok z => rw [hrest] at h; cases h; exact ih (y := z) (ht.processPart hx) hrest

theorem execEngProcess_evolves {sampleRate bpm : Number} (h : execEngProcess sampleRate bpm s = .next t) : Evolves s t := by
  unfold execEngProcess at h
  split at h
  · cases h
  next hx => cases h; exact (Evolves.refl.processParts hx).respond _ _

/-! ### Every command, every step -/

theorem exec_evolves {i : Instr} (h : exec i s = .next t) : Evolves s t := by
  cases i with
  | noteOn => exact State.onEnv_evolves ((outcome_next _ _).mp h)
  | noteOff => exact State.onEnv_evolves ((outcome_next _ _).mp h)
  | step => exact State.onEnv_evolves ((outcome_next _ _).mp h)
  | hasEnded => exact State.readEnv_evolves ((outcome_next _ _).mp h)
  | wr => exact State.onEnv_evolves ((outcome_next _ _).mp h)
  | rd => exact State.readEnv_evolves ((outcome_next _ _).mp h)
  | lfoNoteOn =>
    refine State.onLfo_evolves (fun l k y hy _ => ?_) ((outcome_next _ _).mp h)
    cases hy
    exact l.noteOn_inRange k
  | lfoStep => exact State.onLfo_evolves (fun _ _ _ hy hl => Lfo.step_inRange hy hl) ((outcome_next _ _).mp h)
  | lfoWr w =>
    refine State.onLfo_evolves (fun l k y hy hl => ?_) ((outcome_next _ _).mp h)
    cases hy
    exact Lfo.write_inRange w hl
  | lfoRd => exact State.readLfo_evolves ((outcome_next _ _).mp h)
  | lfoWrStep => exact execLfoWrStep_evolves h
  | lfoRdStep => exact execLfoRdStep_evolves h
  | fltWr => exact State.onFlt_evolves ((outcome_next _ _).mp h)
  | fltRd => exact execFltRd_evolves h
  | fltUpdate => exact State.onFlt_evolves ((outcome_next _ _).mp h)
  | fltRun => exact State.onFltBuf_evolves ((outcome_next _ _).mp h)
  | mtxWr => exact State.onMtx_evolves ((outcome_next _ _).mp h)
  | mtxRd => exact execMtxRd_evolves h
  | mtxEval => exact State.onMtx_evolves ((outcome_next _ _).mp h)
  | voiceNoteOn => exact execVoiceNoteOn_evolves h
  | voiceNoteOff => exact execVoiceNoteOff_evolves h
  | voiceRd => exact execVoiceRd_evolves h
  | voiceRender => exact execVoiceRender_evolves h
  | engNoteOn => exact execEngNoteOn_evolves h
  | engNoteOff part note vel => exact execEngNoteOff_evolves (vel := vel) h
  | engPitchbend => exact execEngPitchbend_evolves h
  | engCc => exact execEngCc_evolves h
  | engProcess => exact execEngProcess_evolves h

/-- A step evolves the state, once the words of its command are off the port. -/
theorem step_evolves (h : step s = .next t) : ∃ ws, Evolves { s with cmd := ws } t := by
  unfold step at h
  split at h
  next rest _ => exact ⟨rest, exec_evolves h⟩
  · cases h; exact ⟨s.cmd, .refl⟩
  · cases h

end

end Sys2Proof.Machine
end

section
/-! PROOF of O13: Voices refer to their own Part and to a Sample that exists, and the note map stays in note order (R43, R46, R331),
by induction over what a command can do. -/

namespace Sys2Proof.Machine

variable {s t : State}

/-! ### The rules hold of fewer Voices, and of the same Voices later on -/

/-- Whether a reference is valid depends on the references and on which Samples there are. -/
theorem State.refValid_congr {v w : Voice} (hsample : ∀ p k, (t.sampleAt p k).isSome = (s.sampleAt p k).isSome)
    (h : w.refs = v.refs) : s.RefValid w ↔ t.RefValid v := by
  simp only [Voice.refs, Prod.mk.injEq] at h
  obtain ⟨hpart, hsmp, -⟩ := h
  rw [State.RefValid, State.RefValid, hsample, hpart, hsmp]

/-- The rules speak of the Voices' references alone, and hold of any part of a note map. -/
theorem State.NoteMapValid.of_refs (h : s.NoteMapValid)
    (hsample : ∀ p k, (t.sampleAt p k).isSome = (s.sampleAt p k).isSome)
    (hlone : t.voice.map Voice.refs = s.voice.map Voice.refs)
    (hmapped : ∀ p : Fin 16, (t.parts[p].voices.map Voice.refs).Sublist (s.parts[p].voices.map Voice.refs)) :
    t.NoteMapValid where
  lone v hv := by
    rw [hv, Option.map_some] at hlone
    obtain ⟨w, hw, hwv⟩ := Option.map_eq_some_iff.mp hlone.symm
    exact (State.refValid_congr hsample hwv).mp (h.lone w hw)
  mapped p v hv := by
    obtain ⟨w, hw, hwv⟩ := List.mem_map.mp ((hmapped p).subset (List.mem_map_of_mem hv))
    obtain ⟨hown, href⟩ := h.mapped p w hw
    exact ⟨(congrArg Prod.fst hwv).symm.trans hown, (State.refValid_congr hsample hwv).mp href⟩
  ordered p := by
    have hs : (s.parts[p].voices.map Voice.refs).Pairwise fun a b => a.2.2 ≤ b.2.2 := List.pairwise_map.mpr (h.ordered p)
    have ht := List.pairwise_map.mp (hs.sublist (hmapped p))
    exact ht

/-- An update that keeps the references of every Voice keeps the rules. -/
theorem State.NoteMapValid.of_voiceAt (h : s.NoteMapValid)
    (hsample : ∀ p k, (t.sampleAt p k).isSome = (s.sampleAt p k).isSome)
    (hvoice : ∀ l, (t.voiceAt l).map Voice.refs = (s.voiceAt l).map Voice.refs) : t.NoteMapValid := by
  refine h.of_refs hsample (hvoice .lone) fun p => ?_
  have hp : t.parts[p].voices.map Voice.refs = s.parts[p].voices.map Voice.refs := by
    apply List.ext_getElem?
    intro i
    rw [List.getElem?_map, List.getElem?_map]
    exact hvoice (.mapped p i)
  exact hp ▸ List.Sublist.refl _

theorem State.NoteMapValid.sameVoices (h : s.NoteMapValid) (hst : SameVoices s t) : t.NoteMapValid :=
  h.of_voiceAt hst.sample_isSome (hst.voiceAt_map fun _ _ => Voice.refs_of_plain)

theorem State.NoteMapValid.setVoice {l : VoiceLoc} {v v' : Voice} (h : s.NoteMapValid) (hl : s.voiceAt l = some v)
    (hv : v.Continues v') : (s.setVoice l v').NoteMapValid := by
  refine h.of_voiceAt (fun p k => by rw [State.setVoice_sampleAt]) fun m => ?_
  rw [s.setVoice_voiceAt l m v' (by rw [hl]; rfl)]
  split
  next hm => rw [hm, hl, Option.map_some, Option.map_some, hv.refs]
  · rfl

/-- Voices taken out of a Part, the others playing on. -/
theorem State.NoteMapValid.setVoices {p : Fin 16} {vs : List Voice} (h : s.NoteMapValid)
    (hvs : ContinueIn vs s.parts[p].voices) : (s.setVoices p vs).NoteMapValid := by
  refine h.of_refs (fun q k => by rw [State.setVoices_sampleAt]) rfl fun q => ?_
  rw [State.setVoices_part]
  dsimp only
  split
  next hq => rw [hq]; exact hvs.refs_sublist
  · exact List.Sublist.refl _

/-! ### A new Voice meets them -/

/-- A Voice is constructed on the Part, on a Sample that is there, and under the note. -/
theorem Fresh.refs {p : Fin 16} {note vel : Fin 128} {v : Voice} (h : Fresh s p note vel v) :
    v.part = p ∧ v.note = note ∧ s.RefValid v := by
  obtain ⟨k, smp, d, hsmp, rfl⟩ := h
  obtain ⟨hpart, hsample, -, -, -, -, -, -, -, -, -, -, -, hnote, -⟩ := Voice.construct_spec p k smp note vel d
  exact ⟨hpart, hnote, by rw [State.RefValid, hpart, hsample, hsmp]; rfl⟩

theorem State.NoteMapValid.loneVoice {p : Fin 16} {note vel : Fin 128} {v : Voice} (h : s.NoteMapValid)
    (hv : Fresh s p note vel v) : ({ s with voice := some v } : State).NoteMapValid where
  lone w hw := by
    obtain ⟨-, -, href⟩ := hv.refs
    cases hw
    exact href
  mapped := h.mapped
  ordered := h.ordered

/-- Registration keeps the note order (R331). -/
theorem State.NoteMapValid.noteOn {p : Fin 16} {note vel : Fin 128} {vs : List Voice} (h : s.NoteMapValid)
    (hvs : ∀ v ∈ vs, Fresh s p note vel v) : (s.setVoices p (vs.foldl register s.parts[p].voices)).NoteMapValid := by
  obtain ⟨hordered, -, -, hmem⟩ := foldl_register (h.ordered p) fun v hv => (hvs v hv).refs.2.1
  have hsample : ∀ v, (s.setVoices p (vs.foldl register s.parts[p].voices)).RefValid v ↔ s.RefValid v := fun v => by
    simp only [State.RefValid, State.setVoices_sampleAt]
  refine ⟨fun v hv => (hsample v).mpr (h.lone v hv), fun q v hv => ?_, fun q => ?_⟩
  · rw [hsample]
    rw [State.setVoices_part] at hv
    dsimp only at hv
    split at hv
    next hq =>
      subst hq
      rcases (hmem v).mp hv with hold | hnew
      · exact h.mapped q v hold
      · obtain ⟨hpart, -, href⟩ := (hvs v hnew).refs
        exact ⟨hpart, href⟩
    · exact h.mapped q v hv
  · rw [State.setVoices_part]
    dsimp only
    split
    · exact hordered
    · exact h.ordered q

/-! ### Every command, every step -/

theorem Evolves.noteMapValid (h : Evolves s t) (hs : s.NoteMapValid) : t.NoteMapValid := by
  induction h with
  | refl => exact hs
  | controller p => exact hs.sameVoices (s.setPart_sameVoices p rfl rfl)
  | pitchbend p _ _ _ _ ih => exact ih.sameVoices (State.setPart_sameVoices _ p rfl rfl)
  | quiet _ hq ih => exact ih.sameVoices hq.toSameVoices
  | lfo l x x' _ hx _ ih => exact ih.sameVoices ((State.setLfo_sameBut _ l x x' hx).1.sameVoices)
  | voice _ _ _ _ hl hv ih => exact ih.setVoice hl hv
  | voices _ _ _ hvs ih => exact ih.setVoices hvs
  | loneVoice _ _ _ _ _ hv ih => exact ih.loneVoice hv
  | noteOn _ _ _ _ _ hvs ih => exact ih.noteOn hvs

/-- Settles O13: a step is a chain of updates (`step_evolves`), and each of them keeps the rules of the note map. -/
theorem stepKeepsNoteMapValid : Obligations.StepKeepsNoteMapValid := by
  intro s t hs h
  obtain ⟨ws, hevolves⟩ := step_evolves h
  exact hevolves.noteMapValid (hs.sameVoices (s.withCmd_quiet ws).toSameVoices)

end Sys2Proof.Machine
end

section
/-! PROOF of O15: start phases, random values, pitchbends and controllers stay in range (R34, R43, R46), by induction over what a
command can do. -/

namespace Sys2Proof.Machine

variable {s t : State}

/-! ### The ranges, by LFO, Voice and Part -/

theorem State.ValuesInRange.lfoAt (h : s.ValuesInRange) {l : LfoLoc} {x : Lfo} (hx : s.lfoAt l = some x) : x.InRange :=
  ⟨h.startPhase l x hx, h.randHold l x hx⟩

theorem State.ValuesInRange.voiceAt (h : s.ValuesInRange) {l : VoiceLoc} {v : Voice} (hv : s.voiceAt l = some v) :
    v.InRange :=
  ⟨h.rnd l v hv, fun j => h.lfoAt (l := .voice l j) (by rw [State.lfoAt, hv]; rfl)⟩

theorem State.ValuesInRange.mapped (h : s.ValuesInRange) (p : Fin 16) : ∀ v ∈ s.parts[p].voices, v.InRange := by
  intro v hv
  obtain ⟨i, hi⟩ := List.mem_iff_getElem?.mp hv
  exact h.voiceAt (l := .mapped p i) hi

/-- Where the Voices keep their plain registers, the LFOs and the Parts' stores decide. -/
theorem State.ValuesInRange.of_sameVoices (h : s.ValuesInRange) (hst : SameVoices s t)
    (hlfo : ∀ l x, t.lfoAt l = some x → x.InRange)
    (hbend : ∀ p : Fin 16, -1 ≤ t.parts[p].pitchbend ∧ t.parts[p].pitchbend ≤ 1)
    (hctrl : ∀ (p : Fin 16) k, 0 ≤ Memory.read controllerDefault t.parts[p].controllers k ∧
      Memory.read controllerDefault t.parts[p].controllers k ≤ 1) : t.ValuesInRange where
  startPhase l x hx := (hlfo l x hx).startPhase
  randHold l x hx := (hlfo l x hx).randHold
  rnd l v hv := by
    have hrnd := hst.voiceAt_map (f := Voice.rnd) (fun _ _ => Voice.rnd_of_plain) l
    rw [hv, Option.map_some] at hrnd
    obtain ⟨w, hw, hwv⟩ := Option.map_eq_some_iff.mp hrnd.symm
    exact hwv ▸ h.rnd l w hw
  pitchbend := hbend
  controller := hctrl

/-- Where the lone LFO, the Samples and the Parts' stores stay, the Voices decide. -/
theorem State.ValuesInRange.of_voices (h : s.ValuesInRange) (hlone : t.lfo = s.lfo)
    (hsample : ∀ p k, t.sampleAt p k = s.sampleAt p k)
    (hstore : ∀ p : Fin 16, t.parts[p].pitchbend = s.parts[p].pitchbend ∧ t.parts[p].controllers = s.parts[p].controllers)
    (hvoice : ∀ l v, t.voiceAt l = some v → v.InRange) : t.ValuesInRange := by
  have hlfo : ∀ l x, t.lfoAt l = some x → x.InRange := by
    intro l x hx
    cases l with
    | lone => exact h.lfoAt (l := .lone) (by rw [← hx, State.lfoAt, State.lfoAt, hlone])
    | template p k j => exact h.lfoAt (l := .template p k j) (by rw [← hx, State.lfoAt, State.lfoAt, hsample])
    | voice l j =>
      obtain ⟨v, hv, rfl⟩ := Option.map_eq_some_iff.mp hx
      exact (hvoice l v hv).lfos j
  exact ⟨fun l x hx => (hlfo l x hx).startPhase, fun l x hx => (hlfo l x hx).randHold, fun l v hv => (hvoice l v hv).rnd,
    fun p => (hstore p).1 ▸ h.pitchbend p, fun p => (hstore p).2 ▸ h.controller p⟩

/-! ### Each update keeps them -/

theorem State.ValuesInRange.quiet (h : s.ValuesInRange) (hq : Quiet s t) : t.ValuesInRange :=
  h.of_sameVoices hq.toSameVoices (fun l _ hx => h.lfoAt (hq.lfo l ▸ hx)) (fun p => hq.pitchbend p ▸ h.pitchbend p)
    fun p k => hq.controller p k ▸ h.controller p k

/-- Other stores in a Part, in range. -/
theorem State.ValuesInRange.setPart (h : s.ValuesInRange) (p : Fin 16) {x : Part} (hs : x.samples = s.parts[p].samples)
    (hv : x.voices = s.parts[p].voices) (hbend : -1 ≤ x.pitchbend ∧ x.pitchbend ≤ 1)
    (hctrl : ∀ k, 0 ≤ Memory.read controllerDefault x.controllers k ∧ Memory.read controllerDefault x.controllers k ≤ 1) :
    (s.setPart p x).ValuesInRange := by
  have hlfo := State.lfoAt_congr (s.setPart_lfo p x) (s.setPart_sampleAt_same p hs) (s.setPart_voiceAt_same p hv)
  refine h.of_sameVoices (s.setPart_sameVoices p hs hv) (fun l y hy => h.lfoAt (hlfo l ▸ hy)) (fun q => ?_) fun q => ?_
  · rw [State.setPart_get]
    split
    · exact hbend
    · exact h.pitchbend q
  · rw [State.setPart_get]
    split
    · exact hctrl
    · exact h.controller q

/-- The controller written reads as the value written, because the store is canonical; every other as before (R327). -/
theorem State.ValuesInRange.setController (h : s.ValuesInRange) (hs : s.StoresCanonical) (p : Fin 16) (i : Nat) {v : Number}
    (h0 : 0 ≤ v) (h1 : v ≤ 1) :
    (s.setPart p
      { s.parts[p] with controllers := Memory.write controllerDefault s.parts[p].controllers i v }).ValuesInRange := by
  refine h.setPart p rfl rfl (h.pitchbend p) fun k => ?_
  by_cases hk : k = i
  · rw [hk, Memory.read_write_same (hs.controllers p)]
    exact ⟨h0, h1⟩
  · rw [Memory.read_write_other v hk]
    exact h.controller p k

theorem State.ValuesInRange.setPitchbend (h : s.ValuesInRange) (p : Fin 16) {v : Number} (h0 : -1 ≤ v) (h1 : v ≤ 1) :
    (s.setPart p { s.parts[p] with pitchbend := v }).ValuesInRange :=
  h.setPart p rfl rfl ⟨h0, h1⟩ (h.controller p)

theorem State.ValuesInRange.setLfo {l : LfoLoc} {x x' : Lfo} (h : s.ValuesInRange) (hx : s.lfoAt l = some x)
    (hx' : x.InRange → x'.InRange) : (s.setLfo l x').ValuesInRange := by
  obtain ⟨hframe, hset⟩ := s.setLfo_sameBut l x x' hx
  refine h.of_sameVoices (hframe.sameVoices) (fun m y hy => ?_) (fun p => hframe.pitchbend p id ▸ h.pitchbend p)
    fun p k => hframe.controller p k id ▸ h.controller p k
  by_cases hm : m = l
  · rw [hm, hset] at hy
    cases hy
    exact hx' (h.lfoAt hx)
  · exact h.lfoAt (hframe.lfo m hm ▸ hy)

theorem State.ValuesInRange.setVoice {l : VoiceLoc} {v v' : Voice} (h : s.ValuesInRange) (hl : s.voiceAt l = some v)
    (hv : v.Continues v') : (s.setVoice l v').ValuesInRange := by
  refine h.of_voices (State.setVoice_lfo ..) (fun p k => State.setVoice_sampleAt ..) (fun p => ?_) fun m w hw => ?_
  · obtain ⟨hbend, hctrl, -⟩ := s.setVoice_part l v' p
    exact ⟨hbend, hctrl⟩
  · rw [s.setVoice_voiceAt l m v' (by rw [hl]; rfl)] at hw
    split at hw
    · cases hw; exact hv.inRange (h.voiceAt hl)
    · exact h.voiceAt hw

/-- Another list of Voices in a Part, all of them in range. -/
theorem State.ValuesInRange.setVoices {p : Fin 16} {vs : List Voice} (h : s.ValuesInRange) (hvs : ∀ v ∈ vs, v.InRange) :
    (s.setVoices p vs).ValuesInRange := by
  refine h.of_voices rfl (fun q k => State.setVoices_sampleAt ..) (fun q => by rw [State.setVoices_part]; exact ⟨rfl, rfl⟩)
    fun l v hv => ?_
  cases l with
  | lone => exact h.voiceAt (l := .lone) hv
  | mapped q i =>
    rw [State.voiceAt, State.setVoices_part] at hv
    dsimp only at hv
    split at hv
    · exact hvs v (List.mem_of_getElem? hv)
    · exact h.voiceAt (l := .mapped q i) hv

theorem Fresh.inRange {p : Fin 16} {note vel : Fin 128} {v : Voice} (h : Fresh s p note vel v) : v.InRange := by
  obtain ⟨k, smp, d, -, rfl⟩ := h
  exact Voice.construct_inRange p k smp note vel d

theorem State.ValuesInRange.loneVoice {v : Voice} (h : s.ValuesInRange) (hv : v.InRange) :
    ({ s with voice := some v } : State).ValuesInRange := by
  refine h.of_voices rfl (fun _ _ => rfl) (fun _ => ⟨rfl, rfl⟩) fun l w hw => ?_
  cases l with
  | lone => cases hw; exact hv
  | mapped p i => exact h.voiceAt (l := .mapped p i) hw

theorem mem_foldl_register (vs new : List Voice) (u : Voice) : u ∈ new.foldl register vs ↔ u ∈ vs ∨ u ∈ new := by
  induction new generalizing vs with
  | nil => simp
  | cons v new ih => rw [List.foldl_cons, ih, mem_register, List.mem_cons]; tauto

theorem State.ValuesInRange.noteOn {p : Fin 16} {vs : List Voice} (h : s.ValuesInRange) (hvs : ∀ v ∈ vs, v.InRange) :
    (s.setVoices p (vs.foldl register s.parts[p].voices)).ValuesInRange := by
  refine h.setVoices fun v hv => ?_
  rcases (mem_foldl_register _ _ v).mp hv with hold | hnew
  · exact h.mapped p v hold
  · exact hvs v hnew

/-! ### Every command, every step -/

theorem Evolves.valuesInRange (h : Evolves s t) (hcanonical : s.StoresCanonical) (hs : s.ValuesInRange) :
    t.ValuesInRange := by
  induction h with
  | refl => exact hs
  | controller p k _ h0 h1 => exact hs.setController hcanonical p k h0 h1
  | pitchbend p _ _ h0 h1 ih => exact ih.setPitchbend p h0 h1
  | quiet _ hq ih => exact ih.quiet hq
  | lfo _ _ _ _ hx hx' ih => exact ih.setLfo hx hx'
  | voice _ _ _ _ hl hv ih => exact ih.setVoice hl hv
  | voices p _ _ hvs ih => exact ih.setVoices (hvs.inRange (ih.mapped p))
  | loneVoice _ _ _ _ _ hv ih => exact ih.loneVoice hv.inRange
  | noteOn _ _ _ _ _ hvs ih => exact ih.noteOn fun v hv => (hvs v hv).inRange

/-- Settles O15: a step is a chain of updates (`step_evolves`), and each of them keeps the ranges; the one controller write of a
step meets the canonical store it starts from. -/
theorem stepKeepsValuesInRange : Obligations.StepKeepsValuesInRange := by
  intro s t hcanonical hs h
  obtain ⟨ws, hevolves⟩ := step_evolves h
  have hq := s.withCmd_quiet ws
  exact hevolves.valuesInRange ⟨hcanonical.controllers, fun l x hx => hcanonical.steps l x (hq.lfo l ▸ hx)⟩ (hs.quiet hq)

end Sys2Proof.Machine
end

section
/-! PROOF of O9: the values after reset (R31, R34, R36, R41, R45, R46, R391, R392). -/

namespace Sys2Proof.Machine

/-- Every Part after reset is the empty one (R46). -/
theorem State.reset_part (p : Fin 16) : State.reset.parts[p] = Part.reset := by
  simp [State.reset]

/-- No Voice exists after reset (R45). -/
theorem State.reset_voiceAt (l : VoiceLoc) : State.reset.voiceAt l = none := by
  cases l with
  | lone => rfl
  | mapped p i => rw [State.voiceAt, State.reset_part]; rfl

/-- Every output of the matrix is 0 after reset (R41). -/
theorem Mtx.reset_mod_get (d : ModDest) : Mtx.reset.mod.get d = 0 := by cases d <;> rfl

/-- Settles O9: the units' reset values are those the spec gives; the Voices and the Parts by `reset_voiceAt` and `reset_part`. -/
theorem resetValues : Obligations.ResetValues := by
  refine ⟨rfl, rfl, rfl, rfl, rfl, rfl, rfl, rfl, rfl, rfl, rfl, rfl, Mtx.reset_mod_get, State.reset_voiceAt, fun p => ?_⟩
  rw [State.reset_part]
  exact ⟨rfl, rfl, fun _ => rfl⟩

end Sys2Proof.Machine
end

section
/-! PROOF of O14: the step arrays and the controller tables stay in canonical form (R71, R35, R46). A store is written by
`LFO.WRSTEP` and `ENG.CC` alone, through `Memory.write`; every other command leaves the stores, drops them with a Voice, or
copies the step arrays of a Sample's templates into a new Voice (R271). -/

namespace Sys2Proof.Machine

/-! ### The step arrays of one LFO and of one Voice -/

/-- The step arrays of the three LFOs of a Voice, or of the three templates of a Sample, are in canonical form. -/
def StepsCanonical (ls : Vector Lfo 3) : Prop := ∀ j : Fin 3, Memory.wf stepDefault ls[j].steps

/-- `LFO.NOTE_ON` leaves the step array (R172). -/
@[simp] theorem Lfo.noteOn_steps (l : Lfo) (k : Nat) : (l.noteOn k).1.steps = l.steps := by
  obtain ⟨ph, hold, heq, -⟩ := l.noteOn_spec k
  rw [heq]

/-- `LFO.STEP` leaves the step array (R173). -/
theorem Lfo.step_steps {l : Lfo} {e bpm : Number} {k : Nat} {y : Lfo × Nat} (h : l.step e bpm k = .ok y) :
    y.1.steps = l.steps := by
  obtain ⟨-, rfl⟩ := (l.step_ok e bpm k y).mp h
  obtain ⟨t, period, hold, value, heq, -⟩ := l.advance_spec e bpm k
  rw [heq]

/-- A configuration write leaves the step array (R190). -/
@[simp] theorem Lfo.write_steps (l : Lfo) (w : LfoWrite) : (l.write w).steps = l.steps := by cases w <;> rfl

/-- A new Voice has the step arrays of the templates it is cloned from (R29, R271). -/
theorem Voice.construct_stepsCanonical (p : Fin 16) (k : Nat) {smp : Sample} (note vel : Fin 128) (d : Nat)
    (h : StepsCanonical smp.lfos) : StepsCanonical (Voice.construct p k smp note vel d).1.lfos := by
  obtain ⟨-, -, -, -, hlfos, -⟩ := Voice.construct_spec p k smp note vel d
  intro j
  obtain ⟨i, hi⟩ := hlfos j
  rw [hi, Lfo.noteOn_steps]
  exact h j

/-- Every block keeps the form: it steps the Voice's LFOs and nothing else of them (R288). -/
theorem preserved_stepsCanonical (part : Part) (sampleRate bpm : Number) :
    Preserved part sampleRate bpm fun x => StepsCanonical x.voice.lfos := by
  refine ⟨fun x o h => h, fun x h => h, fun x h => h, fun x y h hy j => ?_⟩
  obtain ⟨-, -, hlfos, -, -⟩ := modUpdate_ok hy
  obtain ⟨i, z, hz, hj⟩ := stepLfos_ok hlfos j
  rw [hj, Lfo.step_steps hz]
  exact h j

theorem renderVoice_stepsCanonical {s : State} {v : Voice} {k n : Nat} {sampleRate bpm : Number} {x : Rendered}
    (h : renderVoice s v k n sampleRate bpm = .ok x) (hv : StepsCanonical v.lfos) : StepsCanonical x.voice.lfos := by
  obtain ⟨smp, bus, b, fin, -, -, -, hblock, hfinish, rfl⟩ := renderVoice_ok h
  obtain ⟨-, -, hsamples⟩ := renderBlock_ok hblock
  obtain ⟨hlen, -, -⟩ := renderSamples_length n hsamples
  obtain ⟨⟨f, buf, hvoice, -, -⟩, -, -⟩ := finishBlock_ok hfinish hlen
  have hlfos := renderSamples_preserves (preserved_stepsCanonical s.parts[v.part] sampleRate bpm) n hsamples hv
  simp only [hvoice]
  exact hlfos

/-! ### Updates that leave the controller tables -/

section

variable (s : State)

@[simp] theorem State.setSample_controllers (p q : Fin 16) (k : Nat) (smp : Sample) :
    (s.setSample p k smp).parts[q].controllers = s.parts[q].controllers := by
  obtain ⟨-, hctrl, -⟩ := s.setSample_part p q k smp
  exact hctrl

@[simp] theorem State.setVoice_controllers (l : VoiceLoc) (v : Voice) (q : Fin 16) :
    (s.setVoice l v).parts[q].controllers = s.parts[q].controllers := by
  obtain ⟨-, hctrl, -⟩ := s.setVoice_part l v q
  exact hctrl

@[simp] theorem State.setEnv_controllers (l : EnvLoc) (x : Env) (q : Fin 16) :
    (s.setEnv l x).parts[q].controllers = s.parts[q].controllers := by
  unfold State.setEnv
  (repeat' split) <;> simp only [State.setSample_controllers, State.setVoice_controllers]

@[simp] theorem State.setLfo_controllers (l : LfoLoc) (x : Lfo) (q : Fin 16) :
    (s.setLfo l x).parts[q].controllers = s.parts[q].controllers := by
  unfold State.setLfo
  (repeat' split) <;> simp only [State.setSample_controllers, State.setVoice_controllers]

@[simp] theorem State.setFlt_controllers (l : FltLoc) (x : Flt) (q : Fin 16) :
    (s.setFlt l x).parts[q].controllers = s.parts[q].controllers := by
  unfold State.setFlt
  (repeat' split) <;> simp only [State.setSample_controllers, State.setVoice_controllers]

@[simp] theorem State.setBuf_controllers (l : BufLoc) (x : Scratch) (q : Fin 16) :
    (s.setBuf l x).parts[q].controllers = s.parts[q].controllers := by
  unfold State.setBuf
  (repeat' split) <;> simp only [State.setVoice_controllers]

@[simp] theorem State.setMtx_controllers (l : MtxLoc) (x : Mtx) (q : Fin 16) :
    (s.setMtx l x).parts[q].controllers = s.parts[q].controllers := by
  unfold State.setMtx
  (repeat' split) <;> simp only [State.setSample_controllers]

end

theorem renderVoice_controllers {s : State} {v : Voice} {k n : Nat} {sampleRate bpm : Number} {x : Rendered}
    (h : renderVoice s v k n sampleRate bpm = .ok x) (q : Fin 16) :
    x.state.parts[q].controllers = s.parts[q].controllers := by
  obtain ⟨smp, bus, b, fin, -, -, -, -, -, rfl⟩ := renderVoice_ok h
  exact s.setSample_controllers v.part q v.sample b.playing.smp

/-! ### The form, by Sample, Voice and Part -/

section

variable {s t : State}

theorem State.StoresCanonical.sampleAt (h : s.StoresCanonical) {p : Fin 16} {k : Nat} {smp : Sample}
    (hsmp : s.sampleAt p k = some smp) : StepsCanonical smp.lfos :=
  fun j => h.steps (.template p k j) _ (by rw [State.lfoAt, hsmp]; rfl)

theorem State.StoresCanonical.voiceAt (h : s.StoresCanonical) {l : VoiceLoc} {v : Voice} (hv : s.voiceAt l = some v) :
    StepsCanonical v.lfos :=
  fun j => h.steps (.voice l j) _ (by rw [State.lfoAt, hv]; rfl)

theorem State.StoresCanonical.mapped (h : s.StoresCanonical) (p : Fin 16) :
    ∀ v ∈ s.parts[p].voices, StepsCanonical v.lfos := by
  intro v hv
  obtain ⟨i, hi⟩ := List.mem_iff_getElem?.mp hv
  exact h.voiceAt (l := .mapped p i) hi

/-- A new Voice is cloned from a Sample that is there. -/
theorem Fresh.stepsCanonical {p : Fin 16} {note vel : Fin 128} {v : Voice} (h : Fresh s p note vel v)
    (hs : s.StoresCanonical) : StepsCanonical v.lfos := by
  obtain ⟨k, smp, d, hsmp, rfl⟩ := h
  exact Voice.construct_stepsCanonical p k note vel d (hs.sampleAt hsmp)

/-! ### Each update keeps it -/

/-- Where the LFOs and the controller tables are the same. -/
theorem State.StoresCanonical.quiet (h : s.StoresCanonical) (hq : Quiet s t)
    (hctrl : ∀ p : Fin 16, t.parts[p].controllers = s.parts[p].controllers := by exact fun _ => rfl) : t.StoresCanonical :=
  ⟨fun p => hctrl p ▸ h.controllers p, fun l x hx => h.steps l x (hq.lfo l ▸ hx)⟩

theorem State.StoresCanonical.withDraws (h : s.StoresCanonical) (k : Nat) : ({ s with draws := k } : State).StoresCanonical :=
  h.quiet (.of_eq rfl rfl rfl)

theorem State.StoresCanonical.emit (h : s.StoresCanonical) (c : UnitCode) (w : Word) : (s.emit c w).StoresCanonical :=
  h.quiet (.of_eq rfl rfl rfl)

theorem State.StoresCanonical.respond (h : s.StoresCanonical) (c : UnitCode) (rd : Reading) :
    (s.respond c rd).StoresCanonical := h.emit c (readingWord rd)

/-- Where the lone LFO, the Samples and the controller tables stay, the Voices decide. -/
theorem State.StoresCanonical.of_voices (h : s.StoresCanonical) (hlone : t.lfo = s.lfo)
    (hsample : ∀ p k, t.sampleAt p k = s.sampleAt p k)
    (hctrl : ∀ p : Fin 16, t.parts[p].controllers = s.parts[p].controllers)
    (hvoice : ∀ l v, t.voiceAt l = some v → StepsCanonical v.lfos) : t.StoresCanonical := by
  refine ⟨fun p => hctrl p ▸ h.controllers p, fun l x hx => ?_⟩
  cases l with
  | lone => exact h.steps .lone x (by rw [← hx, State.lfoAt, State.lfoAt, hlone])
  | template p k j => exact h.steps (.template p k j) x (by rw [← hx, State.lfoAt, State.lfoAt, hsample])
  | voice l j =>
    obtain ⟨v, hv, rfl⟩ := Option.map_eq_some_iff.mp hx
    exact hvoice l v hv j

theorem State.StoresCanonical.setVoice {l : VoiceLoc} {v v' : Voice} (h : s.StoresCanonical) (hl : s.voiceAt l = some v)
    (hv : StepsCanonical v'.lfos) : (s.setVoice l v').StoresCanonical := by
  refine h.of_voices (State.setVoice_lfo ..) (fun p k => State.setVoice_sampleAt ..) (s.setVoice_controllers l v')
    fun m w hw => ?_
  rw [s.setVoice_voiceAt l m v' (by rw [hl]; rfl)] at hw
  split at hw
  · cases hw; exact hv
  · exact h.voiceAt hw

theorem State.StoresCanonical.setVoices {p : Fin 16} {vs : List Voice} (h : s.StoresCanonical)
    (hvs : ∀ v ∈ vs, StepsCanonical v.lfos) : (s.setVoices p vs).StoresCanonical := by
  refine h.of_voices rfl (fun q k => State.setVoices_sampleAt ..) (fun q => by rw [State.setVoices_part]) fun l v hv => ?_
  cases l with
  | lone => exact h.voiceAt (l := .lone) hv
  | mapped q i =>
    rw [State.voiceAt, State.setVoices_part] at hv
    dsimp only at hv
    split at hv
    · exact hvs v (List.mem_of_getElem? hv)
    · exact h.voiceAt (l := .mapped q i) hv

theorem State.StoresCanonical.loneVoice {v : Voice} (h : s.StoresCanonical) (hv : StepsCanonical v.lfos) :
    ({ s with voice := some v } : State).StoresCanonical := by
  refine h.of_voices rfl (fun _ _ => rfl) (fun _ => rfl) fun l w hw => ?_
  cases l with
  | lone => cases hw; exact hv
  | mapped p i => exact h.voiceAt (l := .mapped p i) hw

theorem State.StoresCanonical.setLfo {l : LfoLoc} {x x' : Lfo} (h : s.StoresCanonical) (hx : s.lfoAt l = some x)
    (hx' : Memory.wf stepDefault x'.steps) : (s.setLfo l x').StoresCanonical := by
  obtain ⟨hframe, hset⟩ := s.setLfo_sameBut l x x' hx
  refine ⟨fun p => s.setLfo_controllers l x' p ▸ h.controllers p, fun m y hy => ?_⟩
  by_cases hm : m = l
  · rw [hm, hset] at hy
    cases hy
    exact hx'
  · exact h.steps m y (hframe.lfo m hm ▸ hy)

/-- Other stores in a Part, the controller table in canonical form. -/
theorem State.StoresCanonical.setPart (h : s.StoresCanonical) (p : Fin 16) {x : Part} (hs : x.samples = s.parts[p].samples)
    (hv : x.voices = s.parts[p].voices) (hctrl : Memory.wf controllerDefault x.controllers) :
    (s.setPart p x).StoresCanonical := by
  have hlfo := State.lfoAt_congr (s.setPart_lfo p x) (s.setPart_sampleAt_same p hs) (s.setPart_voiceAt_same p hv)
  refine ⟨fun q => ?_, fun l y hy => h.steps l y (hlfo l ▸ hy)⟩
  rw [State.setPart_get]
  split
  · exact hctrl
  · exact h.controllers q

/-! ### Commands to the selected ENV, LFO, Filter or ModMatrix -/

theorem State.onEnv_storesCanonical {f : Env → Except Refusal Env} (hs : s.StoresCanonical) (h : s.onEnv f = .ok t) :
    t.StoresCanonical := by
  obtain ⟨e, e', he, -, rfl⟩ := (s.onEnv_ok t f).mp h
  exact hs.quiet (s.setEnv_sameBut _ e e' he).1.quiet (s.setEnv_controllers _ e')

theorem State.readEnv_storesCanonical {f : Env → Reading} (hs : s.StoresCanonical) (h : s.readEnv f = .ok t) :
    t.StoresCanonical := by
  obtain ⟨e, -, rfl⟩ := (s.readEnv_ok t f).mp h
  exact hs.respond _ _

theorem State.onLfo_storesCanonical {f : Lfo → Nat → Except Refusal (Lfo × Nat)} (hs : s.StoresCanonical)
    (hf : ∀ l k y, f l k = .ok y → Memory.wf stepDefault l.steps → Memory.wf stepDefault y.1.steps)
    (h : s.onLfo f = .ok t) : t.StoresCanonical := by
  obtain ⟨l, y, hl, hy, rfl⟩ := (s.onLfo_ok t f).mp h
  exact (hs.setLfo hl (hf l _ y hy (hs.steps _ l hl))).withDraws y.2

theorem State.readLfo_storesCanonical {f : Lfo → Reading} (hs : s.StoresCanonical) (h : s.readLfo f = .ok t) :
    t.StoresCanonical := by
  obtain ⟨l, -, rfl⟩ := (s.readLfo_ok t f).mp h
  exact hs.respond _ _

theorem State.onFlt_storesCanonical {f : Flt → Except Refusal Flt} (hs : s.StoresCanonical) (h : s.onFlt f = .ok t) :
    t.StoresCanonical := by
  obtain ⟨x, y, hx, -, rfl⟩ := (s.onFlt_ok t f).mp h
  exact hs.quiet (s.setFlt_sameBut _ x y hx).1.quiet (s.setFlt_controllers _ y)

theorem State.onFltBuf_storesCanonical {f : Flt → Scratch → Except Refusal (Flt × Scratch)} (hs : s.StoresCanonical)
    (h : s.onFltBuf f = .ok t) : t.StoresCanonical := by
  obtain ⟨x, b, y, hx, hb, -, rfl⟩ := (s.onFltBuf_ok t f).mp h
  have hframe := (s.setFlt_sameBut _ x y.1 hx).1
  have hbuf : (s.setFlt s.sel.flt y.1).bufAt s.sel.flt.buffer = some b := (hframe.scratch _ id).trans hb
  have hflt := hs.quiet hframe.quiet (s.setFlt_controllers _ y.1)
  exact hflt.quiet (State.setBuf_sameBut _ _ b y.2 hbuf).1.quiet (State.setBuf_controllers _ _ y.2)

theorem State.onMtx_storesCanonical {f : Mtx → Mtx} (hs : s.StoresCanonical) (h : s.onMtx f = .ok t) :
    t.StoresCanonical := by
  obtain ⟨m, hm, rfl⟩ := (s.onMtx_ok t f).mp h
  exact hs.quiet (s.setMtx_sameBut _ m (f m) hm).1.quiet (s.setMtx_controllers _ (f m))

/-- The one write of a step array (R192). -/
theorem execLfoWrStep_storesCanonical {i : Fin 256} {v : Number} (hs : s.StoresCanonical)
    (h : execLfoWrStep i v s = .next t) : t.StoresCanonical := by
  unfold execLfoWrStep at h
  split at h
  · refine State.onLfo_storesCanonical hs (fun l k y hy hl => ?_) ((outcome_next _ _).mp h)
    cases hy
    exact Memory.wf_write i.val v hl
  · cases h

theorem execLfoRdStep_storesCanonical {i : Fin 256} (hs : s.StoresCanonical) (h : execLfoRdStep i s = .next t) :
    t.StoresCanonical := by
  unfold execLfoRdStep at h
  split at h
  · exact State.readLfo_storesCanonical hs ((outcome_next _ _).mp h)
  · cases h

theorem execFltRd_storesCanonical {reg : FltReg} (hs : s.StoresCanonical) (h : execFltRd reg s = .next t) :
    t.StoresCanonical := by
  unfold execFltRd at h
  split at h
  · cases h
  · cases h; exact hs.respond _ _

theorem execMtxRd_storesCanonical {reg : MtxReg} (hs : s.StoresCanonical) (h : execMtxRd reg s = .next t) :
    t.StoresCanonical := by
  unfold execMtxRd at h
  split at h
  · cases h
  split at h
  · cases h; exact hs.respond _ _
  · cases h; exact (hs.emit _ _).withDraws _

/-! ### Commands to the selected Voice -/

theorem execVoiceNoteOn_storesCanonical {note vel : Fin 128} (hs : s.StoresCanonical)
    (h : execVoiceNoteOn note vel s = .next t) : t.StoresCanonical := by
  unfold execVoiceNoteOn at h
  split at h
  · cases h
  split at h
  · cases h
  next smp hsmp =>
    split at h
    · cases h
    next v hv =>
      cases h
      obtain ⟨-, rfl⟩ := (newVoice_ok _ _ _ _ _ _ _).mp hv
      exact (hs.loneVoice (Voice.construct_stepsCanonical _ _ note vel _ (hs.sampleAt hsmp))).withDraws _

theorem execVoiceNoteOff_storesCanonical (hs : s.StoresCanonical) (h : execVoiceNoteOff s = .next t) :
    t.StoresCanonical := by
  unfold execVoiceNoteOff at h
  split at h
  · cases h
  next v hv => cases h; exact hs.setVoice (v' := v.noteOff) hv (hs.voiceAt (v := v) hv)

theorem execVoiceRd_storesCanonical {reg : VoiceReg} (hs : s.StoresCanonical) (h : execVoiceRd reg s = .next t) :
    t.StoresCanonical := by
  unfold execVoiceRd at h
  split at h
  · cases h
  · cases h; exact hs.respond _ _

/-- A render writes matrix outputs and a bus besides the Voice, so it leaves the stores (R290). -/
theorem renderVoice_storesCanonical {v : Voice} {k n : Nat} {sampleRate bpm : Number} {x : Rendered}
    (hs : s.StoresCanonical) (h : renderVoice s v k n sampleRate bpm = .ok x) : x.state.StoresCanonical :=
  hs.quiet (renderVoice_quiet h) (renderVoice_controllers h)

theorem execVoiceRender_storesCanonical {n : Nat} {sampleRate bpm : Number} (hs : s.StoresCanonical)
    (h : execVoiceRender n sampleRate bpm s = .next t) : t.StoresCanonical := by
  unfold execVoiceRender at h
  split at h
  · cases h
  next v hv =>
    split at h
    · cases h
    next x hx =>
      cases h
      have hvoice := renderVoice_stepsCanonical hx (hs.voiceAt hv)
      exact ((renderVoice_storesCanonical hs hx).setVoice ((renderVoice_voiceAt hx _).trans hv) hvoice).respond _ _

/-! ### Events of the Engine (R320 to R327) -/

theorem execEngNoteOn_storesCanonical {part : Nat} {note vel : Fin 128} (hs : s.StoresCanonical)
    (h : execEngNoteOn part note vel s = .next t) : t.StoresCanonical := by
  unfold execEngNoteOn at h
  split at h
  · cases h; exact hs
  next p _ =>
    split at h
    · cases h
    next vs hvs =>
      cases h
      refine State.StoresCanonical.withDraws (hs.setVoices fun v hv => ?_) _
      rcases (mem_foldl_register _ _ v).mp hv with hold | hnew
      · exact hs.mapped p v hold
      · exact (newVoices_fresh hvs v hnew).stepsCanonical hs

theorem execEngNoteOff_storesCanonical {part : Nat} {note vel : Fin 128} (hs : s.StoresCanonical)
    (h : execEngNoteOff part note vel s = .next t) : t.StoresCanonical := by
  unfold execEngNoteOff at h
  split at h
  · cases h; exact hs
  next p _ =>
    cases h
    refine hs.setVoices fun v hv => ?_
    obtain ⟨u, hu, rfl⟩ := List.mem_map.mp hv
    split
    · exact hs.mapped p u hu
    · exact hs.mapped p u hu

theorem execEngPitchbend_storesCanonical {part : Nat} {value : Number} (hs : s.StoresCanonical)
    (h : execEngPitchbend part value s = .next t) : t.StoresCanonical := by
  unfold execEngPitchbend at h
  split at h
  · cases h
  split at h
  · cases h; exact hs
  next p _ => cases h; exact hs.setPart p rfl rfl (hs.controllers p)

/-- The one write of a controller table (R327). -/
theorem execEngCc_storesCanonical {part : Nat} {cc : Fin 256} {value : Number} (hs : s.StoresCanonical)
    (h : execEngCc part cc value s = .next t) : t.StoresCanonical := by
  unfold execEngCc at h
  split at h
  · cases h
  split at h
  · cases h; exact hs
  next p _ => cases h; exact hs.setPart p rfl rfl (Memory.wf_write cc.val value (hs.controllers p))

/-! ### The rendering pass (R330 to R333) -/

theorem processVoice_storesCanonical {v : Voice} {sampleRate bpm : Number} {y : Turn} (hs : s.StoresCanonical)
    (hv : StepsCanonical v.lfos) (h : processVoice s v sampleRate bpm = .ok y) :
    y.state.StoresCanonical ∧ ∀ w, y.left = some w → StepsCanonical w.lfos := by
  obtain ⟨smp, -, ⟨rfl, -⟩ | ⟨bus, x, -, -, hx, rfl⟩⟩ := processVoice_ok h
  · exact ⟨hs, fun w hw => by cases hw⟩
  · refine ⟨renderVoice_storesCanonical hs hx, fun w hw => ?_⟩
    simp only at hw
    split at hw
    · cases hw
    · cases hw; exact renderVoice_stepsCanonical hx hv

theorem processVoices_storesCanonical {vs : List Voice} {sampleRate bpm : Number} {x : Pass} (hs : s.StoresCanonical)
    (hvs : ∀ v ∈ vs, StepsCanonical v.lfos) (h : processVoices sampleRate bpm s vs = .ok x) :
    x.state.StoresCanonical ∧ ∀ v ∈ x.voices, StepsCanonical v.lfos := by
  induction vs generalizing s x with
  | nil => cases h; exact ⟨hs, hvs⟩
  | cons v vs ih =>
    obtain ⟨hv, hrest⟩ := List.forall_mem_cons.mp hvs
    unfold processVoices at h
    split at h
    · cases h
    next y hy =>
      obtain ⟨hturn, hleft⟩ := processVoice_storesCanonical hs hv hy
      cases hz : processVoices sampleRate bpm y.state vs with
      | error r => rw [hz] at h; cases h
      | ok z =>
        rw [hz] at h
        cases h
        obtain ⟨hstate, hvoices⟩ := ih hturn hrest hz
        cases hw : y.left with
        | none => exact ⟨hstate, hvoices⟩
        | some w => exact ⟨hstate, List.forall_mem_cons.mpr ⟨hleft w hw, hvoices⟩⟩

theorem processPart_storesCanonical {p : Fin 16} {sampleRate bpm : Number} {y : State × Bool} (hs : s.StoresCanonical)
    (h : processPart sampleRate bpm s p = .ok y) : y.1.StoresCanonical := by
  unfold processPart at h
  split at h
  · cases h
  next x hx =>
    cases h
    obtain ⟨hstate, hvoices⟩ := processVoices_storesCanonical hs (hs.mapped p) hx
    exact hstate.setVoices hvoices

theorem processParts_storesCanonical {ps : List (Fin 16)} {sampleRate bpm : Number} {y : State × Bool}
    (hs : s.StoresCanonical) (h : processParts sampleRate bpm s ps = .ok y) : y.1.StoresCanonical := by
  induction ps generalizing s y with
  | nil => cases h; exact hs
  | cons p ps ih =>
    unfold processParts at h
    split at h
    · cases h
    next x hx =>
      cases hrest : processParts sampleRate bpm x.1 ps with
      | error r => rw [hrest] at h; cases h
      | ok z => rw [hrest] at h; cases h; exact ih (y := z) (processPart_storesCanonical hs hx) hrest

theorem execEngProcess_storesCanonical {sampleRate bpm : Number} (hs : s.StoresCanonical)
    (h : execEngProcess sampleRate bpm s = .next t) : t.StoresCanonical := by
  unfold execEngProcess at h
  split at h
  · cases h
  next hx => cases h; exact (processParts_storesCanonical hs hx).respond _ _

/-! ### Every command, every step -/

theorem exec_storesCanonical {i : Instr} (hs : s.StoresCanonical) (h : exec i s = .next t) : t.StoresCanonical := by
  cases i with
  | noteOn => exact State.onEnv_storesCanonical hs ((outcome_next _ _).mp h)
  | noteOff => exact State.onEnv_storesCanonical hs ((outcome_next _ _).mp h)
  | step => exact State.onEnv_storesCanonical hs ((outcome_next _ _).mp h)
  | hasEnded => exact State.readEnv_storesCanonical hs ((outcome_next _ _).mp h)
  | wr => exact State.onEnv_storesCanonical hs ((outcome_next _ _).mp h)
  | rd => exact State.readEnv_storesCanonical hs ((outcome_next _ _).mp h)
  | lfoNoteOn =>
    refine State.onLfo_storesCanonical hs (fun l k y hy hl => ?_) ((outcome_next _ _).mp h)
    cases hy
    rwa [Lfo.noteOn_steps]
  | lfoStep =>
    exact State.onLfo_storesCanonical hs (fun l k y hy hl => by rwa [Lfo.step_steps hy]) ((outcome_next _ _).mp h)
  | lfoWr w =>
    refine State.onLfo_storesCanonical hs (fun l k y hy hl => ?_) ((outcome_next _ _).mp h)
    cases hy
    rwa [Lfo.write_steps]
  | lfoRd => exact State.readLfo_storesCanonical hs ((outcome_next _ _).mp h)
  | lfoWrStep => exact execLfoWrStep_storesCanonical hs h
  | lfoRdStep => exact execLfoRdStep_storesCanonical hs h
  | fltWr => exact State.onFlt_storesCanonical hs ((outcome_next _ _).mp h)
  | fltRd => exact execFltRd_storesCanonical hs h
  | fltUpdate => exact State.onFlt_storesCanonical hs ((outcome_next _ _).mp h)
  | fltRun => exact State.onFltBuf_storesCanonical hs ((outcome_next _ _).mp h)
  | mtxWr => exact State.onMtx_storesCanonical hs ((outcome_next _ _).mp h)
  | mtxRd => exact execMtxRd_storesCanonical hs h
  | mtxEval => exact State.onMtx_storesCanonical hs ((outcome_next _ _).mp h)
  | voiceNoteOn => exact execVoiceNoteOn_storesCanonical hs h
  | voiceNoteOff => exact execVoiceNoteOff_storesCanonical hs h
  | voiceRd => exact execVoiceRd_storesCanonical hs h
  | voiceRender => exact execVoiceRender_storesCanonical hs h
  | engNoteOn => exact execEngNoteOn_storesCanonical hs h
  | engNoteOff part note vel => exact execEngNoteOff_storesCanonical (vel := vel) hs h
  | engPitchbend => exact execEngPitchbend_storesCanonical hs h
  | engCc => exact execEngCc_storesCanonical hs h
  | engProcess => exact execEngProcess_storesCanonical hs h

end

/-- Settles O14: a step takes a command off the port, which leaves the stores, and every command keeps their form
(`exec_storesCanonical`). -/
theorem stepKeepsStoresCanonical : Obligations.StepKeepsStoresCanonical := by
  intro s t hs h
  unfold step at h
  split at h
  next rest _ => exact exec_storesCanonical (hs.quiet (s.withCmd_quiet rest)) h
  · cases h; exact hs
  · cases h

end Sys2Proof.Machine
end

section
/-! PROOF of O6 and O7: the number words (R106, R108). A pattern without its sign bit counts units of `2^-149`, and it does so
in strictly increasing order; so the pattern nearest to a magnitude is one of the two between whose counts it lies, and the
encoder picks the right one. -/

namespace Sys2Proof

/-! ### Patterns without their sign bit -/

/-- The units of `2^-149` for which a pattern without its sign bit stands. -/
def patternUnits (p : Nat) : Nat := binary32Units (p / 2 ^ 23) (p % 2 ^ 23)

/-- The magnitude for which a pattern without its sign bit stands. -/
def patternValue (p : Nat) : Number := (patternUnits p : Number) / 2 ^ 149

/-- A pattern is an exponent step and a significand, whose leading bit is set above the first step. -/
theorem pattern_split (p : Nat) : ∃ k t, p = k * 2 ^ 23 + t ∧ t < 2 ^ 24 ∧ (k = 0 ∨ 2 ^ 23 ≤ t) := by
  by_cases h : p < 2 ^ 24
  · exact ⟨0, p, by omega, h, .inl rfl⟩
  · exact ⟨p / 2 ^ 23 - 1, 2 ^ 23 + p % 2 ^ 23, by omega, by omega, .inr (by omega)⟩

theorem patternUnits_split {k t : Nat} (ht : t < 2 ^ 24) (hk : k = 0 ∨ 2 ^ 23 ≤ t) :
    patternUnits (k * 2 ^ 23 + t) = t * 2 ^ k := binary32Units_pattern ht hk

/-- The next pattern stands for one unit in the last place more, also where the exponent steps up. -/
theorem patternUnits_succ {k t : Nat} (ht : t < 2 ^ 24) (hk : k = 0 ∨ 2 ^ 23 ≤ t) :
    patternUnits (k * 2 ^ 23 + t + 1) = (t + 1) * 2 ^ k := by
  by_cases h : t + 1 < 2 ^ 24
  · rw [Nat.add_assoc, patternUnits_split h (hk.imp_right (by omega))]
  · have hp : k * 2 ^ 23 + t + 1 = (k + 1) * 2 ^ 23 + 2 ^ 23 := by omega
    have ht' : t + 1 = 2 ^ 23 * 2 := by omega
    rw [hp, patternUnits_split (by norm_num) (.inr le_rfl), ht', Nat.pow_succ]
    ring

theorem patternUnits_strictMono : StrictMono patternUnits := by
  refine strictMono_nat_of_lt_succ fun p => ?_
  obtain ⟨k, t, rfl, ht, hk⟩ := pattern_split p
  rw [patternUnits_split ht hk, patternUnits_succ ht hk]
  exact Nat.mul_lt_mul_of_pos_right (Nat.lt_succ_self t) (Nat.two_pow_pos k)

theorem patternUnits_zero : patternUnits 0 = 0 := rfl

theorem patternValue_strictMono : StrictMono patternValue := fun a b h =>
  div_lt_div_of_pos_right (Nat.cast_lt.mpr (patternUnits_strictMono h)) (by positivity)

theorem patternValue_zero : patternValue 0 = 0 := by simp [patternValue, patternUnits_zero]

theorem patternValue_nonneg (p : Nat) : 0 ≤ patternValue p := by unfold patternValue; positivity

theorem patternValue_eq_zero {p : Nat} (h : patternValue p = 0) : p = 0 :=
  patternValue_strictMono.injective (h.trans patternValue_zero.symm)

/-! ### What a word reads as -/

/-- A magnitude with a sign. -/
def signed (neg : Prop) [Decidable neg] (x : Number) : Number := if neg then -x else x

theorem abs_signed (neg : Prop) [Decidable neg] (x : Number) : |signed neg x| = |x| := by
  unfold signed; split <;> simp

/-- A word has a number exactly when its exponent is not the reserved one (R106). -/
theorem decodeNum_eq_some (w : Word) (q : Number) :
    decodeNum w = some q ↔
      w.toNat % 2 ^ 31 ≤ binary32Max ∧ q = signed (w.toNat / 2 ^ 31 = 1) (patternValue (w.toNat % 2 ^ 31)) := by
  have hexp : w.toNat / 2 ^ 23 % 2 ^ 8 = w.toNat % 2 ^ 31 / 2 ^ 23 := by omega
  have hfrac : w.toNat % 2 ^ 23 = w.toNat % 2 ^ 31 % 2 ^ 23 := by omega
  unfold decodeNum
  simp only [hexp, hfrac]
  unfold binary32Max
  split
  next h => simp only [reduceCtorEq, false_iff, not_and]; omega
  next h =>
    have hp : w.toNat % 2 ^ 31 ≤ 0x7F7FFFFF := by omega
    simp only [hp, true_and, Option.some.injEq, eq_comm (b := q)]
    rfl

/-- The magnitude of a word's number. -/
theorem abs_of_decodeNum {w : Word} {q : Number} (h : decodeNum w = some q) : |q| = patternValue (w.toNat % 2 ^ 31) := by
  obtain ⟨-, rfl⟩ := (decodeNum_eq_some w q).mp h
  rw [abs_signed, abs_of_nonneg (patternValue_nonneg _)]

/-- No number has two words but 0, whose second one is negative zero. -/
theorem decodeNum_injective {v w : Word} {q : Number} (hv : decodeNum v = some q) (hw : decodeNum w = some q)
    (hv0 : v ≠ 0x80000000#32) (hw0 : w ≠ 0x80000000#32) : v = w := by
  have hp : v.toNat % 2 ^ 31 = w.toNat % 2 ^ 31 :=
    patternValue_strictMono.injective ((abs_of_decodeNum hv).symm.trans (abs_of_decodeNum hw))
  obtain ⟨-, hqv⟩ := (decodeNum_eq_some v q).mp hv
  obtain ⟨-, hqw⟩ := (decodeNum_eq_some w q).mp hw
  have hs : v.toNat / 2 ^ 31 = 1 ↔ w.toNat / 2 ^ 31 = 1 := by
    by_contra hne
    have hzero : patternValue (w.toNat % 2 ^ 31) = 0 := by
      rw [hqv, hp] at hqw
      unfold signed at hqw
      by_cases hv1 : v.toNat / 2 ^ 31 = 1
      · rw [if_pos hv1, if_neg fun hw1 => hne (iff_of_true hv1 hw1)] at hqw
        linarith
      · rw [if_neg hv1, if_pos (by_contra fun hw1 => hne (iff_of_false hv1 hw1))] at hqw
        linarith
    have := patternValue_eq_zero hzero
    bv_omega
  bv_omega

/-! ### O6: the value in terms of the fields (R106) -/

theorem unitsValue_normal {e : Nat} (f : Nat) (h : 1 ≤ e) :
    (binary32Units e f : Number) / 2 ^ 149 = (2 : Number) ^ ((e : Int) - 127) * (1 + f / 2 ^ 23) := by
  obtain ⟨k, rfl⟩ := Nat.exists_eq_add_of_le' h
  have hexp : ((k + 1 : Nat) : Int) - 127 = (k : Int) - (126 : Nat) := by push_cast; ring
  rw [hexp, zpow_sub₀ two_ne_zero, zpow_natCast, zpow_natCast, binary32Units, if_neg (Nat.succ_ne_zero k), Nat.add_sub_cancel]
  push_cast
  field_simp
  ring

theorem unitsValue_subnormal (f : Nat) :
    (binary32Units 0 f : Number) / 2 ^ 149 = (2 : Number) ^ (-126 : Int) * (f / 2 ^ 23) := by
  rw [binary32Units, if_pos rfl, zpow_neg]
  norm_num
  ring

theorem signed_eq_mul (neg : Prop) [Decidable neg] (x : Number) : signed neg x = (if neg then -1 else 1) * x := by
  unfold signed; split <;> simp

theorem decodeNum_fields (w : Word) :
    decodeNum w = if (w.extractLsb' 23 8).toNat = 255 then none
      else some ((if w.msb then -1 else 1) *
        ((binary32Units (w.extractLsb' 23 8).toNat (w.extractLsb' 0 23).toNat : Number) / 2 ^ 149)) := by
  have hexp : (w.extractLsb' 23 8).toNat = w.toNat / 2 ^ 23 % 2 ^ 8 := by
    rw [BitVec.extractLsb'_toNat, Nat.shiftRight_eq_div_pow]
  have hfrac : (w.extractLsb' 0 23).toNat = w.toNat % 2 ^ 23 := by
    rw [BitVec.extractLsb'_toNat, Nat.shiftRight_zero]
  have hsign : (w.msb = true) ↔ w.toNat / 2 ^ 31 = 1 := by
    rw [BitVec.msb_eq_decide, decide_eq_true_iff]; omega
  simp only [hexp, hfrac, hsign, ← signed_eq_mul]
  rfl

/-- Settles O6: the units of a pattern (`unitsValue_normal`, `unitsValue_subnormal`) under the word's sign. -/
theorem numWordValue : Obligations.NumWordValue := by
  intro w e f sign
  have hw : decodeNum w = if e = 255 then none else some (sign * ((binary32Units e f : Number) / 2 ^ 149)) :=
    decodeNum_fields w
  refine ⟨fun h => ?_, fun h1 h2 => ?_, fun h => ?_⟩
  · rw [hw, if_pos h]
  · rw [hw, if_neg (by omega), unitsValue_normal f h1, mul_assoc]
  · rw [hw, if_neg (by omega), h, unitsValue_subnormal f, mul_assoc]

/-! ### Rounding (R108) -/

/-- The rounded quotient is one of the two integers around it, the nearer one, the even one at equal distance. -/
theorem roundHalfEven_cases (n d : Nat) :
    roundHalfEven n d = n / d ∧ 2 * (n % d) ≤ d ∧ (2 * (n % d) = d → n / d % 2 = 0) ∨
      roundHalfEven n d = n / d + 1 ∧ d ≤ 2 * (n % d) ∧ (2 * (n % d) = d → (n / d + 1) % 2 = 0) := by
  unfold roundHalfEven
  dsimp only
  split
  · left; omega
  · split
    · right; omega
    · rcases Nat.mod_two_eq_zero_or_one (n / d) with h | h
      · left; omega
      · right; omega

/-- `x` lies from the number of pattern `lo` up to that of the next pattern, and `p` is the nearer of the two patterns, the even one
at equal distance. -/
structure Rounds (x : Number) (lo p : Nat) : Prop where
  above : (patternUnits lo : Number) ≤ x
  below : x < patternUnits (lo + 1)
  either : p = lo ∨ p = lo + 1
  near_lo : |x - patternUnits p| ≤ x - patternUnits lo
  near_hi : |x - patternUnits p| ≤ patternUnits (lo + 1) - x
  tie : 2 * x = patternUnits lo + patternUnits (lo + 1) → p % 2 = 0

/-- `t` units of `2^k` and a remainder `ρ` below one more are rounded to `t` or `t + 1` units, as `ρ` compares with one half. -/
theorem Rounds.of_remainder {ρ : Number} {k t q : Nat} (ht : t < 2 ^ 24) (hk : k = 0 ∨ 2 ^ 23 ≤ t) (h0 : 0 ≤ ρ) (h1 : ρ < 2 ^ k)
    (hq : q = t ∧ 2 * ρ ≤ 2 ^ k ∧ (2 * ρ = 2 ^ k → t % 2 = 0) ∨
      q = t + 1 ∧ 2 ^ k ≤ 2 * ρ ∧ (2 * ρ = 2 ^ k → (t + 1) % 2 = 0)) :
    Rounds (t * 2 ^ k + ρ) (k * 2 ^ 23 + t) (k * 2 ^ 23 + q) := by
  have hlo : (patternUnits (k * 2 ^ 23 + t) : Number) = t * 2 ^ k := by rw [patternUnits_split ht hk]; push_cast; rfl
  have hhi : (patternUnits (k * 2 ^ 23 + t + 1) : Number) = t * 2 ^ k + 2 ^ k := by
    rw [patternUnits_succ ht hk]; push_cast; ring
  rcases hq with ⟨rfl, hnear, heven⟩ | ⟨rfl, hnear, heven⟩
  · constructor <;> simp only [hlo, hhi, true_or, add_sub_cancel_left, abs_of_nonneg h0]
    · linarith
    · linarith
    · exact le_rfl
    · linarith
    · intro h; have := heven (by linarith); omega
  · constructor <;> simp only [← Nat.add_assoc, hlo, hhi, or_true]
    · linarith
    · linarith
    · rw [abs_le]; constructor <;> linarith
    · rw [abs_le]; constructor <;> linarith
    · intro h; have := heven (by linarith); omega

/-- The encoder's pattern before it is held below the largest one. -/
theorem binary32Pattern_rounds (n : Nat) {d : Nat} (hd : 0 < d) :
    ∃ lo p, Rounds ((n : Number) / d) lo p ∧ binary32Pattern n d = min p binary32Max := by
  obtain ⟨ht, hk⟩ := log2_step (n / d)
  unfold binary32Pattern
  dsimp only
  generalize Nat.log2 (n / d) - 23 = k at ht hk ⊢
  rw [Nat.div_div_eq_div_mul] at ht hk
  have hd' : (0 : Number) < d := Nat.cast_pos.mpr hd
  have hr : n % (d * 2 ^ k) < d * 2 ^ k := Nat.mod_lt n (Nat.mul_pos hd (Nat.two_pow_pos k))
  have hround := roundHalfEven_cases n (d * 2 ^ k)
  have hx : (n : Number) / d = (n / (d * 2 ^ k) : Nat) * 2 ^ k + (n % (d * 2 ^ k) : Nat) / d := by
    conv_lhs => rw [← Nat.div_add_mod n (d * 2 ^ k)]
    push_cast
    field_simp
  generalize n % (d * 2 ^ k) = r at hr hround hx
  have hhalf : (2 : Number) * (r / d) = ((2 * r : Nat) : Number) / d := by push_cast; ring
  have hle : 2 * r ≤ d * 2 ^ k ↔ (2 : Number) * (r / d) ≤ 2 ^ k := by
    rw [hhalf, div_le_iff₀ hd', mul_comm ((2 : Number) ^ k)]; exact_mod_cast Iff.rfl
  have hge : d * 2 ^ k ≤ 2 * r ↔ (2 : Number) ^ k ≤ 2 * (r / d) := by
    rw [hhalf, le_div_iff₀ hd', mul_comm ((2 : Number) ^ k)]; exact_mod_cast Iff.rfl
  have heq : (2 : Number) * (r / d) = 2 ^ k → 2 * r = d * 2 ^ k := fun h =>
    Nat.le_antisymm (hle.mpr h.le) (hge.mpr h.ge)
  have hlt : (r : Number) / d < 2 ^ k := by rw [div_lt_iff₀ hd', mul_comm]; exact_mod_cast hr
  refine ⟨_, _, hx ▸ Rounds.of_remainder ht hk (by positivity) hlt ?_, rfl⟩
  rcases hround with ⟨hq, h, heven⟩ | ⟨hq, h, heven⟩
  · exact .inl ⟨hq, hle.mp h, fun h => heven (heq h)⟩
  · exact .inr ⟨hq, hge.mp h, fun h => heven (heq h)⟩

/-- The pattern `p` is nearest to `x` units among all patterns of finite numbers, and even if another one is equally near. -/
def NearestPattern (x : Number) (p : Nat) : Prop :=
  ∀ p' ≤ binary32Max, |x - patternUnits p| ≤ |x - patternUnits p'| ∧
    (|x - patternUnits p'| = |x - patternUnits p| → p' ≠ p → p % 2 = 0)

theorem patternUnits_cast_le {a b : Nat} (h : a ≤ b) : (patternUnits a : Number) ≤ patternUnits b :=
  Nat.cast_le.mpr (patternUnits_strictMono.monotone h)

theorem patternUnits_cast_inj {a b : Nat} (h : (patternUnits a : Number) = patternUnits b) : a = b :=
  patternUnits_strictMono.injective (Nat.cast_injective h)

/-- At or above the largest pattern, every other one is farther. -/
theorem nearestPattern_max {x : Number} (h : (patternUnits binary32Max : Number) ≤ x) : NearestPattern x binary32Max := by
  intro p' hp'
  have hle := patternUnits_cast_le hp'
  rw [abs_of_nonneg (by linarith), abs_of_nonneg (by linarith)]
  exact ⟨by linarith, fun heq hne => absurd (patternUnits_cast_inj (by linarith)) hne⟩

/-- A pattern not above `lo` is as far from `x` as `lo` or farther, and one above `lo` as far as `lo + 1` or farther. -/
theorem Rounds.nearest {x : Number} {lo p : Nat} (h : Rounds x lo p) : NearestPattern x (min p binary32Max) := by
  obtain ⟨habove, hbelow, heither, hlo, hhi, htie⟩ := h
  rcases Nat.lt_or_ge lo binary32Max with hmax | hmax
  · rw [Nat.min_eq_left (by omega)]
    intro p' _
    rcases Nat.lt_or_ge lo p' with hp' | hp'
    · have hle := patternUnits_cast_le hp'
      rw [abs_of_neg (by linarith : x - patternUnits p' < 0)]
      refine ⟨by linarith, fun heq hne => ?_⟩
      have hp'hi : p' = lo + 1 := patternUnits_cast_inj (by linarith)
      obtain rfl : p = lo := by omega
      rw [hp'hi, abs_of_nonneg (by linarith)] at heq
      exact htie (by linarith)
    · have hle := patternUnits_cast_le hp'
      rw [abs_of_nonneg (by linarith : 0 ≤ x - patternUnits p')]
      refine ⟨by linarith, fun heq hne => ?_⟩
      have hp'lo : p' = lo := patternUnits_cast_inj (by linarith)
      obtain rfl : p = lo + 1 := by omega
      rw [hp'lo, abs_of_neg (by linarith)] at heq
      exact htie (by linarith)
  · rw [Nat.min_eq_right (by omega)]
    exact nearestPattern_max ((patternUnits_cast_le hmax).trans habove)

/-! ### O7: the word of a number -/

/-- The pattern, without its sign bit, that the encoder emits for a number. -/
def magnitudePattern (q : Number) : Nat := binary32Pattern (q.num.natAbs * 2 ^ 149) q.den

theorem magnitudePattern_le (q : Number) : magnitudePattern q ≤ binary32Max := Nat.min_le_right _ _

theorem abs_eq_natAbs_div (q : Number) : ((q.num.natAbs * 2 ^ 149 : Nat) : Number) / q.den = |q| * 2 ^ 149 := by
  conv_rhs => rw [← Rat.num_div_den q]
  rw [abs_div, Nat.abs_cast, ← Int.cast_abs, Int.abs_eq_natAbs, Int.cast_natCast]
  push_cast
  ring

theorem magnitudePattern_nearest (q : Number) : NearestPattern (|q| * 2 ^ 149) (magnitudePattern q) := by
  obtain ⟨lo, p, hp, heq⟩ := binary32Pattern_rounds (q.num.natAbs * 2 ^ 149) q.den_pos
  rw [abs_eq_natAbs_div] at hp
  rw [magnitudePattern, heq]
  exact hp.nearest

/-- Nearness in numbers instead of units. -/
theorem magnitudePattern_nearest_value (q : Number) {p' : Nat} (hp' : p' ≤ binary32Max) :
    |(|q| - patternValue (magnitudePattern q))| ≤ |(|q| - patternValue p')| ∧
      (|(|q| - patternValue p')| = |(|q| - patternValue (magnitudePattern q))| → p' ≠ magnitudePattern q →
        magnitudePattern q % 2 = 0) := by
  have hscale : ∀ p, |(|q| * 2 ^ 149 - patternUnits p)| = |(|q| - patternValue p)| * 2 ^ 149 := fun p => by
    have h : |q| * 2 ^ 149 - patternUnits p = (|q| - patternValue p) * 2 ^ 149 := by unfold patternValue; field_simp
    rw [h, abs_mul, abs_of_pos (by positivity : (0 : Number) < 2 ^ 149)]
  obtain ⟨hle, htie⟩ := magnitudePattern_nearest q p' hp'
  rw [hscale, hscale] at hle htie
  exact ⟨le_of_mul_le_mul_right hle (by positivity), fun h => htie (by rw [h])⟩

theorem encodeNum_eq (q : Number) :
    encodeNum q = BitVec.ofNat 32 (if q < 0 ∧ magnitudePattern q ≠ 0 then 2 ^ 31 + magnitudePattern q else magnitudePattern q) := by
  simp only [← Rat.num_neg]; rfl

theorem encodeNum_toNat (q : Number) :
    (encodeNum q).toNat = if q < 0 ∧ magnitudePattern q ≠ 0 then 2 ^ 31 + magnitudePattern q else magnitudePattern q := by
  have hp := magnitudePattern_le q
  unfold binary32Max at hp
  rw [encodeNum_eq, BitVec.toNat_ofNat]
  exact Nat.mod_eq_of_lt (by split <;> omega)

theorem encodeNum_ne_negZero (q : Number) : encodeNum q ≠ 0x80000000#32 := by
  have hp := magnitudePattern_le q
  unfold binary32Max at hp
  have h := encodeNum_toNat q
  intro he
  rw [he] at h
  split at h <;> simp at h <;> omega

/-- The encoder emits its pattern under the number's own sign. -/
theorem decodeNum_encodeNum_eq (q : Number) :
    decodeNum (encodeNum q) = some (signed (q < 0) (patternValue (magnitudePattern q))) := by
  have hp := magnitudePattern_le q
  have hp' := hp
  unfold binary32Max at hp'
  rw [decodeNum_eq_some, encodeNum_toNat]
  split
  next h =>
    obtain ⟨hq, hp0⟩ := h
    have h1 : (2 ^ 31 + magnitudePattern q) % 2 ^ 31 = magnitudePattern q := by omega
    have h2 : (2 ^ 31 + magnitudePattern q) / 2 ^ 31 = 1 := by omega
    simp only [h1, h2, hp, hq, signed, if_true, and_self]
  next h =>
    have h1 : magnitudePattern q % 2 ^ 31 = magnitudePattern q := by omega
    have h2 : magnitudePattern q / 2 ^ 31 ≠ 1 := by omega
    rw [h1]
    refine ⟨hp, ?_⟩
    simp only [signed, h2, if_false, ite_eq_right_iff]
    intro hq
    obtain h0 : magnitudePattern q = 0 := by by_contra h0; exact h ⟨hq, h0⟩
    rw [h0, patternValue_zero, neg_zero]

theorem encodeNum_toNat_mod_two (q : Number) : (encodeNum q).toNat % 2 = magnitudePattern q % 2 := by
  rw [encodeNum_toNat]; split <;> omega

theorem abs_sub_signed (q v : Number) : |q - signed (q < 0) v| = |(|q| - v)| := by
  unfold signed
  split
  next h => rw [abs_of_neg h, ← abs_neg, neg_sub]; congr 1; ring
  next h => rw [abs_of_nonneg (not_lt.mp h)]

/-- `encodeNum` answers a word whose number is nearest. -/
theorem encodeNum_nearest {q r q' : Number} {w : Word} (hr : decodeNum (encodeNum q) = some r) (hw : decodeNum w = some q') :
    |q - r| ≤ |q - q'| := by
  obtain rfl := Option.some.inj ((decodeNum_encodeNum_eq q).symm.trans hr)
  obtain ⟨hp, -⟩ := (decodeNum_eq_some w q').mp hw
  calc |q - signed (q < 0) _| = |(|q| - patternValue (magnitudePattern q))| := abs_sub_signed ..
    _ ≤ |(|q| - patternValue (w.toNat % 2 ^ 31))| := (magnitudePattern_nearest_value q hp).1
    _ = |(|q| - |q'|)| := by rw [abs_of_decodeNum hw]
    _ ≤ |q - q'| := abs_abs_sub_abs_le q q'

/-- A number that has a word other than negative zero is emitted as that word. -/
theorem encodeNum_decodeNum {q : Number} {w : Word} (hw : decodeNum w = some q) (hw0 : w ≠ 0x80000000#32) :
    encodeNum q = w := by
  have hr := decodeNum_encodeNum_eq q
  have hle := encodeNum_nearest hr hw
  rw [sub_self, abs_zero] at hle
  rw [← sub_eq_zero.mp (abs_nonpos_iff.mp hle)] at hr
  exact decodeNum_injective hr hw (encodeNum_ne_negZero q) hw0

theorem decodeNum_zero : decodeNum 0#32 = some 0 := by
  rw [decodeNum_eq_some]
  exact ⟨Nat.zero_le _, by simp [signed, patternValue_zero]⟩

/-- Where another number is equally near, the emitted fraction is even: a number of the same magnitude and the other sign is not
equally near. -/
theorem encodeNum_tie {q r q' : Number} {w : Word} (hr : decodeNum (encodeNum q) = some r) (hw : decodeNum w = some q')
    (heq : |q - q'| = |q - r|) (hne : q' ≠ r) : (encodeNum q).toNat % 2 = 0 := by
  have hr' := Option.some.inj ((decodeNum_encodeNum_eq q).symm.trans hr)
  obtain ⟨hp, -⟩ := (decodeNum_eq_some w q').mp hw
  obtain ⟨hle, htie⟩ := magnitudePattern_nearest_value q hp
  have hqr : |q - r| = |(|q| - patternValue (magnitudePattern q))| := by rw [← hr', abs_sub_signed]
  have habs : |(|q| - patternValue (w.toNat % 2 ^ 31))| ≤ |q - q'| := abs_of_decodeNum hw ▸ abs_abs_sub_abs_le q q'
  rw [encodeNum_toNat_mod_two]
  refine htie (by linarith) fun hsame => hne ?_
  have hmag : |q'| = |r| := by
    rw [abs_of_decodeNum hw, hsame, ← hr', abs_signed, abs_of_nonneg (patternValue_nonneg _)]
  rcases abs_eq_abs.mp hmag with h | h
  · exact h
  · have hsq := (sq_eq_sq_iff_abs_eq_abs _ _).mpr heq
    have hprod : q * r = 0 := by rw [h] at hsq; linarith
    have hr0 : r = 0 := by
      rcases mul_eq_zero.mp hprod with rfl | hr0
      · simpa using encodeNum_nearest hr decodeNum_zero
      · exact hr0
    rw [h, hr0, neg_zero]

/-- Settles O7: the nearest pattern (`magnitudePattern_nearest`) under the number's own sign. -/
theorem responseWordNearest : Obligations.ResponseWordNearest := by
  intro q
  have hr := decodeNum_encodeNum_eq q
  exact ⟨_, hr, fun w q' hw => ⟨encodeNum_nearest hr hw, encodeNum_tie hr hw⟩, fun w hw hw0 => encodeNum_decodeNum hw hw0,
    encodeNum_decodeNum decodeNum_zero (by decide)⟩

end Sys2Proof
end

section
/-! PROOF of O2: the round trip from a command to its words and back. A command's header gives a shape, and the shape's builder
reads the operands back that the encoder wrote. -/

namespace Sys2Proof

/-! ### What the decoder answers (R100, R105) -/

/-- The decoder answers a command exactly when the header has a shape, the operand words the shape asks for make the command, and
none of them is reserved by its value; what follows is left. -/
theorem decode_eq_command (ws : List Word) (i : Instr) (rest : List Word) :
    decode ws = .command i rest ↔ ∃ h args sh, ws = h :: args ++ rest ∧ headerShape h = .ok sh ∧ args.length = sh.operands ∧
      sh.build args = some i ∧ i.admitted = true := by
  constructor
  · intro hd
    cases ws with
    | nil => cases hd
    | cons h ws =>
      cases hsh : headerShape h with
      | error r => simp only [decode, hsh, reduceCtorEq] at hd
      | ok sh =>
        simp only [decode, hsh] at hd
        split at hd
        · cases hd
        next hlen =>
          cases hbuild : sh.build (ws.take sh.operands) with
          | none => simp only [hbuild, reduceCtorEq] at hd
          | some j =>
            simp only [hbuild] at hd
            split at hd
            next hadm =>
              cases hd
              exact ⟨h, _, sh, by rw [List.cons_append, List.take_append_drop], hsh, List.length_take_of_le (not_lt.mp hlen),
                hbuild, hadm⟩
            · cases hd
  · rintro ⟨h, args, sh, rfl, hsh, hlen, hbuild, hadm⟩
    have htake : (args ++ rest).take sh.operands = args := hlen ▸ List.take_left
    have hdrop : (args ++ rest).drop sh.operands = rest := hlen ▸ List.drop_left
    have henough : ¬ (args ++ rest).length < sh.operands := by simp [hlen]
    simp only [decode, List.cons_append, hsh, henough, if_false, htake, hdrop, hbuild, hadm, if_true]

/-- A command is decoded from its words if the shape of its own header builds it from its own operand words. -/
theorem decode_encode_of_shape {i : Instr} {u : UnitCode} {op idx : Nat} {args : List Word} {sh : Shape} (rest : List Word)
    (hadm : i.admitted = true) (he : encode i = header u op idx :: args) (hop : op < 16) (hidx : idx < 256)
    (hsh : shapeOf u.code op idx = .ok sh) (hlen : args.length = sh.operands) (hbuild : sh.build args = some i) :
    decode (encode i ++ rest) = .command i rest :=
  (decode_eq_command _ _ _).mpr
    ⟨_, args, sh, by rw [he], by rw [headerShape_header u hop hidx, hsh], hlen, hbuild, hadm⟩

/-! ### Operands are read back -/

theorem withIdx_some {α : Type} {r : Option α} {x : α} (h : r = some x) (sh : α → Shape) : withIdx r sh = .ok (sh x) := by
  subst h; rfl

theorem map_eq_of_read {α β : Type} {r : Option α} {x : α} (h : r = some x) (mk : α → β) : r.map mk = some (mk x) := by
  subst h; rfl

theorem build2_eq {α β : Type} {ra : Word → Option α} {rb : Word → Option β} {a b : Word} {x : α} {y : β} (ha : ra a = some x)
    (hb : rb b = some y) (mk : α → β → Instr) : build2 ra rb mk a b = some (mk x y) := by
  simp only [build2, ha, hb]

theorem build3_eq {α β γ : Type} {ra : Word → Option α} {rb : Word → Option β} {rc : Word → Option γ} {a b c : Word} {x : α}
    {y : β} {z : γ} (ha : ra a = some x) (hb : rb b = some y) (hc : rc c = some z) (mk : α → β → γ → Instr) :
    build3 ra rb rc mk a b c = some (mk x y z) := by
  simp only [build3, ha, hb, hc]

/-- The opcode map's reader of an `INT` operand, which no word fails (R107). -/
def readInt (w : Word) : Option Nat := some (decodeInt w)

theorem readInt_encodeInt {n : Nat} (h : isIntWord n = true) : readInt (encodeInt n) = some n :=
  congrArg some (decodeInt_encodeInt (of_decide_eq_true h))

theorem decodeNums_map_encodeNum {vs : List Number} (h : vs.all isBinary32 = true) :
    decodeNums (vs.map encodeNum) = some vs := by
  induction vs with
  | nil => rfl
  | cons v vs ih =>
    obtain ⟨hv, hvs⟩ := Bool.and_eq_true_iff.mp (List.all_cons ▸ h)
    simp only [List.map_cons, decodeNums, decodeNum_encodeNum hv, ih hvs]

theorem buildMtxEval_map_encodeNum {srcs : Sources} (h : srcs.toList.all isBinary32 = true) :
    buildMtxEval (srcs.toList.map encodeNum) = some (.mtxEval srcs) := by
  rw [buildMtxEval, decodeNums_map_encodeNum h]
  rfl

theorem Waveform.code_lt (x : Waveform) : x.code < 2 ^ 32 := by cases x <;> decide
theorem FilterType.code_lt (x : FilterType) : x.code < 2 ^ 32 := by cases x <;> decide
theorem ModSrc.code_lt (x : ModSrc) : x.code < 2 ^ 32 := by cases x <;> decide
theorem MathFunc.code_lt (x : MathFunc) : x.code < 2 ^ 32 := by cases x <;> decide

theorem LfoWrite.ofWord_word {w : LfoWrite} (h : w.encodable = true) : LfoWrite.ofWord w.reg w.word = some w := by
  cases w with
  | waveform v =>
    simp only [LfoWrite.ofWord, LfoWrite.reg, LfoWrite.word, decodeInt_encodeInt v.code_lt, Waveform.ofCode_code, Option.map_some]
  | freqHz v | syncBeats v | delaySec v | delayBeats v | fadeSec v | fadeBeats v => exact map_eq_of_read (decodeNum_encodeNum h) _
  | syncEn v | delaySyncEn v | fadeSyncEn v | onceEn v | randphaseEn v | quantEn v =>
    exact map_eq_of_read (decodeBool_encodeBool v) _
  | quantLevels v | numSteps v => exact map_eq_of_read (readInt_encodeInt h) _

theorem FltWrite.ofIdx_word {w : FltWrite} (h : w.encodable = true) : ∃ f, FltWrite.ofIdx w.idx = some f ∧ f w.word = some w := by
  cases w with
  | type v =>
    refine ⟨_, rfl, ?_⟩
    simp only [FltWrite.word, decodeInt_encodeInt v.code_lt, FilterType.ofCode_code, Option.map_some]
  | cutoff v | resonance v | cutoffMod v | resMod v => exact ⟨_, rfl, map_eq_of_read (decodeNum_encodeNum h) _⟩

theorem SlotWrite.ofWord_word {w : SlotWrite} (h : w.encodable = true) : SlotWrite.ofWord w.field w.word = some w := by
  cases w with
  | enabled v => exact map_eq_of_read (decodeBool_encodeBool v) _
  | source v | secondary v =>
    simp only [SlotWrite.ofWord, SlotWrite.field, SlotWrite.word, decodeInt_encodeInt v.code_lt, ModSrc.ofCode_code,
      Option.map_some]
  | dest v =>
    simp only [SlotWrite.ofWord, SlotWrite.field, SlotWrite.word, decodeInt_encodeInt (v.code_lt.trans (by norm_num)),
      ModDest.ofCode_code, Option.map_some]
  | func v =>
    simp only [SlotWrite.ofWord, SlotWrite.field, SlotWrite.word, decodeInt_encodeInt v.code_lt, MathFunc.ofCode_code,
      Option.map_some]
  | amount v => exact map_eq_of_read (decodeNum_encodeNum h) _

/-- Only the fields 0 to 4 of slot 8 have an output's index (R41). -/
theorem slotIdx_output_iff (slot : Fin 32) (f : SlotField) :
    (64 ≤ 8 * slot.val + f.idx ∧ 8 * slot.val + f.idx ≤ 68) ↔ (MtxReg.field slot f).encodable = false := by
  have hslot : (slot = 8) ↔ slot.val = 8 := Fin.ext_iff
  simp only [MtxReg.encodable, Bool.or_eq_false_iff, Bool.not_eq_false', beq_iff_eq, beq_eq_false_iff_ne, hslot]
  cases f <;>
    simp only [SlotField.idx, ne_eq, reduceCtorEq, not_false_eq_true, not_true_eq_false, and_true, and_false, iff_false] <;> omega

theorem MtxReg.ofIdx_idx {x : MtxReg} (h : x.encodable = true) : MtxReg.ofIdx x.idx = some x := by
  cases x with
  | field slot f =>
    have hout : ¬ (64 ≤ 8 * slot.val + f.idx ∧ 8 * slot.val + f.idx ≤ 68) := by
      rw [slotIdx_output_iff, h]; exact Bool.noConfusion
    simp only [MtxReg.ofIdx, MtxReg.idx, hout, if_false, slotIdx_mod, SlotField.ofIdx_idx, Option.map_some, slotOfIdx_slotIdx]
  | output d => cases d <;> rfl

theorem MtxReg.encodable_of_ofIdx {n : Nat} {x : MtxReg} (hn : n < 256) (h : MtxReg.ofIdx n = some x) : x.encodable = true := by
  unfold MtxReg.ofIdx at h
  split at h
  next => obtain ⟨d, -, rfl⟩ := Option.map_eq_some_iff.mp h; rfl
  next hout =>
    obtain ⟨f, hf, rfl⟩ := Option.map_eq_some_iff.mp h
    have hidx : 8 * (slotOfIdx n).val + f.idx = n := by
      have : f.idx = n % 8 := by unfold SlotField.ofIdx at hf; split at hf <;> cases hf <;> simp [SlotField.idx, *]
      simp only [slotOfIdx, Fin.ofNat]
      omega
    rwa [← hidx, slotIdx_output_iff, Bool.not_eq_false] at hout

/-! ### O2: every well-formed command is decoded from its words -/

theorem decode_encode {i : Instr} (rest : List Word) (h : i.wellFormed = true) : decode (encode i ++ rest) = .command i rest := by
  obtain ⟨henc, hadm⟩ := Bool.and_eq_true_iff.mp h
  have decodes {u op idx args sh} := decode_encode_of_shape (u := u) (op := op) (idx := idx) (args := args) (sh := sh) rest hadm
  cases i with
  | noteOn | noteOff | hasEnded | lfoNoteOn | voiceNoteOff => exact decodes rfl (by decide) (by decide) rfl rfl rfl
  | step e bpm | lfoStep e bpm | engProcess sampleRate bpm =>
    obtain ⟨h1, h2⟩ := Bool.and_eq_true_iff.mp henc
    exact decodes rfl (by decide) (by decide) rfl rfl (build2_eq (decodeNum_encodeNum h1) (decodeNum_encodeNum h2) _)
  | wr reg v =>
    exact decodes rfl (by decide) reg.idx_lt (withIdx_some reg.ofIdx_idx _) rfl (map_eq_of_read (decodeNum_encodeNum henc) _)
  | rd reg => exact decodes rfl (by decide) reg.idx_lt (withIdx_some reg.ofIdx_idx _) rfl rfl
  | lfoWr w =>
    have hshape : (LfoReg.ofIdx w.reg.idx).bind lfoWrShape = lfoWrShape (.cfg w.reg) := by rw [LfoReg.ofIdx_cfg]; rfl
    exact decodes rfl (by decide) w.reg.idx_lt (withIdx_some hshape id) rfl (map_eq_of_read (LfoWrite.ofWord_word henc) _)
  | lfoRd reg => exact decodes rfl (by decide) reg.idx_lt (withIdx_some reg.ofIdx_idx _) rfl rfl
  | lfoWrStep k v =>
    refine decodes rfl (by decide) k.isLt rfl rfl ?_
    rw [Fin.ofNat_val_eq_self]
    exact map_eq_of_read (decodeNum_encodeNum henc) _
  | lfoRdStep k =>
    refine decodes rfl (by decide) k.isLt rfl rfl ?_
    rw [Fin.ofNat_val_eq_self]
    rfl
  | fltWr w =>
    obtain ⟨f, hf, hw⟩ := FltWrite.ofIdx_word (w := w) henc
    exact decodes rfl (by decide) w.idx_lt (withIdx_some hf _) rfl (map_eq_of_read hw _)
  | fltRd reg => exact decodes rfl (by decide) reg.idx_lt (withIdx_some reg.ofIdx_idx _) rfl rfl
  | fltUpdate sampleRate =>
    exact decodes rfl (by decide) (by decide) rfl rfl (map_eq_of_read (decodeNum_encodeNum henc) _)
  | fltRun n =>
    exact decodes rfl (by decide) (by decide) rfl rfl (map_eq_of_read (readInt_encodeInt henc) _)
  | mtxWr slot w =>
    have hfield : SlotField.ofIdx ((8 * slot.val + w.field.idx) % 8) = some w.field := by rw [slotIdx_mod, SlotField.ofIdx_idx]
    refine decodes rfl (by decide) (slotIdx_lt slot w.field) (withIdx_some hfield _) rfl ?_
    rw [slotOfIdx_slotIdx]
    exact map_eq_of_read (SlotWrite.ofWord_word henc) _
  | mtxRd reg => exact decodes rfl (by decide) reg.idx_lt (withIdx_some (MtxReg.ofIdx_idx henc) _) rfl rfl
  | mtxEval srcs => exact decodes rfl (by decide) (by decide) rfl rfl (buildMtxEval_map_encodeNum henc)
  | voiceNoteOn note vel =>
    exact decodes rfl (by decide) (by decide) rfl rfl (build2_eq (decodeSeven_encodeInt note) (decodeSeven_encodeInt vel) _)
  | voiceRd reg => exact decodes rfl (by decide) reg.idx_lt (withIdx_some reg.ofIdx_idx _) rfl rfl
  | voiceRender n sampleRate bpm =>
    obtain ⟨h12, h3⟩ := Bool.and_eq_true_iff.mp henc
    obtain ⟨h1, h2⟩ := Bool.and_eq_true_iff.mp h12
    exact decodes rfl (by decide) (by decide) rfl rfl (build3_eq (readInt_encodeInt h1)
      (decodeNum_encodeNum h2) (decodeNum_encodeNum h3) _)
  | engNoteOn part note vel | engNoteOff part note vel =>
    exact decodes rfl (by decide) (by decide) rfl rfl (build3_eq (readInt_encodeInt henc)
      (decodeSeven_encodeInt note) (decodeSeven_encodeInt vel) _)
  | engPitchbend part v =>
    obtain ⟨h1, h2⟩ := Bool.and_eq_true_iff.mp henc
    exact decodes rfl (by decide) (by decide) rfl rfl (build2_eq (readInt_encodeInt h1)
      (decodeNum_encodeNum h2) _)
  | engCc part cc v =>
    obtain ⟨h1, h2⟩ := Bool.and_eq_true_iff.mp henc
    exact decodes rfl (by decide) (by decide) rfl rfl (build3_eq (readInt_encodeInt h1)
      (decodeCc_encodeInt cc) (decodeNum_encodeNum h2) _)

/-- Settles O2: the shape of each command's own header builds the command from its own operand words (`decode_encode`). -/
theorem decodeEncodeRoundTrip : Obligations.DecodeEncodeRoundTrip := fun _ rest h => decode_encode rest h

end Sys2Proof
end

section
/-! PROOF of O3 and O4: what the decoder accepts. Every shape of the opcode map builds well-formed commands of its own length; but
two enumerations accept codes they do not have, so the words of an accepted command need not be its own. -/

namespace Sys2Proof

/-! ### A number that a word carries is one of the format (R106) -/

theorem patternUnits_significand {p : Nat} (hp : p ≤ binary32Max) :
    ∃ k t, patternUnits p = t * 2 ^ k ∧ t < 2 ^ 24 ∧ k ≤ 253 := by
  obtain ⟨k, t, rfl, ht, hk⟩ := pattern_split p
  unfold binary32Max at hp
  exact ⟨k, t, patternUnits_split ht hk, ht, by omega⟩

/-- A denominator that divides `2^149` makes a whole number of units of the size of `q`. -/
theorem units_of_abs {q : Number} {m : Nat} (h : |q| = (m : Number) / 2 ^ 149) :
    q.den ∣ 2 ^ 149 ∧ q.num.natAbs * (2 ^ 149 / q.den) = m := by
  have hdvd : q.den ∣ 2 ^ 149 := by
    have hdivInt : ∃ a : Int, q = Rat.divInt a (2 ^ 149 : Nat) := by
      rcases abs_choice q with habs | habs
      · exact ⟨m, by rw [Rat.divInt_eq_div, ← habs, h]; push_cast; rfl⟩
      · exact ⟨-m, by rw [Rat.divInt_eq_div, ← neg_neg q, ← habs, h]; push_cast; ring⟩
    obtain ⟨a, ha⟩ := hdivInt
    have := Rat.den_dvd a (2 ^ 149 : Nat)
    rw [← ha] at this
    exact Int.natCast_dvd_natCast.mp this
  refine ⟨hdvd, ?_⟩
  have hden : (q.den : Number) ≠ 0 := Nat.cast_ne_zero.mpr q.den_pos.ne'
  have hnum := abs_eq_natAbs_div q
  rw [h, div_mul_cancel₀ _ (by positivity), div_eq_iff hden] at hnum
  have hnum : q.num.natAbs * 2 ^ 149 = m * q.den := by exact_mod_cast hnum
  exact Nat.eq_of_mul_eq_mul_right q.den_pos (by rw [Nat.mul_assoc, Nat.div_mul_cancel hdvd, hnum])

/-- A number of units whose significant bits fit in 24. -/
theorem isBinary32_of_units {q : Number} {t k : Nat} (h : |q| = ((t * 2 ^ k : Nat) : Number) / 2 ^ 149) (ht : t < 2 ^ 24)
    (hk : k ≤ 253) : isBinary32 q = true := by
  obtain ⟨hden, hunits⟩ := units_of_abs h
  have hlt : t * 2 ^ k < 2 ^ (24 + k) := by
    rw [Nat.pow_add]; exact Nat.mul_lt_mul_of_pos_right ht (Nat.two_pow_pos k)
  have hlog : Nat.log2 (t * 2 ^ k) - 23 ≤ k := by
    rcases Nat.eq_zero_or_pos (t * 2 ^ k) with h0 | h0
    · simp [h0]
    · have := (Nat.log2_lt h0.ne').mpr hlt
      omega
  have hulp : 2 ^ (Nat.log2 (t * 2 ^ k) - 23) ∣ t * 2 ^ k := (Nat.pow_dvd_pow 2 hlog).mul_left t
  have hsize : t * 2 ^ k < 2 ^ 277 := hlt.trans_le (pow_le_pow_right₀ one_le_two (by omega))
  simp only [isBinary32, hunits, Bool.and_eq_true, beq_iff_eq, decide_eq_true_eq]
  exact ⟨⟨Nat.mod_eq_zero_of_dvd hden, Nat.div_mul_cancel hulp⟩, hsize⟩

theorem isBinary32_of_decodeNum {w : Word} {q : Number} (h : decodeNum w = some q) : isBinary32 q = true := by
  obtain ⟨hp, -⟩ := (decodeNum_eq_some w q).mp h
  obtain ⟨k, t, hunits, ht, hk⟩ := patternUnits_significand hp
  exact isBinary32_of_units (by rw [abs_of_decodeNum h, patternValue, hunits]) ht hk

/-! ### O3: every decoded command is well formed and takes its own words -/

/-- Every command a shape builds has words for its operands, as many as the shape asks for. -/
def Shape.Builds (sh : Shape) : Prop :=
  ∀ args i, sh.build args = some i → i.encodable = true ∧ (encode i).length = sh.operands + 1

theorem Shape.Builds.of0 {i : Instr} (henc : i.encodable = true) (hlen : (encode i).length = 1) : (Shape.of0 i).Builds := by
  rintro args j ⟨⟩
  exact ⟨henc, hlen⟩

theorem Shape.Builds.of1 {α : Type} {read : Word → Option α} {mk : α → Instr}
    (henc : ∀ w x, read w = some x → (mk x).encodable = true) (hlen : ∀ x, (encode (mk x)).length = 2) :
    (Shape.of1 fun w => (read w).map mk).Builds := by
  intro args i h
  unfold Shape.of1 at h
  dsimp only at h
  split at h
  · obtain ⟨x, hx, rfl⟩ := Option.map_eq_some_iff.mp h
    exact ⟨henc _ x hx, hlen x⟩
  · cases h

theorem build2_eq_some {α β : Type} {ra : Word → Option α} {rb : Word → Option β} {mk : α → β → Instr} {a b : Word} {i : Instr}
    (h : build2 ra rb mk a b = some i) : ∃ x y, ra a = some x ∧ rb b = some y ∧ i = mk x y := by
  unfold build2 at h
  split at h
  next x y hx hy => cases h; exact ⟨x, y, hx, hy, rfl⟩
  · cases h

theorem build3_eq_some {α β γ : Type} {ra : Word → Option α} {rb : Word → Option β} {rc : Word → Option γ} {mk : α → β → γ → Instr}
    {a b c : Word} {i : Instr} (h : build3 ra rb rc mk a b c = some i) :
    ∃ x y z, ra a = some x ∧ rb b = some y ∧ rc c = some z ∧ i = mk x y z := by
  unfold build3 at h
  split at h
  next x y z hx hy hz => cases h; exact ⟨x, y, z, hx, hy, hz, rfl⟩
  · cases h

theorem Shape.Builds.of2 {α β : Type} {ra : Word → Option α} {rb : Word → Option β} {mk : α → β → Instr}
    (henc : ∀ a b x y, ra a = some x → rb b = some y → (mk x y).encodable = true) (hlen : ∀ x y, (encode (mk x y)).length = 3) :
    (Shape.of2 (build2 ra rb mk)).Builds := by
  intro args i h
  unfold Shape.of2 at h
  dsimp only at h
  split at h
  · obtain ⟨x, y, hx, hy, rfl⟩ := build2_eq_some h
    exact ⟨henc _ _ x y hx hy, hlen x y⟩
  · cases h

theorem Shape.Builds.of3 {α β γ : Type} {ra : Word → Option α} {rb : Word → Option β} {rc : Word → Option γ}
    {mk : α → β → γ → Instr} (henc : ∀ a b c x y z, ra a = some x → rb b = some y → rc c = some z → (mk x y z).encodable = true)
    (hlen : ∀ x y z, (encode (mk x y z)).length = 4) : (Shape.of3 (build3 ra rb rc mk)).Builds := by
  intro args i h
  unfold Shape.of3 at h
  dsimp only at h
  split at h
  · obtain ⟨x, y, z, hx, hy, hz, rfl⟩ := build3_eq_some h
    exact ⟨henc _ _ _ x y z hx hy hz, hlen x y z⟩
  · cases h

theorem isIntWord_of_readInt {w : Word} {n : Nat} (h : readInt w = some n) : isIntWord n = true := by
  cases h; exact decide_eq_true w.isLt

theorem LfoWrite.encodable_of_ofWord {c : LfoCfg} {w : Word} {x : LfoWrite} (h : LfoWrite.ofWord c w = some x) :
    x.encodable = true := by
  cases c with
  | waveform | syncEn | delaySyncEn | fadeSyncEn | onceEn | randphaseEn | quantEn =>
    obtain ⟨v, -, rfl⟩ := Option.map_eq_some_iff.mp h
    rfl
  | freqHz | syncBeats | delaySec | delayBeats | fadeSec | fadeBeats =>
    obtain ⟨v, hv, rfl⟩ := Option.map_eq_some_iff.mp h
    exact isBinary32_of_decodeNum hv
  | quantLevels | numSteps => cases h; exact isIntWord_of_readInt (w := w) rfl

theorem FltWrite.encodable_of_ofIdx {n : Nat} {f : Word → Option FltWrite} {w : Word} {x : FltWrite}
    (hf : FltWrite.ofIdx n = some f) (h : f w = some x) : x.encodable = true := by
  unfold FltWrite.ofIdx at hf
  split at hf <;> cases hf <;> obtain ⟨v, hv, rfl⟩ := Option.map_eq_some_iff.mp h
  · rfl
  all_goals exact isBinary32_of_decodeNum hv

theorem SlotWrite.encodable_of_ofWord {f : SlotField} {w : Word} {x : SlotWrite} (h : SlotWrite.ofWord f w = some x) :
    x.encodable = true := by
  cases f with
  | enabled | source | secondary | dest | func =>
    obtain ⟨v, -, rfl⟩ := Option.map_eq_some_iff.mp h
    rfl
  | amount =>
    obtain ⟨v, hv, rfl⟩ := Option.map_eq_some_iff.mp h
    exact isBinary32_of_decodeNum hv

theorem decodeNums_all_isBinary32 {ws : List Word} {vs : List Number} (h : decodeNums ws = some vs) :
    vs.all isBinary32 = true := by
  induction ws generalizing vs with
  | nil => cases h; rfl
  | cons w ws ih =>
    unfold decodeNums at h
    split at h
    next v vs' hv hvs => cases h; rw [List.all_cons, isBinary32_of_decodeNum hv, ih hvs, Bool.and_self]
    · cases h

theorem toList_of_sourcesOfList {vs : List Number} {srcs : Sources} (h : sourcesOfList vs = some srcs) : srcs.toList = vs := by
  unfold sourcesOfList at h
  split at h <;> cases h
  rfl

theorem buildMtxEval_builds : Shape.Builds ⟨13, buildMtxEval⟩ := by
  intro args i h
  unfold buildMtxEval at h
  dsimp only at h
  split at h
  next vs hvs =>
    obtain ⟨srcs, hsrcs, rfl⟩ := Option.map_eq_some_iff.mp h
    refine ⟨?_, rfl⟩
    rw [Instr.encodable, toList_of_sourcesOfList hsrcs]
    exact decodeNums_all_isBinary32 hvs
  · cases h

theorem noIdx_eq_ok {idx : Nat} {sh sh' : Shape} (h : noIdx idx sh = .ok sh') : sh = sh' := by
  unfold noIdx at h
  split at h
  · cases h; rfl
  · cases h

theorem withIdx_eq_ok {α : Type} {r : Option α} {f : α → Shape} {sh : Shape} (h : withIdx r f = .ok sh) :
    ∃ x, r = some x ∧ f x = sh := by
  unfold withIdx at h
  split at h
  next x => cases h; exact ⟨x, rfl, rfl⟩
  · cases h

theorem noIdx_builds {idx : Nat} {sh sh' : Shape} (hsh : sh.Builds) (h : noIdx idx sh = .ok sh') : sh'.Builds :=
  noIdx_eq_ok h ▸ hsh

theorem withIdx_builds {α : Type} {r : Option α} {f : α → Shape} {sh : Shape} (hf : ∀ x, r = some x → (f x).Builds)
    (h : withIdx r f = .ok sh) : sh.Builds := by
  obtain ⟨x, hx, rfl⟩ := withIdx_eq_ok h
  exact hf x hx

theorem lfoWrShape_builds {r : LfoReg} {sh : Shape} (h : lfoWrShape r = some sh) : sh.Builds := by
  cases r with
  | cfg c => cases h; exact Shape.Builds.of1 (mk := .lfoWr) (fun _ _ => LfoWrite.encodable_of_ofWord) fun _ => rfl
  | run => cases h

theorem Shape.Builds.of1_num {mk : Number → Instr} (henc : ∀ v, isBinary32 v = true → (mk v).encodable = true)
    (hlen : ∀ v, (encode (mk v)).length = 2) : (Shape.of1 fun w => (decodeNum w).map mk).Builds :=
  Shape.Builds.of1 (fun _ v hv => henc v (isBinary32_of_decodeNum hv)) hlen

theorem Shape.Builds.of2_num {mk : Number → Number → Instr}
    (henc : ∀ u v, isBinary32 u = true → isBinary32 v = true → (mk u v).encodable = true)
    (hlen : ∀ u v, (encode (mk u v)).length = 3) : (Shape.of2 (build2 decodeNum decodeNum mk)).Builds :=
  Shape.Builds.of2 (fun _ _ u v hu hv => henc u v (isBinary32_of_decodeNum hu) (isBinary32_of_decodeNum hv)) hlen

/-- Every shape of the opcode map builds such commands: its rows in their order. -/
theorem shapeOf_builds {unit op idx : Nat} {sh : Shape} (hidx : idx < 256) (h : shapeOf unit op idx = .ok sh) : sh.Builds := by
  have hand {a b : Bool} (ha : a = true) (hb : b = true) : (a && b) = true := Bool.and_eq_true_iff.mpr ⟨ha, hb⟩
  unfold shapeOf at h
  split at h
  · exact noIdx_builds (.of0 (i := .noteOn) rfl rfl) h
  · exact noIdx_builds (.of0 (i := .noteOff) rfl rfl) h
  · exact noIdx_builds (Shape.Builds.of2_num (mk := .step) (fun _ _ => hand) fun _ _ => rfl) h
  · exact noIdx_builds (.of0 (i := .hasEnded) rfl rfl) h
  · exact withIdx_builds (fun reg _ => Shape.Builds.of1_num (mk := .wr reg) (fun _ => id) fun _ => rfl) h
  · exact withIdx_builds (fun reg _ => .of0 (i := .rd reg) rfl rfl) h
  · exact noIdx_builds (.of0 (i := .lfoNoteOn) rfl rfl) h
  · exact noIdx_builds (Shape.Builds.of2_num (mk := .lfoStep) (fun _ _ => hand) fun _ _ => rfl) h
  · refine withIdx_builds (fun sh' hsh' => ?_) h
    obtain ⟨r, -, hr⟩ := Option.bind_eq_some_iff.mp hsh'
    exact lfoWrShape_builds hr
  · exact withIdx_builds (fun reg _ => .of0 (i := .lfoRd reg) rfl rfl) h
  · cases h; exact Shape.Builds.of1_num (mk := .lfoWrStep _) (fun _ => id) fun _ => rfl
  · cases h; exact .of0 (i := .lfoRdStep _) rfl rfl
  · exact withIdx_builds (fun f hf => Shape.Builds.of1 (mk := .fltWr) (fun _ _ => FltWrite.encodable_of_ofIdx hf) fun _ => rfl) h
  · exact withIdx_builds (fun reg _ => .of0 (i := .fltRd reg) rfl rfl) h
  · exact noIdx_builds (Shape.Builds.of1_num (mk := .fltUpdate) (fun _ => id) fun _ => rfl) h
  · exact noIdx_builds (Shape.Builds.of1 (read := readInt) (mk := .fltRun) (fun _ _ => isIntWord_of_readInt) fun _ => rfl) h
  · exact withIdx_builds
      (fun f _ => Shape.Builds.of1 (mk := .mtxWr _) (fun _ _ => SlotWrite.encodable_of_ofWord) fun _ => rfl) h
  · exact withIdx_builds (fun reg hreg => .of0 (i := .mtxRd reg) (MtxReg.encodable_of_ofIdx hidx hreg) rfl) h
  · exact noIdx_builds buildMtxEval_builds h
  · exact noIdx_builds (.of2 (mk := .voiceNoteOn) (fun _ _ _ _ _ _ => rfl) fun _ _ => rfl) h
  · exact noIdx_builds (.of0 (i := .voiceNoteOff) rfl rfl) h
  · exact withIdx_builds (fun reg _ => .of0 (i := .voiceRd reg) rfl rfl) h
  · refine noIdx_builds (.of3 (ra := readInt) (mk := .voiceRender) (fun _ _ _ _ _ _ hn hsr hbpm => ?_) fun _ _ _ => rfl) h
    exact hand (hand (isIntWord_of_readInt hn) (isBinary32_of_decodeNum hsr)) (isBinary32_of_decodeNum hbpm)
  · exact noIdx_builds (.of3 (ra := readInt) (mk := .engNoteOn) (fun _ _ _ _ _ _ hpart _ _ => isIntWord_of_readInt hpart)
      fun _ _ _ => rfl) h
  · exact noIdx_builds (.of3 (ra := readInt) (mk := .engNoteOff) (fun _ _ _ _ _ _ hpart _ _ => isIntWord_of_readInt hpart)
      fun _ _ _ => rfl) h
  · refine noIdx_builds (.of2 (ra := readInt) (mk := .engPitchbend) (fun _ _ _ _ hpart hv => ?_) fun _ _ => rfl) h
    exact hand (isIntWord_of_readInt hpart) (isBinary32_of_decodeNum hv)
  · refine noIdx_builds (.of3 (ra := readInt) (mk := .engCc) (fun _ _ _ _ _ _ hpart _ hv => ?_) fun _ _ _ => rfl) h
    exact hand (isIntWord_of_readInt hpart) (isBinary32_of_decodeNum hv)
  · exact noIdx_builds (Shape.Builds.of2_num (mk := .engProcess) (fun _ _ => hand) fun _ _ => rfl) h
  · cases h

theorem headerIdx_lt (h : Word) : headerIdx h < 256 := Nat.mod_lt _ (by norm_num)

theorem headerShape_builds {h : Word} {sh : Shape} (hsh : headerShape h = .ok sh) : sh.Builds := by
  unfold headerShape at hsh
  split at hsh
  · cases hsh
  · exact shapeOf_builds (headerIdx_lt h) hsh

/-- Settles O3: the shape of an accepted header builds well-formed commands of its own length (`headerShape_builds`). -/
theorem decodedCommandsAreWellFormed : Obligations.DecodedCommandsAreWellFormed := by
  intro ws i rest h
  obtain ⟨hd, args, sh, rfl, hsh, hlen, hbuild, hadm⟩ := (decode_eq_command _ _ _).mp h
  obtain ⟨henc, hwords⟩ := headerShape_builds hsh args i hbuild
  exact ⟨Bool.and_eq_true_iff.mpr ⟨henc, hadm⟩, hd :: args, rfl, by rw [List.length_cons, hlen, hwords]⟩

/-! ### O4: the converse round trip fails -/

/-- `FLT.WR TYPE` with the operand word 3, which is no filter type's code, is decoded all the same (R119 makes it reserved): the
`none` in the last case of `FilterType.ofCode` is the filter type, not the empty option. -/
theorem decode_fltWr_type_three : decode [0x25000000#32, 3#32] = .command (.fltWr (.type .none)) [] := rfl

/-- Refutes O4: the write of type none that `decode_fltWr_type_three` answers has the operand word 0, not 3. `ModSrc.ofCode` ends in
the same way, so `MTX.WR` loses the operand of a source or secondary field too. -/
theorem not_encodeUndoesDecode : ¬ Obligations.EncodeUndoesDecode := fun h =>
  absurd (h _ _ _ decode_fltWr_type_three (by simp)) (by decide)

end Sys2Proof
end

section
/-! PROOF of O5: the header decoder and the table of the opcode map say the same (R101 to R105, R118), row by row. -/

namespace Sys2Proof.Machine

/-! ### The indices with a name are those the table admits -/

theorem isSome_envParam_ofIdx (n : Nat) : (EnvParam.ofIdx n).isSome = decide (n ≤ 3) := by
  unfold EnvParam.ofIdx; split <;> simp; grind
theorem isSome_envReg_ofIdx (n : Nat) : (EnvReg.ofIdx n).isSome = decide (n ≤ 5) := by
  unfold EnvReg.ofIdx; split <;> simp; grind
theorem isSome_lfoReg_ofIdx (n : Nat) : (LfoReg.ofIdx n).isSome = (n ≤ 14 || (16 ≤ n && n ≤ 20)) := by
  unfold LfoReg.ofIdx; split <;> simp; grind
theorem isSome_lfoWr_ofIdx (n : Nat) : ((LfoReg.ofIdx n).bind lfoWrShape).isSome = decide (n ≤ 14) := by
  unfold LfoReg.ofIdx; split <;> simp [lfoWrShape]; grind
theorem isSome_fltWrite_ofIdx (n : Nat) : (FltWrite.ofIdx n).isSome = decide (n ≤ 4) := by
  unfold FltWrite.ofIdx; split <;> simp; grind
theorem isSome_fltReg_ofIdx (n : Nat) :
    (FltReg.ofIdx n).isSome = (n ≤ 4 || (8 ≤ n && n ≤ 12) || (16 ≤ n && n ≤ 23)) := by
  unfold FltReg.ofIdx; split <;> simp; grind
theorem isSome_slotField_ofIdx (n : Nat) : (SlotField.ofIdx n).isSome = decide (n ≤ 5) := by
  unfold SlotField.ofIdx; split <;> simp; grind
theorem isSome_modDest_ofCode (n : Nat) : (ModDest.ofCode n).isSome = decide (n ≤ 4) := by
  unfold ModDest.ofCode; split <;> simp; grind
theorem isSome_voiceReg_ofIdx (n : Nat) : (VoiceReg.ofIdx n).isSome = decide (n ≤ 10) := by
  unfold VoiceReg.ofIdx; split <;> simp; grind

theorem isSome_mtxReg_ofIdx (n : Nat) : (MtxReg.ofIdx n).isSome = decide (n % 8 ≤ 5) := by
  unfold MtxReg.ofIdx
  split
  · rw [Option.isSome_map, isSome_modDest_ofCode, decide_eq_decide]; omega
  · rw [Option.isSome_map, isSome_slotField_ofIdx]

/-! ### Row by row -/

/-- For the unit and the operation of the row, a shape with `n` operand words exists exactly at the row's indices and count. -/
def OpcodeRow.Agrees (r : OpcodeRow) : Prop :=
  ∀ idx n, (∃ sh, shapeOf r.unit r.op idx = .ok sh ∧ sh.operands = n) ↔ r.index idx = true ∧ r.operands = n

theorem noIdx_operands (idx : Nat) (sh : Shape) (n : Nat) :
    (∃ sh', noIdx idx sh = .ok sh' ∧ sh'.operands = n) ↔ noRegister idx = true ∧ sh.operands = n := by
  simp only [noIdx, noRegister, beq_iff_eq]
  split
  next h => simp [h]
  next h => simp [h]

theorem withIdx_operands {α : Type} {r : Option α} {f : α → Shape} {k : Nat} {b : Bool} (hr : r.isSome = b)
    (hf : ∀ x, r = some x → (f x).operands = k) (n : Nat) :
    (∃ sh, withIdx r f = .ok sh ∧ sh.operands = n) ↔ b = true ∧ k = n := by
  subst hr
  cases r with
  | none => simp [withIdx]
  | some x => simp [withIdx, hf x rfl]

theorem lfoWrShape_operands {r : LfoReg} {sh : Shape} (h : lfoWrShape r = some sh) : sh.operands = 1 := by
  cases r with
  | cfg c => cases h; rfl
  | run => cases h

theorem ok_operands (sh : Shape) (n : Nat) :
    (∃ sh', (Except.ok sh : Except Reserved Shape) = .ok sh' ∧ sh'.operands = n) ↔ true = true ∧ sh.operands = n := by
  simp

theorem opcodeRows_agree : ∀ r ∈ opcodeRows, r.Agrees := by
  simp only [opcodeRows, List.forall_mem_cons, List.not_mem_nil, false_implies, implies_true, and_true]
  and_intros <;> intro idx n
  · exact noIdx_operands idx _ n
  · exact noIdx_operands idx _ n
  · exact noIdx_operands idx _ n
  · exact noIdx_operands idx _ n
  · exact withIdx_operands (isSome_envParam_ofIdx idx) (fun _ _ => by rfl) n
  · exact withIdx_operands (isSome_envReg_ofIdx idx) (fun _ _ => by rfl) n
  · exact noIdx_operands idx _ n
  · exact noIdx_operands idx _ n
  · refine withIdx_operands (isSome_lfoWr_ofIdx idx) (fun sh hsh => ?_) n
    obtain ⟨r, -, hr⟩ := Option.bind_eq_some_iff.mp hsh
    exact lfoWrShape_operands hr
  · exact withIdx_operands (isSome_lfoReg_ofIdx idx) (fun _ _ => by rfl) n
  · exact ok_operands _ n
  · exact ok_operands _ n
  · exact withIdx_operands (isSome_fltWrite_ofIdx idx) (fun _ _ => by rfl) n
  · exact withIdx_operands (isSome_fltReg_ofIdx idx) (fun _ _ => by rfl) n
  · exact noIdx_operands idx _ n
  · exact noIdx_operands idx _ n
  · exact withIdx_operands (isSome_slotField_ofIdx (idx % 8)) (fun _ _ => by rfl) n
  · exact withIdx_operands (isSome_mtxReg_ofIdx idx) (fun _ _ => by rfl) n
  · exact noIdx_operands idx _ n
  · exact noIdx_operands idx _ n
  · exact noIdx_operands idx _ n
  · exact withIdx_operands (isSome_voiceReg_ofIdx idx) (fun _ _ => by rfl) n
  all_goals exact noIdx_operands idx _ n

/-- No shape is outside the table. -/
theorem row_of_shapeOf {unit op idx : Nat} {sh : Shape} (h : shapeOf unit op idx = .ok sh) :
    ∃ r ∈ opcodeRows, r.unit = unit ∧ r.op = op := by
  unfold shapeOf at h
  split at h
  case h_29 => cases h
  all_goals decide

theorem shapeOf_operands_iff (unit op idx n : Nat) :
    (∃ sh, shapeOf unit op idx = .ok sh ∧ sh.operands = n) ↔
      ∃ r ∈ opcodeRows, r.unit = unit ∧ r.op = op ∧ r.index idx = true ∧ r.operands = n := by
  constructor
  · rintro ⟨sh, hsh, hn⟩
    obtain ⟨r, hr, rfl, rfl⟩ := row_of_shapeOf hsh
    exact ⟨r, hr, rfl, rfl, (opcodeRows_agree r hr idx n).mp ⟨sh, hsh, hn⟩⟩
  · rintro ⟨r, hr, rfl, rfl, hrow⟩
    exact (opcodeRows_agree r hr idx n).mpr hrow

/-! ### The header's fields (R101) -/

theorem headerUnit_eq (h : Word) : headerUnit h = (h.extractLsb' 28 4).toNat := by
  rw [BitVec.extractLsb'_toNat, Nat.shiftRight_eq_div_pow, headerUnit]; omega

theorem headerOp_eq (h : Word) : headerOp h = (h.extractLsb' 24 4).toNat := by
  rw [BitVec.extractLsb'_toNat, Nat.shiftRight_eq_div_pow, headerOp]

theorem headerIdx_eq (h : Word) : headerIdx h = (h.extractLsb' 16 8).toNat := by
  rw [BitVec.extractLsb'_toNat, Nat.shiftRight_eq_div_pow, headerIdx]

theorem headerZero_eq_zero_iff (h : Word) : headerZero h = 0 ↔ h.extractLsb' 0 16 = 0#16 := by
  rw [← BitVec.toNat_inj, BitVec.extractLsb'_toNat, Nat.shiftRight_zero, BitVec.toNat_zero, headerZero]

theorem headerShape_eq_ok (h : Word) (sh : Shape) :
    headerShape h = .ok sh ↔ headerZero h = 0 ∧ shapeOf (headerUnit h) (headerOp h) (headerIdx h) = .ok sh := by
  unfold headerShape
  split
  next hz => simp [hz]
  next hz => simp [not_not.mp hz]

/-- Settles O5: the reserved bits are looked at first, and then every row of the table agrees with the decoder's opcode map
(`shapeOf_operands_iff`). -/
theorem reservedHeaders : Obligations.ReservedHeaders := by
  intro h n
  rw [← headerUnit_eq, ← headerOp_eq, ← headerIdx_eq, ← headerZero_eq_zero_iff, ← shapeOf_operands_iff]
  simp only [headerShape_eq_ok, and_assoc, exists_and_left]

end Sys2Proof.Machine
end

section
/-! PROOF of O1: what a step does with the words at the port (R100, R102). -/

namespace Sys2Proof.Machine

theorem foreignHeader_cons (h : Word) (ws : List Word) : foreignHeader (h :: ws) = true ↔ h.extractLsb' 28 4 ≠ 0#4 := by
  rw [foreignHeader, bne_iff_ne, headerUnit_eq, ne_eq, ne_eq, ← BitVec.toNat_inj, BitVec.toNat_zero]

/-- Where the ENV is not wired alone, and at one where the next header has `UNIT` 0, the decoder is the plain one. -/
theorem decodeAt_eq_decode {alone : Bool} {ws : List Word}
    (h : alone = false ∨ ∀ hd tl, ws = hd :: tl → hd.extractLsb' 28 4 = 0#4) : decodeAt alone ws = decode ws := by
  have hforeign : (alone && foreignHeader ws) = false := by
    rcases h with rfl | h
    · rfl
    · cases ws with
      | nil => exact Bool.and_false alone
      | cons hd tl =>
        have hown : foreignHeader (hd :: tl) = false :=
          Bool.not_eq_true _ ▸ fun hf => (foreignHeader_cons hd tl).mp hf (h hd tl rfl)
        rw [hown, Bool.and_false]
  rw [decodeAt, hforeign]
  rfl

/-- Settles O1: `step` is one arm for each answer of the decoder at the port (`decodeAt_eq_decode`). -/
theorem stepRunsDecodedCommand : Obligations.StepRunsDecodedCommand := by
  intro s
  refine ⟨fun hport => ?_, fun h ws halone hcmd hunit => ?_⟩
  · have hdecode := decodeAt_eq_decode hport
    refine ⟨fun i rest h _ => ?_, fun h => ?_, fun r h => ?_⟩ <;> simp only [step, hdecode, h]
  · have hforeign := (foreignHeader_cons h ws).mpr hunit
    simp only [step, decodeAt, halone, hcmd, hforeign, Bool.and_self, if_true]

end Sys2Proof.Machine
end

section
/-! PROOF of O8: the spec's own words, and the bytes of a stream (R109). -/

namespace Sys2Proof.Machine

/-- A word is made of its four bytes. -/
theorem word_of_bytes (w : Word) :
    BitVec.ofNat 32 ((BitVec.ofNat 8 w.toNat).toNat + (BitVec.ofNat 8 (w.toNat / 2 ^ 8)).toNat * 2 ^ 8 +
      (BitVec.ofNat 8 (w.toNat / 2 ^ 16)).toNat * 2 ^ 16 + (BitVec.ofNat 8 (w.toNat / 2 ^ 24)).toNat * 2 ^ 24) = w := by
  refine BitVec.eq_of_toNat_eq ?_
  have := w.isLt
  simp only [BitVec.toNat_ofNat]
  omega

theorem deserialise_serialise (ws : List Word) : deserialise (serialise ws) = ws := by
  induction ws with
  | nil => rfl
  | cons w ws ih => exact congrArg₂ List.cons (word_of_bytes w) ih

/-- Settles O8: the fixed words by evaluation, the bytes by induction on the stream (`deserialise_serialise`). -/
theorem specWordsDecode : Obligations.SpecWordsDecode :=
  ⟨by decide +kernel, by decide +kernel, by decide +kernel, by decide +kernel, by decide +kernel, by decide,
    deserialise_serialise⟩

end Sys2Proof.Machine
end

section
/-! PROOF of O17: which commands emit a word. Each shared operation either leaves the response port or responds once (R108). -/

namespace Sys2Proof.Machine

section

variable {s t : State}

theorem State.onEnv_resp {f : Env → Except Refusal Env} (h : s.onEnv f = .ok t) : t.resp = s.resp := by
  obtain ⟨e, e', -, -, rfl⟩ := (s.onEnv_ok t f).mp h
  exact s.setEnv_resp _ e'

theorem State.readEnv_responds {f : Env → Reading} (h : s.readEnv f = .ok t) : ∃ w, Responds s t .env w := by
  obtain ⟨e, -, rfl⟩ := (s.readEnv_ok t f).mp h
  exact ⟨_, s.respond_resp .env (f e)⟩

theorem State.onLfo_resp {f : Lfo → Nat → Except Refusal (Lfo × Nat)} (h : s.onLfo f = .ok t) : t.resp = s.resp := by
  obtain ⟨l, y, -, -, rfl⟩ := (s.onLfo_ok t f).mp h
  exact s.setLfo_resp _ y.1

theorem State.readLfo_responds {f : Lfo → Reading} (h : s.readLfo f = .ok t) : ∃ w, Responds s t .lfo w := by
  obtain ⟨l, -, rfl⟩ := (s.readLfo_ok t f).mp h
  exact ⟨_, s.respond_resp .lfo (f l)⟩

theorem State.onFlt_resp {f : Flt → Except Refusal Flt} (h : s.onFlt f = .ok t) : t.resp = s.resp := by
  obtain ⟨x, y, -, -, rfl⟩ := (s.onFlt_ok t f).mp h
  exact s.setFlt_resp _ y

theorem State.onFltBuf_resp {f : Flt → Scratch → Except Refusal (Flt × Scratch)} (h : s.onFltBuf f = .ok t) :
    t.resp = s.resp := by
  obtain ⟨x, b, y, -, -, -, rfl⟩ := (s.onFltBuf_ok t f).mp h
  rw [State.setBuf_resp, State.setFlt_resp]

theorem State.onMtx_resp {f : Mtx → Mtx} (h : s.onMtx f = .ok t) : t.resp = s.resp := by
  obtain ⟨m, -, rfl⟩ := (s.onMtx_ok t f).mp h
  exact s.setMtx_resp _ (f m)

/-! ### Commands that are written out -/

theorem execLfoWrStep_resp {i : Fin 256} {v : Number} (h : execLfoWrStep i v s = .next t) : t.resp = s.resp := by
  unfold execLfoWrStep at h
  split at h
  · exact State.onLfo_resp ((outcome_next _ _).mp h)
  · cases h

theorem execLfoRdStep_responds {i : Fin 256} (h : execLfoRdStep i s = .next t) : ∃ w, Responds s t .lfo w := by
  unfold execLfoRdStep at h
  split at h
  · exact State.readLfo_responds ((outcome_next _ _).mp h)
  · cases h

theorem execFltRd_responds {reg : FltReg} (h : execFltRd reg s = .next t) : ∃ w, Responds s t .flt w := by
  unfold execFltRd at h
  split at h
  · cases h
  · cases h; exact ⟨_, rfl⟩

/-- A denied read responds too, with a free word (log entry 11). -/
theorem execMtxRd_responds {reg : MtxReg} (h : execMtxRd reg s = .next t) : ∃ w, Responds s t .mtx w := by
  unfold execMtxRd at h
  split at h
  · cases h
  split at h
  · cases h; exact ⟨_, rfl⟩
  · cases h; exact ⟨_, rfl⟩

theorem execVoiceNoteOn_resp {note vel : Fin 128} (h : execVoiceNoteOn note vel s = .next t) : t.resp = s.resp := by
  unfold execVoiceNoteOn at h
  split at h
  · cases h
  split at h
  · cases h
  split at h
  · cases h
  · cases h; rfl

theorem execVoiceNoteOff_resp (h : execVoiceNoteOff s = .next t) : t.resp = s.resp := by
  unfold execVoiceNoteOff at h
  split at h
  · cases h
  · cases h; exact s.setVoice_resp _ _

theorem execVoiceRd_responds {reg : VoiceReg} (h : execVoiceRd reg s = .next t) : ∃ w, Responds s t .voice w := by
  unfold execVoiceRd at h
  split at h
  · cases h
  · cases h; exact ⟨_, rfl⟩

/-- The block leaves the port, so the one word is that of the render's own response (R290). -/
theorem execVoiceRender_responds {n : Nat} {sampleRate bpm : Number} (h : execVoiceRender n sampleRate bpm s = .next t) :
    ∃ w, Responds s t .voice w := by
  unfold execVoiceRender at h
  split at h
  · cases h
  split at h
  · cases h
  next hx =>
    cases h
    exact ⟨_, by rw [Responds, State.respond_resp, State.setVoice_resp, (renderVoice_still hx).resp]⟩

theorem processParts_resp {ps : List (Fin 16)} {sampleRate bpm : Number} {y : State × Bool}
    (h : processParts sampleRate bpm s ps = .ok y) : y.1.resp = s.resp := by
  induction ps generalizing s y with
  | nil => cases h; rfl
  | cons p ps ih =>
    unfold processParts at h
    split at h
    · cases h
    next x hx =>
      obtain ⟨-, -, -, hresp, -, -, -⟩ := processPart_frame hx
      cases hrest : processParts sampleRate bpm x.1 ps with
      | error r => rw [hrest] at h; cases h
      | ok z => rw [hrest] at h; cases h; exact (ih (y := z) hrest).trans hresp

/-- The Voices' own renders emit nothing: the pass has one response (R330). -/
theorem execEngProcess_responds {sampleRate bpm : Number} (h : execEngProcess sampleRate bpm s = .next t) :
    ∃ w, Responds s t .eng w := by
  unfold execEngProcess at h
  split at h
  · cases h
  next hx => cases h; exact ⟨_, by rw [Responds, State.respond_resp, processParts_resp hx]⟩

theorem execEngNoteOn_resp {part : Nat} {note vel : Fin 128} (h : execEngNoteOn part note vel s = .next t) :
    t.resp = s.resp := by
  unfold execEngNoteOn at h
  split at h
  · cases h; rfl
  split at h
  · cases h
  · cases h; rfl

theorem execEngNoteOff_resp {part : Nat} {note vel : Fin 128} (h : execEngNoteOff part note vel s = .next t) :
    t.resp = s.resp := by
  unfold execEngNoteOff at h
  split at h
  · cases h; rfl
  · cases h; rfl

theorem execEngPitchbend_resp {part : Nat} {value : Number} (h : execEngPitchbend part value s = .next t) :
    t.resp = s.resp := by
  unfold execEngPitchbend at h
  split at h
  · cases h
  split at h
  · cases h; rfl
  · cases h; rfl

theorem execEngCc_resp {part : Nat} {cc : Fin 256} {value : Number} (h : execEngCc part cc value s = .next t) :
    t.resp = s.resp := by
  unfold execEngCc at h
  split at h
  · cases h
  split at h
  · cases h; rfl
  · cases h; rfl

end

/-- Settles O17: each command is one of the operations above. -/
theorem commandsThatRespond : Obligations.CommandsThatRespond := by
  intro i s t h
  cases i with
  | noteOn | noteOff | step | wr => exact State.onEnv_resp ((outcome_next _ _).mp h)
  | hasEnded | rd => exact State.readEnv_responds ((outcome_next _ _).mp h)
  | lfoNoteOn | lfoStep | lfoWr => exact State.onLfo_resp ((outcome_next _ _).mp h)
  | lfoRd => exact State.readLfo_responds ((outcome_next _ _).mp h)
  | lfoWrStep => exact execLfoWrStep_resp h
  | lfoRdStep => exact execLfoRdStep_responds h
  | fltWr | fltUpdate => exact State.onFlt_resp ((outcome_next _ _).mp h)
  | fltRun => exact State.onFltBuf_resp ((outcome_next _ _).mp h)
  | fltRd => exact execFltRd_responds h
  | mtxWr | mtxEval => exact State.onMtx_resp ((outcome_next _ _).mp h)
  | mtxRd => exact execMtxRd_responds h
  | voiceNoteOn => exact execVoiceNoteOn_resp h
  | voiceNoteOff => exact execVoiceNoteOff_resp h
  | voiceRd => exact execVoiceRd_responds h
  | voiceRender => exact execVoiceRender_responds h
  | engNoteOn => exact execEngNoteOn_resp h
  | engNoteOff part note vel => exact execEngNoteOff_resp (vel := vel) h
  | engPitchbend => exact execEngPitchbend_resp h
  | engCc => exact execEngCc_resp h
  | engProcess => exact execEngProcess_responds h

end Sys2Proof.Machine
end

section
/-! The ENV on its own, for the proofs of O11, O18 and O20 to O28: what each operation does to one ENV, and what a command to the
selected ENV does to the machine. -/

namespace Sys2Proof.Machine

/-! ### The duration of a stage (R131) -/

/-- The knob clamped to [0, 1] (R131). -/
def clampedKnob (p : Number) : Number := max 0 (min 1 p)

theorem duration_eq (p : Number) : duration p = 10 * clampedKnob p ^ 2 := by
  simp only [duration, Config.envDurScale, Machine.sq, clamp_unit, clampedKnob, pow_two]

theorem clampedKnob_nonneg (p : Number) : 0 ≤ clampedKnob p := le_max_left _ _

theorem clampedKnob_le_one (p : Number) : clampedKnob p ≤ 1 := max_le zero_le_one (min_le_left _ _)

theorem clampedKnob_mono {p q : Number} (h : p ≤ q) : clampedKnob p ≤ clampedKnob q :=
  max_le_max_left 0 (min_le_min_left 1 h)

theorem clampedKnob_of_mem {p : Number} (h0 : 0 ≤ p) (h1 : p ≤ 1) : clampedKnob p = p := by
  rw [clampedKnob, min_eq_right h1, max_eq_right h0]

theorem clampedKnob_eq_zero_iff (p : Number) : clampedKnob p = 0 ↔ p ≤ 0 := by
  rw [clampedKnob, max_eq_left_iff, min_le_iff, or_iff_right (by norm_num)]

theorem clampedKnob_eq_one_iff (p : Number) : clampedKnob p = 1 ↔ 1 ≤ p := by
  constructor
  · intro h
    by_contra hp
    have hlt : clampedKnob p < 1 := max_lt zero_lt_one (min_lt_of_right_lt (not_le.mp hp))
    exact hlt.ne h
  · intro h
    rw [clampedKnob, min_eq_left h, max_eq_right zero_le_one]

/-! ### `NOTE_OFF` and `WR` on one ENV (R133, R136) -/

theorem Env.noteOff_of_playing {e : Env} (h : e.state = .attack ∨ e.state = .decay ∨ e.state = .sustain) :
    e.noteOff = { e with state := .release } := by
  rcases h with h | h | h <;> simp only [Env.noteOff, h]

theorem Env.noteOff_of_idle {e : Env} (h : e.state = .none ∨ e.state = .release ∨ e.state = .ended) : e.noteOff = e := by
  rcases h with h | h | h <;> simp only [Env.noteOff, h]

/-- A note-off releases the ENV or leaves it. -/
theorem Env.noteOff_cases (e : Env) :
    (e.state.code ≤ EnvState.release.code ∧ e.noteOff = { e with state := .release }) ∨ e.noteOff = e := by
  cases hs : e.state with
  | none => exact .inr (Env.noteOff_of_idle (.inl hs))
  | attack => exact .inl ⟨by decide, Env.noteOff_of_playing (.inl hs)⟩
  | decay => exact .inl ⟨by decide, Env.noteOff_of_playing (.inr (.inl hs))⟩
  | sustain => exact .inl ⟨by decide, Env.noteOff_of_playing (.inr (.inr hs))⟩
  | release => exact .inr (Env.noteOff_of_idle (.inr (.inl hs)))
  | ended => exact .inr (Env.noteOff_of_idle (.inr (.inr hs)))

@[simp] theorem Env.noteOff_value (e : Env) : e.noteOff.value = e.value := by
  rcases e.noteOff_cases with ⟨-, heq⟩ | heq <;> rw [heq]

@[simp] theorem Env.write_value (e : Env) (p : EnvParam) (v : Number) : (e.write p v).value = e.value := by cases p <;> rfl

@[simp] theorem Env.write_state (e : Env) (p : EnvParam) (v : Number) : (e.write p v).state = e.state := by cases p <;> rfl

/-! ### The order of the states (R146) -/

/-- What every operation but `NOTE_ON` and `WR` does to an ENV: the parameters stay and the state does not go back. -/
structure Env.Onward (e e' : Env) : Prop where
  params : e'.a = e.a ∧ e'.d = e.d ∧ e'.s = e.s ∧ e'.r = e.r
  code_le : e.state.code ≤ e'.state.code

theorem Env.Onward.refl (e : Env) : e.Onward e := ⟨⟨rfl, rfl, rfl, rfl⟩, le_rfl⟩

theorem Env.Onward.trans {e e' e'' : Env} (h : e.Onward e') (k : e'.Onward e'') : e.Onward e'' := by
  obtain ⟨⟨ha, hd, hs, hr⟩, hc⟩ := h
  obtain ⟨⟨ka, kd, ks, kr⟩, kc⟩ := k
  exact ⟨⟨ka.trans ha, kd.trans hd, ks.trans hs, kr.trans hr⟩, hc.trans kc⟩

/-- None is the first state: it is not entered. -/
theorem EnvState.none_of_code_le {a b : EnvState} (h : a.code ≤ b.code) (hb : b = .none) : a = .none := by
  subst hb
  cases a with
  | none => rfl
  | attack | decay | sustain | release | ended => exact absurd h (by decide)

/-- End is the last state: it is not left. -/
theorem EnvState.ended_of_code_le {a b : EnvState} (h : a.code ≤ b.code) (ha : a = .ended) : b = .ended := by
  subst ha
  cases b with
  | ended => rfl
  | none | attack | decay | sustain | release => exact absurd h (by decide)

theorem Env.noteOff_onward (e : Env) : e.Onward e.noteOff := by
  rcases e.noteOff_cases with ⟨hcode, heq⟩ | heq <;> rw [heq]
  · exact ⟨⟨rfl, rfl, rfl, rfl⟩, hcode⟩
  · exact .refl e

theorem Env.step_onward {e e' : Env} {el bpm : Number} (h : e.step el bpm = .ok e') : e.Onward e' := by
  refine ⟨Env.step_params h, ?_⟩
  have hnext := Env.step_state h
  cases hs : e.state <;> rw [hs] at hnext
  case none | sustain | ended => rw [hnext]
  case attack | decay | release => rcases hnext with hnext | hnext <;> simp [hnext, EnvState.code]

/-! ### Several steps of one length -/

theorem Env.stepTimes_succ_ok {e e' : Env} {el bpm : Number} {k : Nat} :
    e.stepTimes el bpm (k + 1) = .ok e' ↔ ∃ x, e.step el bpm = .ok x ∧ x.stepTimes el bpm k = .ok e' := by
  rw [Env.stepTimes]
  cases e.step el bpm <;> simp

theorem Env.stepTimes_add {e x e' : Env} {el bpm : Number} {k j : Nat} (h : e.stepTimes el bpm k = .ok x)
    (h' : x.stepTimes el bpm j = .ok e') : e.stepTimes el bpm (k + j) = .ok e' := by
  induction k generalizing e with
  | zero => cases h; rwa [Nat.zero_add]
  | succ k ih =>
    obtain ⟨y, hy, hk⟩ := Env.stepTimes_succ_ok.mp h
    rw [Nat.add_right_comm]
    exact Env.stepTimes_succ_ok.mpr ⟨y, hy, ih hk⟩

/-- What holds of an ENV and is kept by a step is kept by several. -/
theorem Env.stepTimes_induction {P : Env → Prop} {el bpm : Number}
    (hstep : ∀ e e', e.step el bpm = .ok e' → P e → P e') {e e' : Env} {k : Nat} (h : e.stepTimes el bpm k = .ok e')
    (he : P e) : P e' := by
  induction k generalizing e with
  | zero => cases h; exact he
  | succ k ih =>
    obtain ⟨x, hx, hk⟩ := Env.stepTimes_succ_ok.mp h
    exact ih hk (hstep e x hx he)

theorem Env.stepTimes_onward {e e' : Env} {el bpm : Number} {k : Nat} (h : e.stepTimes el bpm k = .ok e') : e.Onward e' :=
  Env.stepTimes_induction (P := e.Onward) (fun _ _ hs ho => ho.trans (Env.step_onward hs)) h (.refl e)

/-! ### The range of `VALUE` (R147) -/

theorem Env.noteOn_inRange (e : Env) : e.noteOn.InRange := ⟨le_rfl, zero_le_one, fun _ => rfl, fun _ => zero_lt_one, fun _ => rfl⟩

theorem Env.noteOff_inRange {e : Env} (h : e.InRange) : e.noteOff.InRange := by
  rcases e.noteOff_cases with ⟨-, heq⟩ | heq <;> rw [heq]
  · exact ⟨h.nonneg, h.le_one, nofun, nofun, nofun⟩
  · exact h

/-- The range speaks of `VALUE` and `STATE` alone. -/
theorem Env.write_inRange {e : Env} (p : EnvParam) (v : Number) (h : e.InRange) : (e.write p v).InRange := by
  obtain ⟨h0, h1, hn, ha, he⟩ := h
  constructor <;> simpa only [Env.write_value, Env.write_state]

theorem Env.stepTimes_inRange {e e' : Env} {el bpm : Number} {k : Nat} (h : e.stepTimes el bpm k = .ok e')
    (he : e.InRange) : e'.InRange :=
  Env.stepTimes_induction (fun _ _ => Env.step_inRange) h he

/-! ### A command to the selected ENV (R2, R108) -/

section

variable (s : State) {e : Env}

/-- A command that changes the selected ENV completes where its operation does, and changes nothing else. -/
theorem State.onEnv_completes (he : s.envAt s.sel.env = some e) {f : Env → Except Refusal Env} {e' : Env} (hf : f e = .ok e') :
    ∃ t, outcome (s.onEnv f) = .next t ∧ t.envAt s.sel.env = some e' ∧ SameBut s t (onlyEnv s) ∧ t.resp = s.resp ∧
      t.draws = s.draws := by
  obtain ⟨hframe, hset⟩ := s.setEnv_sameBut _ e e' he
  refine ⟨s.setEnv s.sel.env e', ?_, hset, hframe, s.setEnv_resp _ e', s.setEnv_draws _ e'⟩
  rw [s.onEnv_eq he, hf]
  rfl

/-- A command that reads the selected ENV responds one word and changes nothing. -/
theorem State.readEnv_completes (he : s.envAt s.sel.env = some e) (f : Env → Reading) :
    ∃ t, outcome (s.readEnv f) = .next t ∧ Responds s t .env (readingWord (f e)) ∧ SameBut s t {} ∧ t.draws = s.draws :=
  ⟨s.respond .env (f e), by rw [s.readEnv_eq he, outcome_ok], s.respond_resp .env (f e), s.respond_sameBut .env (f e),
    s.respond_draws .env (f e)⟩

end

end Sys2Proof.Machine
end

section
/-! PROOF of O20 to O27: the ENV's commands (40_env.md, R131 to R150), from the rules of one ENV above. -/

namespace Sys2Proof.Machine

/-- Settles O27, from the clamped knob: squaring is injective and increasing on [0, 1]. -/
theorem durationLaws : Obligations.DurationLaws := by
  refine ⟨duration_eq, fun p => ?_, fun p => ?_, fun p q h => ?_, fun p q h0 h h1 => ?_⟩
  · rw [duration_eq, ← clampedKnob_eq_zero_iff]
    simp
  · rw [duration_eq, ← clampedKnob_eq_one_iff, ← pow_eq_one_iff_of_nonneg (clampedKnob_nonneg p) two_ne_zero]
    constructor <;> intro h <;> linarith
  · rw [duration_eq, duration_eq]
    have hsq := pow_le_pow_left₀ (clampedKnob_nonneg p) (clampedKnob_mono h) 2
    linarith
  · rw [duration_eq, duration_eq, clampedKnob_of_mem h0 (h.le.trans h1), clampedKnob_of_mem (h0.trans h.le) h1]
    have hsq := pow_lt_pow_left₀ h h0 two_ne_zero
    linarith

/-- Settles O20. -/
theorem envNoteOn : Obligations.EnvNoteOn := by
  intro s e he
  obtain ⟨t, ht, henv, hframe⟩ := s.onEnv_completes he (f := fun e => .ok e.noteOn) rfl
  exact ⟨t, e.noteOn, ht, henv, rfl, rfl, hframe⟩

/-- Settles O21. -/
theorem envNoteOff : Obligations.EnvNoteOff := by
  intro s e he
  obtain ⟨t, ht, henv, hframe⟩ := s.onEnv_completes he (f := fun e => .ok e.noteOff) rfl
  exact ⟨t, e.noteOff, ht, henv, Env.noteOff_of_playing, Env.noteOff_of_idle, hframe⟩

/-- Settles O24: the flag `ENDED` is the state End. -/
theorem envHasEnded : Obligations.EnvHasEnded := by
  intro s e he
  obtain ⟨t, ht, hresp, hframe⟩ := s.readEnv_completes he fun e => boolReading e.ended
  refine ⟨t, ht, ?_, hframe⟩
  have hword : readingWord (boolReading e.ended) = if e.state = .ended then 1#32 else 0#32 := by
    cases hs : e.state <;> simp only [Env.ended, hs] <;> rfl
  rwa [hword] at hresp

/-- Settles O25. -/
theorem envWr : Obligations.EnvWr := by
  intro s e reg v he
  obtain ⟨t, ht, henv, hframe⟩ := s.onEnv_completes he (f := fun e => .ok (e.write reg v)) rfl
  refine ⟨t, ht, ?_, hframe⟩
  rw [henv]
  cases reg <;> rfl

/-- Settles O26: a parameter or `VALUE` is a number word, the state its code. -/
theorem envRd : Obligations.EnvRd := by
  intro s e reg he
  obtain ⟨t, ht, hresp, hframe⟩ := s.readEnv_completes he fun e => e.read reg
  refine ⟨t, ht, ?_, hframe⟩
  cases reg with
  | a | d | s | r | value => exact hresp
  | state =>
    simp only [Env.read] at hresp
    cases hs : e.state <;> (rw [hs] at hresp; exact hresp)

/-! ### `STEP` (R137 to R143, R150) -/

/-- When `STEP` is refused (R150). -/
theorem Env.step_error_iff (e : Env) (el bpm : Number) :
    (∃ r, e.step el bpm = .error r) ↔
      el < 0 ∨ ((e.state = .decay ∨ e.state = .sustain) ∧ (e.s < 0 ∨ 1 < e.s)) := by
  have hdomain : ∀ y : Env, (∃ r, (if e.sustainInDomain then Except.ok y else .error Refusal.sustainOutOfRange) = .error r) ↔
      (e.s < 0 ∨ 1 < e.s) := by
    intro y
    rw [← not_le, ← not_le, ← not_and_or, ← e.sustainInDomain_iff]
    cases e.sustainInDomain <;> simp
  unfold Env.step
  by_cases hel : el < 0
  · simp [hel]
  · rw [if_neg hel]
    cases hs : e.state with
    | none | attack | release | ended => simp [hel]
    | decay | sustain => simp [hel, hdomain]

/-- Settles O23: the command is refused where the step is, since the ENV is there. -/
theorem envStepRefused : Obligations.EnvStepRefused := by
  intro s e el bpm he
  rw [← e.step_error_iff el bpm]
  refine exists_congr fun r => ?_
  show outcome (s.onEnv fun e => e.step el bpm) = .refused r ↔ _
  rw [outcome_refused, s.onEnv_eq he]
  cases e.step el bpm <;> simp [Except.map]

section

variable {e : Env} {el : Number}

theorem Env.stepAttack_of_reached (h : 1 ≤ stageValue (duration e.a) 1 (e.value + el / duration e.a)) :
    e.stepAttack el = { e with value := 1, state := .decay } := if_pos h

theorem Env.stepAttack_of_below (h : stageValue (duration e.a) 1 (e.value + el / duration e.a) < 1) :
    e.stepAttack el = { e with value := stageValue (duration e.a) 1 (e.value + el / duration e.a) } := if_neg (not_le.mpr h)

theorem Env.stepDecay_of_reached (h : stageValue (duration e.d) e.s (e.value - el / duration e.d) ≤ e.s) :
    e.stepDecay el = { e with value := e.s, state := .sustain } := if_pos h

theorem Env.stepDecay_of_above (h : e.s < stageValue (duration e.d) e.s (e.value - el / duration e.d)) :
    e.stepDecay el = { e with value := stageValue (duration e.d) e.s (e.value - el / duration e.d) } := if_neg (not_le.mpr h)

theorem Env.stepRelease_of_reached (h : stageValue (duration e.r) 0 (e.value - el / duration e.r) ≤ 0) :
    e.stepRelease el = { e with value := 0, state := .ended } := if_pos h

theorem Env.stepRelease_of_above (h : 0 < stageValue (duration e.r) 0 (e.value - el / duration e.r)) :
    e.stepRelease el = { e with value := stageValue (duration e.r) 0 (e.value - el / duration e.r) } := if_neg (not_le.mpr h)

end

/-- Settles O22: the step completes because its premises hold, and by the state it starts in its value and state are those of
one stage. -/
theorem envStep : Obligations.EnvStep := by
  intro s e el bpm he hel hdomain
  obtain ⟨e', hstep⟩ : ∃ e', e.step el bpm = .ok e' := by
    cases hs : e.step el bpm with
    | ok e' => exact ⟨e', rfl⟩
    | error r =>
      rcases (e.step_error_iff el bpm).mp ⟨r, hs⟩ with hneg | ⟨hstate, hlow | hhigh⟩
      · exact absurd hneg (not_lt.mpr hel)
      · exact absurd hlow (not_lt.mpr (hdomain hstate).1)
      · exact absurd hhigh (not_lt.mpr (hdomain hstate).2)
  obtain ⟨t, ht, henv, hframe⟩ := s.onEnv_completes he (f := fun e => e.step el bpm) hstep
  obtain ⟨ha, hd, hs, hr⟩ := Env.step_params hstep
  refine ⟨t, e', fun _ => ht, ht, henv, ha, hd, hs, hr, ?_, hframe⟩
  have hdur : ∀ p : Number, 10 * max 0 (min 1 p) ^ 2 = duration p := fun p => (duration_eq p).symm
  simp only [hdur]
  obtain ⟨-, hstage⟩ := (e.step_ok e' el bpm).mp hstep
  cases hst : e.state with
  | none | ended => rw [hst] at hstage; exact hstage
  | attack =>
    rw [hst] at hstage
    subst hstage
    refine ⟨fun h => ?_, fun h => ?_⟩
    · rw [Env.stepAttack_of_reached h]; exact ⟨rfl, rfl⟩
    · rw [Env.stepAttack_of_below h]; exact ⟨rfl, hst⟩
  | decay =>
    rw [hst] at hstage
    obtain ⟨-, rfl⟩ := hstage
    refine ⟨fun h => ?_, fun h => ?_⟩
    · rw [Env.stepDecay_of_reached h]; exact ⟨rfl, rfl⟩
    · rw [Env.stepDecay_of_above h]; exact ⟨rfl, hst⟩
  | sustain =>
    rw [hst] at hstage
    obtain ⟨-, rfl⟩ := hstage
    exact ⟨rfl, hst⟩
  | release =>
    rw [hst] at hstage
    subst hstage
    refine ⟨fun h => ?_, fun h => ?_⟩
    · rw [Env.stepRelease_of_reached h]; exact ⟨rfl, rfl⟩
    · rw [Env.stepRelease_of_above h]; exact ⟨rfl, hst⟩

end Sys2Proof.Machine
end

section
/-! PROOF of O28: how many equal steps a stage takes (R148). Within a stage each step moves `VALUE` by `e / d`; the step at which the
distance is covered ends the stage. -/

namespace Sys2Proof.Machine

/-! ### A run of `STEP` commands -/

/-- `STEP` commands on the selected ENV take the steps of that ENV, one after another (R81). -/
theorem execAll_steps {el bpm : Number} {k : Nat} {s : State} {e e' : Env} (he : s.envAt s.sel.env = some e)
    (h : e.stepTimes el bpm k = .ok e') :
    ∃ t, execAll (List.replicate k (.step el bpm)) s = .next t ∧ t.envAt s.sel.env = some e' := by
  induction k generalizing s e with
  | zero => cases h; exact ⟨s, rfl, he⟩
  | succ k ih =>
    obtain ⟨x, hx, hk⟩ := Env.stepTimes_succ_ok.mp h
    obtain ⟨t, ht, henv, hframe, -⟩ := s.onEnv_completes he (f := fun e => e.step el bpm) hx
    obtain ⟨u, hu, hlast⟩ := ih (s := t) (by rw [hframe.sel]; exact henv) hk
    rw [hframe.sel] at hlast
    refine ⟨u, ?_, hlast⟩
    have hexec : exec (.step el bpm) s = .next t := ht
    rw [List.replicate_succ, execAll, hexec]
    exact hu

/-! ### A stage of `n` steps -/

/-- In `n` steps of one length the value of `e` goes along `v`, and the last of them ends the stage. -/
structure Env.Stage (e : Env) (el bpm : Number) (v : Nat → Number) (n : Nat) (last : Env) : Prop where
  pos : 0 < n
  start : v 0 = e.value
  moves : ∀ j, j + 1 < n → ({ e with value := v j } : Env).step el bpm = .ok { e with value := v (j + 1) }
  ends : ∀ j, j + 1 = n → ({ e with value := v j } : Env).step el bpm = .ok last

theorem Env.Stage.stepTimes {e last : Env} {el bpm : Number} {v : Nat → Number} {n : Nat} (h : e.Stage el bpm v n last) :
    ∀ k, (k < n → e.stepTimes el bpm k = .ok { e with value := v k }) ∧ (k = n → e.stepTimes el bpm k = .ok last) := by
  have hbefore : ∀ k, k < n → e.stepTimes el bpm k = .ok { e with value := v k } := by
    intro k hk
    induction k with
    | zero => rw [h.start]; rfl
    | succ k ih =>
      exact Env.stepTimes_add (ih (Nat.lt_of_succ_lt hk)) (Env.stepTimes_succ_ok.mpr ⟨_, h.moves k hk, rfl⟩)
  refine fun k => ⟨hbefore k, fun hk => ?_⟩
  obtain ⟨j, rfl⟩ := Nat.exists_eq_add_of_le' (hk ▸ h.pos)
  exact Env.stepTimes_add (hbefore j (by omega)) (Env.stepTimes_succ_ok.mpr ⟨_, h.ends j hk, rfl⟩)

/-- A run of at most `n` `STEP` commands through a stage. -/
theorem Env.Stage.execAll {s : State} {e last : Env} {el bpm : Number} {v : Nat → Number} {n k : Nat}
    (h : e.Stage el bpm v n last) (he : s.envAt s.sel.env = some e) (hk : k ≤ n) :
    ∃ t e', execAll (List.replicate k (.step el bpm)) s = .next t ∧ t.envAt s.sel.env = some e' ∧
      (k < n → e' = { e with value := v k }) ∧ (k = n → e' = last) := by
  obtain ⟨hbefore, hend⟩ := h.stepTimes k
  rcases hk.lt_or_eq with hlt | heq
  · obtain ⟨t, ht, henv⟩ := execAll_steps he (hbefore hlt)
    exact ⟨t, _, ht, henv, fun _ => rfl, fun heq => absurd heq hlt.ne⟩
  · obtain ⟨t, ht, henv⟩ := execAll_steps he (hend heq)
    exact ⟨t, _, ht, henv, fun hlt => absurd heq hlt.ne, fun _ => rfl⟩

/-! ### The three stages that move, with `d > 0` and `e > 0` -/

section

variable {e : Env} {el d c : Number} (bpm : Number) {j : Nat}

/-- Before the last of `⌈c d / e⌉` steps the distance `c` is not covered. -/
theorem moved_lt (hd : 0 < d) (hel : 0 < el) (h : j + 1 < ⌈c * d / el⌉₊) : j * el / d + el / d < c := by
  have hj := Nat.lt_ceil.mp h
  rw [lt_div_iff₀ hel] at hj
  rw [← add_div, div_lt_iff₀ hd]
  push_cast at hj
  linarith

/-- At the last of them it is. -/
theorem le_moved (hd : 0 < d) (hel : 0 < el) (h : j + 1 = ⌈c * d / el⌉₊) : c ≤ j * el / d + el / d := by
  have hj := Nat.le_ceil (c * d / el)
  rw [← h, div_le_iff₀ hel] at hj
  rw [← add_div, le_div_iff₀ hd]
  push_cast at hj
  linarith

theorem moved_succ (j : Nat) (el d : Number) : ((j + 1 : Nat) : Number) * el / d = j * el / d + el / d := by
  push_cast
  ring

theorem ceil_pos_of_pos (hc : 0 < c) (hd : 0 < d) (hel : 0 < el) : 0 < ⌈c * d / el⌉₊ :=
  Nat.ceil_pos.mpr (div_pos (mul_pos hc hd) hel)

theorem stageValue_of_pos (hd : 0 < d) (jump moved : Number) : stageValue d jump moved = moved := if_neg hd.ne'

theorem Env.attack_stage (hst : e.state = .attack) (hv : e.value = 0) (hd : 0 < duration e.a) (hel : 0 < el) :
    e.Stage el bpm (fun k => k * el / duration e.a) ⌈1 * duration e.a / el⌉₊ { e with value := 1, state := .decay } := by
  have hstep : ∀ v, ({ e with value := v } : Env).step el bpm = .ok (({ e with value := v } : Env).stepAttack el) := by
    intro v
    rw [Env.step_ok, hst]
    exact ⟨hel.le, rfl⟩
  refine ⟨ceil_pos_of_pos one_pos hd hel, by simp [hv], fun j hj => ?_, fun j hj => ?_⟩ <;> rw [hstep]
  · have hlt := moved_lt hd hel hj
    rw [Env.stepAttack_of_below (by rwa [stageValue_of_pos hd]), stageValue_of_pos hd, moved_succ]
  · have hle := le_moved hd hel hj
    rw [Env.stepAttack_of_reached (by rwa [stageValue_of_pos hd])]

theorem Env.decay_stage (hst : e.state = .decay) (hv : e.value = 1) (hs0 : 0 ≤ e.s) (hs1 : e.s < 1) (hd : 0 < duration e.d)
    (hel : 0 < el) :
    e.Stage el bpm (fun k => 1 - k * el / duration e.d) ⌈(1 - e.s) * duration e.d / el⌉₊
      { e with value := e.s, state := .sustain } := by
  have hstep : ∀ v, ({ e with value := v } : Env).step el bpm = .ok (({ e with value := v } : Env).stepDecay el) := by
    intro v
    rw [Env.step_ok, hst]
    exact ⟨hel.le, ⟨hs0, hs1.le⟩, rfl⟩
  refine ⟨ceil_pos_of_pos (sub_pos.mpr hs1) hd hel, by simp [hv], fun j hj => ?_, fun j hj => ?_⟩ <;> rw [hstep]
  · have hlt := moved_lt hd hel hj
    rw [Env.stepDecay_of_above (by rw [stageValue_of_pos hd]; linarith), stageValue_of_pos hd, moved_succ, sub_sub]
  · have hle := le_moved hd hel hj
    rw [Env.stepDecay_of_reached (by rw [stageValue_of_pos hd]; linarith)]

theorem Env.release_stage (hst : e.state = .release) (hv : 0 < e.value) (hd : 0 < duration e.r) (hel : 0 < el) :
    e.Stage el bpm (fun k => e.value - k * el / duration e.r) ⌈e.value * duration e.r / el⌉₊
      { e with value := 0, state := .ended } := by
  have hstep : ∀ v, ({ e with value := v } : Env).step el bpm = .ok (({ e with value := v } : Env).stepRelease el) := by
    intro v
    rw [Env.step_ok, hst]
    exact ⟨hel.le, rfl⟩
  refine ⟨ceil_pos_of_pos hv hd hel, by simp, fun j hj => ?_, fun j hj => ?_⟩ <;> rw [hstep]
  · have hlt := moved_lt hd hel hj
    rw [Env.stepRelease_of_above (by rw [stageValue_of_pos hd]; linarith), stageValue_of_pos hd, moved_succ, sub_sub]
  · have hle := le_moved hd hel hj
    rw [Env.stepRelease_of_reached (by rw [stageValue_of_pos hd]; linarith)]

end

/-- Settles O28: each of the three stages is one of `Env.Stage`, which a run of `STEP` commands goes through. -/
theorem stageLengths : Obligations.StageLengths := by
  intro s e el bpm k he hel
  refine ⟨fun hst hv hd hk => ?_, fun hst hv hs0 hs1 hd hk => ?_, fun hst hv hd hk => ?_⟩
  · have hstage := Env.attack_stage bpm hst hv hd hel
    rw [one_mul] at hstage
    obtain ⟨t, e', ht, henv, hbefore, hend⟩ := hstage.execAll he hk
    exact ⟨t, e', ht, henv, fun h => by rw [hbefore h]; exact ⟨hst, rfl⟩, fun h => by rw [hend h]; exact ⟨rfl, rfl⟩⟩
  · obtain ⟨t, e', ht, henv, hbefore, hend⟩ := (Env.decay_stage bpm hst hv hs0 hs1 hd hel).execAll he hk
    exact ⟨t, e', ht, henv, fun h => by rw [hbefore h]; exact ⟨hst, rfl⟩, fun h => by rw [hend h]; exact ⟨rfl, rfl⟩⟩
  · obtain ⟨t, e', ht, henv, hbefore, hend⟩ := (Env.release_stage bpm hst hv hd hel).execAll he hk
    exact ⟨t, e', ht, henv, fun h => by rw [hbefore h]; exact ⟨hst, rfl⟩, fun h => by rw [hend h]; exact ⟨rfl, rfl⟩⟩

end Sys2Proof.Machine
end

section
/-! PROOF of O11 and O18: what a command does to the ENV at one place of the machine, said once (`EnvEffect`), and to the Voices of a
Part where they are constructed or moved. The range of `VALUE` and the order of the states are read off. -/

namespace Sys2Proof.Machine

/-! ### What can become of one ENV (R146) -/

/-- From `s`, a command can leave the ENV `e` at the place `l` as `e'`. -/
inductive EnvEffect (s : State) (l : EnvLoc) (e : Env) : Instr → Env → Prop
  | kept (i : Instr) : EnvEffect s l e i e
  | noteOn : EnvEffect s l e .noteOn e.noteOn
  | noteOff : EnvEffect s l e .noteOff e.noteOff
  | step {el bpm : Number} {e' : Env} (h : e.step el bpm = .ok e') : EnvEffect s l e (.step el bpm) e'
  | write (p : EnvParam) (v : Number) : EnvEffect s l e (.wr p v) (e.write p v)
  | voiceNoteOff (w : EnvWhich) (hl : l = .voice s.sel.voice w) : EnvEffect s l e .voiceNoteOff e.noteOff
  | voiceRender (w : EnvWhich) (hl : l = .voice s.sel.voice w) {n k : Nat} {sampleRate bpm : Number} {e' : Env}
      (h : e.stepTimes (128 / sampleRate) bpm k = .ok e') : EnvEffect s l e (.voiceRender n sampleRate bpm) e'
  | engNoteOff (p : Fin 16) (k : Nat) (w : EnvWhich) (hl : l = .voice (.mapped p k) w) (note vel : Fin 128) :
      EnvEffect s l e (.engNoteOff p.val note vel) e.noteOff

/-- The command steps the ENV at `l`: `STEP`, and a `VOICE.RENDER` the ENVs of its Voice. -/
def StepsEnv (s : State) (i : Instr) (l : EnvLoc) : Prop :=
  (∃ el bpm, i = .step el bpm) ∨ (∃ n sr bpm, i = .voiceRender n sr bpm) ∧ ∃ w, l = .voice s.sel.voice w

/-- The command is a note-off to the ENV at `l`. -/
def ReleasesEnv (s : State) (i : Instr) (l : EnvLoc) : Prop :=
  i = .noteOff ∨ i = .voiceNoteOff ∧ (∃ w, l = .voice s.sel.voice w) ∨
    ∃ (p : Fin 16) (k : Nat) (w : EnvWhich) (note vel : Fin 128), i = .engNoteOff p.val note vel ∧ l = .voice (.mapped p k) w

section

variable {s : State} {l : EnvLoc} {e e' : Env} {i : Instr}

theorem EnvEffect.code_le (h : EnvEffect s l e i e') (hi : i ≠ .noteOn) : e.state.code ≤ e'.state.code := by
  cases h with
  | kept => exact le_rfl
  | noteOn => exact absurd rfl hi
  | noteOff | voiceNoteOff | engNoteOff => exact e.noteOff_onward.code_le
  | step h => exact (Env.step_onward h).code_le
  | voiceRender _ _ h => exact (Env.stepTimes_onward h).code_le
  | write p v => rw [Env.write_state]

theorem EnvEffect.none_of_none (h : EnvEffect s l e i e') (hn : e'.state = .none) : e.state = .none := by
  by_cases hi : i = .noteOn
  · subst hi
    cases h with
    | kept => exact hn
    | noteOn => exact absurd hn nofun
  · exact EnvState.none_of_code_le (h.code_le hi) hn

theorem EnvEffect.ended_or_noteOn (h : EnvEffect s l e i e') (he : e.state = .ended) : e'.state = .ended ∨ i = .noteOn :=
  or_iff_not_imp_right.mpr fun hi => EnvState.ended_of_code_le (h.code_le hi) he

theorem EnvEffect.value_and_state (h : EnvEffect s l e i e') (hi : i ≠ .noteOn) (hs : ¬ StepsEnv s i l) :
    e'.value = e.value ∧ (¬ ReleasesEnv s i l → e'.state = e.state) := by
  cases h with
  | kept => exact ⟨rfl, fun _ => rfl⟩
  | noteOn => exact absurd rfl hi
  | step => exact absurd (.inl ⟨_, _, rfl⟩) hs
  | voiceRender w hl => exact absurd (.inr ⟨⟨_, _, _, rfl⟩, w, hl⟩) hs
  | noteOff => exact ⟨e.noteOff_value, fun hr => absurd (.inl rfl) hr⟩
  | voiceNoteOff w hl => exact ⟨e.noteOff_value, fun hr => absurd (.inr (.inl ⟨rfl, w, hl⟩)) hr⟩
  | engNoteOff p k w hl note vel => exact ⟨e.noteOff_value, fun hr => absurd (.inr (.inr ⟨p, k, w, note, vel, rfl, hl⟩)) hr⟩
  | write p v => exact ⟨e.write_value p v, fun _ => e.write_state p v⟩

theorem EnvEffect.params (h : EnvEffect s l e i e') (hi : ∀ p v, i ≠ .wr p v) :
    e'.a = e.a ∧ e'.d = e.d ∧ e'.s = e.s ∧ e'.r = e.r := by
  cases h with
  | kept | noteOn => exact ⟨rfl, rfl, rfl, rfl⟩
  | noteOff | voiceNoteOff | engNoteOff => exact e.noteOff_onward.params
  | step h => exact (Env.step_onward h).params
  | voiceRender _ _ h => exact (Env.stepTimes_onward h).params
  | write p v => exact absurd rfl (hi p v)

/-- The range of R147 is kept by every operation on an ENV. -/
theorem EnvEffect.inRange (h : EnvEffect s l e i e') (he : e.InRange) : e'.InRange := by
  cases h with
  | kept => exact he
  | noteOn => exact e.noteOn_inRange
  | noteOff | voiceNoteOff | engNoteOff => exact Env.noteOff_inRange he
  | step h => exact Env.step_inRange h he
  | voiceRender _ _ h => exact Env.stepTimes_inRange h he
  | write p v => exact Env.write_inRange p v he

end

/-! ### Updates that leave every ENV -/

/-- An ENV reads the same where the lone one, the Samples and the Voices are the same. -/
theorem State.envAt_congr {s t : State} (henv : t.env = s.env) (hsample : ∀ p k, t.sampleAt p k = s.sampleAt p k)
    (hvoice : ∀ l, t.voiceAt l = s.voiceAt l) (l : EnvLoc) : t.envAt l = s.envAt l := by
  cases l <;> simp only [State.envAt, henv, hsample, hvoice]

@[simp] theorem State.withDraws_envAt (s : State) (k : Nat) (l : EnvLoc) : ({ s with draws := k } : State).envAt l = s.envAt l :=
  State.envAt_congr (s := s) (t := { s with draws := k }) rfl (fun _ _ => rfl) (fun m => by cases m <;> rfl) l

@[simp] theorem State.withCmd_envAt (s : State) (ws : List Word) (l : EnvLoc) :
    ({ s with cmd := ws } : State).envAt l = s.envAt l :=
  State.envAt_congr (s := s) (t := { s with cmd := ws }) rfl (fun _ _ => rfl) (fun m => by cases m <;> rfl) l

@[simp] theorem State.emit_envAt (s : State) (u : UnitCode) (w : Word) (l : EnvLoc) : (s.emit u w).envAt l = s.envAt l :=
  State.envAt_congr (s := s) (t := s.emit u w) rfl (fun _ _ => rfl) (fun m => by cases m <;> rfl) l

section

variable {s t : State}

theorem State.readEnv_envAt {f : Env → Reading} (h : s.readEnv f = .ok t) (l : EnvLoc) : t.envAt l = s.envAt l := by
  obtain ⟨e, -, rfl⟩ := (s.readEnv_ok t f).mp h
  exact s.respond_envAt _ _ l

theorem State.onLfo_envAt {f : Lfo → Nat → Except Refusal (Lfo × Nat)} (h : s.onLfo f = .ok t) (l : EnvLoc) :
    t.envAt l = s.envAt l := by
  obtain ⟨x, y, hx, -, rfl⟩ := (s.onLfo_ok t f).mp h
  rw [State.withDraws_envAt]
  exact (s.setLfo_sameBut _ x y.1 hx).1.env l id

theorem State.readLfo_envAt {f : Lfo → Reading} (h : s.readLfo f = .ok t) (l : EnvLoc) : t.envAt l = s.envAt l := by
  obtain ⟨x, -, rfl⟩ := (s.readLfo_ok t f).mp h
  exact s.respond_envAt _ _ l

theorem State.onFlt_envAt {f : Flt → Except Refusal Flt} (h : s.onFlt f = .ok t) (l : EnvLoc) : t.envAt l = s.envAt l := by
  obtain ⟨x, y, hx, -, rfl⟩ := (s.onFlt_ok t f).mp h
  exact (s.setFlt_sameBut _ x y hx).1.env l id

theorem State.onFltBuf_envAt {f : Flt → Scratch → Except Refusal (Flt × Scratch)} (h : s.onFltBuf f = .ok t) (l : EnvLoc) :
    t.envAt l = s.envAt l := by
  obtain ⟨x, b, y, hx, hb, -, rfl⟩ := (s.onFltBuf_ok t f).mp h
  have hflt := (s.setFlt_sameBut _ x y.1 hx).1
  have hbuf : (s.setFlt s.sel.flt y.1).bufAt s.sel.flt.buffer = some b := (hflt.scratch _ id).trans hb
  exact ((State.setBuf_sameBut _ _ b y.2 hbuf).1.env l id).trans (hflt.env l id)

theorem State.onMtx_envAt {f : Mtx → Mtx} (h : s.onMtx f = .ok t) (l : EnvLoc) : t.envAt l = s.envAt l := by
  obtain ⟨m, hm, rfl⟩ := (s.onMtx_ok t f).mp h
  exact (s.setMtx_sameBut _ m (f m) hm).1.env l id

/-- A Part with the same Samples and Voices: another pitchbend, other controllers. -/
theorem State.setPart_envAt_same (s : State) (p : Fin 16) {x : Part} (hs : x.samples = s.parts[p].samples)
    (hv : x.voices = s.parts[p].voices) (l : EnvLoc) : (s.setPart p x).envAt l = s.envAt l :=
  State.envAt_congr (s.setPart_env p x) (s.setPart_sampleAt_same p hs) (s.setPart_voiceAt_same p hv) l

theorem execLfoWrStep_envAt {i : Fin 256} {v : Number} (h : execLfoWrStep i v s = .next t) (l : EnvLoc) :
    t.envAt l = s.envAt l := by
  unfold execLfoWrStep at h
  split at h
  · exact State.onLfo_envAt ((outcome_next _ _).mp h) l
  · cases h

theorem execLfoRdStep_envAt {i : Fin 256} (h : execLfoRdStep i s = .next t) (l : EnvLoc) : t.envAt l = s.envAt l := by
  unfold execLfoRdStep at h
  split at h
  · exact State.readLfo_envAt ((outcome_next _ _).mp h) l
  · cases h

theorem execFltRd_envAt {reg : FltReg} (h : execFltRd reg s = .next t) (l : EnvLoc) : t.envAt l = s.envAt l := by
  unfold execFltRd at h
  split at h
  · cases h
  · cases h; exact s.respond_envAt _ _ l

theorem execMtxRd_envAt {reg : MtxReg} (h : execMtxRd reg s = .next t) (l : EnvLoc) : t.envAt l = s.envAt l := by
  unfold execMtxRd at h
  split at h
  · cases h
  split at h
  · cases h; exact s.respond_envAt _ _ l
  · cases h; rw [State.withDraws_envAt, State.emit_envAt]

theorem execVoiceRd_envAt {reg : VoiceReg} (h : execVoiceRd reg s = .next t) (l : EnvLoc) : t.envAt l = s.envAt l := by
  unfold execVoiceRd at h
  split at h
  · cases h
  · cases h; exact s.respond_envAt _ _ l

theorem execEngPitchbend_envAt {part : Nat} {value : Number} (h : execEngPitchbend part value s = .next t) (l : EnvLoc) :
    t.envAt l = s.envAt l := by
  unfold execEngPitchbend at h
  split at h
  · cases h
  split at h
  · cases h; rfl
  next p _ => cases h; exact s.setPart_envAt_same p (x := { s.parts[p] with pitchbend := value }) rfl rfl l

theorem execEngCc_envAt {part : Nat} {cc : Fin 256} {value : Number} (h : execEngCc part cc value s = .next t) (l : EnvLoc) :
    t.envAt l = s.envAt l := by
  unfold execEngCc at h
  split at h
  · cases h
  split at h
  · cases h; rfl
  next p _ =>
    cases h
    exact s.setPart_envAt_same p
      (x := { s.parts[p] with controllers := Memory.write controllerDefault s.parts[p].controllers cc.val value }) rfl rfl l

/-! ### The ENVs of a Voice (R271, R275, R288) -/

@[simp] theorem Voice.noteOff_envOf (v : Voice) (w : EnvWhich) : v.noteOff.envOf w = (v.envOf w).noteOff := by cases w <;> rfl

theorem Voice.SteppedTo.envOf {sampleRate bpm : Number} {k : Nat} {v v' : Voice} (h : v.SteppedTo sampleRate bpm k v')
    (w : EnvWhich) : (v.envOf w).stepTimes (128 / sampleRate) bpm k = .ok (v'.envOf w) := by
  obtain ⟨haeg, heg2⟩ := h
  cases w
  · exact haeg
  · exact heg2

/-- A Voice is constructed with its ENVs triggered (R271). -/
theorem Fresh.envOf {p : Fin 16} {note vel : Fin 128} {v : Voice} (h : Fresh s p note vel v) (w : EnvWhich) :
    ∃ e : Env, v.envOf w = e.noteOn := by
  obtain ⟨k, smp, d, -, rfl⟩ := h
  cases w
  · exact ⟨smp.aeg, rfl⟩
  · exact ⟨smp.eg2, rfl⟩

/-- Where a Voice is replaced, an ENV is one of that Voice's or stays. -/
theorem State.setVoice_envAt_cases {m : VoiceLoc} {v v' : Voice} (hv : s.voiceAt m = some v) {l : EnvLoc} {e' : Env}
    (h : (s.setVoice m v').envAt l = some e') :
    (∃ w, l = .voice m w ∧ s.envAt l = some (v.envOf w) ∧ e' = v'.envOf w) ∨ s.envAt l = some e' := by
  rw [s.setVoice_envAt m v' (by rw [hv]; rfl)] at h
  cases l with
  | lone | template => exact .inr h
  | voice u w =>
    simp only at h
    split at h
    next hu =>
      subst hu
      cases h
      exact .inl ⟨w, rfl, by rw [State.envAt, hv]; rfl, rfl⟩
    · exact .inr h

theorem execVoiceNoteOff_next (h : execVoiceNoteOff s = .next t) :
    ∃ v, s.voiceAt s.sel.voice = some v ∧ t = s.setVoice s.sel.voice v.noteOff := by
  unfold execVoiceNoteOff at h
  split at h
  · cases h
  next v hv => cases h; exact ⟨v, hv, rfl⟩

theorem execVoiceRender_next {n : Nat} {sampleRate bpm : Number} (h : execVoiceRender n sampleRate bpm s = .next t) :
    ∃ v x, s.voiceAt s.sel.voice = some v ∧ renderVoice s v s.sel.bus n sampleRate bpm = .ok x ∧
      t = (x.state.setVoice s.sel.voice x.voice).respond .voice (boolReading x.stop) := by
  unfold execVoiceRender at h
  split at h
  · cases h
  next v hv =>
    split at h
    · cases h
    next x hx => cases h; exact ⟨v, x, hv, hx, rfl⟩

theorem execVoiceNoteOn_next {note vel : Fin 128} (h : execVoiceNoteOn note vel s = .next t) :
    ∃ v d, Fresh s s.sel.newPart note vel v ∧ t = { s with voice := some v, draws := d } := by
  unfold execVoiceNoteOn at h
  split at h
  · cases h
  split at h
  · cases h
  next smp hsmp =>
    split at h
    · cases h
    next v hv =>
      cases h
      obtain ⟨-, rfl⟩ := (newVoice_ok _ _ _ _ _ _ _).mp hv
      exact ⟨_, _, ⟨_, smp, _, hsmp, rfl⟩, rfl⟩

/-- A construction of the lone Voice leaves every ENV but that Voice's. -/
theorem execVoiceNoteOn_envAt {note vel : Fin 128} (h : execVoiceNoteOn note vel s = .next t) {l : EnvLoc}
    (hl : ∀ w, l ≠ .voice .lone w) : t.envAt l = s.envAt l := by
  obtain ⟨v, d, -, rfl⟩ := execVoiceNoteOn_next h
  cases l with
  | lone | template => rfl
  | voice m w =>
    cases m with
    | lone => exact absurd rfl (hl w)
    | mapped => rfl

/-! ### The Voices of a Part (R321, R324, R330) -/

theorem execEngNoteOff_next {part : Nat} {note vel : Fin 128} (h : execEngNoteOff part note vel s = .next t) :
    t = s ∨ ∃ p : Fin 16, p.val = part ∧ t = s.setVoices p (releaseNote note s.parts[p].voices) := by
  unfold execEngNoteOff partIndex at h
  split at h
  · cases h; exact .inl rfl
  next p hp =>
    split at hp
    · cases hp; cases h; exact .inr ⟨_, rfl, rfl⟩
    · cases hp

/-- A note-off to a note reaches the ENVs of the Part's Voices and no others. -/
theorem State.releaseNote_envAt_cases {p : Fin 16} {note : Fin 128} {l : EnvLoc} {e' : Env}
    (h : (s.setVoices p (releaseNote note s.parts[p].voices)).envAt l = some e') :
    (∃ k w e, l = .voice (.mapped p k) w ∧ s.envAt l = some e ∧ e' = e.noteOff) ∨ s.envAt l = some e' := by
  by_cases hl : (voicesOf p).env l
  · obtain ⟨k, w, rfl⟩ := hl
    rw [State.envAt, State.voiceAt, State.setVoices_same, releaseNote, List.getElem?_map, Option.map_map] at h
    obtain ⟨v, hv, rfl⟩ := Option.map_eq_some_iff.mp h
    have henv : s.envAt (.voice (.mapped p k) w) = some (v.envOf w) := by rw [State.envAt, State.voiceAt, hv]; rfl
    simp only [Function.comp_apply]
    split
    · exact .inl ⟨k, w, _, rfl, henv, v.noteOff_envOf w⟩
    · exact .inr henv
  · rw [(s.setVoices_sameBut p _).env l hl] at h
    exact .inr h

theorem execEngNoteOn_next {part : Nat} {note vel : Fin 128} (h : execEngNoteOn part note vel s = .next t) :
    t = s ∨ ∃ (p : Fin 16) (vs : List Voice) (d : Nat), (∀ v ∈ vs, Fresh s p note vel v) ∧
      t = { s.setVoices p (vs.foldl register s.parts[p].voices) with draws := d } := by
  unfold execEngNoteOn at h
  split at h
  · cases h; exact .inl rfl
  split at h
  · cases h
  next vs hvs => cases h; exact .inr ⟨_, vs.1, vs.2, newVoices_fresh hvs, rfl⟩

theorem execEngNoteOn_envAt {part : Nat} {note vel : Fin 128} (h : execEngNoteOn part note vel s = .next t) {l : EnvLoc}
    (hl : ∀ p k w, l ≠ .voice (.mapped p k) w) : t.envAt l = s.envAt l := by
  obtain rfl | ⟨p, vs, d, -, rfl⟩ := execEngNoteOn_next h
  · rfl
  · rw [State.withDraws_envAt]
    exact (s.setVoices_sameBut p _).env l fun ⟨k, w, hkw⟩ => hl p k w hkw

/-- A note-on keeps the Voices of every Part, and adds Voices just constructed. -/
theorem execEngNoteOn_voices {part : Nat} {note vel : Fin 128} (h : execEngNoteOn part note vel s = .next t) (p : Fin 16) :
    (∀ v ∈ s.parts[p].voices, v ∈ t.parts[p].voices) ∧
      ∀ v ∈ t.parts[p].voices, v ∈ s.parts[p].voices ∨ Fresh s p note vel v := by
  obtain rfl | ⟨q, vs, d, hvs, rfl⟩ := execEngNoteOn_next h
  · exact ⟨fun _ => id, fun _ => .inl⟩
  · show (∀ v ∈ s.parts[p].voices, v ∈ (s.setVoices q _).parts[p].voices) ∧ ∀ v ∈ (s.setVoices q _).parts[p].voices, _
    rw [State.setVoices_part]
    dsimp only
    split
    next hq =>
      subst hq
      simp only [mem_foldl_register]
      exact ⟨fun _ => .inl, fun v hv => hv.imp_right (hvs v)⟩
    · exact ⟨fun _ => id, fun _ => .inl⟩

/-- The list holds some of the Voices of `vs`, in order, each with both ENVs stepped some number of times. -/
abbrev SteppedIn (sampleRate bpm : Number) (vs' vs : List Voice) : Prop :=
  List.SublistForall₂ (fun v' v => ∃ k, v.SteppedTo sampleRate bpm k v') vs' vs

variable {sampleRate bpm : Number}

theorem Voice.SteppedTo.trans {v v' v'' : Voice} {k j : Nat} (h : v.SteppedTo sampleRate bpm k v')
    (h' : v'.SteppedTo sampleRate bpm j v'') : v.SteppedTo sampleRate bpm (k + j) v'' :=
  ⟨Env.stepTimes_add h.1 h'.1, Env.stepTimes_add h.2 h'.2⟩

theorem SteppedIn.refl (vs : List Voice) : SteppedIn sampleRate bpm vs vs :=
  List.sublistForall₂_iff.mpr ⟨vs, List.forall₂_same.mpr fun _ _ => ⟨0, rfl, rfl⟩, List.Sublist.refl vs⟩

theorem SteppedIn.trans {vs vs' vs'' : List Voice} (h' : SteppedIn sampleRate bpm vs'' vs')
    (h : SteppedIn sampleRate bpm vs' vs) : SteppedIn sampleRate bpm vs'' vs := by
  have hR : IsTrans Voice fun v' v => ∃ k, v.SteppedTo sampleRate bpm k v' :=
    ⟨fun _ _ _ ⟨j, hj⟩ ⟨k, hk⟩ => ⟨k + j, hk.trans hj⟩⟩
  exact List.SublistForall₂.is_trans.trans _ _ _ h' h

theorem SteppedIn.mem {vs vs' : List Voice} (h : SteppedIn sampleRate bpm vs' vs) {v' : Voice} (hv : v' ∈ vs') :
    ∃ v ∈ vs, ∃ k, v.SteppedTo sampleRate bpm k v' := by
  induction h with
  | nil => exact absurd hv List.not_mem_nil
  | cons hR _ ih =>
    rcases List.mem_cons.mp hv with rfl | hv
    · exact ⟨_, List.mem_cons_self, hR⟩
    · obtain ⟨v, hmem, hstep⟩ := ih hv
      exact ⟨v, List.mem_cons_of_mem _ hmem, hstep⟩
  | cons_right _ ih =>
    obtain ⟨v, hmem, hstep⟩ := ih hv
    exact ⟨v, List.mem_cons_of_mem _ hmem, hstep⟩

theorem processVoice_steppedTo {v v' : Voice} {y : Turn} (h : processVoice s v sampleRate bpm = .ok y)
    (hv : y.left = some v') : ∃ k, v.SteppedTo sampleRate bpm k v' := by
  obtain ⟨smp, -, ⟨rfl, -⟩ | ⟨bus, x, -, -, hx, rfl⟩⟩ := processVoice_ok h
  · cases hv
  · obtain ⟨k, -, -, hstep⟩ := renderVoice_steps hx
    simp only at hv
    split at hv
    · cases hv
    · cases hv; exact ⟨k, hstep⟩

theorem processVoices_steppedIn {vs : List Voice} {x : Pass} (h : processVoices sampleRate bpm s vs = .ok x) :
    SteppedIn sampleRate bpm x.voices vs := by
  induction vs generalizing s x with
  | nil => cases h; exact .nil
  | cons v vs ih =>
    unfold processVoices at h
    split at h
    · cases h
    next y hy =>
      cases hrest : processVoices sampleRate bpm y.state vs with
      | error r => rw [hrest] at h; cases h
      | ok z =>
        rw [hrest] at h
        cases h
        cases hleft : y.left with
        | none => exact .cons_right (ih (x := z) hrest)
        | some w => exact .cons (processVoice_steppedTo hy hleft) (ih (x := z) hrest)

theorem processPart_steppedIn {p : Fin 16} {y : State × Bool} (h : processPart sampleRate bpm s p = .ok y) (q : Fin 16) :
    SteppedIn sampleRate bpm y.1.parts[q].voices s.parts[q].voices := by
  obtain ⟨hother, -⟩ := processPart_frame h
  by_cases hq : q = p
  · subst hq
    unfold processPart at h
    split at h
    · cases h
    next x hx =>
      cases h
      rw [State.setVoices_same]
      exact processVoices_steppedIn hx
  · rw [hother q hq]
    exact .refl _

/-- A pass leaves every ENV but those of the Parts' Voices, and of these it keeps some Voices, stepped. -/
theorem processParts_envs {ps : List (Fin 16)} {y : State × Bool} (h : processParts sampleRate bpm s ps = .ok y) :
    SameBut s y.1 passPrint ∧ ∀ q : Fin 16, SteppedIn sampleRate bpm y.1.parts[q].voices s.parts[q].voices := by
  induction ps generalizing s y with
  | nil => cases h; exact ⟨.refl s _, fun _ => .refl _⟩
  | cons p ps ih =>
    unfold processParts at h
    split at h
    · cases h
    next x hx =>
      obtain ⟨-, -, -, -, -, hframe, -⟩ := processPart_frame hx
      cases hrest : processParts sampleRate bpm x.1 ps with
      | error r => rw [hrest] at h; cases h
      | ok z =>
        rw [hrest] at h
        cases h
        obtain ⟨hframes, hsteps⟩ := ih (y := z) hrest
        exact ⟨hframe.trans hframes, fun q => (hsteps q).trans (processPart_steppedIn hx q)⟩

theorem execEngProcess_envs (h : execEngProcess sampleRate bpm s = .next t) :
    (∀ l, (∀ p k w, l ≠ .voice (.mapped p k) w) → t.envAt l = s.envAt l) ∧
      ∀ q : Fin 16, SteppedIn sampleRate bpm t.parts[q].voices s.parts[q].voices := by
  unfold execEngProcess at h
  split at h
  · cases h
  next x hx =>
    cases h
    obtain ⟨hframe, hsteps⟩ := processParts_envs hx
    refine ⟨fun l hl => ?_, hsteps⟩
    rw [State.respond_envAt]
    exact hframe.env l fun ⟨p, k, w, hkw⟩ => hl p k w hkw

/-! ### Every command -/

/-- The command constructs or moves Voices, and `l` is an ENV of one of them. -/
def RehousesEnv (i : Instr) : EnvLoc → Prop
  | .lone => False
  | .template _ _ _ => False
  | .voice .lone _ => ∃ note vel, i = .voiceNoteOn note vel
  | .voice (.mapped _ _) _ => (∃ q note vel, i = .engNoteOn q note vel) ∨ ∃ sr bpm, i = .engProcess sr bpm

theorem State.onEnv_effect {f : Env → Except Refusal Env} {i : Instr} {l : EnvLoc} {e' : Env}
    (hf : ∀ e e', f e = .ok e' → EnvEffect s l e i e') (h : s.onEnv f = .ok t) (he' : t.envAt l = some e') :
    ∃ e, s.envAt l = some e ∧ EnvEffect s l e i e' := by
  obtain ⟨e, x, he, hx, rfl⟩ := (s.onEnv_ok t f).mp h
  obtain ⟨hframe, hset⟩ := s.setEnv_sameBut _ e x he
  by_cases hl : l = s.sel.env
  · rw [hl, hset] at he'
    cases he'
    exact ⟨e, hl ▸ he, hf e e' hx⟩
  · rw [hframe.env l hl] at he'
    exact ⟨e', he', .kept i⟩

theorem execVoiceNoteOff_effect {l : EnvLoc} {e' : Env} (h : execVoiceNoteOff s = .next t) (he' : t.envAt l = some e') :
    ∃ e, s.envAt l = some e ∧ EnvEffect s l e .voiceNoteOff e' := by
  obtain ⟨v, hv, rfl⟩ := execVoiceNoteOff_next h
  obtain ⟨w, hl, he, rfl⟩ | he := State.setVoice_envAt_cases hv he'
  · exact ⟨_, he, v.noteOff_envOf w ▸ .voiceNoteOff w hl⟩
  · exact ⟨e', he, .kept _⟩

theorem execVoiceRender_effect {n : Nat} {l : EnvLoc} {e' : Env} (h : execVoiceRender n sampleRate bpm s = .next t)
    (he' : t.envAt l = some e') : ∃ e, s.envAt l = some e ∧ EnvEffect s l e (.voiceRender n sampleRate bpm) e' := by
  obtain ⟨v, x, hv, hx, rfl⟩ := execVoiceRender_next h
  have hsame := fun m => (renderVoice_frame hx).env m id
  rw [State.respond_envAt] at he'
  obtain ⟨w, hl, he, rfl⟩ | he := State.setVoice_envAt_cases ((renderVoice_voiceAt hx _).trans hv) he'
  · obtain ⟨k, -, -, hstep⟩ := renderVoice_steps hx
    exact ⟨_, hsame l ▸ he, .voiceRender w hl (hstep.envOf w)⟩
  · exact ⟨e', hsame l ▸ he, .kept _⟩

theorem execEngNoteOff_effect {part : Nat} {note vel : Fin 128} {l : EnvLoc} {e' : Env}
    (h : execEngNoteOff part note vel s = .next t) (he' : t.envAt l = some e') :
    ∃ e, s.envAt l = some e ∧ EnvEffect s l e (.engNoteOff part note vel) e' := by
  obtain rfl | ⟨p, rfl, rfl⟩ := execEngNoteOff_next h
  · exact ⟨e', he', .kept _⟩
  · obtain ⟨k, w, e, hl, he, rfl⟩ | he := State.releaseNote_envAt_cases he'
    · exact ⟨e, he, .engNoteOff p k w hl note vel⟩
    · exact ⟨e', he, .kept _⟩

/-- What a command can do to an ENV of a Voice that it does not construct or move, and to any other ENV. -/
theorem exec_envEffect {i : Instr} {l : EnvLoc} {e' : Env} (hl : ¬ RehousesEnv i l) (h : exec i s = .next t)
    (he' : t.envAt l = some e') : ∃ e, s.envAt l = some e ∧ EnvEffect s l e i e' := by
  have hkept : t.envAt l = s.envAt l → ∃ e, s.envAt l = some e ∧ EnvEffect s l e i e' :=
    fun hsame => ⟨e', hsame ▸ he', .kept i⟩
  cases i with
  | noteOn => exact State.onEnv_effect (fun e _ hf => by cases hf; exact .noteOn) ((outcome_next _ _).mp h) he'
  | noteOff => exact State.onEnv_effect (fun e _ hf => by cases hf; exact .noteOff) ((outcome_next _ _).mp h) he'
  | step => exact State.onEnv_effect (fun e _ hf => .step hf) ((outcome_next _ _).mp h) he'
  | wr p v => exact State.onEnv_effect (fun e _ hf => by cases hf; exact .write p v) ((outcome_next _ _).mp h) he'
  | hasEnded | rd => exact hkept (State.readEnv_envAt ((outcome_next _ _).mp h) l)
  | lfoNoteOn | lfoStep | lfoWr => exact hkept (State.onLfo_envAt ((outcome_next _ _).mp h) l)
  | lfoRd => exact hkept (State.readLfo_envAt ((outcome_next _ _).mp h) l)
  | lfoWrStep => exact hkept (execLfoWrStep_envAt h l)
  | lfoRdStep => exact hkept (execLfoRdStep_envAt h l)
  | fltWr | fltUpdate => exact hkept (State.onFlt_envAt ((outcome_next _ _).mp h) l)
  | fltRd => exact hkept (execFltRd_envAt h l)
  | fltRun => exact hkept (State.onFltBuf_envAt ((outcome_next _ _).mp h) l)
  | mtxWr | mtxEval => exact hkept (State.onMtx_envAt ((outcome_next _ _).mp h) l)
  | mtxRd => exact hkept (execMtxRd_envAt h l)
  | voiceNoteOn note vel => exact hkept (execVoiceNoteOn_envAt h fun w hw => hl (hw ▸ ⟨note, vel, rfl⟩))
  | voiceNoteOff => exact execVoiceNoteOff_effect h he'
  | voiceRd => exact hkept (execVoiceRd_envAt h l)
  | voiceRender => exact execVoiceRender_effect h he'
  | engNoteOn q note vel => exact hkept (execEngNoteOn_envAt h fun p k w hw => hl (hw ▸ .inl ⟨q, note, vel, rfl⟩))
  | engNoteOff => exact execEngNoteOff_effect h he'
  | engPitchbend => exact hkept (execEngPitchbend_envAt h l)
  | engCc => exact hkept (execEngCc_envAt h l)
  | engProcess sr bpm => exact hkept ((execEngProcess_envs h).1 l fun p k w hw => hl (hw ▸ .inr ⟨sr, bpm, rfl⟩))

/-! ### O11: the range of every ENV (R147) -/

theorem State.EnvsInRange.mapped (h : s.EnvsInRange) {p : Fin 16} {v : Voice} (hv : v ∈ s.parts[p].voices) (w : EnvWhich) :
    (v.envOf w).InRange := by
  obtain ⟨i, hi⟩ := List.mem_iff_getElem?.mp hv
  exact h (.voice (.mapped p i) w) _ (by rw [State.envAt, State.voiceAt, hi]; rfl)

theorem Fresh.envInRange {p : Fin 16} {note vel : Fin 128} {v : Voice} (h : Fresh s p note vel v) (w : EnvWhich) :
    (v.envOf w).InRange := by
  obtain ⟨e, he⟩ := h.envOf w
  rw [he]
  exact e.noteOn_inRange

/-- Where Voices are constructed or moved: each has its ENVs triggered, or is there before, stepped perhaps. -/
theorem exec_rehoused_inRange {i : Instr} {l : EnvLoc} {e' : Env} (hs : s.EnvsInRange) (hl : RehousesEnv i l)
    (h : exec i s = .next t) (he' : t.envAt l = some e') : e'.InRange := by
  cases l with
  | lone | template => exact hl.elim
  | voice m w =>
    obtain ⟨v', hv', rfl⟩ := Option.map_eq_some_iff.mp he'
    cases m with
    | lone =>
      obtain ⟨note, vel, rfl⟩ := hl
      obtain ⟨v, d, hfresh, rfl⟩ := execVoiceNoteOn_next h
      cases hv'
      exact hfresh.envInRange w
    | mapped p k =>
      have hmem : v' ∈ t.parts[p].voices := List.mem_of_getElem? hv'
      obtain ⟨q, note, vel, rfl⟩ | ⟨sr, bpm, rfl⟩ := hl
      · rcases (execEngNoteOn_voices h p).2 v' hmem with hold | hfresh
        · exact hs.mapped hold w
        · exact hfresh.envInRange w
      · obtain ⟨v, hv, j, hstep⟩ := ((execEngProcess_envs h).2 p).mem hmem
        exact Env.stepTimes_inRange (hstep.envOf w) (hs.mapped hv w)

theorem exec_envsInRange {i : Instr} (hs : s.EnvsInRange) (h : exec i s = .next t) : t.EnvsInRange := by
  intro l e' he'
  by_cases hl : RehousesEnv i l
  · exact exec_rehoused_inRange hs hl h he'
  · obtain ⟨e, he, heffect⟩ := exec_envEffect hl h he'
    exact heffect.inRange (hs l e he)

/-! ### O18: the order of the states (R146) -/

/-- The block's steps are those the counter counts; the response tells whether it stopped (R286, R288, R290). -/
theorem execVoiceRender_steps {v v' : Voice} {n : Nat} (hv : s.voiceAt s.sel.voice = some v)
    (h : execVoiceRender n sampleRate bpm s = .next t) (hv' : t.voiceAt s.sel.voice = some v') :
    ∃ k, k ≤ (v.modCount.val + n + 127) / 128 - (v.modCount.val + 127) / 128 ∧
      (Responds s t .voice 0#32 → k = (v.modCount.val + n + 127) / 128 - (v.modCount.val + 127) / 128) ∧
      v.SteppedTo sampleRate bpm k v' := by
  obtain ⟨u, x, hu, hx, rfl⟩ := execVoiceRender_next h
  obtain rfl : v = u := Option.some.inj (hv.symm.trans hu)
  obtain ⟨k, hle, hfull, hstep⟩ := renderVoice_steps hx
  have hx' : x.voice = v' := by
    rw [State.respond_voiceAt, State.setVoice_voiceAt _ _ _ _ (by rw [renderVoice_voiceAt hx, hv]; rfl), if_pos rfl] at hv'
    exact Option.some.inj hv'
  refine ⟨k, hle, fun hresp => hfull ?_, hx' ▸ hstep⟩
  rw [Responds, State.respond_resp, State.setVoice_resp, (renderVoice_still hx).resp] at hresp
  cases hstop : x.stop with
  | false => rfl
  | true =>
    rw [hstop] at hresp
    have hword := congrArg (List.map Response.word) (List.append_cancel_left hresp)
    exact absurd hword (by decide)

end

/-- Settles O11: a step takes a command off the port, which leaves the ENVs, and every command keeps their range
(`exec_envsInRange`). -/
theorem stepKeepsEnvsInRange : Obligations.StepKeepsEnvsInRange := by
  intro s t hs h
  unfold step at h
  split at h
  next rest _ => exact exec_envsInRange (fun l e he => hs l e (s.withCmd_envAt rest l ▸ he)) h
  · cases h; exact hs
  · cases h

/-- Settles O18: the first clause from what a command can do to one ENV (`exec_envEffect`), the others from what a render, a pass
and a note-on do to their Voices. -/
theorem envStateOrder : Obligations.EnvStateOrder := by
  refine ⟨fun i s t l e e' hlone hmapped he h he' => ?_, fun s t v v' n sampleRate bpm hv h hv' => ?_,
    fun s t sampleRate bpm p h => ?_, fun s t part p note vel h => ?_⟩
  · have hl : ¬ RehousesEnv i l := by
      intro hl
      match l, hl with
      | .voice .lone w, ⟨note, vel, hi⟩ => exact hlone w note vel rfl hi
      | .voice (.mapped p k) w, .inl ⟨q, note, vel, hi⟩ => exact (hmapped p k w rfl).1 q note vel hi
      | .voice (.mapped p k) w, .inr ⟨sr, bpm, hi⟩ => exact (hmapped p k w rfl).2 sr bpm hi
    obtain ⟨x, hx, heffect⟩ := exec_envEffect hl h he'
    obtain rfl : e = x := Option.some.inj (he.symm.trans hx)
    exact ⟨heffect.none_of_none, heffect.ended_or_noteOn, heffect.code_le, heffect.value_and_state, heffect.params⟩
  · exact execVoiceRender_steps hv h hv'
  · obtain ⟨kept, hforall, hsub⟩ := List.sublistForall₂_iff.mp ((execEngProcess_envs h).2 p)
    exact ⟨kept, hsub, hforall.flip⟩
  · obtain ⟨hkeep, hnew⟩ := execEngNoteOn_voices h p
    refine ⟨hkeep, fun v hv => (hnew v hv).imp_right ?_⟩
    rintro ⟨k, smp, d, -, rfl⟩
    exact ⟨rfl, rfl, rfl, rfl⟩

end Sys2Proof.Machine
end

section
/-! The LFO on its own, for the proofs of O29 to O36: what the fade, each waveform and the held random value can be, the three cases
of the output of a step, when a step is refused, and what a command to the selected LFO does to the machine. -/

namespace Sys2Proof.Machine

/-! ### The fade-in factor (R177) -/

theorem fade_eq (t length : Number) : fade t length = if length ≤ 0 then 1 else max 0 (min 1 (t / length)) := by
  rw [fade, clamp_unit]

theorem fade_range (t length : Number) : 0 ≤ fade t length ∧ fade t length ≤ 1 := by
  rw [fade_eq]
  split
  · exact ⟨zero_le_one, le_rfl⟩
  · exact ⟨le_max_left _ _, max_le zero_le_one (min_le_left _ _)⟩

/-- A factor in [0, 1] keeps a value in [-1, 1]. -/
theorem mul_range_of_unit {x f : Number} (hx : -1 ≤ x ∧ x ≤ 1) (hf : 0 ≤ f ∧ f ≤ 1) : -1 ≤ x * f ∧ x * f ≤ 1 := by
  rw [← abs_le] at hx ⊢
  rw [abs_mul, abs_of_nonneg hf.1]
  exact mul_le_one₀ hx hf.1 hf.2

/-! ### The waveforms (R178 to R184, R187) -/

theorem triangle_range {ph : Number} (h : 0 ≤ ph ∧ ph < 1) : -1 ≤ triangle ph ∧ triangle ph ≤ 1 := by
  obtain ⟨h0, h1⟩ := h
  unfold triangle
  split_ifs with hrise hfall <;> constructor <;> linarith

theorem pulse_eq (ph : Number) : pulse ph = 0 ∨ pulse ph = 1 := ite_eq_or_eq _ _ _

/-- The rectangle is -1 where the pulse is 0 (R181). -/
theorem rectangle_eq (ph : Number) : 2 * pulse ph - 1 = if ph < 1 / 2 then -1 else 1 := by
  unfold pulse
  split <;> norm_num

/-- The nearest of `n` levels on [-1, 1] lies there: its number is from 0 to `n - 1` (R183). -/
theorem quantize_range {n : Nat} {v : Number} (hn : 2 ≤ n) (hv : -1 ≤ v ∧ v ≤ 1) : -1 ≤ quantize n v ∧ quantize n v ≤ 1 := by
  obtain ⟨hlo, hhi⟩ := hv
  have hsteps : (0 : Number) < n - 1 := by
    have : (2 : Number) ≤ n := by exact_mod_cast hn
    linarith
  have hlevel0 : 0 ≤ (v + 1) / 2 * ((n : Number) - 1) := mul_nonneg (by linarith) hsteps.le
  have hlevel1 : (v + 1) / 2 * ((n : Number) - 1) ≤ n - 1 := mul_le_of_le_one_left hsteps.le (by linarith)
  have hfloor0 : (0 : Number) ≤ ⌊(v + 1) / 2 * ((n : Number) - 1) + 1 / 2⌋ :=
    Int.cast_nonneg (Int.floor_nonneg.mpr (by linarith))
  have hfloor1 : (⌊(v + 1) / 2 * ((n : Number) - 1) + 1 / 2⌋ : Number) ≤ n - 1 := by
    have hlt : ⌊(v + 1) / 2 * ((n : Number) - 1) + 1 / 2⌋ < (n : Int) := Int.floor_lt.mpr (by push_cast; linarith)
    have hle : ⌊(v + 1) / 2 * ((n : Number) - 1) + 1 / 2⌋ ≤ (n : Int) - 1 := by omega
    exact_mod_cast hle
  rw [floor_eq] at hfloor0 hfloor1
  have hratio0 := div_nonneg hfloor0 hsteps.le
  have hratio1 := (div_le_one hsteps).mpr hfloor1
  unfold quantize
  rw [mul_div_assoc]
  constructor <;> linarith

/-- The step at any phase is one of those in use (R183). -/
theorem Lfo.stepIndex_lt {l : Lfo} (ph : Number) (h : 1 ≤ l.numSteps) : l.stepIndex ph < l.numSteps :=
  (min_le_right _ _).trans_lt (Nat.sub_lt h Nat.one_pos)

theorem Lfo.custom_range {l : Lfo} {ph : Number} (hn : 1 ≤ l.numSteps) (hq : l.quantEn = true → 2 ≤ l.quantLevels)
    (hsteps : ∀ k, k < l.numSteps → -1 ≤ l.readStep k ∧ l.readStep k ≤ 1) : -1 ≤ l.custom ph ∧ l.custom ph ≤ 1 := by
  have hstep := hsteps _ (Lfo.stepIndex_lt ph hn)
  unfold Lfo.custom
  dsimp only
  split
  next hen => exact quantize_range (hq hen) hstep
  next => exact hstep

/-- R187: every shape lies in [-1, 1]. -/
theorem Lfo.shape_range {l : Lfo} {hold ph bpm : Number} (hp : l.Premises bpm) (hph : 0 ≤ ph ∧ ph < 1)
    (hsteps : ∀ k, k < l.numSteps → -1 ≤ l.readStep k ∧ l.readStep k ≤ 1) (hhold : -1 ≤ hold ∧ hold ≤ 1) :
    -1 ≤ l.shape hold ph ∧ l.shape hold ph ≤ 1 := by
  unfold Lfo.shape
  split
  next => exact Config.fn.sin_range _
  next => exact triangle_range hph
  next => rcases pulse_eq ph with h | h <;> rw [h] <;> norm_num
  next => rcases pulse_eq ph with h | h <;> rw [h] <;> norm_num
  next => constructor <;> linarith [hph.1, hph.2]
  next => exact hhold
  next hw => exact Lfo.custom_range (hp.custom hw).1 hp.quant hsteps

/-! ### The held random value (R184) -/

/-- The random value held once the phase has come to a period. -/
def Lfo.held (l : Lfo) (period : Number) (k : Nat) : Number := if l.crosses period then drawUniform (-1) 1 k else l.randHold

theorem Lfo.crosses_iff (l : Lfo) (period : Number) :
    l.crosses period = true ↔ ⌊period + l.startPhase⌋ ≠ ⌊l.period + l.startPhase⌋ := by
  simp only [Lfo.crosses, bne_iff_ne, floor_eq]

theorem Lfo.held_of_same_cycle {l : Lfo} {period : Number} (k : Nat)
    (h : ⌊period + l.startPhase⌋ = ⌊l.period + l.startPhase⌋) : l.held period k = l.randHold :=
  if_neg fun hc => (l.crosses_iff period).mp hc h

theorem Lfo.held_of_new_cycle {l : Lfo} {period : Number} (k : Nat)
    (h : ⌊period + l.startPhase⌋ ≠ ⌊l.period + l.startPhase⌋) : -1 ≤ l.held period k ∧ l.held period k < 1 := by
  rw [Lfo.held, if_pos ((l.crosses_iff period).mpr h)]
  exact drawUniform_range (-1) 1 k (by norm_num)

theorem Lfo.held_range {l : Lfo} (period : Number) (k : Nat) (h : -1 ≤ l.randHold ∧ l.randHold ≤ 1) :
    -1 ≤ l.held period k ∧ l.held period k ≤ 1 := by
  by_cases hc : ⌊period + l.startPhase⌋ = ⌊l.period + l.startPhase⌋
  · rwa [Lfo.held_of_same_cycle k hc]
  · exact (Lfo.held_of_new_cycle k hc).imp_right le_of_lt

/-! ### The output of a step (R173, R176, R177, R185) -/

theorem Lfo.onceFrozen_iff (l : Lfo) (period : Number) :
    l.onceFrozen period = true ↔ l.onceEn = true ∧ l.waveform ≠ .random ∧ 1 ≤ period := by
  simp [Lfo.onceFrozen, and_assoc]

section

variable {l : Lfo} {t period hold bpm : Number}

theorem Lfo.output_of_waiting (h : t < l.delay bpm) : l.output t period hold bpm = 0 := if_pos h

theorem Lfo.output_of_frozen (h : l.onceFrozen period = true) : l.output t period hold bpm = 0 := by
  simp only [Lfo.output, h, if_true, zero_mul, ite_self]

theorem Lfo.output_of_running (hd : l.delay bpm ≤ t) (hf : ¬ l.onceFrozen period = true) :
    l.output t period hold bpm
      = l.shape hold (Int.fract (period + l.startPhase)) * fade (t - l.delay bpm) (l.fadeLength bpm) := by
  simp only [Lfo.output, if_neg (not_lt.mpr hd), if_neg hf, frac_eq]

theorem Lfo.output_range (hp : l.Premises bpm) (hsteps : ∀ k, k < l.numSteps → -1 ≤ l.readStep k ∧ l.readStep k ≤ 1)
    (hhold : -1 ≤ hold ∧ hold ≤ 1) : -1 ≤ l.output t period hold bpm ∧ l.output t period hold bpm ≤ 1 := by
  rcases lt_or_ge t (l.delay bpm) with hd | hd
  · rw [Lfo.output_of_waiting hd]
    norm_num
  by_cases hf : l.onceFrozen period = true
  · rw [Lfo.output_of_frozen hf]
    norm_num
  · rw [Lfo.output_of_running hd hf]
    exact mul_range_of_unit (Lfo.shape_range hp ⟨Int.fract_nonneg _, Int.fract_lt_one _⟩ hsteps hhold) (fade_range _ _)

end

/-! ### `LFO.STEP` on one LFO (R170, R173, R189) -/

/-- The LFO a step leaves. -/
theorem Lfo.advance_fst (l : Lfo) (e bpm : Number) (k : Nat) :
    (l.advance e bpm k).1
      = { l with
          t := l.t + e
          period := l.period + e * l.freq bpm
          randHold := l.held (l.period + e * l.freq bpm) k
          value := l.output (l.t + e) (l.period + e * l.freq bpm) (l.held (l.period + e * l.freq bpm) k) bpm } := rfl

/-- When a step completes. -/
theorem Lfo.step_of_premises {l : Lfo} {e bpm : Number} (k : Nat) (h : 0 ≤ e) (hp : l.Premises bpm) :
    l.step e bpm k = .ok (l.advance e bpm k) := (l.step_ok e bpm k _).mpr ⟨(l.refusal_none e bpm).mpr ⟨h, hp⟩, rfl⟩

theorem Lfo.step_error_iff (l : Lfo) (e bpm : Number) (k : Nat) :
    (∃ r, l.step e bpm k = .error r) ↔ ¬ (0 ≤ e ∧ l.Premises bpm) := by
  rw [← l.refusal_none e bpm, Lfo.step]
  cases l.refusal e bpm <;> simp

/-- The ways a premise of R170 fails. -/
theorem Lfo.not_premises_iff (l : Lfo) (bpm : Number) :
    ¬ l.Premises bpm ↔
      ((l.syncEn = true ∨ l.delaySyncEn = true ∨ l.fadeSyncEn = true) ∧ bpm ≤ 0) ∨ (l.syncEn = true ∧ l.syncBeats ≤ 0) ∨
        (l.waveform = .custom ∧ (l.numSteps = 0 ∨ Config.lfoNStepsMax < l.numSteps)) ∨
        (l.quantEn = true ∧ l.quantLevels < 2) := by
  have hparts : l.Premises bpm ↔
      (l.syncEn = true ∨ l.delaySyncEn = true ∨ l.fadeSyncEn = true → 0 < bpm) ∧ (l.syncEn = true → 0 < l.syncBeats) ∧
        (l.waveform = .custom → 1 ≤ l.numSteps ∧ l.numSteps ≤ Config.lfoNStepsMax) ∧
        (l.quantEn = true → 2 ≤ l.quantLevels) :=
    ⟨fun ⟨ht, hb, hc, hq⟩ => ⟨ht, hb, hc, hq⟩, fun ⟨ht, hb, hc, hq⟩ => ⟨ht, hb, hc, hq⟩⟩
  rw [hparts]
  simp only [not_and_or, Classical.not_imp, not_lt, not_le, Nat.lt_one_iff]

/-! ### A command to the selected LFO (R2, R108) -/

section

variable (s : State) {l : Lfo}

@[simp] theorem State.withDraws_lfoAt (k : Nat) (m : LfoLoc) : ({ s with draws := k } : State).lfoAt m = s.lfoAt m := by
  cases m with
  | lone => rfl
  | template => rfl
  | voice vl => cases vl <;> rfl

/-- A command that changes the selected LFO completes where its operation does, and changes nothing else but the draw counter. -/
theorem State.onLfo_completes (hl : s.lfoAt s.sel.lfo = some l) {f : Lfo → Nat → Except Refusal (Lfo × Nat)} {y : Lfo × Nat}
    (hf : f l s.draws = .ok y) :
    ∃ t, outcome (s.onLfo f) = .next t ∧ t.lfoAt s.sel.lfo = some y.1 ∧ SameBut s t (onlyLfo s) ∧ t.resp = s.resp ∧
      t.draws = y.2 := by
  obtain ⟨hframe, hset⟩ := s.setLfo_sameBut _ l y.1 hl
  refine ⟨{ s.setLfo s.sel.lfo y.1 with draws := y.2 }, ?_, ?_, hframe.congr rfl rfl rfl rfl rfl rfl rfl rfl rfl rfl rfl,
    s.setLfo_resp _ y.1, rfl⟩
  · rw [s.onLfo_eq hl, hf]
    rfl
  · rw [State.withDraws_lfoAt, hset]

/-- A command that changes the selected LFO is refused exactly where its operation is, for the LFO is there. -/
theorem State.onLfo_refused_iff (hl : s.lfoAt s.sel.lfo = some l) (f : Lfo → Nat → Except Refusal (Lfo × Nat)) :
    Refused (outcome (s.onLfo f)) ↔ ∃ r, f l s.draws = .error r := by
  refine exists_congr fun r => ?_
  rw [outcome_refused, s.onLfo_eq hl]
  cases f l s.draws <;> simp [Except.map]

/-- A command that reads the selected LFO responds one word and changes nothing. -/
theorem State.readLfo_completes (hl : s.lfoAt s.sel.lfo = some l) (f : Lfo → Reading) :
    ∃ t, outcome (s.readLfo f) = .next t ∧ Responds s t .lfo (readingWord (f l)) ∧ SameBut s t {} ∧ t.draws = s.draws :=
  ⟨s.respond .lfo (f l), by rw [s.readLfo_eq hl, outcome_ok], s.respond_resp .lfo (f l), s.respond_sameBut .lfo (f l),
    s.respond_draws .lfo (f l)⟩

end

end Sys2Proof.Machine
end

section
/-! PROOF of O29 to O36: the LFO's commands (41_lfo.md, R170 to R193), from the rules of one LFO above. -/

namespace Sys2Proof.Machine

/-- Settles O29. -/
theorem lfoNoteOn : Obligations.LfoNoteOn := by
  intro s l hl
  obtain ⟨ph, hold, heq, hdrawn, hzero, hlo, hhi⟩ := l.noteOn_spec s.draws
  obtain ⟨t, ht, hlfo, hframe, hresp, -⟩ := s.onLfo_completes hl (f := fun l k => .ok (l.noteOn k)) rfl
  exact ⟨t, ph, hold, ht, hlfo.trans (congrArg some heq), hdrawn, hzero, hlo, hhi, hframe, hresp⟩

/-- Settles O30: the step completes because its premises hold; the held value is `Lfo.held`, and the output has three cases: waiting
for the delay, frozen after a full cycle, running. -/
theorem lfoStep : Obligations.LfoStep := by
  intro s l e bpm hl he hp
  obtain ⟨t, ht, hlfo, hframe, hresp, -⟩ :=
    s.onLfo_completes hl (f := fun l k => l.step e bpm k) (Lfo.step_of_premises s.draws he hp)
  rw [l.advance_fst] at hlfo
  refine ⟨t, l.held (l.period + e * l.freq bpm) s.draws, ht,
    ⟨Lfo.held_of_same_cycle _, Lfo.held_of_new_cycle _, _, hlfo, Lfo.output_of_waiting,
      fun hf => Lfo.output_of_frozen ((l.onceFrozen_iff _).mpr hf), fun hd hf => ?_⟩, hframe, hresp⟩
  refine (Lfo.output_of_running hd (mt (l.onceFrozen_iff _).mp hf)).trans ?_
  rw [fade_eq]
  refine congrArg (· * _) ?_
  unfold Lfo.shape
  cases l.waveform with
  | rectangle => exact rectangle_eq _
  | sine | triangle | pulse | sawtooth | random | custom => rfl

/-- Settles O31: the step is refused exactly where it does not complete. -/
theorem lfoStepRefused : Obligations.LfoStepRefused := by
  intro s l e bpm hl
  refine (s.onLfo_refused_iff hl fun l k => l.step e bpm k).trans ?_
  rw [l.step_error_iff, not_and_or, not_le, l.not_premises_iff]

/-- Settles O32. -/
theorem lfoWr : Obligations.LfoWr := by
  intro s l w hl
  obtain ⟨t, ht, hlfo, hframe⟩ := s.onLfo_completes hl (f := fun l k => .ok (l.write w, k)) rfl
  refine ⟨t, ht, ?_, hframe⟩
  rw [hlfo]
  cases w <;> rfl

/-- Settles O33: by its type a register is a number word, an integer word, a flag or the waveform's code. -/
theorem lfoRd : Obligations.LfoRd := by
  intro s l reg hl
  obtain ⟨t, ht, hresp, hframe⟩ := s.readLfo_completes hl fun l => l.read reg
  refine ⟨t, ht, ?_, hframe⟩
  have hflag : ∀ b : Bool, readingWord (boolReading b) = if b then 1#32 else 0#32 := by decide
  cases reg with
  | run r => cases r <;> exact hresp
  | cfg c =>
    cases c with
    | waveform =>
      simp only [Lfo.read, Lfo.readCfg] at hresp
      cases hw : l.waveform <;> (rw [hw] at hresp; exact hresp)
    | freqHz | syncBeats | delaySec | delayBeats | fadeSec | fadeBeats | quantLevels | numSteps => exact hresp
    | syncEn | delaySyncEn | fadeSyncEn | onceEn | randphaseEn | quantEn =>
      simp only [Lfo.read, Lfo.readCfg, hflag] at hresp
      exact hresp

/-- Settles O34: a write to a canonical store is read back at its index and leaves the others. -/
theorem lfoWrStep : Obligations.LfoWrStep := by
  intro s l k v hl
  refine ⟨fun hk hwf => ?_, fun hk => ⟨.stepIndex, if_neg (not_lt.mpr hk)⟩⟩
  obtain ⟨t, ht, hlfo, hframe⟩ := s.onLfo_completes hl (f := fun l d => .ok (l.writeStep k.val v, d)) rfl
  exact ⟨t, l.writeStep k.val v, (if_pos hk).trans ht, hlfo, Memory.read_write_same hwf k.val v,
    fun j hj => Memory.read_write_other v hj, rfl, hframe⟩

/-- Settles O35. -/
theorem lfoRdStep : Obligations.LfoRdStep := by
  intro s l k hl
  refine ⟨fun hk => ?_, fun hk => ⟨.stepIndex, if_neg (not_lt.mpr hk)⟩⟩
  obtain ⟨t, ht, hrest⟩ := s.readLfo_completes hl fun l => .num (l.readStep k.val)
  exact ⟨t, (if_pos hk).trans ht, hrest⟩

/-- Settles O36: a step that completes has its premises, and with them every shape lies in [-1, 1] and the fade scales it down. -/
theorem lfoOutputRange : Obligations.LfoOutputRange := by
  intro s t l l' e bpm hl hsteps hlo hhi h hl'
  obtain ⟨x, y, hx, hstep, rfl⟩ := (s.onLfo_ok t _).mp ((outcome_next _ _).mp h)
  obtain rfl : l = x := Option.some.inj (hl.symm.trans hx)
  obtain ⟨hrefusal, rfl⟩ := (l.step_ok e bpm s.draws y).mp hstep
  obtain ⟨-, hp⟩ := (l.refusal_none e bpm).mp hrefusal
  rw [State.withDraws_lfoAt, (s.setLfo_sameBut _ l _ hl).2] at hl'
  cases hl'
  exact Lfo.output_range hp hsteps (Lfo.held_range _ _ ⟨hlo, hhi⟩)

end Sys2Proof.Machine
end

section
/-! The Filter on its own, for the proofs of O37 to O42: the coefficients an update computes and their gains, when it is refused,
the difference equation of a run, and what a command to the selected Filter does to the machine. -/

namespace Sys2Proof.Machine

/-! ### The modulated cutoff and resonance (R213, R214) -/

theorem Flt.cutEff_eq (f : Flt) : f.cutEff = max 0 (min 1 (f.cutoff * Config.fn.exp2 f.cutoffMod)) := clamp_unit _

theorem Flt.resEff_eq (f : Flt) : f.resEff = max 0 (min 1 (f.resonance + f.resMod / 100)) := clamp_unit _

theorem Flt.hz_eq (f : Flt) : f.hz = 1 + max 0 (min 1 (f.cutoff * Config.fn.exp2 f.cutoffMod)) * (16000 - 1) := by
  rw [Flt.hz, f.cutEff_eq, Config.fltFMax]

theorem Flt.damping_eq (f : Flt) :
    f.damping = (Config.fn.sqrt2 - 1 / 10) * (1 - max 0 (min 1 (f.resonance + f.resMod / 100))) + 1 / 10 := by
  rw [Flt.damping, f.resEff_eq, Config.fltRMin]

/-- R219: `r > 0`, as a weighted mean of `√2` and 0.1. -/
theorem Flt.damping_pos (f : Flt) : 0 < f.damping := by
  have h0 : 0 ≤ f.resEff := f.resEff_eq ▸ le_max_left _ _
  have h1 : f.resEff ≤ 1 := f.resEff_eq ▸ max_le zero_le_one (min_le_left _ _)
  have hmean : f.damping = Config.fn.sqrt2 * (1 - f.resEff) + 1 / 10 * f.resEff := by
    rw [Flt.damping, Config.fltRMin]
    ring
  have hsqrt2 : 0 ≤ Config.fn.sqrt2 * (1 - f.resEff) := mul_nonneg Config.fn.sqrt2_pos.le (by linarith)
  rcases h0.eq_or_lt with hzero | hpos
  · rw [hmean, ← hzero]
    linarith [Config.fn.sqrt2_pos]
  · linarith

theorem Flt.rateOk_iff (f : Flt) (sr : Number) : f.rateOk sr = true ↔ 0 < sr ∧ f.hz < sr / 2 := by
  have hhz : 0 < f.hz := zero_lt_one.trans_le f.hz_range.1
  simp [Flt.rateOk, hhz]

/-- R210, R219: below half the sample rate the tangent is positive. -/
theorem Flt.warp_pos {f : Flt} {sr : Number} (hsr : 0 < sr) (hhz : f.hz < sr / 2) : 0 < f.warp sr := by
  have hpos : 0 < f.hz := zero_lt_one.trans_le f.hz_range.1
  have hpi := Config.fn.pi_pos
  refine Config.fn.tan_pos _ (by positivity) ?_
  rw [div_lt_iff₀ hsr]
  calc Config.fn.pi * f.hz < Config.fn.pi * (sr / 2) := mul_lt_mul_of_pos_left hhz hpi
    _ = Config.fn.pi / 2 * sr := by ring

/-! ### The coefficients (R215; log entry 27) -/

/-- The formulas of both types in one: they differ in a sign. -/
def biquad (sign c r : Number) : Coeffs :=
  let a1 := 1 / (1 + r * c + c * c)
  ⟨a1, sign * 2 * a1, a1, sign * 2 * (1 - c * c) * a1, (1 - r * c + c * c) * a1⟩

theorem lowpassCoeffs_eq (c r : Number) : lowpassCoeffs c r = biquad 1 c r := by
  simp only [lowpassCoeffs, biquad, one_mul]

theorem highpassCoeffs_eq (c r : Number) : highpassCoeffs c r = biquad (-1) c r := by
  simp only [highpassCoeffs, biquad, Coeffs.mk.injEq, true_and, and_true]
  constructor <;> ring

section

variable {c r : Number}

theorem biquad_a1_pos (sign : Number) (hc : 0 < c) (hr : 0 < r) : 0 < (biquad sign c r).a1 := by
  unfold biquad
  positivity

/-- The numerator of the gain for a constant signal (R219). -/
theorem biquad_forward_sum (sign c r : Number) :
    (biquad sign c r).a1 + (biquad sign c r).a2 + (biquad sign c r).a3 = 2 * (1 + sign) * (biquad sign c r).a1 := by
  unfold biquad
  ring

/-- The denominator of the gain for a constant signal (R219). -/
theorem biquad_feedback_sum (sign : Number) (hc : 0 < c) (hr : 0 < r) :
    1 + (biquad sign c r).b1 + (biquad sign c r).b2
      = (2 * (1 + sign) + 2 * (1 - sign) * (c * c)) * (biquad sign c r).a1 := by
  have hden : 1 + r * c + c * c ≠ 0 := by positivity
  unfold biquad
  field_simp
  ring

theorem biquad_feedback_sum_pos {sign : Number} (hsign : sign = 1 ∨ sign = -1) (hc : 0 < c) (hr : 0 < r) :
    0 < 1 + (biquad sign c r).b1 + (biquad sign c r).b2 := by
  rw [biquad_feedback_sum sign hc hr]
  refine mul_pos ?_ (biquad_a1_pos sign hc hr)
  rcases hsign with rfl | rfl
  · norm_num
  · have hsq := mul_pos hc hc
    linarith

theorem biquad_lowpass_gain (hc : 0 < c) (hr : 0 < r) :
    ((biquad 1 c r).a1 + (biquad 1 c r).a2 + (biquad 1 c r).a3) / (1 + (biquad 1 c r).b1 + (biquad 1 c r).b2) = 1 := by
  rw [div_eq_one_iff_eq (biquad_feedback_sum_pos (.inl rfl) hc hr).ne', biquad_forward_sum, biquad_feedback_sum 1 hc hr]
  ring

theorem biquad_highpass_gain (c r : Number) :
    ((biquad (-1) c r).a1 + (biquad (-1) c r).a2 + (biquad (-1) c r).a3) / (1 + (biquad (-1) c r).b1 + (biquad (-1) c r).b2)
      = 0 := by
  rw [biquad_forward_sum]
  norm_num

end

/-! ### `FLT.UPDATE` on one Filter (R213, R216) -/

/-- The sign in which the two types differ (R215). -/
def Flt.sign (f : Flt) : Number := if f.type = .lowpass then 1 else -1

theorem Flt.sign_eq (f : Flt) : f.sign = 1 ∨ f.sign = -1 := ite_eq_or_eq _ _ _

/-- The `c` of R213: inverted for lowpass. -/
def Flt.corner (f : Flt) (sr : Number) : Number := if f.type = .lowpass then 1 / f.warp sr else f.warp sr

/-- The coefficients an update of a Filter with a type computes (R213, R215). -/
def Flt.coefficients (f : Flt) (sr : Number) : Coeffs := biquad f.sign (f.corner sr) f.damping

theorem Flt.corner_pos {f : Flt} {sr : Number} (hsr : 0 < sr) (hhz : f.hz < sr / 2) : 0 < f.corner sr := by
  have hwarp := Flt.warp_pos hsr hhz
  unfold Flt.corner
  split <;> positivity

/-- An update of a Filter with a type: the rate decides whether it completes. -/
theorem Flt.update_eq {f : Flt} (ht : f.type ≠ .none) (sr : Number) :
    f.update sr = if 0 < sr ∧ f.hz < sr / 2 then .ok { f with coeffs := f.coefficients sr } else .error .filterRate := by
  simp only [← f.rateOk_iff sr]
  unfold Flt.update Flt.coefficients Flt.sign Flt.corner
  cases h : f.type with
  | none => exact absurd h ht
  | lowpass => simp [lowpassCoeffs_eq]
  | highpass => simp [highpassCoeffs_eq]

theorem Flt.update_none {f : Flt} (ht : f.type = .none) (sr : Number) : f.update sr = .ok f := by
  simp only [Flt.update, ht]

/-! ### The difference equation (R218) -/

/-- The two taps before a channel. -/
def history (older old : Number) (xs : List Number) (j : Nat) : Number := (older :: old :: xs).getD j 0

/-- What R218 asks of `n` samples of one channel: the difference equation at each of them, the rest as before, and the last two
inputs and outputs in the taps. -/
def Coeffs.Follows (c : Coeffs) (n : Nat) (taps taps' : Taps) (inp out : List Number) : Prop :=
  let u := history taps.x2 taps.x1 inp
  let y := history taps.y2 taps.y1 out
  out.length = inp.length ∧
    (∀ i, i < n → y (i + 2) = c.a1 * u (i + 2) + c.a2 * u (i + 1) + c.a3 * u i - c.b1 * y (i + 1) - c.b2 * y i) ∧
    (∀ i, n ≤ i → out[i]? = inp[i]?) ∧ taps' = ⟨u (n + 1), u n, y (n + 1), y n⟩

/-- One sample in front: the rest is filtered with the shifted taps. -/
theorem Coeffs.Follows.cons {c : Coeffs} {n : Nat} {taps taps' : Taps} {x : Number} {inp out : List Number}
    (h : c.Follows n (taps.shift x (c.output taps x)) taps' inp out) :
    c.Follows (n + 1) taps taps' (x :: inp) (c.output taps x :: out) := by
  obtain ⟨hlen, hequation, hrest, htaps⟩ := h
  refine ⟨congrArg (· + 1) hlen, fun i hi => ?_, fun i hi => ?_, htaps⟩
  · cases i with
    | zero => rfl
    | succ i => exact hequation i (Nat.lt_of_succ_lt_succ hi)
  · cases i with
    | zero => exact absurd hi (Nat.not_succ_le_zero n)
    | succ i => exact hrest i (Nat.le_of_succ_le_succ hi)

theorem runChannel_follows (c : Coeffs) (taps : Taps) {n : Nat} {inp : List Number} (h : n ≤ inp.length) :
    c.Follows n taps (runChannel c taps (inp.take n)).1 inp ((runChannel c taps (inp.take n)).2 ++ inp.drop n) := by
  induction n generalizing taps inp with
  | zero => exact ⟨rfl, fun i hi => absurd hi (Nat.not_lt_zero i), fun _ _ => rfl, rfl⟩
  | succ n ih =>
    cases inp with
    | nil => exact absurd h (Nat.not_succ_le_zero n)
    | cons x xs => exact (ih _ (Nat.le_of_succ_le_succ h)).cons

/-- R219: silence on zero taps stays silence. -/
theorem runChannel_silence (c : Coeffs) (n : Nat) :
    runChannel c ⟨0, 0, 0, 0⟩ (List.replicate n 0) = (⟨0, 0, 0, 0⟩, List.replicate n 0) := by
  induction n with
  | zero => rfl
  | succ n ih =>
    have hzero : c.output ⟨0, 0, 0, 0⟩ 0 = 0 := by simp [Coeffs.output]
    simp only [List.replicate_succ, runChannel, hzero, Taps.shift, ih]

/-! ### `FLT.RUN` on one Filter (R216, R218) -/

/-- A run over samples the buffer holds: type none does nothing, another type filters both channels. -/
theorem Flt.run_spec (f : Flt) {b : Scratch} {n : Nat} (hl : n ≤ b.left.length) (hr : n ≤ b.right.length) :
    ∃ x' b', f.run b n = .ok (x', b') ∧ (f.type = .none → x' = f ∧ b' = b) ∧
      (f.type ≠ .none → x' = { f with left := x'.left, right := x'.right } ∧
        f.coeffs.Follows n f.left x'.left b.left b'.left ∧ f.coeffs.Follows n f.right x'.right b.right b'.right) := by
  have hlen : (n ≤ b.left.length && n ≤ b.right.length) = true := by simp [hl, hr]
  unfold Flt.run
  rw [if_pos hlen]
  cases f.type with
  | none => exact ⟨f, b, rfl, fun _ => ⟨rfl, rfl⟩, fun h => absurd rfl h⟩
  | lowpass | highpass =>
    exact ⟨_, _, rfl, nofun, fun _ => ⟨rfl, runChannel_follows _ _ hl, runChannel_follows _ _ hr⟩⟩

theorem Flt.run_too_long (f : Flt) {b : Scratch} {n : Nat} (h : b.left.length < n ∨ b.right.length < n) :
    f.run b n = .error .filterLength := by
  refine if_neg ?_
  simp only [Bool.and_eq_true, decide_eq_true_eq]
  omega

/-! ### A command to the selected Filter (R2, R108) -/

/-- A frame that spoke of Filters and buffers which are the same after all. -/
theorem SameBut.of_same_flt_buf {s t : State} {flts : FltLoc → Prop} {bufs : BufLoc → Prop}
    (h : SameBut s t { flt := flts, scratch := bufs }) (hf : ∀ l, flts l → t.fltAt l = s.fltAt l)
    (hb : ∀ l, bufs l → t.bufAt l = s.bufAt l) : SameBut s t {} where
  env := h.env
  lfo := h.lfo
  flt l _ := by
    by_cases hl : flts l
    · exact hf l hl
    · exact h.flt l hl
  mtx := h.mtx
  voice := h.voice
  sample := h.sample
  bus := h.bus
  busFrame := h.busFrame
  scratch l _ := by
    by_cases hl : bufs l
    · exact hb l hl
    · exact h.scratch l hl
  pitchbend := h.pitchbend
  controller := h.controller
  sel := h.sel
  policy := h.policy
  cmd := h.cmd

/-- The footprint of `FLT.RUN`: the Filter the chip select names, and the buffer it runs on. -/
def fltAndBuffer (s : State) : Footprint := { flt := fun l => l = s.sel.flt, scratch := fun l => l = s.sel.flt.buffer }

section

variable (s : State) {x : Flt}

/-- A command that changes the selected Filter completes where its operation does, and changes nothing else. -/
theorem State.onFlt_completes (hx : s.fltAt s.sel.flt = some x) {f : Flt → Except Refusal Flt} {x' : Flt} (hf : f x = .ok x') :
    ∃ t, outcome (s.onFlt f) = .next t ∧ t.fltAt s.sel.flt = some x' ∧ SameBut s t (onlyFlt s) ∧ t.resp = s.resp ∧
      t.draws = s.draws := by
  obtain ⟨hframe, hset⟩ := s.setFlt_sameBut _ x x' hx
  refine ⟨s.setFlt s.sel.flt x', ?_, hset, hframe, s.setFlt_resp _ x', s.setFlt_draws _ x'⟩
  rw [s.onFlt_eq hx, hf]
  rfl

/-- `FLT.RD` responds one word and changes nothing. -/
theorem execFltRd_completes (hx : s.fltAt s.sel.flt = some x) (reg : FltReg) :
    ∃ t, execFltRd reg s = .next t ∧ Responds s t .flt (readingWord (x.read reg)) ∧ SameBut s t {} ∧ t.draws = s.draws :=
  ⟨s.respond .flt (x.read reg), by rw [execFltRd, hx], s.respond_resp .flt (x.read reg), s.respond_sameBut .flt (x.read reg),
    s.respond_draws .flt (x.read reg)⟩

/-- A command that changes the selected Filter is refused exactly where its operation is, for the Filter is there. -/
theorem State.onFlt_refused_iff (hx : s.fltAt s.sel.flt = some x) (f : Flt → Except Refusal Flt) :
    Refused (outcome (s.onFlt f)) ↔ ∃ r, f x = .error r := by
  refine exists_congr fun r => ?_
  rw [outcome_refused, s.onFlt_eq hx]
  cases f x <;> simp [Except.map]

/-- A run of the selected Filter on its buffer completes where its operation does, and changes nothing else. -/
theorem State.onFltBuf_completes {b : Scratch} (hx : s.fltAt s.sel.flt = some x) (hb : s.bufAt s.sel.flt.buffer = some b)
    {f : Flt → Scratch → Except Refusal (Flt × Scratch)} {x' : Flt} {b' : Scratch} (hf : f x b = .ok (x', b')) :
    ∃ t, outcome (s.onFltBuf f) = .next t ∧ t.fltAt s.sel.flt = some x' ∧ t.bufAt s.sel.flt.buffer = some b' ∧
      SameBut s t (fltAndBuffer s) ∧ t.resp = s.resp ∧ t.draws = s.draws := by
  obtain ⟨hflt, hsetFlt⟩ := s.setFlt_sameBut _ x x' hx
  obtain ⟨hbuf, hsetBuf⟩ := State.setBuf_sameBut _ _ b b' ((hflt.scratch s.sel.flt.buffer id).trans hb)
  refine ⟨(s.setFlt s.sel.flt x').setBuf s.sel.flt.buffer b', ?_, (hbuf.flt _ id).trans hsetFlt, hsetBuf, ?_, ?_, ?_⟩
  · rw [s.onFltBuf_eq hx hb, hf]
    rfl
  · refine SameBut.trans (hflt.mono ?_ ?_ ?_ ?_ ?_ ?_ (fun _ => False.elim) ?_ ?_)
      (hbuf.mono ?_ ?_ (fun _ => False.elim) ?_ ?_ ?_ ?_ ?_ ?_) <;> intros <;> assumption
  · rw [State.setBuf_resp, State.setFlt_resp]
  · rw [State.setBuf_draws, State.setFlt_draws]

theorem State.onFltBuf_refused {b : Scratch} (hx : s.fltAt s.sel.flt = some x) (hb : s.bufAt s.sel.flt.buffer = some b)
    {f : Flt → Scratch → Except Refusal (Flt × Scratch)} {r : Refusal} (hf : f x b = .error r) :
    Refused (outcome (s.onFltBuf f)) := by
  refine ⟨r, ?_⟩
  rw [s.onFltBuf_eq hx hb, hf]
  rfl

end

end Sys2Proof.Machine
end

section
/-! PROOF of O37 to O42: the Filter's commands (42_filter.md, R210 to R219), from the rules of one Filter above. -/

namespace Sys2Proof.Machine

/-- Settles O37. -/
theorem fltWr : Obligations.FltWr := by
  intro s x w hx
  obtain ⟨t, ht, hflt, hframe⟩ := s.onFlt_completes hx (f := fun x => .ok (x.write w)) rfl
  refine ⟨t, ht, ?_, hframe⟩
  rw [hflt]
  cases w <;> rfl

/-- Settles O38: the type is its code, every other register a number word. -/
theorem fltRd : Obligations.FltRd := by
  intro s x reg hx
  obtain ⟨t, ht, hresp, hframe⟩ := execFltRd_completes s hx reg
  refine ⟨t, ht, ?_, hframe⟩
  cases reg with
  | type =>
    rw [Flt.read] at hresp
    cases htype : x.type <;> (rw [htype] at hresp; exact hresp)
  | cutoff | resonance | cutoffMod | resMod | a1 | a2 | a3 | b1 | b2 | x1L | x2L | y1L | y2L | x1R | x2R | y1R | y2R => exact hresp

/-- Settles O39: the rate lets the update complete with `Flt.coefficients`; for type none the Filter written back is the same. -/
theorem fltUpdate : Obligations.FltUpdate := by
  intro s x sampleRate hx cut res f r warp
  refine ⟨fun ht hsr hf => ?_, fun ht => ?_⟩
  · have hrate : 0 < sampleRate ∧ x.hz < sampleRate / 2 := ⟨hsr, x.hz_eq ▸ hf⟩
    obtain ⟨t, hexec, hflt, hframe⟩ := s.onFlt_completes hx (f := fun x => x.update sampleRate)
      ((Flt.update_eq ht sampleRate).trans (if_pos hrate))
    refine ⟨t, hexec, ?_, hframe⟩
    rw [hflt, Flt.coefficients, Flt.sign, Flt.corner, Flt.warp, x.hz_eq, x.damping_eq]
    rfl
  · obtain ⟨t, hexec, hflt, hframe, hrest⟩ := s.onFlt_completes hx (f := fun x => x.update sampleRate)
      (Flt.update_none ht sampleRate)
    exact ⟨t, hexec, hframe.of_same_flt_buf (fun l hl => hl ▸ hflt.trans hx.symm) (fun _ => False.elim), hrest⟩

/-- Settles O40: the command is refused where the update is; no frequency is above 16000 Hz. -/
theorem fltUpdateRefused : Obligations.FltUpdateRefused := by
  intro s x sampleRate hx
  have hrefused := s.onFlt_refused_iff hx fun x => x.update sampleRate
  refine ⟨fun ht => hrefused.trans ?_, fun ht => mt hrefused.mp ?_, fun hsr => ?_⟩
  · rw [← x.hz_eq, Flt.update_eq ht]
    split <;> simp [*]
  · simp [Flt.update_none ht]
  · obtain ⟨x', hx'⟩ := x.update_total (.inr hsr)
    obtain ⟨t, hexec, -⟩ := s.onFlt_completes hx (f := fun x => x.update sampleRate) hx'
    exact ⟨t, hexec⟩

/-- Settles O41: both channels follow the difference equation (`runChannel_follows`), on the buffer the Filter runs on. -/
theorem fltRun : Obligations.FltRun := by
  intro s x b n hx hbuf
  have hb : s.bufAt s.sel.flt.buffer = some b := by
    cases hsel : s.sel.flt with
    | lone | template => rw [hsel] at hbuf; exact congrArg some hbuf
    | voice => rw [hsel] at hbuf; exact hbuf
  refine ⟨fun hl hr => ?_, fun hlong => s.onFltBuf_refused hx hb (x.run_too_long hlong)⟩
  obtain ⟨x', b', hrun, hnone, htype⟩ := x.run_spec hl hr
  obtain ⟨t, hexec, hflt, hbuf', hframe, hrest⟩ := s.onFltBuf_completes hx hb (f := fun x b => x.run b n) hrun
  refine ⟨t, x', b', hexec, hflt, hbuf', fun ht => ?_, htype, hframe, hrest⟩
  obtain ⟨rfl, rfl⟩ := hnone ht
  exact ⟨rfl, rfl, hframe.of_same_flt_buf (fun l hl => hl ▸ hflt.trans hx.symm) fun l hl => hl ▸ hbuf'.trans hb.symm⟩

/-- Settles O42: an update that completes has its rate, so `c` and `r` are positive. -/
theorem fltDcGain : Obligations.FltDcGain := by
  intro s t x x' sampleRate hx ht hexec hx'
  obtain ⟨z, y, hz, hupdate, rfl⟩ := (s.onFlt_ok t _).mp ((outcome_next _ _).mp hexec)
  obtain rfl : x = z := Option.some.inj (hx.symm.trans hz)
  obtain rfl : y = x' := Option.some.inj ((s.setFlt_sameBut _ x y hx).2.symm.trans hx')
  rw [Flt.update_eq ht] at hupdate
  split at hupdate
  next hrate =>
    cases hupdate
    have hc := Flt.corner_pos hrate.1 hrate.2
    have hr := x.damping_pos
    refine ⟨biquad_a1_pos _ hc hr, biquad_feedback_sum_pos x.sign_eq hc hr, fun hlow => ?_, fun hhigh => ?_,
      runChannel_silence _⟩
    · have hsign : x.sign = 1 := if_pos hlow
      rw [Flt.coefficients, hsign]
      exact biquad_lowpass_gain hc hr
    · have hsign : x.sign = -1 := if_neg (by rw [hhigh]; nofun)
      rw [Flt.coefficients, hsign]
      exact biquad_highpass_gain _ _
  next => cases hupdate

end Sys2Proof.Machine
end

section
/-! The ModMatrix on its own, for the proofs of O43 to O45: what a write and a read of one do, the combined value of a destination
as a sum over its slots, and what a command to the selected ModMatrix does to the machine. -/

namespace Sys2Proof.Machine

/-! ### The registers of one ModMatrix (R241, R242) -/

@[simp] theorem Mtx.write_mod (m : Mtx) (slot : Fin 32) (w : SlotWrite) : (m.write slot w).mod = m.mod := by
  unfold Mtx.write
  split <;> rfl

/-- The slot a write names gets the write; a slot of the five is never denied. -/
theorem Mtx.write_slots_same (m : Mtx) {slot : Fin 32} (w : SlotWrite) {j : Fin 5} (h : j.val = slot.val) :
    (m.write slot w).slots[j] = m.slots[j].write w := by
  simp [Mtx.write, ← h]

/-- The other slots are as before, and all five are for a denied write. -/
theorem Mtx.write_slots_other (m : Mtx) {slot : Fin 32} (w : SlotWrite) {j : Fin 5} (h : j.val ≠ slot.val) :
    (m.write slot w).slots[j] = m.slots[j] := by
  unfold Mtx.write
  split
  next hslot => exact Vector.getElem_set_ne hslot j.isLt h.symm
  next => rfl

/-- A read of one of the five slots is not denied. -/
theorem Mtx.read_field (m : Mtx) {slot : Fin 32} (f : SlotField) {j : Fin 5} (h : slot.val = j.val) :
    m.read (.field slot f) = some (m.slots[j].read f) := by
  simp [Mtx.read, h]

/-! ### What a slot contributes (R243 to R245) -/

/-- R244: a source other than None is the operand at its code, counted from 1. -/
theorem srcValue_eq (srcs : Sources) (dflt : Number) (x : ModSrc) :
    srcValue srcs dflt x = if x = .none then dflt else srcs.toList.getD (x.code - 1) 0 := by
  cases x <;> rfl

theorem mathFunc_square (x : Number) : mathFunc .square x = x ^ 2 := (pow_two x).symm

theorem mathFunc_cube (x : Number) : mathFunc .cube x = x ^ 3 := (pow_three' x).symm

theorem mathFunc_abs (x : Number) : mathFunc .abs x = |x| := by
  rw [mathFunc]
  split
  next h => exact (abs_of_nonneg h).symm
  next h => exact (abs_of_neg (not_le.mp h)).symm

/-! ### The combined values (R243) -/

/-- The accumulator of the model's walk over the slots is added to the sum of the slots still to come. -/
theorem slotSum_eq (srcs : Sources) (d : ModDest) (slots : List MtxSlot) (acc : Number) :
    slotSum srcs d slots acc =
      acc + ((slots.filter fun sl => sl.enabled && sl.dest == d).map fun sl => sl.term srcs).sum := by
  induction slots generalizing acc with
  | nil => simp [slotSum]
  | cons sl slots ih =>
    rw [slotSum, ih, List.filter_cons]
    split
    · rw [List.map_cons, List.sum_cons, add_assoc]
    · rfl

/-- An output after `MTX.EVAL` is the sum of its enabled slots' terms; without one it is the empty sum 0. -/
theorem Mtx.eval_get (m : Mtx) (srcs : Sources) (d : ModDest) :
    (m.eval srcs).mod.get d =
      ((m.slots.toList.filter fun sl => sl.enabled && sl.dest == d).map fun sl => sl.term srcs).sum := by
  have hget : (m.eval srcs).mod.get d = m.combined srcs d := by cases d <;> rfl
  rw [hget, Mtx.combined, slotSum_eq, zero_add]

/-! ### A command to the selected ModMatrix (R2, R108) -/

section

variable (s : State) {m : Mtx}

/-- A command that changes the selected ModMatrix completes and changes nothing else. -/
theorem State.onMtx_completes (hm : s.mtxAt s.sel.mtx = some m) (f : Mtx → Mtx) :
    ∃ t, outcome (s.onMtx f) = .next t ∧ t.mtxAt s.sel.mtx = some (f m) ∧ SameBut s t (onlyMtx s) ∧ t.resp = s.resp ∧
      t.draws = s.draws := by
  obtain ⟨hframe, hset⟩ := s.setMtx_sameBut _ m (f m) hm
  refine ⟨s.setMtx s.sel.mtx (f m), ?_, hset, hframe, s.setMtx_resp _ (f m), s.setMtx_draws _ (f m)⟩
  rw [s.onMtx_eq hm, outcome_ok]

theorem execMtxRd_of_read (hm : s.mtxAt s.sel.mtx = some m) {reg : MtxReg} {rd : Reading} (h : m.read reg = some rd) :
    execMtxRd reg s = .next (s.respond .mtx rd) := by
  simp only [execMtxRd, hm, h]

theorem execMtxRd_of_denied (hm : s.mtxAt s.sel.mtx = some m) {reg : MtxReg} (h : m.read reg = none) :
    execMtxRd reg s = .next { s.emit .mtx (Config.deniedRead s.draws) with draws := s.draws + 1 } := by
  simp only [execMtxRd, hm, h]

/-- `MTX.RD` responds one word and changes nothing: the register's word, or any word when the read is denied (log entry 11). -/
theorem execMtxRd_completes (hm : s.mtxAt s.sel.mtx = some m) (reg : MtxReg) :
    ∃ t w, execMtxRd reg s = .next t ∧ Responds s t .mtx w ∧ SameBut s t {} ∧
      ∀ rd, m.read reg = some rd → w = readingWord rd := by
  cases hread : m.read reg with
  | some rd =>
    exact ⟨s.respond .mtx rd, readingWord rd, execMtxRd_of_read s hm hread, s.respond_resp .mtx rd,
      s.respond_sameBut .mtx rd, fun _ h => congrArg readingWord (Option.some.inj h)⟩
  | none =>
    exact ⟨_, Config.deniedRead s.draws, execMtxRd_of_denied s hm hread, s.emit_resp .mtx (Config.deniedRead s.draws),
      (SameBut.refl s {}).congr rfl rfl rfl rfl rfl rfl rfl rfl rfl rfl rfl, nofun⟩

end

end Sys2Proof.Machine
end

section
/-! PROOF of O43 to O45: the ModMatrix's commands (43_modmatrix.md, R241 to R245), from the rules of one ModMatrix above. -/

namespace Sys2Proof.Machine

/-- Settles O43: the slot the index names, if it is one of the five, gets the write; every other is as before. -/
theorem mtxWr : Obligations.MtxWr := by
  intro s m slot w hm
  obtain ⟨t, ht, hmtx, hframe⟩ := s.onMtx_completes hm fun m => m.write slot w
  refine ⟨t, m.write slot w, ht, hmtx, m.write_mod slot w, fun j hj => m.write_slots_other w hj, fun j hj => ?_, hframe⟩
  rw [m.write_slots_same w hj]
  cases w <;> rfl

/-- Settles O44: an output and the fields of slots 0 to 4 are never denied, so the word is that of the reading. -/
theorem mtxRd : Obligations.MtxRd := by
  intro s m reg hm
  obtain ⟨t, w, ht, hresp, hframe, hword⟩ := execMtxRd_completes s hm reg
  refine ⟨t, w, ht, hresp, hframe, ?_, ?_⟩
  · rintro d rfl
    rw [hword _ rfl]
    cases d <;> rfl
  · rintro slot f j rfl hj
    rw [hword _ (m.read_field f hj)]
    cases f with
    | enabled => cases h : m.slots[j].enabled <;> rw [MtxSlot.read, h] <;> rfl
    | source | secondary | dest | func | amount => rfl

/-- Settles O45: each output is the sum of its slots' terms (`Mtx.eval_get`), and a term is what R243 to R245 say. -/
theorem mtxEval : Obligations.MtxEval := by
  intro s m srcs hm
  obtain ⟨t, ht, hmtx, hframe⟩ := s.onMtx_completes hm fun m => m.eval srcs
  refine ⟨t, m.eval srcs, ht, hmtx, rfl, ?_, hframe⟩
  intro value func d
  have hfunc : ∀ f x, mathFunc f x = func f x := by
    intro f x
    cases f with
    | identity | oneMinus | biToUni | uniToBi | neg => rfl
    | square => exact mathFunc_square x
    | cube => exact mathFunc_cube x
    | abs => exact mathFunc_abs x
  rw [m.eval_get]
  refine congrArg List.sum (List.map_congr_left fun sl _ => ?_)
  rw [MtxSlot.term, srcValue_eq, srcValue_eq, hfunc]

end Sys2Proof.Machine
end

section
/-! A render on its own, for the proofs of O19 and O49 to O53: what a block that completes has done at each output sample, what
the end of a block sends to the bus, and the machine a render leaves. -/

namespace Sys2Proof.Machine

theorem readingWord_flag (b : Bool) : readingWord (boolReading b) = if b then 1#32 else 0#32 := by
  cases b <;> rfl

theorem map_eq_ok_iff {α β : Type} {f : α → β} {x : Except Refusal α} {y : β} :
    x.map f = .ok y ↔ ∃ a, x = .ok a ∧ f a = y := by
  cases x <;> simp [Except.map]

/-! ### Loop handling (R280 to R284) -/

/-- The Voice plays on, at offset `o`: inside its source, or wrapped once by the loop. -/
def PlaysOnAt (smp : Sample) (v : Voice) (o : Number) : Prop :=
  match smp.playMode with
  | .standard => 0 ≤ v.offset ∧ v.offset < smp.src.numSamples ∧ o = v.offset
  | .shot => 0 ≤ v.offset ∧ v.offset < smp.src.numSamples ∧ o = v.offset
  | .loop => o = loopWrap smp v.offset
  | .loopUntilRelease => v.gate = true ∧ o = loopWrap smp v.offset

theorem handleLoop_eq_some_iff {smp : Sample} {v : Voice} {o : Number} : handleLoop smp v = some o ↔ PlaysOnAt smp v o := by
  have hinside : (if v.offset < 0 ∨ (smp.src.numSamples : Number) ≤ v.offset then none else some v.offset) = some o
      ↔ 0 ≤ v.offset ∧ v.offset < smp.src.numSamples ∧ o = v.offset := by
    rw [Option.ite_none_left_eq_some, not_or, not_lt, not_le, Option.some_inj, and_assoc, eq_comm (a := o)]
  unfold handleLoop PlaysOnAt
  cases smp.playMode with
  | standard | shot => exact hinside
  | loop => simp only [Option.some_inj, eq_comm]
  | loopUntilRelease => simp only [Option.ite_none_right_eq_some, Option.some_inj, eq_comm (a := o)]

/-! ### The amplitude (R291, R292) -/

theorem clamp_eq {lo hi : Number} (h : lo ≤ hi) (v : Number) : clamp v lo hi = max lo (min hi v) := by
  unfold clamp
  split
  next hlo => rw [min_eq_right (hlo.le.trans h), max_eq_left hlo.le]
  next hlo =>
    split
    next hhi => rw [min_eq_left hhi.le, max_eq_right h]
    next hhi => rw [min_eq_right (not_lt.mp hhi), max_eq_right (not_lt.mp hlo)]

theorem getLeftAmp_eq (pan : Number) : getLeftAmp pan = 1 - max 0 (min 1 pan) := by
  unfold getLeftAmp
  rw [clamp_eq (by norm_num)]
  grind

theorem getRightAmp_eq (pan : Number) : getRightAmp pan = 1 + min 0 (max (-1) pan) := by
  unfold getRightAmp
  rw [clamp_eq (by norm_num)]
  grind

theorem clampedAmpMod_eq (ampMod : Number) :
    clampedAmpMod ampMod = max (Config.mtxDestInfo.info .amplitude).min (min (Config.mtxDestInfo.info .amplitude).max ampMod) :=
  clamp_eq (Config.mtxDestInfo.min_le_max .amplitude) ampMod

theorem envFactor_eq (smp : Sample) (v : Voice) : envFactor smp v = if smp.playMode = .shot then 1 else v.aeg.value := by
  unfold envFactor
  cases smp.playMode <;> rfl

/-- One channel's amplitude, of the gain its side of the pan gives (R291, R292). -/
def Voice.ampOf (v : Voice) (smp : Sample) (panGain : Number) : Number :=
  (panGain + max (Config.mtxDestInfo.info .amplitude).min (min (Config.mtxDestInfo.info .amplitude).max v.ampMod) / 100)
    * smp.gain * if smp.playMode = .shot then 1 else v.aeg.value

theorem Voice.refreshAmp_eq (v : Voice) (smp : Sample) :
    v.refreshAmp smp = { v with
      ampL := v.ampOf smp (1 - max 0 (min 1 (smp.pan + v.panMod)))
      ampR := v.ampOf smp (1 + min 0 (max (-1) (smp.pan + v.panMod))) } := by
  simp only [Voice.refreshAmp, channelAmp, getLeftAmp_eq, getRightAmp_eq, clampedAmpMod_eq, envFactor_eq, Voice.ampOf]

/-! ### One output sample (R290) -/

section

variable {part : Part} {sampleRate bpm speed : Number} {n : Nat} {x : Playing}

/-- The offset as loop handling leaves it. -/
def Playing.at (x : Playing) (o : Number) : Playing := { x with voice := { x.voice with offset := o } }

@[simp] theorem Playing.at_modCount (x : Playing) (o : Number) : (x.at o).voice.modCount = x.voice.modCount := rfl

@[simp] theorem Playing.at_smp (x : Playing) (o : Number) : (x.at o).smp = x.smp := rfl

@[simp] theorem Playing.at_offset (x : Playing) (o : Number) : (x.at o).voice.offset = o := rfl

@[simp] theorem Playing.move_modCount (x : Playing) (d : Number) : (x.move d).voice.modCount = x.voice.modCount := rfl

@[simp] theorem Playing.move_smp (x : Playing) (d : Number) : (x.move d).smp = x.smp := rfl

@[simp] theorem Playing.move_offset (x : Playing) (d : Number) : (x.move d).voice.offset = x.voice.offset + d := rfl

@[simp] theorem Block.cons_playing (l r : Number) (b : Block) : (Block.cons l r b).playing = b.playing := rfl

/-- What a turn of the sample loop that completes has done: stopped by loop handling, stopped by the envelope, or rendered. -/
theorem renderSamples_succ_cases {b : Block} (h : renderSamples part sampleRate bpm speed (n + 1) x = .ok b) :
    (handleLoop x.smp x.voice = none ∧ b = Block.stopped x) ∨
    ∃ o y, handleLoop x.smp x.voice = some o ∧ handleModulations part sampleRate bpm (x.at o) = .ok y ∧
      (endedByEnvelope y.2 (refreshIf y.2 y.1) = true ∧ b = Block.stopped (refreshIf y.2 y.1) ∨
        ∃ lr b', fetchBoth (refreshIf y.2 y.1) = .ok lr ∧
          renderSamples part sampleRate bpm speed n ((refreshIf y.2 y.1).move speed) = .ok b' ∧ b = Block.cons lr.1 lr.2 b') := by
  rw [renderSamples_succ] at h
  split at h
  next hl => cases h; exact .inl ⟨hl, rfl⟩
  next o hl =>
    refine .inr ⟨o, ?_⟩
    split at h
    · cases h
    next y hy =>
      refine ⟨y, hl, hy, ?_⟩
      split at h
      next he => cases h; exact .inl ⟨he, rfl⟩
      · split at h
        · cases h
        next lr hlr =>
          obtain ⟨b', hb', rfl⟩ := map_eq_ok_iff.mp h
          exact .inr ⟨lr, b', hlr, hb', rfl⟩

/-- What every block keeps: the Voice's identity, the Sample but for its matrix outputs, and the Filter but for its modulation
inputs. -/
theorem renderSamples_keeps {b : Block} (h : renderSamples part sampleRate bpm speed n x = .ok b) :
    b.playing.voice.identity = x.voice.identity ∧ b.playing.smp = { x.smp with mtx := b.playing.smp.mtx } ∧
      b.playing.smp.mtx.slots = x.smp.mtx.slots ∧
      b.playing.voice.flt
        = { x.voice.flt with cutoffMod := b.playing.voice.flt.cutoffMod, resMod := b.playing.voice.flt.resMod } :=
  renderSamples_preserves (preserved_identity part sampleRate bpm x) n h ⟨rfl, rfl, rfl, rfl⟩

theorem renderSamples_of_no_offset (h : handleLoop x.smp x.voice = none) :
    renderSamples part sampleRate bpm speed (n + 1) x = .ok (Block.stopped x) := by
  rw [renderSamples_succ, h]

theorem renderSamples_of_ended {o : Number} {y : Playing × Bool} (hl : handleLoop x.smp x.voice = some o)
    (hy : handleModulations part sampleRate bpm (x.at o) = .ok y) (he : endedByEnvelope y.2 (refreshIf y.2 y.1) = true) :
    renderSamples part sampleRate bpm speed (n + 1) x = .ok (Block.stopped (refreshIf y.2 y.1)) := by
  rw [Playing.at] at hy
  rw [renderSamples_succ, hl]
  simp only [hy, he, if_true]

theorem renderSamples_one {o : Number} {y : Playing × Bool} {lr : Number × Number} (hl : handleLoop x.smp x.voice = some o)
    (hy : handleModulations part sampleRate bpm (x.at o) = .ok y) (he : endedByEnvelope y.2 (refreshIf y.2 y.1) = false)
    (hf : fetchBoth (refreshIf y.2 y.1) = .ok lr) :
    renderSamples part sampleRate bpm speed 1 x
      = .ok { playing := (refreshIf y.2 y.1).move speed, left := [lr.1], right := [lr.2], stop := false } := by
  rw [Playing.at] at hy
  rw [renderSamples_succ, hl]
  simp only [hy, he, Bool.false_eq_true, if_false, hf]
  rfl

/-- R286 between two updates. -/
theorem handleModulations_between (h : x.voice.modCount ≠ 0) :
    handleModulations part sampleRate bpm x = .ok ({ x with voice := x.voice.tick }, false) := if_neg h

/-- R286 at an update. -/
theorem handleModulations_update {y : Playing} (h : x.voice.modCount = 0) (hy : modUpdate part sampleRate bpm x = .ok y) :
    handleModulations part sampleRate bpm x = .ok ({ y with voice := y.voice.tick }, true) := by
  simp only [handleModulations, h, if_true, hy]

/-- R287: the outputs of the matrix overwrite the modulation inputs. -/
theorem modUpdate_inputs {y : Playing} (h : modUpdate part sampleRate bpm x = .ok y) :
    y.voice.flt.cutoffMod = y.smp.mtx.mod.filterCutoff ∧ y.voice.flt.resMod = y.smp.mtx.mod.filterResonance ∧
      y.voice.pitchMod = y.smp.mtx.mod.pitch ∧ y.voice.panMod = y.smp.mtx.mod.pan ∧
      y.voice.ampMod = y.smp.mtx.mod.amplitude := by
  obtain ⟨-, -, -, hvoice, hsmp⟩ := modUpdate_ok h
  rw [hvoice, hsmp]
  exact ⟨rfl, rfl, rfl, rfl, rfl⟩

theorem modUpdate_modCount {y : Playing} (h : modUpdate part sampleRate bpm x = .ok y) :
    y.voice.modCount = x.voice.modCount := by
  obtain ⟨-, -, -, hvoice, -⟩ := modUpdate_ok h
  rw [hvoice]
  rfl

/-- R286: the counter advances by one modulo 128, update or not. -/
theorem handleModulations_modCount {y : Playing × Bool} (h : handleModulations part sampleRate bpm x = .ok y) :
    (refreshIf y.2 y.1).voice.modCount = x.voice.modCount + 1 := by
  unfold handleModulations at h
  split at h
  · split at h
    · cases h
    next z hz =>
      cases h
      exact congrArg (· + 1) (modUpdate_modCount hz)
  · cases h; rfl

/-- Of the Sample a turn changes the matrix outputs alone (R287). -/
theorem handleModulations_smp {y : Playing × Bool} (h : handleModulations part sampleRate bpm x = .ok y) :
    (refreshIf y.2 y.1).smp = { x.smp with mtx := (refreshIf y.2 y.1).smp.mtx } :=
  (handleModulations_preserves (preserved_identity part sampleRate bpm x) h ⟨rfl, rfl, rfl, rfl⟩).2.1

/-- R293: a fetch reads an existing channel. -/
theorem fetchScaled_channel {smp : Sample} {v : Voice} {ch : Int} {amp u : Number} (h : fetchScaled smp v ch amp = .ok u) :
    ch < smp.src.numChannels := by
  unfold fetchScaled sampleRead at h
  split_ifs at h with hin
  exact hin.2.1

theorem fetchBoth_ok {lr : Number × Number} (h : fetchBoth x = .ok lr) :
    fetchScaled x.smp x.voice 0 x.voice.ampL = .ok lr.1 ∧ fetchScaled x.smp x.voice 1 x.voice.ampR = .ok lr.2 := by
  unfold fetchBoth at h
  split at h
  next hl hr => cases h; exact ⟨hl, hr⟩
  · cases h
  · cases h

theorem fetchBoth_of_ok {l r : Number} (hl : fetchScaled x.smp x.voice 0 x.voice.ampL = .ok l)
    (hr : fetchScaled x.smp x.voice 1 x.voice.ampR = .ok r) : fetchBoth x = .ok (l, r) := by
  simp only [fetchBoth, hl, hr]

/-- R293: the stored value at the floored offset, scaled by velocity and amplitude. -/
theorem fetchScaled_of_stored {smp : Sample} {v : Voice} {ch k : Nat} {u : Number} (amp : Number) (hch : ch < smp.src.numChannels)
    (hk : v.offset.floor = k) (hlt : k < smp.src.numSamples) (hu : smp.src.stored ch k = some u) :
    fetchScaled smp v ch amp = .ok (u * ((v.velocity.val : Number) / 127) * amp) := by
  have hin : (0 : Int) ≤ ch ∧ (ch : Int) < smp.src.numChannels ∧ (0 : Int) ≤ k ∧ (k : Int) < smp.src.numSamples := by omega
  simp only [fetchScaled, sampleRead, hk, if_pos hin, Int.toNat_natCast, hu]

end

/-! ### The end of a block (R297, R298) -/

section

variable {sampleRate : Number} {keep : Bool} {b : Block} {bus : Bus} {fin : Finished}

/-- What a Filter makes of the samples of one channel: the taps after them, and the samples as they leave it (R216, R218). -/
def Flt.pass (f : Flt) (taps : Taps) (us : List Number) : Taps × List Number :=
  if f.type = .none then (taps, us) else runChannel f.coeffs taps us

theorem Flt.pass_nil (f : Flt) (taps : Taps) : f.pass taps [] = (taps, []) := by
  unfold Flt.pass
  split <;> rfl

theorem Flt.pass_length (f : Flt) (taps : Taps) (us : List Number) : (f.pass taps us).2.length = us.length := by
  unfold Flt.pass
  split
  · rfl
  · exact runChannel_length _ _ _

theorem Flt.pass_off {f : Flt} (h : f.type = .none) (taps : Taps) (us : List Number) : f.pass taps us = (taps, us) := if_pos h

/-- The end of a block leaves the Filter's modulation inputs (R213, R218). -/
theorem finishBlock_flt_inputs (h : finishBlock keep sampleRate b bus = .ok fin) (hlen : b.left.length = b.right.length) :
    fin.voice.flt.cutoffMod = b.playing.voice.flt.cutoffMod ∧ fin.voice.flt.resMod = b.playing.voice.flt.resMod := by
  obtain ⟨⟨f, buf, hfin, hf, -⟩, -, -⟩ := finishBlock_ok h hlen
  rw [hfin]
  exact ⟨(congrArg Flt.cutoffMod hf :), (congrArg Flt.resMod hf :)⟩

/-- The bus and the Filter's registers as they were: a stopped block under `discard` (R298; log entry 13). -/
theorem finishBlock_discarded (h : finishBlock false sampleRate b bus = .ok fin) (hstop : b.stop = true) :
    fin.bus = bus ∧ fin.voice.flt = b.playing.voice.flt := by
  simp only [finishBlock, hstop, Bool.not_false, Bool.and_true, if_true, Except.ok.injEq] at h
  subst h
  exact ⟨rfl, rfl⟩

/-- A block that is sent: through `FLT.UPDATE` and `FLT.RUN` to the bus (R297). -/
theorem finishBlock_sent (h : finishBlock keep sampleRate b bus = .ok fin) (hsent : (b.stop && !keep) = false)
    (hlen : b.left.length = b.right.length) :
    ∃ f cl cr, b.playing.voice.flt.update sampleRate = .ok f ∧ bus.channels = [cl, cr] ∧ b.left.length ≤ cl.length ∧
      b.right.length ≤ cr.length ∧
      fin.voice.flt = { f with left := (f.pass f.left b.left).1, right := (f.pass f.right b.right).1 } ∧
      fin.bus = { bus with
        channels := [accumulate cl (f.pass f.left b.left).2, accumulate cr (f.pass f.right b.right).2] } := by
  simp only [finishBlock, hsent, Bool.false_eq_true, if_false] at h
  split at h
  · cases h
  next f hf =>
    obtain ⟨fr, hrun, hleft, hright, hflt⟩ := Flt.run_overlay f b.playing.voice.scratch b.left b.right hlen
    simp only [hrun] at h
    split at h
    · cases h
    next bus' hadd =>
      cases h
      obtain ⟨cl, cr, hch, hl, hr, hbus, -⟩ := Bus.add_ok hadd
      rw [hleft] at hl hbus
      rw [← hlen, hright] at hr hbus
      exact ⟨f, cl, cr, hf, hch, (f.pass_length f.left b.left).symm.trans_le hl,
        (f.pass_length f.right b.right).symm.trans_le hr, hflt, hbus⟩

end

/-! ### A render in the machine (R290) -/

section

variable {s t : State} {v : Voice} {smp : Sample} {bus : Bus} {n : Nat} {sampleRate bpm : Number} {blk : Block} {fin : Finished}

/-- What a block starts from: the amplitude computed, the Sample as it stands, the free values taken so far. -/
def State.start (s : State) (v : Voice) (smp : Sample) : Playing := { voice := v.refreshAmp smp, smp := smp, draws := s.draws }

theorem Playable.start_steppable (h : Playable s.parts[v.part] smp v sampleRate bpm) :
    (s.start v smp).voice.Steppable sampleRate bpm :=
  ⟨h.steppable.aeg, h.steppable.eg2, h.steppable.lfo, h.steppable.flt⟩

/-- The selected Voice renders a block on its Sample, and the block ends on the selected bus. -/
structure Renders (s : State) (v : Voice) (smp : Sample) (bus : Bus) (n : Nat) (sampleRate bpm : Number) (blk : Block)
    (fin : Finished) : Prop where
  hasVoice : s.voiceAt s.sel.voice = some v
  hasSample : s.sampleAt v.part v.sample = some smp
  hasBus : s.buses[s.sel.bus]? = some bus
  usable : bus.usable = true
  rate : 0 < sampleRate
  nonempty : 1 ≤ smp.src.numSamples
  block : renderSamples s.parts[v.part] sampleRate bpm (speedOf s.parts[v.part] smp v sampleRate) n (s.start v smp) = .ok blk
  finish : finishBlock Config.keepPartialBlock sampleRate blk bus = .ok fin

/-- The machine after a block but for the Voice: the matrix outputs of its Sample, the bus and the draws. -/
def State.afterBlock (s : State) (v : Voice) (blk : Block) (fin : Finished) : State :=
  { s.setSample v.part v.sample blk.playing.smp with
    buses := s.buses.set s.sel.bus fin.bus
    draws := blk.playing.draws }

/-- The machine after a render: the Voice and the response too. -/
def State.afterRender (s : State) (v : Voice) (blk : Block) (fin : Finished) : State :=
  ((s.afterBlock v blk fin).setVoice s.sel.voice fin.voice).respond .voice (boolReading blk.stop)

theorem Renders.renderVoice (h : Renders s v smp bus n sampleRate bpm blk fin) :
    renderVoice s v s.sel.bus n sampleRate bpm
      = .ok { state := s.afterBlock v blk fin, voice := fin.voice, stop := blk.stop } := by
  have hblock : renderBlock s.parts[v.part] smp v s.draws n sampleRate bpm = .ok blk := by
    rw [renderBlock, if_neg (not_le.mpr h.rate), if_neg (Nat.one_le_iff_ne_zero.mp h.nonempty)]
    exact h.block
  simp only [Machine.renderVoice, h.hasSample, h.hasBus, h.usable, if_true, hblock, h.finish]
  rfl

/-- A render completes by a block and its end, and in no other way. -/
theorem execVoiceRender_eq_next_iff :
    execVoiceRender n sampleRate bpm s = .next t ↔
      ∃ v smp bus blk fin, Renders s v smp bus n sampleRate bpm blk fin ∧ t = s.afterRender v blk fin := by
  constructor
  · intro h
    obtain ⟨v, x, hv, hx, rfl⟩ := execVoiceRender_next h
    obtain ⟨smp, bus, blk, fin, hs, hb, hu, hblock, hfinish, rfl⟩ := renderVoice_ok hx
    obtain ⟨hrate, hne, hblock⟩ := renderBlock_ok hblock
    exact ⟨v, smp, bus, blk, fin, ⟨hv, hs, hb, hu, hrate, hne, hblock, hfinish⟩, rfl⟩
  · rintro ⟨v, smp, bus, blk, fin, h, rfl⟩
    simp only [execVoiceRender, h.hasVoice, h.renderVoice]
    rfl

theorem Renders.exec (h : Renders s v smp bus n sampleRate bpm blk fin) :
    exec (.voiceRender n sampleRate bpm) s = .next (s.afterRender v blk fin) :=
  execVoiceRender_eq_next_iff.mpr ⟨v, smp, bus, blk, fin, h, rfl⟩

theorem Renders.length (h : Renders s v smp bus n sampleRate bpm blk fin) : blk.left.length = blk.right.length :=
  (renderSamples_length n h.block).1

theorem Renders.identity (h : Renders s v smp bus n sampleRate bpm blk fin) : fin.voice.identity = v.identity :=
  renderVoice_identity h.renderVoice

@[simp] theorem State.afterRender_resp :
    (s.afterRender v blk fin).resp = s.resp ++ [⟨.voice, if blk.stop then 1#32 else 0#32⟩] := by
  rw [State.afterRender, State.respond_resp, State.setVoice_resp, readingWord_flag]
  rfl

@[simp] theorem State.afterRender_buses : (s.afterRender v blk fin).buses = s.buses.set s.sel.bus fin.bus := by
  rw [State.afterRender, State.respond_buses, State.setVoice_buses]
  rfl

theorem Renders.afterBlock_voiceAt (h : Renders s v smp bus n sampleRate bpm blk fin) :
    (s.afterBlock v blk fin).voiceAt s.sel.voice = some v :=
  (renderVoice_voiceAt h.renderVoice s.sel.voice).trans h.hasVoice

theorem Renders.voiceAt (h : Renders s v smp bus n sampleRate bpm blk fin) :
    (s.afterRender v blk fin).voiceAt s.sel.voice = some fin.voice := by
  rw [State.afterRender, State.respond_voiceAt, State.setVoice_voiceAt _ _ _ _ (by rw [h.afterBlock_voiceAt]; rfl), if_pos rfl]

theorem Renders.busAt (h : Renders s v smp bus n sampleRate bpm blk fin) :
    (s.afterRender v blk fin).buses[s.sel.bus]? = some fin.bus := by
  rw [State.afterRender_buses, List.getElem?_set_self (List.getElem?_eq_some_iff.mp h.hasBus).1]

theorem Renders.mtxAt (h : Renders s v smp bus n sampleRate bpm blk fin) :
    (s.afterRender v blk fin).mtxAt (.sample v.part v.sample) = some blk.playing.smp.mtx := by
  rw [State.afterRender, State.respond_mtxAt, State.setVoice_mtxAt]
  exact (s.setSample_mtxAt v.part v.sample blk.playing.smp (by rw [h.hasSample]; rfl) (.sample v.part v.sample)).trans
    (if_pos ⟨rfl, rfl⟩)

theorem State.afterRender_responds : Responds s (s.afterRender v blk fin) .voice (if blk.stop = true then 1#32 else 0#32) :=
  s.afterRender_resp

/-- The response tells whether the Voice stopped. -/
theorem stop_of_responds {s' : State} (hs : s'.resp = s.resp) (h : Responds s (s'.afterRender v blk fin) .voice 0#32) :
    blk.stop = false := by
  cases hstop : blk.stop with
  | false => rfl
  | true => simp [Responds, hstop, hs] at h

/-- A render leaves everything but the Voice, the matrix outputs of its Sample and the bus. -/
theorem Renders.sameBut (h : Renders s v smp bus n sampleRate bpm blk fin) :
    SameBut s (s.afterRender v blk fin) { wholeVoice s.sel.voice with
      mtx := fun l => l = .sample v.part v.sample
      bus := fun k => k = s.sel.bus } := by
  have hthere : ((s.afterBlock v blk fin).voiceAt s.sel.voice).isSome := by
    rw [h.afterBlock_voiceAt]
    rfl
  refine ((renderVoice_frame h.renderVoice).mono ?_ ?_ ?_ ?_ ?_ ?_ ?_ ?_ ?_).trans
    (((State.setVoice_sameBut _ _ _ hthere).mono ?_ ?_ ?_ ?_ ?_ ?_ ?_ ?_ ?_).trans
      ((State.respond_sameBut _ _ _).mono ?_ ?_ ?_ ?_ ?_ ?_ ?_ ?_ ?_))
  all_goals simp +contextual [wholeVoice]

/-- A render whose matrix outputs are as before leaves every matrix. -/
theorem Renders.sameBut_of_same_mtx (h : Renders s v smp bus n sampleRate bpm blk fin)
    (hmtx : blk.playing.smp.mtx = smp.mtx) :
    SameBut s (s.afterRender v blk fin) { wholeVoice s.sel.voice with bus := fun k => k = s.sel.bus } :=
  { h.sameBut with
    mtx := fun l _ => by
      by_cases hl : l = .sample v.part v.sample
      · subst hl
        rw [h.mtxAt, hmtx, State.mtxAt, h.hasSample]
        rfl
      · exact h.sameBut.mtx l hl }

/-- A playable Voice with a bus that takes the block renders it. -/
theorem renders_of_playable (hv : s.voiceAt s.sel.voice = some v) (hs : s.sampleAt v.part v.sample = some smp)
    (hb : s.buses[s.sel.bus]? = some bus) (ht : bus.Takes n) (hp : Playable s.parts[v.part] smp v sampleRate bpm) :
    ∃ blk fin, Renders s v smp bus n sampleRate bpm blk fin := by
  obtain ⟨x, hx⟩ := renderVoice_total hs hb ht hp
  have hexec : execVoiceRender n sampleRate bpm s
      = .next ((x.state.setVoice s.sel.voice x.voice).respond .voice (boolReading x.stop)) := by
    simp only [execVoiceRender, hv, hx]
  obtain ⟨v', smp', bus', blk, fin, h, -⟩ := execVoiceRender_eq_next_iff.mp hexec
  cases hv.symm.trans h.hasVoice
  cases hs.symm.trans h.hasSample
  cases hb.symm.trans h.hasBus
  exact ⟨blk, fin, h⟩

end

end Sys2Proof.Machine
end

section
/-! PROOF of O46 to O48: VOICE.NOTE_ON, VOICE.NOTE_OFF and VOICE.RD (44_voice.md, R271, R275, R276). -/

namespace Sys2Proof.Machine

/-- A `VOICE.NOTE_ON` of the lone Voice on a Sample with a sample constructs it (R270, R271). -/
theorem execVoiceNoteOn_of_lone {s : State} {smp : Sample} (hsel : s.sel.voice = .lone)
    (hs : s.sampleAt s.sel.newPart s.sel.newSample = some smp) (hsrc : 1 ≤ smp.src.numSamples) (note vel : Fin 128) :
    execVoiceNoteOn note vel s = .next
      { s with
        voice := some (Voice.construct s.sel.newPart s.sel.newSample smp note vel s.draws).1
        draws := (Voice.construct s.sel.newPart s.sel.newSample smp note vel s.draws).2 } := by
  simp only [execVoiceNoteOn, hsel, hs, (newVoice_ok _ _ smp note vel s.draws _).mpr ⟨hsrc, rfl⟩]

/-- Another lone Voice, or the first one, changes nothing but that Voice (R45). -/
theorem State.withVoice_sameBut (s : State) (v : Voice) (d : Nat) :
    SameBut s { s with voice := some v, draws := d } (wholeVoice .lone) where
  env l hl := by
    cases l with
    | lone | template => rfl
    | voice m w =>
      cases m with
      | lone => exact absurd ⟨w, rfl⟩ hl
      | mapped => rfl
  lfo l hl := by
    cases l with
    | lone | template => rfl
    | voice m j =>
      cases m with
      | lone => exact absurd ⟨j, rfl⟩ hl
      | mapped => rfl
  flt l hl := by
    cases l with
    | lone | template => rfl
    | voice m =>
      cases m with
      | lone => exact absurd rfl hl
      | mapped => rfl
  mtx l _ := by cases l <;> rfl
  voice l hl := by
    cases l with
    | lone => exact absurd rfl hl
    | mapped => rfl
  sample _ _ := rfl
  bus _ _ := rfl
  busFrame _ := rfl
  scratch l hl := by
    cases l with
    | context => rfl
    | voice m =>
      cases m with
      | lone => exact absurd rfl hl
      | mapped => rfl
  pitchbend _ _ := rfl
  controller _ _ _ := rfl
  sel := rfl
  policy := rfl
  cmd := rfl

/-- Settles O46: the fields are those of a construction (`Voice.construct_spec`), with each LFO as its `NOTE_ON` leaves it. -/
theorem voiceNoteOn : Obligations.VoiceNoteOn := by
  intro s note vel smp hsel hs hsrc
  obtain ⟨hpart, hsample, haeg, heg2, hlfos, hflt, hoffset, hgate, ⟨hlo, hhi⟩, hpitch, hpan, hamp, hcount, hnote, hvel⟩ :=
    Voice.construct_spec s.sel.newPart s.sel.newSample smp note vel s.draws
  refine ⟨_, _, execVoiceNoteOn_of_lone hsel hs hsrc note vel, rfl, hpart, hsample, haeg, heg2, fun j => ?_, hflt, hoffset, hgate,
    hlo, hhi, hpitch, hpan, hamp, hcount, hnote, hvel, s.withVoice_sameBut _ _, rfl⟩
  obtain ⟨i, hi⟩ := hlfos j
  obtain ⟨ph, hold, heq, hrest⟩ := smp.lfos[j].noteOn_spec i
  exact ⟨ph, hold, hi.trans heq, hrest⟩

/-- R136 in one conditional. -/
theorem Env.noteOff_eq (e : Env) :
    e.noteOff = if e.state = .attack ∨ e.state = .decay ∨ e.state = .sustain then { e with state := .release } else e := by
  split
  next h => exact Env.noteOff_of_playing h
  next h =>
    refine Env.noteOff_of_idle ?_
    cases hs : e.state <;> simp [hs] at h ⊢

/-- Settles O47. -/
theorem voiceNoteOff : Obligations.VoiceNoteOff := by
  intro s v hv
  have hthere : (s.voiceAt s.sel.voice).isSome := by rw [hv]; rfl
  refine ⟨s.setVoice s.sel.voice v.noteOff, ?_, ?_, s.setVoice_sameBut _ _ hthere, s.setVoice_resp _ _, s.setVoice_draws _ _⟩
  · simp only [exec, execVoiceNoteOff, hv]
  · rw [s.setVoice_voiceAt _ _ _ hthere, if_pos rfl, Voice.noteOff, Env.noteOff_eq, Env.noteOff_eq]

/-- Settles O48: by its type a register is a number word, an integer word or a flag. -/
theorem voiceRd : Obligations.VoiceRd := by
  intro s v reg hv
  have hresp := s.respond_resp .voice (v.read reg)
  refine ⟨s.respond .voice (v.read reg), ?_, ?_, s.respond_sameBut _ _, s.respond_draws _ _⟩
  · simp only [exec, execVoiceRd, hv]
  · cases reg with
    | offset | rnd | pitchMod | panMod | ampMod | modCount | ampL | ampR | note | velocity => exact hresp
    | gate => rwa [Voice.read, readingWord_flag] at hresp

end Sys2Proof.Machine
end

section
/-! PROOF of O19: the commands that name nothing are refused (R2, R45, R75, R270, R293). A unit that is not there refuses each of
its operations; a render that completed would have had what it needs. -/

namespace Sys2Proof.Machine

/-- There is no fault (R360): what does not complete is refused. -/
theorem refused_of_not_next {o : Host.Outcome State Fault Refusal} (h : ∀ t, o ≠ .next t) : Refused o := by
  cases o with
  | next t => exact absurd rfl (h t)
  | fault f => cases f
  | refused r => exact ⟨r, rfl⟩

/-! ### Commands to a unit that is not there (R2; log entry 7) -/

section

variable {s : State}

theorem State.onEnv_refused (h : s.envAt s.sel.env = none) (f : Env → Except Refusal Env) : Refused (outcome (s.onEnv f)) :=
  ⟨.noInstance, by rw [State.onEnv, h]; rfl⟩

theorem State.readEnv_refused (h : s.envAt s.sel.env = none) (f : Env → Reading) : Refused (outcome (s.readEnv f)) :=
  ⟨.noInstance, by rw [State.readEnv, h]; rfl⟩

theorem State.onLfo_refused (h : s.lfoAt s.sel.lfo = none) (f : Lfo → Nat → Except Refusal (Lfo × Nat)) :
    Refused (outcome (s.onLfo f)) :=
  ⟨.noInstance, by rw [State.onLfo, h]; rfl⟩

theorem State.readLfo_refused (h : s.lfoAt s.sel.lfo = none) (f : Lfo → Reading) : Refused (outcome (s.readLfo f)) :=
  ⟨.noInstance, by rw [State.readLfo, h]; rfl⟩

theorem execLfoWrStep_refused (h : s.lfoAt s.sel.lfo = none) (k : Fin 256) (v : Number) : Refused (execLfoWrStep k v s) := by
  unfold execLfoWrStep
  split
  · exact State.onLfo_refused h _
  · exact ⟨.stepIndex, rfl⟩

theorem execLfoRdStep_refused (h : s.lfoAt s.sel.lfo = none) (k : Fin 256) : Refused (execLfoRdStep k s) := by
  unfold execLfoRdStep
  split
  · exact State.readLfo_refused h _
  · exact ⟨.stepIndex, rfl⟩

theorem State.onFlt_refused (h : s.fltAt s.sel.flt = none) (f : Flt → Except Refusal Flt) : Refused (outcome (s.onFlt f)) :=
  ⟨.noInstance, by rw [State.onFlt, h]; rfl⟩

theorem State.onFltBuf_refused_of_none (h : s.fltAt s.sel.flt = none) (f : Flt → Scratch → Except Refusal (Flt × Scratch)) :
    Refused (outcome (s.onFltBuf f)) :=
  ⟨.noInstance, by rw [State.onFltBuf, h]; rfl⟩

theorem execFltRd_refused (h : s.fltAt s.sel.flt = none) (r : FltReg) : Refused (execFltRd r s) :=
  ⟨.noInstance, by rw [execFltRd, h]⟩

theorem State.onMtx_refused (h : s.mtxAt s.sel.mtx = none) (f : Mtx → Mtx) : Refused (outcome (s.onMtx f)) :=
  ⟨.noInstance, by rw [State.onMtx, h]; rfl⟩

theorem execMtxRd_refused (h : s.mtxAt s.sel.mtx = none) (r : MtxReg) : Refused (execMtxRd r s) :=
  ⟨.noInstance, by rw [execMtxRd, h]⟩

theorem execVoiceNoteOff_refused (h : s.voiceAt s.sel.voice = none) : Refused (execVoiceNoteOff s) :=
  ⟨.noVoice, by rw [execVoiceNoteOff, h]⟩

theorem execVoiceRd_refused (h : s.voiceAt s.sel.voice = none) (r : VoiceReg) : Refused (execVoiceRd r s) :=
  ⟨.noVoice, by rw [execVoiceRd, h]⟩

theorem execVoiceRender_refused (h : s.voiceAt s.sel.voice = none) (n : Nat) (sampleRate bpm : Number) :
    Refused (execVoiceRender n sampleRate bpm s) :=
  ⟨.noVoice, by rw [execVoiceRender, h]⟩

/-! ### Constructions and renders without their premises (R45, R75, R270, R293) -/

/-- R45, R270: only the lone Voice is constructed by this command, and on a Sample with a sample. -/
theorem execVoiceNoteOn_refused
    (h : (∃ p i, s.sel.voice = .mapped p i) ∨ s.sampleAt s.sel.newPart s.sel.newSample = none ∨
      ∃ smp, s.sampleAt s.sel.newPart s.sel.newSample = some smp ∧ smp.src.numSamples = 0) (note vel : Fin 128) :
    Refused (execVoiceNoteOn note vel s) := by
  refine refused_of_not_next fun t ht => ?_
  unfold execVoiceNoteOn at ht
  split at ht
  · cases ht
  next hlone =>
    split at ht
    · cases ht
    next smp hs =>
      rcases h with ⟨p, i, hmapped⟩ | hnone | ⟨smp', hs', hempty⟩
      · cases hlone.symm.trans hmapped
      · cases hs.symm.trans hnone
      · cases hs.symm.trans hs'
        simp only [newVoice, hempty, if_true] at ht
        cases ht

/-- R75, R270: a render that completes had a positive rate and a usable bus. -/
theorem execVoiceRender_refused_of_context {n : Nat} {sampleRate bpm : Number}
    (h : sampleRate ≤ 0 ∨ ∀ b, s.buses[s.sel.bus]? = some b → b.enabled = false ∨ b.channels.length ≠ 2) :
    Refused (execVoiceRender n sampleRate bpm s) := by
  refine refused_of_not_next fun t ht => ?_
  obtain ⟨v, smp, bus, blk, fin, hr, -⟩ := execVoiceRender_eq_next_iff.mp ht
  have husable := hr.usable
  simp only [Bus.usable, Bool.and_eq_true, beq_iff_eq, Config.busChannels] at husable
  rcases h with hrate | hbus
  · exact absurd hr.rate (not_lt.mpr hrate)
  · rcases hbus bus hr.hasBus with hoff | hchannels
    · rw [hoff] at husable; cases husable.1
    · exact hchannels husable.2

/-- R293: a sample that was rendered read the right channel. -/
theorem execVoiceRender_refused_of_mono {v : Voice} {smp : Sample} {n : Nat} {sampleRate bpm : Number}
    (hv : s.voiceAt s.sel.voice = some v) (hs : s.sampleAt v.part v.sample = some smp) (hmono : smp.src.numChannels < 2)
    (hmode : smp.playMode = .standard) (hlo : 0 ≤ v.offset) (hhi : v.offset < smp.src.numSamples) (hcount : v.modCount ≠ 0)
    (hn : 1 ≤ n) : Refused (execVoiceRender n sampleRate bpm s) := by
  refine refused_of_not_next fun t ht => ?_
  obtain ⟨v', smp', bus, blk, fin, hr, -⟩ := execVoiceRender_eq_next_iff.mp ht
  cases hv.symm.trans hr.hasVoice
  cases hs.symm.trans hr.hasSample
  obtain ⟨m, rfl⟩ : ∃ m, n = m + 1 := ⟨n - 1, by omega⟩
  have hinside : handleLoop smp (v.refreshAmp smp) = some v.offset := by
    rw [handleLoop_eq_some_iff, PlaysOnAt, hmode]
    exact ⟨hlo, hhi, rfl⟩
  rcases renderSamples_succ_cases hr.block with ⟨hl, -⟩ | ⟨o, y, -, hy, hrest⟩
  · cases hl.symm.trans hinside
  · rw [handleModulations_between hcount] at hy
    cases hy
    rcases hrest with ⟨hended, -⟩ | ⟨lr, b', hlr, -, -⟩
    · cases hended
    · have hright : (1 : Int) < smp.src.numChannels := fetchScaled_channel (fetchBoth_ok hlr).2
      omega

end

/-- Settles O19. -/
theorem refusedForWantOfContext : Obligations.RefusedForWantOfContext := fun _ =>
  ⟨fun h => ⟨State.onEnv_refused h _, State.onEnv_refused h _, State.readEnv_refused h _, fun _ _ => State.onEnv_refused h _,
      fun _ _ => State.onEnv_refused h _, fun _ => State.readEnv_refused h _⟩,
    fun h => ⟨State.onLfo_refused h _, fun _ _ => State.onLfo_refused h _, fun _ => State.onLfo_refused h _,
      fun _ => State.readLfo_refused h _, execLfoWrStep_refused h, execLfoRdStep_refused h⟩,
    fun h => ⟨fun _ => State.onFlt_refused h _, execFltRd_refused h, fun _ => State.onFlt_refused h _,
      fun _ => State.onFltBuf_refused_of_none h _⟩,
    fun h => ⟨fun _ _ => State.onMtx_refused h _, execMtxRd_refused h, fun _ => State.onMtx_refused h _⟩,
    fun h => ⟨execVoiceNoteOff_refused h, execVoiceRd_refused h, execVoiceRender_refused h⟩,
    execVoiceNoteOn_refused, fun _ _ _ => execVoiceRender_refused_of_context,
    fun _ _ _ _ _ hv hs hmono hmode hlo hhi hcount hn => execVoiceRender_refused_of_mono hv hs hmono hmode hlo hhi hcount hn⟩

end Sys2Proof.Machine
end

section
/-! PROOF of O49 and O52: what every render keeps, and how far a block rendered to its end moves the counter and the offset
(R286, R290, R295). -/

namespace Sys2Proof.Machine

/-- Settles O49: every block keeps the identity and the slots (`renderSamples_keeps`), and its end keeps the bus above it
(`finishBlock_ok`). -/
theorem voiceRenderCompletes : Obligations.VoiceRenderCompletes := by
  intro s v smp b n sampleRate bpm hv hs hb ht hp
  obtain ⟨blk, fin, hr⟩ := renders_of_playable hv hs hb ht hp
  obtain ⟨-, -, hslots, -⟩ := renderSamples_keeps hr.block
  obtain ⟨-, hframe, hrest⟩ := finishBlock_ok hr.finish hr.length
  have hid := hr.identity
  simp only [Voice.identity, Prod.mk.injEq] at hid
  obtain ⟨hpart, hsample, hgate, hrnd, hnote, hvel⟩ := hid
  exact ⟨_, fin.voice, fin.bus, _, blk.stop, hr.exec, s.afterRender_responds, hr.voiceAt, hpart, hsample, hgate, hrnd, hnote,
    hvel, hr.mtxAt, hslots, hr.busAt, hframe, fun c i hi => hrest c i ((renderSamples_length n hr.block).2.1.trans hi), hr.sameBut⟩

/-- In Standard and Shot loop handling stops the Voice or leaves the offset (R281, R283). -/
theorem handleLoop_of_straight {smp : Sample} {v : Voice} {o : Number} (h : handleLoop smp v = some o)
    (hmode : smp.playMode = .standard ∨ smp.playMode = .shot) : o = v.offset := by
  rw [handleLoop_eq_some_iff, PlaysOnAt] at h
  rcases hmode with hmode | hmode
  all_goals
    rw [hmode] at h
    exact h.2.2

/-- Each output sample moves the counter by one and, in Standard and Shot, the offset by the speed. -/
theorem renderSamples_schedule {part : Part} {sampleRate bpm speed : Number} (n : Nat) {x : Playing} {b : Block}
    (h : renderSamples part sampleRate bpm speed n x = .ok b) (hstop : b.stop = false) :
    b.playing.voice.modCount.val = (x.voice.modCount.val + n) % 128 ∧
      (x.smp.playMode = .standard ∨ x.smp.playMode = .shot → b.playing.voice.offset = x.voice.offset + n * speed) := by
  induction n generalizing x b with
  | zero =>
    cases h
    exact ⟨(Nat.mod_eq_of_lt x.voice.modCount.isLt).symm, fun _ => by simp⟩
  | succ n ih =>
    rcases renderSamples_succ_cases h with ⟨-, rfl⟩ | ⟨o, y, hl, hy, ⟨-, rfl⟩ | ⟨lr, b', -, hb', rfl⟩⟩
    · cases hstop
    · cases hstop
    · obtain ⟨hcount, hoffset⟩ := ih hb' hstop
      rw [Playing.move_modCount, handleModulations_modCount hy, Playing.at_modCount, Fin.val_add] at hcount
      rw [Playing.move_smp, handleModulations_smp hy, Playing.move_offset, handleModulations_offset hy,
        Playing.at_offset] at hoffset
      rw [Block.cons_playing]
      refine ⟨?_, fun hmode => ?_⟩
      · rw [hcount, Nat.mod_add_mod, Nat.add_assoc, Nat.add_comm n 1]
        rfl
      · rw [hoffset hmode, handleLoop_of_straight hl hmode]
        push_cast
        ring

/-- Settles O52: the end of the block touches neither the counter nor the offset. -/
theorem voiceRenderSchedule : Obligations.VoiceRenderSchedule := by
  intro s t v v' smp n sampleRate bpm hv hs h hresp hv'
  obtain ⟨w, smp', bus, blk, fin, hr, rfl⟩ := execVoiceRender_eq_next_iff.mp h
  cases hv.symm.trans hr.hasVoice
  cases hs.symm.trans hr.hasSample
  cases hv'.symm.trans hr.voiceAt
  obtain ⟨⟨f, buf, hfin, -, -⟩, -, -⟩ := finishBlock_ok hr.finish hr.length
  rw [hfin]
  exact renderSamples_schedule n hr.block (stop_of_responds rfl hresp)

end Sys2Proof.Machine
end

section
/-! PROOF of O50: one output sample between two modulation updates, with every value written out (R280 to R284, R290 to R297). -/

namespace Sys2Proof.Machine

/-! ### A block of one sample (R290, R297) -/

section

variable {sampleRate : Number} {x : Playing}

/-- The output of a Filter of a type for one sample (R216, R218). -/
def Coeffs.outputOf (c : Coeffs) (type : FilterType) (taps : Taps) (u : Number) : Number :=
  if type = .none then u else c.output taps u

/-- A Filter after `FLT.UPDATE` to the coefficients `c` and one sample of each channel (R216, R218). -/
def Flt.after (f : Flt) (c : Coeffs) (u0 u1 : Number) : Flt :=
  if f.type = .none then f
  else { f with
    coeffs := c
    left := f.left.shift u0 (c.outputOf f.type f.left u0)
    right := f.right.shift u1 (c.outputOf f.type f.right u1) }

theorem Flt.run_one {f g : Flt} (h : f.update sampleRate = .ok g) (u0 u1 : Number) (ls rs : List Number) :
    g.run ⟨u0 :: ls, u1 :: rs⟩ 1 = .ok
      (f.after g.coeffs u0 u1, ⟨g.coeffs.outputOf f.type f.left u0 :: ls, g.coeffs.outputOf f.type f.right u1 :: rs⟩) := by
  have hlen : (decide (1 ≤ (u0 :: ls).length) && decide (1 ≤ (u1 :: rs).length)) = true := by simp
  obtain ⟨hg, hoff⟩ := Flt.update_ok h
  rw [Flt.run, if_pos hlen, Flt.after, Coeffs.outputOf, Coeffs.outputOf]
  cases ht : f.type with
  | none =>
    rw [hoff ht, ht]
    rfl
  | lowpass | highpass =>
    rw [hg, ht]
    rfl

/-- The end of a block of one sample that did not stop: both channels' outputs go to the bus and to the front of the buffer. -/
theorem finishBlock_one {keep : Bool} {bus : Bus} {f : Flt} {u0 u1 l r : Number} {ls rs : List Number}
    (hf : x.voice.flt.update sampleRate = .ok f) (hch : bus.channels = [l :: ls, r :: rs]) (hcount : 1 ≤ bus.sampleCount) :
    let y0 := f.coeffs.outputOf x.voice.flt.type x.voice.flt.left u0
    let y1 := f.coeffs.outputOf x.voice.flt.type x.voice.flt.right u1
    finishBlock keep sampleRate { playing := x, left := [u0], right := [u1], stop := false } bus = .ok
      { voice := { x.voice with
          flt := x.voice.flt.after f.coeffs u0 u1
          scratch := ⟨y0 :: x.voice.scratch.left.drop 1, y1 :: x.voice.scratch.right.drop 1⟩ }
        bus := { bus with channels := [(l + y0) :: ls, (r + y1) :: rs] } } := by
  have hrun := Flt.run_one hf u0 u1 (x.voice.scratch.left.drop 1) (x.voice.scratch.right.drop 1)
  have hadd : ∀ y0 y1, bus.add [y0] [y1] = .ok { bus with channels := [(l + y0) :: ls, (r + y1) :: rs] } := fun y0 y1 => by
    simp [Bus.add, hch, hcount, accumulate, accumulate_nil]
  simp only [finishBlock, Bool.false_and, Bool.false_eq_true, if_false, hf, Scratch.overlay, List.length_singleton,
    List.singleton_append, hrun, List.take_succ_cons, List.take_zero, hadd]

end

/-- A Voice after one sample between two updates (R286, R295). -/
theorem renderSamples_one_between {part : Part} {sampleRate bpm speed : Number} {x : Playing} {o x0 x1 : Number} {k : Nat}
    (hplay : PlaysOnAt x.smp x.voice o) (hcount : x.voice.modCount ≠ 0) (hch : 2 ≤ x.smp.src.numChannels) (hk : o.floor = k)
    (hlt : k < x.smp.src.numSamples) (h0 : x.smp.src.stored 0 k = some x0) (h1 : x.smp.src.stored 1 k = some x1) :
    renderSamples part sampleRate bpm speed 1 x = .ok
      { playing := { x with voice := { x.voice with offset := o + speed, modCount := x.voice.modCount + 1 } }
        left := [x0 * ((x.voice.velocity.val : Number) / 127) * x.voice.ampL]
        right := [x1 * ((x.voice.velocity.val : Number) / 127) * x.voice.ampR]
        stop := false } := by
  refine renderSamples_one (lr := (_, _)) (handleLoop_eq_some_iff.mpr hplay) (handleModulations_between hcount) rfl ?_
  have hleft := fetchScaled_of_stored (v := (x.at o).voice.tick) (ch := 0) x.voice.ampL (by omega) hk hlt h0
  have hright := fetchScaled_of_stored (v := (x.at o).voice.tick) (ch := 1) x.voice.ampR (by omega) hk hlt h1
  exact fetchBoth_of_ok hleft hright

/-- Settles O50: the block is `renderSamples_one_between` and its end `finishBlock_one`. -/
theorem voiceRenderOneSample : Obligations.VoiceRenderOneSample := by
  intro s v smp b sampleRate bpm o x0 x1 l r ls rs k f hv hs hb hon hch hcount hrate hmod hf hstereo hplay hk hlt h0 h1
  have hplay : PlaysOnAt smp v o := hplay
  have hblock := renderSamples_one_between (part := s.parts[v.part]) (sampleRate := sampleRate) (bpm := bpm)
    (speed := speedOf s.parts[v.part] smp v sampleRate) (x := s.start v smp) hplay hmod hstereo hk hlt h0 h1
  have hr : Renders s v smp b 1 sampleRate bpm _ _ :=
    { hasVoice := hv, hasSample := hs, hasBus := hb, usable := by simp [Bus.usable, hon, hch, Config.busChannels], rate := hrate,
      nonempty := by omega, block := hblock, finish := finishBlock_one hf hch hcount }
  have hvoice : (s.start v smp).voice = v.refreshAmp smp := rfl
  refine ⟨_, _, _, hr.exec, s.afterRender_responds, hr.voiceAt, hr.busAt, ⟨?_, ?_⟩, hr.sameBut_of_same_mtx rfl⟩
  · rw [hvoice, v.refreshAmp_eq]
    rfl
  · rw [hvoice, v.refreshAmp_eq]
    rfl

end Sys2Proof.Machine
end

section
/-! PROOF of O51: one output sample that opens a modulation period (R286 to R289, R292, R296). -/

namespace Sys2Proof.Machine

/-- The source values of R289, with the conditions of the spec. -/
theorem Voice.sources_eq (v : Voice) (part : Part) (smp : Sample) :
    v.sources part smp =
      let bit (c : Prop) [Decidable c] : Number := if c then 1 else 0
      let note : Number := v.note.val
      let span : Number := (smp.maxNote : Number) - smp.minNote
      { aeg := v.aeg.value, eg2 := v.eg2.value, lfo1 := v.lfos[0].value, lfo2 := v.lfos[1].value, lfo3 := v.lfos[2].value
        modWheel := Memory.read controllerDefault part.controllers 1
        velocity := v.velocity.val / 127, absNote := note / 127
        relNote := if span = 0 then 0 else (note - smp.minNote) / span
        randomUnipolar := (v.rnd + 1) / 2, randomBipolar := v.rnd, gate := bit (v.gate = true)
        inLoop := bit (smp.src.loopStart ≤ ⌊v.offset⌋ ∧ ⌊v.offset⌋ < smp.src.loopEnd) } := by
  simp only [Voice.sources, Machine.relNote, Machine.bit, Machine.inLoop, sub_eq_zero, Bool.and_eq_true, decide_eq_true_eq,
    floor_eq]
  rfl

/-- A Voice whose AEG does not stop it, after one sample at an update (R286, R295, R296). -/
theorem renderSamples_one_update {part : Part} {sampleRate bpm speed : Number} {x : Playing} {o : Number} {y : Playing}
    (hplay : PlaysOnAt x.smp x.voice o) (hcount : x.voice.modCount = 0)
    (hy : modUpdate part sampleRate bpm (x.at o) = .ok y) (hon : x.smp.playMode = .shot ∨ y.voice.aeg.state ≠ .ended)
    (hsrc : x.smp.src.Stereo) (hlo : 0 ≤ o) (hhi : o < x.smp.src.numSamples) :
    ∃ l r, renderSamples part sampleRate bpm speed 1 x = .ok
      { playing := { y with voice := { y.voice.tick.refreshAmp y.smp with offset := o + speed } }
        left := [l], right := [r], stop := false } := by
  obtain ⟨-, -, -, hvoice, hsmp⟩ := modUpdate_ok hy
  have hoffset : y.voice.offset = o := by rw [hvoice]; rfl
  have hsame : y.smp.src = x.smp.src := by rw [hsmp]; rfl
  have hmode : y.smp.playMode = x.smp.playMode := by rw [hsmp]; rfl
  obtain ⟨lr, hlr⟩ := fetchBoth_total (x := refreshIf true { y with voice := y.voice.tick }) (hsame ▸ hsrc) (hoffset.symm ▸ hlo)
    (by show y.voice.offset < (y.smp.src.numSamples : Number); rw [hoffset, hsame]; exact hhi)
  have hended : endedByEnvelope true (refreshIf true { y with voice := y.voice.tick }) = false := by
    rw [← hmode] at hon
    rcases hon with hshot | hstate
    · simp [endedByEnvelope, refreshIf, hshot]
    · simp [endedByEnvelope, refreshIf, Env.ended, Voice.refreshAmp, Voice.tick, hstate]
  refine ⟨lr.1, lr.2,
    (renderSamples_one (handleLoop_eq_some_iff.mpr hplay) (handleModulations_update hcount hy) hended hlr).trans ?_⟩
  rw [← hoffset]
  rfl

/-- Settles O51: the update is `modUpdate_ok`; the end of the block touches the Filter's coefficients and taps alone. -/
theorem voiceRenderModulates : Obligations.VoiceRenderModulates := by
  intro s v smp b sampleRate bpm o aeg eg2 hv hs hb ht hp hcount hplay haeg heg2 hon
  have hplay : PlaysOnAt smp v o := hplay
  obtain ⟨hlo, hhi, -⟩ := handleLoop_reaches hp.reaches (handleLoop_eq_some_iff.mpr hplay)
  obtain ⟨y, hy⟩ := modUpdate_total (part := s.parts[v.part]) (bpm := bpm) (x := (s.start v smp).at o) hp.rate
    ((preserved_steppable s.parts[v.part] sampleRate bpm).offset _ o hp.start_steppable)
  obtain ⟨hyaeg, hyeg2, hlfos, -, hysmp⟩ := modUpdate_ok hy
  have hyaeg : y.voice.aeg = aeg := Except.ok.inj (hyaeg.symm.trans haeg)
  have hyeg2 : y.voice.eg2 = eg2 := Except.ok.inj (hyeg2.symm.trans heg2)
  obtain ⟨l, r, hblock⟩ := renderSamples_one_update (speed := speedOf s.parts[v.part] smp v sampleRate) hplay hcount hy
    (hyaeg.symm ▸ hon) hp.source hlo hhi
  obtain ⟨blk, fin, hr⟩ := renders_of_playable hv hs hb ht hp
  obtain rfl := Except.ok.inj (hblock.symm.trans hr.block)
  obtain ⟨⟨f, buf, hfinvoice, -, -⟩, -, -⟩ := finishBlock_ok hr.finish hr.length
  obtain ⟨hfincut, hfinres⟩ := finishBlock_flt_inputs hr.finish hr.length
  obtain ⟨hcut, hres, hpitch, hpan, hamp⟩ := modUpdate_inputs hy
  refine ⟨_, fin.voice, _, hr.exec, s.afterRender_responds, hr.voiceAt, hr.mtxAt, ?_⟩
  rw [hfinvoice] at hfincut hfinres ⊢
  refine ⟨?_, hyaeg, hyeg2, stepLfos_ok hlfos, hfincut.trans hcut, hfinres.trans hres, hpitch, hpan, hamp,
    congrArg (· + 1) ((modUpdate_modCount hy).trans hcount), rfl, ?_⟩
  · rw [hysmp]
    exact congrArg smp.mtx.eval (Voice.sources_eq _ _ _)
  · rw [Voice.refreshAmp_eq, ← hpan, ← hamp, ← hyaeg, hysmp]
    exact ⟨rfl, rfl⟩

end Sys2Proof.Machine
end

section
/-! PROOF of O53: a Voice that stops (R281, R283, R284, R296) and what of its block reaches the bus (R297, R298). The block of `n`
samples is the block of `m` samples that the Voice renders to its end, followed by a block that stops at once. -/

namespace Sys2Proof.Machine

/-! ### Where a Voice stops -/

/-- Loop handling stops the Voice (R281, R283, R284). -/
def Voice.Outside (x : Voice) (smp : Sample) : Prop :=
  (smp.playMode = .standard ∨ smp.playMode = .shot) ∧ (x.offset < 0 ∨ (smp.src.numSamples : Number) ≤ x.offset) ∨
    smp.playMode = .loopUntilRelease ∧ x.gate = false

/-- The modulation update of the next sample stops the Voice, with `aeg` as the AEG's `STEP` leaves it (R296). -/
def Voice.EndsWith (x : Voice) (smp : Sample) (sampleRate bpm : Number) (aeg : Env) : Prop :=
  (smp.playMode = .standard ∧ 0 ≤ x.offset ∧ x.offset < smp.src.numSamples ∨ smp.playMode = .loop ∨
    smp.playMode = .loopUntilRelease ∧ x.gate = true) ∧
  x.modCount = 0 ∧ x.aeg.step (128 / sampleRate) bpm = .ok aeg ∧ aeg.state = .ended

theorem handleLoop_eq_none_iff {smp : Sample} {v : Voice} : handleLoop smp v = none ↔ v.Outside smp := by
  unfold handleLoop Voice.Outside
  cases smp.playMode with
  | standard | shot => simp [imp_iff_not_or]
  | loop | loopUntilRelease => simp

theorem Voice.EndsWith.plays_on {x : Voice} {smp : Sample} {sampleRate bpm : Number} {aeg : Env}
    (h : x.EndsWith smp sampleRate bpm aeg) : smp.playMode ≠ .shot ∧ ∃ o, handleLoop smp x = some o := by
  obtain ⟨hmode, -⟩ := h
  simp only [handleLoop_eq_some_iff, PlaysOnAt]
  rcases hmode with ⟨hm, hlo, hhi⟩ | hm | ⟨hm, hgate⟩
  · rw [hm]
    exact ⟨nofun, _, hlo, hhi, rfl⟩
  · rw [hm]
    exact ⟨nofun, _, rfl⟩
  · rw [hm]
    exact ⟨nofun, _, hgate, rfl⟩

section

variable {part : Part} {sampleRate bpm speed : Number} {x : Playing} {aeg : Env}

/-- A block stops at its first sample, at once or after the modulation update. -/
theorem renderSamples_stops (hrate : 0 < sampleRate) (hst : x.voice.Steppable sampleRate bpm)
    (h : x.voice.Outside x.smp ∨ x.voice.EndsWith x.smp sampleRate bpm aeg) :
    ∃ z, (∀ k, renderSamples part sampleRate bpm speed (k + 1) x = .ok (Block.stopped z)) ∧ (x.voice.Outside x.smp → z = x) ∧
      (x.voice.EndsWith x.smp sampleRate bpm aeg → z.voice.aeg = aeg ∧ z.voice.modCount = 1) := by
  cases hl : handleLoop x.smp x.voice with
  | none =>
    refine ⟨x, fun k => renderSamples_of_no_offset hl, fun _ => rfl, fun hends => ?_⟩
    obtain ⟨-, o, ho⟩ := hends.plays_on
    cases hl.symm.trans ho
  | some o =>
    have hinside : ¬ x.voice.Outside x.smp := fun hout => by cases hl.symm.trans (handleLoop_eq_none_iff.mpr hout)
    have hends := h.resolve_left hinside
    obtain ⟨hshot, -⟩ := hends.plays_on
    obtain ⟨-, hcount, haeg, hstate⟩ := hends
    obtain ⟨y, hy⟩ := modUpdate_total (part := part) (bpm := bpm) (x := x.at o) hrate
      ((preserved_steppable part sampleRate bpm).offset x o hst)
    obtain ⟨hyaeg, -, -, -, hysmp⟩ := modUpdate_ok hy
    have hyaeg : y.voice.aeg = aeg := Except.ok.inj (hyaeg.symm.trans haeg)
    have hmode : y.smp.playMode = x.smp.playMode := by rw [hysmp]; rfl
    refine ⟨_, fun k => renderSamples_of_ended hl (handleModulations_update hcount hy) ?_, fun hout => absurd hout hinside,
      fun _ => ⟨hyaeg, congrArg (· + 1) ((modUpdate_modCount hy).trans hcount)⟩⟩
    rw [← hmode] at hshot
    simp [endedByEnvelope, refreshIf, Env.ended, Voice.refreshAmp, Voice.tick, hyaeg, hstate, hshot]

/-- A block that plays to its end, and one that stops at its first sample: one block, stopped. -/
theorem renderSamples_then_stops {m n : Nat} {b : Block} {z : Playing} (hmn : m < n)
    (hb : renderSamples part sampleRate bpm speed m x = .ok b) (hon : b.stop = false)
    (hz : ∀ k, renderSamples part sampleRate bpm speed (k + 1) b.playing = .ok (Block.stopped z)) :
    renderSamples part sampleRate bpm speed n x = .ok { playing := z, left := b.left, right := b.right, stop := true } := by
  obtain ⟨k, rfl⟩ : ∃ k, n = m + (k + 1) := ⟨n - m - 1, by omega⟩
  rw [renderSamples_add m (k + 1) hb hon, hz]
  simp [Except.map, Block.stopped]

end

/-! ### What a stopped block leaves on the bus (R297, R298) -/

section

variable {s : State} {v : Voice} {smp : Sample} {b : Bus} {n : Nat} {sampleRate bpm : Number} {blk : Block} {fin : Finished}

/-- A bus whose contents are as before leaves every bus. -/
theorem Renders.buses_of_same (h : Renders s v smp b n sampleRate bpm blk fin) (hbus : fin.bus = b) :
    (s.afterRender v blk fin).buses = s.buses := by
  obtain ⟨hlt, rfl⟩ := List.getElem?_eq_some_iff.mp h.hasBus
  rw [State.afterRender_buses, hbus, List.set_getElem_self hlt]

/-- A Voice that stops at the first sample adds nothing, kept or discarded. -/
theorem Renders.buses_of_stopped {z : Playing} (h : Renders s v smp b n sampleRate bpm (Block.stopped z) fin) :
    (s.afterRender v (Block.stopped z) fin).buses = s.buses := by
  refine h.buses_of_same ?_
  have hfinish := h.finish
  cases hkeep : Config.keepPartialBlock with
  | false =>
    rw [hkeep] at hfinish
    exact (finishBlock_discarded hfinish rfl).1
  | true =>
    rw [hkeep] at hfinish
    obtain ⟨f, cl, cr, -, hch, -, -, -, hbus⟩ := finishBlock_sent hfinish rfl rfl
    rw [hbus]
    simp only [Block.stopped, f.pass_nil, accumulate_nil, ← hch]

/-- Accumulation in terms of the elements of both channels (R75). -/
theorem element_accumulate {cl cr l r : List Number} (hch : b.channels = [cl, cr]) (hl : l.length ≤ cl.length)
    (hr : r.length ≤ cr.length) :
    (∀ j, element [accumulate cl l, accumulate cr r] 0 j = (element b.channels 0 j).map fun x => x + l.getD j 0) ∧
      ∀ j, element [accumulate cl l, accumulate cr r] 1 j = (element b.channels 1 j).map fun x => x + r.getD j 0 := by
  rw [hch]
  exact ⟨accumulate_get hl, accumulate_get hr⟩

/-- The Filter at the end of a block but for what the end writes: the Voice's Filter, with the modulation last written (R287). -/
theorem Renders.flt_modulated (h : Renders s v smp b n sampleRate bpm blk fin) :
    { v.flt with cutoffMod := fin.voice.flt.cutoffMod, resMod := fin.voice.flt.resMod } = blk.playing.voice.flt := by
  obtain ⟨-, -, -, hflt⟩ := renderSamples_keeps h.block
  obtain ⟨hcut, hres⟩ := finishBlock_flt_inputs h.finish h.length
  rw [hcut, hres, hflt]
  rfl

/-- A stopped block under `discard` leaves the buses and the Filter's coefficients and taps (R298; log entry 13). -/
theorem Renders.discarded (h : Renders s v smp b n sampleRate bpm blk fin) (hstop : blk.stop = true)
    (hkeep : Config.keepPartialBlock = false) :
    (s.afterRender v blk fin).buses = s.buses ∧ fin.voice.flt = blk.playing.voice.flt := by
  have hfinish := h.finish
  rw [hkeep] at hfinish
  obtain ⟨hbus, hflt⟩ := finishBlock_discarded hfinish hstop
  exact ⟨h.buses_of_same hbus, hflt⟩

/-- A stopped block under `keep` goes through `FLT.UPDATE` and `FLT.RUN` to the bus (R297, R298). -/
theorem Renders.kept (h : Renders s v smp b n sampleRate bpm blk fin) (hkeep : Config.keepPartialBlock = true) :
    ∃ f, blk.playing.voice.flt.update sampleRate = .ok f ∧
      fin.voice.flt = { f with left := (f.pass f.left blk.left).1, right := (f.pass f.right blk.right).1 } ∧
      (∀ j, element fin.bus.channels 0 j = (element b.channels 0 j).map fun x => x + (f.pass f.left blk.left).2.getD j 0) ∧
      ∀ j, element fin.bus.channels 1 j = (element b.channels 1 j).map fun x => x + (f.pass f.right blk.right).2.getD j 0 := by
  have hfinish := h.finish
  rw [hkeep] at hfinish
  obtain ⟨f, cl, cr, hf, hch, hl, hr, hflt, hbus⟩ := finishBlock_sent hfinish (by rw [Bool.not_true, Bool.and_false]) h.length
  obtain ⟨h0, h1⟩ := element_accumulate hch ((f.pass_length f.left blk.left).trans_le hl)
    ((f.pass_length f.right blk.right).trans_le hr)
  rw [hbus]
  exact ⟨f, hf, hflt, h0, h1⟩

/-- What a channel gains tells the samples that were added. -/
theorem eq_of_accumulate {cs us ws : List Number} (hlen : us.length = ws.length) (hle : ws.length ≤ cs.length)
    (h : ∀ j, (accumulate cs ws)[j]? = cs[j]?.map fun x => x + us.getD j 0) : us = ws := by
  refine List.ext_getElem hlen fun j hu hw => ?_
  have hj := h j
  rw [accumulate_get hle, List.getElem?_eq_getElem (hw.trans_le hle), List.getD_eq_getElem _ _ hu,
    List.getD_eq_getElem _ _ hw] at hj
  exact (add_left_cancel (Option.some.inj hj)).symm

end

/-! ### The same Voice with its Filter off -/

section

variable {s : State} {v w : Voice} {smp smp' : Sample} {b b' : Bus} {m : Nat} {sampleRate bpm : Number} {blk : Block}
  {fin : Finished}

/-- A Voice with its Filter switched off. -/
def Voice.dry (v : Voice) : Voice := { v with flt := { v.flt with type := .none } }

/-- The block of the Voice with its Filter off is that of the Voice itself (R297): the Filter runs after the block. -/
theorem Renders.of_dry (hv : s.voiceAt s.sel.voice = some v) (hs : s.sampleAt v.part v.sample = some smp)
    (hb : s.buses[s.sel.bus]? = some b) (h : Renders (s.setVoice s.sel.voice v.dry) w smp' b' m sampleRate bpm blk fin) :
    w = v.dry ∧ b' = b ∧ ∃ b0, blk = { b0 with playing := b0.playing.dry } ∧
      renderSamples s.parts[v.part] sampleRate bpm (speedOf s.parts[v.part] smp v sampleRate) m (s.start v smp) = .ok b0 := by
  have hvoice := h.hasVoice
  rw [s.setVoice_sel, s.setVoice_voiceAt _ _ _ (by rw [hv]; rfl), if_pos rfl] at hvoice
  cases hvoice
  have hsample := h.hasSample
  rw [s.setVoice_sampleAt] at hsample
  cases hs.symm.trans hsample
  have hbus := h.hasBus
  rw [s.setVoice_buses, s.setVoice_sel] at hbus
  cases hb.symm.trans hbus
  obtain ⟨hpitch, hctl, -⟩ := s.setVoice_part s.sel.voice v.dry v.dry.part
  have hspeed : speedOf (s.setVoice s.sel.voice v.dry).parts[v.dry.part] smp v.dry sampleRate
      = speedOf s.parts[v.part] smp v sampleRate := by
    unfold speedOf semitones
    rw [hpitch]
    rfl
  have hstart : (s.setVoice s.sel.voice v.dry).start v.dry smp = (s.start v smp).dry := by
    rw [State.start, s.setVoice_draws]
    rfl
  have hblock := h.block
  rw [hstart, hspeed, renderSamples_congr hctl, renderSamples_dry] at hblock
  obtain ⟨b0, hb0, heq⟩ := map_eq_ok_iff.mp hblock
  exact ⟨rfl, rfl, b0, heq.symm, hb0⟩

/-- What a block of the Voice with its Filter off, rendered to its end, tells of the Voice's own block: the samples it adds, and
the registers it leaves. -/
theorem block_of_dry_render {t0 : State} {v0 : Voice} {b0 : Bus} {u0 u1 : List Number} (hv : s.voiceAt s.sel.voice = some v)
    (hs : s.sampleAt v.part v.sample = some smp) (hb : s.buses[s.sel.bus]? = some b)
    (hexec : exec (.voiceRender m sampleRate bpm) (s.setVoice s.sel.voice v.dry) = .next t0) (hresp : Responds s t0 .voice 0#32)
    (hv0 : t0.voiceAt s.sel.voice = some v0) (hb0 : t0.buses[s.sel.bus]? = some b0) (hu0 : u0.length = m) (hu1 : u1.length = m)
    (hgain0 : ∀ j, element b0.channels 0 j = (element b.channels 0 j).map fun x => x + u0.getD j 0)
    (hgain1 : ∀ j, element b0.channels 1 j = (element b.channels 1 j).map fun x => x + u1.getD j 0) :
    ∃ x f buf, v0 = { x.voice with flt := f, scratch := buf } ∧ f.cutoffMod = x.voice.flt.cutoffMod ∧
      f.resMod = x.voice.flt.resMod ∧
      renderSamples s.parts[v.part] sampleRate bpm (speedOf s.parts[v.part] smp v sampleRate) m (s.start v smp)
        = .ok { playing := x, left := u0, right := u1, stop := false } := by
  obtain ⟨w, smp', b', blk, fin, h, rfl⟩ := execVoiceRender_eq_next_iff.mp hexec
  have hvoice := h.voiceAt
  have hbus := h.busAt
  rw [s.setVoice_sel] at hvoice hbus
  cases hv0.symm.trans hvoice
  cases hb0.symm.trans hbus
  obtain ⟨rfl, rfl, ⟨x, left, right, stop⟩, rfl, hblock⟩ := h.of_dry hv hs hb
  obtain rfl : stop = false := stop_of_responds (s.setVoice_resp _ _) hresp
  obtain ⟨hlen, -, hm⟩ := renderSamples_length m hblock
  obtain ⟨⟨f, buf, hfin, -, hoff⟩, -, -⟩ := finishBlock_ok h.finish h.length
  obtain ⟨f', cl, cr, hf', hch, hl, hr, -, hsent⟩ := finishBlock_sent h.finish rfl h.length
  have htype : f'.type = .none := by
    rw [(Flt.update_ok hf').2 rfl]
    rfl
  rw [hsent, hch] at hgain0 hgain1
  simp only [f'.pass_off htype] at hgain0 hgain1
  obtain rfl : u0 = left := eq_of_accumulate (hu0.trans (hm rfl).symm) hl hgain0
  obtain rfl : u1 = right := eq_of_accumulate (hu1.trans ((hm rfl).symm.trans hlen)) hr hgain1
  refine ⟨x, f, buf, hfin, ?_, ?_, hblock⟩ <;> (rw [hoff rfl]; rfl)

end

/-- Settles O53: where the Voice stops, the block stops there (`renderSamples_stops`, `renderSamples_then_stops`); what the Voice
with its Filter off added are its own unfiltered samples (`block_of_dry_render`). -/
theorem voiceRenderStops : Obligations.VoiceRenderStops := by
  intro s v smp b n sampleRate bpm aeg hv hs hb ht hp outside ends
  obtain ⟨blk, fin, hr⟩ := renders_of_playable hv hs hb ht hp
  have hfirst : 1 ≤ n → outside v ∨ ends v aeg →
      ∃ z, blk = Block.stopped z ∧ (outside v → z = s.start v smp) ∧ (ends v aeg → z.voice.aeg = aeg ∧ z.voice.modCount = 1) := by
    intro hn h
    obtain ⟨z, hz, hout, hend⟩ := renderSamples_stops (part := s.parts[v.part])
      (speed := speedOf s.parts[v.part] smp v sampleRate) (x := s.start v smp) hp.rate hp.start_steppable h
    obtain ⟨k, rfl⟩ : ∃ k, n = k + 1 := ⟨n - 1, by omega⟩
    exact ⟨z, Except.ok.inj (hr.block.symm.trans (hz k)), hout, hend⟩
  obtain ⟨⟨g, buf, hfin, -, -⟩, -, -⟩ := finishBlock_ok hr.finish hr.length
  refine ⟨fun hout hn => ?_, fun hends hn => ?_, ?_⟩
  · obtain ⟨z, rfl, hz, -⟩ := hfirst hn (.inl hout)
    refine ⟨_, _, hr.exec, s.afterRender_responds, hr.buses_of_stopped, hr.voiceAt, ?_⟩
    rw [hfin, hz hout]
    exact ⟨rfl, rfl, rfl, rfl⟩
  · obtain ⟨z, rfl, -, hz⟩ := hfirst hn (.inr hends)
    refine ⟨_, _, hr.exec, s.afterRender_responds, hr.buses_of_stopped, hr.voiceAt, ?_⟩
    rw [hfin]
    exact hz hends
  · intro m t0 v0 b0 u0 u1 hmn hu0 hu1 hexec hresp hv0 hb0 hgain0 hgain1 hstops
    obtain ⟨x, f0, buf0, rfl, hcut0, hres0, hx⟩ := block_of_dry_render hv hs hb hexec hresp hv0 hb0 hu0 hu1 hgain0 hgain1
    obtain ⟨-, (hsmp : x.smp = { smp with mtx := x.smp.mtx }), -, -⟩ := renderSamples_keeps hx
    have hst := renderSamples_preserves (preserved_steppable s.parts[v.part] sampleRate bpm) m hx hp.start_steppable
    have houtside : x.voice.Outside x.smp = outside { x.voice with flt := f0, scratch := buf0 } := by
      rw [hsmp]
      rfl
    have hends : x.voice.EndsWith x.smp sampleRate bpm aeg = ends { x.voice with flt := f0, scratch := buf0 } aeg := by
      rw [hsmp]
      rfl
    rw [← houtside, ← hends] at hstops
    obtain ⟨z, hz, hout, hend⟩ := renderSamples_stops (part := s.parts[v.part])
      (speed := speedOf s.parts[v.part] smp v sampleRate) hp.rate hst hstops
    obtain rfl := Except.ok.inj (hr.block.symm.trans (renderSamples_then_stops hmn hx rfl hz))
    obtain ⟨hcut, hres⟩ := finishBlock_flt_inputs hr.finish hr.length
    refine ⟨_, _, hr.exec, s.afterRender_responds, hr.voiceAt, ?_, ?_, ?_, ?_⟩
    · intro ho
      rw [hcut, hres, hout (houtside ▸ ho)]
      exact ⟨hcut0.symm, hres0.symm⟩
    · intro he
      rw [hfin]
      exact (hend (hends ▸ he)).1
    · intro hkeep
      rw [hr.flt_modulated]
      exact hr.discarded rfl hkeep
    · intro hkeep
      rw [hr.flt_modulated]
      obtain ⟨f, hf, hflt, h0, h1⟩ := hr.kept hkeep
      exact ⟨f, fin.bus, hf, hr.busAt, hflt, h0, h1⟩

end Sys2Proof.Machine
end

section
/-! PROOF of O54 to O58: the events of the Engine (45_part_engine.md section 1, R320 to R327). A note-on changes one Part's list
of Voices by construction and registration, a note-off by `VOICE.NOTE_OFF`; a pitchbend and a controller change one store. -/

namespace Sys2Proof.Machine

/-! ### The Part an event is for (R320) -/

@[simp] theorem partIndex_val (p : Fin 16) : partIndex p.val = some p := dif_pos p.isLt

theorem partIndex_eq_none {part : Nat} (h : 15 < part) : partIndex part = none := dif_neg (by omega)

/-- A Part that keeps its Samples and its Voices: only its stores can change. -/
theorem State.setPart_sameBut (s : State) (p : Fin 16) {x : Part} (hs : x.samples = s.parts[p].samples)
    (hv : x.voices = s.parts[p].voices) :
    SameBut s (s.setPart p x) { pitchbend := fun q => q = p, controller := fun q _ => q = p } where
  env l _ := by cases l <;> simp only [State.envAt, State.setPart_env, s.setPart_sampleAt_same p hs, s.setPart_voiceAt_same p hv]
  lfo := fun l _ => State.lfoAt_congr (s.setPart_lfo p x) (s.setPart_sampleAt_same p hs) (s.setPart_voiceAt_same p hv) l
  flt l _ := by cases l <;> simp only [State.fltAt, State.setPart_flt, s.setPart_sampleAt_same p hs, s.setPart_voiceAt_same p hv]
  mtx l _ := by cases l <;> simp only [State.mtxAt, State.setPart_mtx, s.setPart_sampleAt_same p hs]
  voice l _ := by rw [s.setPart_voiceAt_same p hv]
  sample q k := by rw [s.setPart_sampleAt_same p hs]
  bus _ _ := rfl
  busFrame _ := rfl
  scratch l _ := State.bufAt_congr (s.setPart_scratch p x) (s.setPart_voiceAt_same p hv) l
  pitchbend q hq := by rw [s.setPart_get, if_neg hq]
  controller q _ hq := by rw [s.setPart_get, if_neg hq]
  sel := rfl
  policy := rfl
  cmd := rfl

/-! ### O56 and O57: the stores of a Part (R326, R327) -/

theorem State.setPart_sameBut_pitchbend (s : State) (p : Fin 16) {x : Part} (hs : x.samples = s.parts[p].samples)
    (hv : x.voices = s.parts[p].voices) (hc : x.controllers = s.parts[p].controllers) :
    SameBut s (s.setPart p x) { pitchbend := fun q => q = p } :=
  { s.setPart_sameBut p hs hv with
    controller := fun q k _ => by
      rw [s.setPart_get]
      split
      next hq => rw [hq, hc]
      · rfl }

/-- Settles O56. -/
theorem engPitchbend : Obligations.EngPitchbend := by
  refine fun s p value => ⟨fun hlo hhi => ?_, fun hout => ⟨.reservedOperand, if_pos hout⟩⟩
  have hin : ¬ (value < -1 ∨ 1 < value) := not_or.mpr ⟨not_lt.mpr hlo, not_lt.mpr hhi⟩
  refine ⟨s.setPart p { s.parts[p] with pitchbend := value }, ?_, ?_, s.setPart_sameBut_pitchbend p rfl rfl rfl, rfl, rfl⟩
  · simp only [exec, execEngPitchbend, if_neg hin, partIndex_val]
  · rw [s.setPart_get, if_pos rfl]

theorem State.setPart_sameBut_controller (s : State) (p : Fin 16) {x : Part} (hs : x.samples = s.parts[p].samples)
    (hv : x.voices = s.parts[p].voices) (hb : x.pitchbend = s.parts[p].pitchbend) {cc : Nat} {value : Number}
    (hc : x.controllers = Memory.write controllerDefault s.parts[p].controllers cc value) :
    SameBut s (s.setPart p x) { controller := fun q k => q = p ∧ k = cc } :=
  { s.setPart_sameBut p hs hv with
    pitchbend := fun q _ => by
      rw [s.setPart_get]
      split
      next hq => rw [hq, hb]
      · rfl
    controller := fun q k hk => by
      rw [s.setPart_get]
      split
      next hq => rw [hc, Memory.read_write_other value fun hcc => hk ⟨hq, hcc⟩, hq]
      · rfl }

/-- Settles O57, by the laws of the sparse stores. -/
theorem engCc : Obligations.EngCc := by
  refine fun s p cc value => ⟨fun hwf hlo hhi => ?_, fun hout => ⟨.reservedOperand, if_pos hout⟩⟩
  have hin : ¬ (value < 0 ∨ 1 < value) := not_or.mpr ⟨not_lt.mpr hlo, not_lt.mpr hhi⟩
  have hframe := s.setPart_sameBut_controller p rfl rfl rfl
    (x := { s.parts[p] with controllers := Memory.write controllerDefault s.parts[p].controllers cc.val value }) rfl
  refine ⟨_, ?_, ?_, hframe, rfl, rfl⟩
  · simp only [exec, execEngCc, if_neg hin, partIndex_val]
  · rw [s.setPart_get, if_pos rfl]
    exact Memory.read_write_same hwf cc.val value

/-- Settles O58. -/
theorem engPartOutOfRange : Obligations.EngPartOutOfRange := by
  intro s part note vel cc bend value hpart hb0 hb1 hv0 hv1
  have hnone := partIndex_eq_none hpart
  have hbend : ¬ (bend < -1 ∨ 1 < bend) := not_or.mpr ⟨not_lt.mpr hb0, not_lt.mpr hb1⟩
  have hvalue : ¬ (value < 0 ∨ 1 < value) := not_or.mpr ⟨not_lt.mpr hv0, not_lt.mpr hv1⟩
  refine ⟨?_, ?_, ?_, ?_⟩
  · simp only [exec, execEngNoteOn, hnone]
  · simp only [exec, execEngNoteOff, hnone]
  · simp only [exec, execEngPitchbend, if_neg hbend, hnone]
  · simp only [exec, execEngCc, if_neg hvalue, hnone]

/-! ### O55: the Voices under a note are released (R324) -/

/-- Settles O55: `releaseNote` is `VOICE.NOTE_OFF` to the Voices under the note, with each ENV as R136 says (`Env.noteOff_eq`). -/
theorem engNoteOff : Obligations.EngNoteOff := by
  intro s p note vel
  have hexec (vel' : Fin 128) :
      exec (.engNoteOff p.val note vel') s = .next (s.setVoices p (releaseNote note s.parts[p].voices)) := by
    simp only [exec, execEngNoteOff, partIndex_val]
  refine ⟨_, hexec, hexec vel, ?_, s.setVoices_sameBut p _, rfl, rfl⟩
  rw [s.setVoices_same, releaseNote]
  simp only [Voice.noteOff, Env.noteOff_eq]

/-! ### O54: one Voice for each matching Sample (R321 to R323) -/

/-- The Samples of the new Voices are those started, in list order. -/
theorem newVoices_map_sample {p : Fin 16} {note vel : Fin 128} {xs : List (Sample × Nat)} {d : Nat} {y : List Voice × Nat}
    (h : newVoices p note vel xs d = .ok y) : y.1.map Voice.sample = xs.map Prod.snd := by
  rw [← List.forall₂_eq_eq_eq, List.forall₂_map_left_iff, List.forall₂_map_right_iff]
  exact (newVoices_ok h).flip.imp fun v x ⟨_, d', hv⟩ => by rw [hv]; rfl

/-- The indices of the Samples that a note-on starts. -/
theorem startingSamples_map_snd (part : Part) (pol : Policy) (p : Fin 16) (note vel : Nat) :
    (startingSamples part pol p note vel).map Prod.snd
      = (List.range part.samples.length).filter fun k =>
          part.samples[k]?.any fun smp => smp.covers note vel && pol.allows p k := by
  have hindex : part.samples.zipIdx.map Prod.snd = List.range part.samples.length := by
    rw [List.zipIdx_map_snd, List.range_eq_range']
  rw [← hindex, List.filter_map, startingSamples]
  refine congrArg (List.map Prod.snd) (List.filter_congr fun x hx => ?_)
  rw [Function.comp_apply, List.mem_zipIdx_iff_getElem?.mp hx, Option.any_some]

/-- What a Voice of a note-on is: triggered clones of its Sample's templates, the operands, zeros and a bipolar draw (R271). -/
theorem Fresh.spec {s : State} {p : Fin 16} {note vel : Fin 128} {v : Voice} (h : Fresh s p note vel v) :
    v.part = p ∧ v.note = note ∧ v.velocity = vel ∧ v.gate = true ∧ v.modCount = 0 ∧
      ∃ smp, s.sampleAt p v.sample = some smp ∧ v.aeg = smp.aeg.noteOn ∧ v.eg2 = smp.eg2.noteOn ∧
        (∀ j : Fin 3, ∃ i, v.lfos[j] = (smp.lfos[j].noteOn i).1) ∧ v.flt = smp.flt ∧ v.offset = smp.startOffset ∧
        -1 ≤ v.rnd ∧ v.rnd < 1 ∧ v.pitchMod = 0 ∧ v.panMod = 0 ∧ v.ampMod = 0 := by
  obtain ⟨k, smp, d, hsmp, rfl⟩ := h
  obtain ⟨hpart, hsample, haeg, heg2, hlfos, hflt, hoffset, hgate, ⟨hlo, hhi⟩, hpitch, hpan, hamp, hcount, hnote, hvel⟩ :=
    Voice.construct_spec p k smp note vel d
  exact ⟨hpart, hnote, hvel, hgate, hcount, smp, hsmp, haeg, heg2, hlfos, hflt, hoffset, hlo, hhi, hpitch, hpan, hamp⟩

/-- Settles O54: the new Voices are those of `newVoices`, registered after the ones under the note (`foldl_register`). -/
theorem engNoteOn : Obligations.EngNoteOn := by
  intro s p note vel hordered hsrc
  obtain ⟨y, hy⟩ := newVoices_total (p := p) (note := note) (vel := vel) (xs := startingSamples s.parts[p] s.policy p note vel)
    s.draws fun x hx => hsrc x.2 x.1 (mem_startingSamples.mp hx).1
  have hfresh := newVoices_fresh hy
  obtain ⟨-, hunder, hothers, -⟩ := foldl_register hordered fun v hv => (hfresh v hv).spec.2.1
  have hvoices : (s.setVoices p (y.1.foldl register s.parts[p].voices)).parts[p].voices
      = y.1.foldl register s.parts[p].voices := s.setVoices_same p _
  refine ⟨{ s.setVoices p (y.1.foldl register s.parts[p].voices) with draws := y.2 }, y.1, ?_, ?_, ?_, ?_, fun v hv => ?_, ?_,
    (s.setVoices_sameBut p _).congr rfl rfl rfl rfl rfl rfl rfl rfl rfl rfl rfl, rfl⟩
  · simp only [exec, execEngNoteOn, partIndex_val, hy]
  · exact (congrArg _ hvoices).trans hunder
  · exact (congrArg _ hvoices).trans hothers
  · rw [newVoices_map_sample hy, startingSamples_map_snd]
    refine List.filter_congr fun k _ => ?_
    rw [← State.sampleAt]
    cases s.sampleAt p k <;> rfl
  · obtain ⟨hpart, hnote, hvel, hgate, hcount, smp, hsmp, haeg, heg2, hlfos, hrest⟩ := (hfresh v hv).spec
    refine ⟨hpart, hnote, hvel, hgate, hcount, smp, hsmp, haeg, heg2, fun j => ?_, hrest⟩
    obtain ⟨i, hi⟩ := hlfos j
    obtain ⟨ph, hold, heq, hranges⟩ := smp.lfos[j].noteOn_spec i
    exact ⟨ph, hold, hi.trans heq, hranges⟩
  · show (s.setVoices p _).parts[p].samples = _
    rw [s.setVoices_part]

end Sys2Proof.Machine
end

section
/-! PROOF of O59 and O60: the rendering pass (45_part_engine.md section 2, R330 to R333). The model's pass collects the Voices that
stay; R330's run of `VOICE.RENDER` commands writes each Voice back into the note map and removes the marked ones at the end. Both
come from the turns of the Voices, one after another (`voiceTurns`), in which nothing asks what the note map holds. -/

namespace Sys2Proof.Machine

section

variable {sampleRate bpm : Number}

/-! ### One turn -/

theorem Bus.usable_iff (b : Bus) : b.usable = true ↔ b.enabled = true ∧ b.channels.length = 2 := by
  rw [Bus.usable, Bool.and_eq_true, beq_iff_eq, Config.busChannels]

/-- What a Voice's turn leaves: the machine but for the Voice, the Voice, and whether it is marked (R330). -/
structure TurnEnd where
  state : State
  voice : Voice
  marked : Bool

/-- A turn in the pass: marked as it is without a usable bus, else rendered and marked if it stopped (R330, R332). -/
def voiceTurn (sampleRate bpm : Number) (s : State) (v : Voice) : Except Refusal TurnEnd :=
  match s.sampleAt v.part v.sample with
  | none => .error .noSample
  | some smp =>
    match s.buses[smp.bus]? with
    | none => .ok ⟨s, v, true⟩
    | some bus =>
      if bus.usable then (renderVoice s v smp.bus bus.sampleCount sampleRate bpm).map fun x => ⟨x.state, x.voice, x.stop⟩
      else .ok ⟨s, v, true⟩

/-- The model's turn drops a marked Voice. -/
theorem processVoice_eq (s : State) (v : Voice) :
    processVoice s v sampleRate bpm
      = (voiceTurn sampleRate bpm s v).map fun e => ⟨e.state, if e.marked then none else some e.voice⟩ := by
  unfold processVoice voiceTurn
  cases s.sampleAt v.part v.sample with
  | none => rfl
  | some smp =>
    dsimp only
    cases s.buses[smp.bus]? with
    | none => rfl
    | some bus =>
      dsimp only
      split
      · cases renderVoice s v smp.bus bus.sampleCount sampleRate bpm <;> rfl
      · rfl

theorem State.setVoices_voiceAt (s : State) (p : Fin 16) (i : Nat) (vs : List Voice) :
    (s.setVoices p vs).voiceAt (.mapped p i) = vs[i]? := by
  rw [State.voiceAt, s.setVoices_same]

theorem State.setVoices_setVoice (s : State) (p : Fin 16) (i : Nat) (vs : List Voice) (v : Voice) :
    (s.setVoices p vs).setVoice (.mapped p i) v = s.setVoices p (vs.set i v) := by
  show (s.setVoices p vs).setVoices p ((s.setVoices p vs).parts[p].voices.set i v) = _
  rw [s.setVoices_same, s.setVoices_setVoices]

/-- The `VOICE.RENDER` command on a Voice of a note map is its render, written back there. -/
theorem renderCommand_setVoices (s : State) {p : Fin 16} {i : Nat} {vs : List Voice} {v : Voice} (hv : vs[i]? = some v)
    (b n : Nat) :
    renderCommand (s.setVoices p vs) p i b n sampleRate bpm
      = (renderVoice s v b n sampleRate bpm).map fun x => (x.state.setVoices p (vs.set i x.voice), x.stop) := by
  have hat (c : ChipSelect) : ({ s.setVoices p vs with sel := c } : State).voiceAt (.mapped p i) = some v :=
    (s.setVoices_voiceAt p i vs).trans hv
  simp only [renderCommand, exec, execVoiceRender, hat, renderVoice_withSel, renderVoice_setVoices]
  cases hx : renderVoice s v b n sampleRate bpm with
  | error r => rfl
  | ok x =>
    have hsel := (renderVoice_frame hx).sel
    have hresp := (renderVoice_still hx).resp
    simp only [Except.map, s.setVoices_sel, s.setVoices_resp, ← hsel, ← hresp, ← State.setVoices_setVoice]
    refine congrArg Except.ok (Prod.ext rfl ?_)
    cases x.stop <;> simp [readingWord_flag]

/-- R330's turn on a Voice of a note map, written back there. -/
theorem passTurn_setVoices (s : State) {p : Fin 16} {i : Nat} {vs : List Voice} {v : Voice} (hv : vs[i]? = some v) :
    passTurn sampleRate bpm (s.setVoices p vs) p i
      = (voiceTurn sampleRate bpm s v).map fun e => (e.state.setVoices p (vs.set i e.voice), e.marked) := by
  have hat : (s.setVoices p vs).voiceAt (.mapped p i) = some v := (s.setVoices_voiceAt p i vs).trans hv
  have hkept : vs.set i v = vs := by
    obtain ⟨hlt, rfl⟩ := List.getElem?_eq_some_iff.mp hv
    exact List.set_getElem_self hlt
  simp only [passTurn, voiceTurn, hat, s.setVoices_sampleAt, s.setVoices_buses, renderCommand_setVoices s hv, Sample.bus]
  cases s.sampleAt v.part v.sample with
  | none => rfl
  | some smp =>
    dsimp only
    cases s.buses[smp.outputBus.getD 0]? with
    | none => simp only [Except.map, hkept]
    | some bus =>
      dsimp only
      by_cases hu : bus.usable = true
      · rw [if_pos hu, if_pos (bus.usable_iff.mp hu)]
        cases renderVoice s v (smp.outputBus.getD 0) bus.sampleCount sampleRate bpm <;> rfl
      · rw [if_neg hu, if_neg fun h => hu (bus.usable_iff.mpr h)]
        simp only [Except.map, hkept]

/-! ### The turns of a list of Voices -/

/-- The turns of Voices, one after another: each Voice as its turn leaves it, with its mark. -/
def voiceTurns (sampleRate bpm : Number) : State → List Voice → Except Refusal (State × List (Voice × Bool))
  | s, [] => .ok (s, [])
  | s, v :: vs =>
    match voiceTurn sampleRate bpm s v with
    | .error r => .error r
    | .ok e => (voiceTurns sampleRate bpm e.state vs).map fun y => (y.1, (e.voice, e.marked) :: y.2)

/-- The model's pass over a list of Voices keeps the unmarked ones. -/
theorem processVoices_eq (s : State) (vs : List Voice) :
    processVoices sampleRate bpm s vs
      = (voiceTurns sampleRate bpm s vs).map fun y =>
          ⟨y.1, (y.2.filter fun z => !z.2).map Prod.fst, (y.2.map Prod.snd).contains true⟩ := by
  induction vs generalizing s with
  | nil => rfl
  | cons v vs ih =>
    rw [processVoices, voiceTurns, processVoice_eq]
    cases voiceTurn sampleRate bpm s v with
    | error r => rfl
    | ok e =>
      simp only [Except.map, ih]
      cases voiceTurns sampleRate bpm e.state vs with
      | error r => rfl
      | ok y => cases e.marked <;> simp [Pass.cons]

/-- R330's turns on the Voices of a note map behind those already done write each Voice back. -/
theorem passTurns_setVoices (s : State) (p : Fin 16) (done vs : List Voice) :
    passTurns sampleRate bpm p (List.range' done.length vs.length) (s.setVoices p (done ++ vs))
      = (voiceTurns sampleRate bpm s vs).map fun y => (y.1.setVoices p (done ++ y.2.map Prod.fst), y.2.map Prod.snd) := by
  induction vs generalizing s done with
  | nil => rfl
  | cons v vs ih =>
    have hv : (done ++ v :: vs)[done.length]? = some v := by simp
    rw [List.length_cons, List.range'_succ, passTurns, voiceTurns, passTurn_setVoices s hv]
    cases voiceTurn sampleRate bpm s v with
    | error r => rfl
    | ok e =>
      have hset : (done ++ v :: vs).set done.length e.voice = (done ++ [e.voice]) ++ vs := by simp
      have hrest := ih e.state (done ++ [e.voice])
      rw [List.length_append, List.length_singleton] at hrest
      simp only [Except.map, hset, hrest]
      cases voiceTurns sampleRate bpm e.state vs with
      | error r => rfl
      | ok y => simp

/-! ### The pass is R330's -/

theorem partPass_eq (s : State) (p : Fin 16) : partPass sampleRate bpm s p = processPart sampleRate bpm s p := by
  have hturns := passTurns_setVoices (sampleRate := sampleRate) (bpm := bpm) s p [] s.parts[p].voices
  rw [List.length_nil, ← List.range_eq_range', List.nil_append, s.setVoices_self] at hturns
  rw [partPass, processPart, hturns, processVoices_eq]
  cases voiceTurns sampleRate bpm s s.parts[p].voices with
  | error r => rfl
  | ok y =>
    have hzip : (y.2.map Prod.fst).zip (y.2.map Prod.snd) = y.2 := (List.zip_of_prod rfl rfl).symm
    simp only [Except.map, List.nil_append, State.setVoices_same, State.setVoices_setVoices, hzip]

theorem partPasses_eq (ps : List (Fin 16)) (s : State) :
    partPasses sampleRate bpm ps s = processParts sampleRate bpm s ps := by
  induction ps generalizing s with
  | nil => rfl
  | cons p ps ih =>
    rw [partPasses, processParts, partPass_eq]
    cases processPart sampleRate bpm s p with
    | error r => rfl
    | ok x => exact congrArg (Except.map fun y : State × Bool => (y.1, x.2 || y.2)) (ih x.1)

/-! ### What a pass does -/

/-- From `s` to `t` a pass has run: of each Part's Voices some are left, in order; the Samples are as they were but for matrix
outputs; the flag tells whether a Voice went. -/
structure Passes (s t : State) (dirty : Bool) : Prop where
  left : ∀ p : Fin 16, (t.parts[p].voices.map Voice.identity).Sublist (s.parts[p].voices.map Voice.identity)
  dirty_iff : dirty = true ↔ ∃ p : Fin 16, t.parts[p].voices.length < s.parts[p].voices.length
  resp : t.resp = s.resp
  still : ∀ p k, (t.sampleAt p k).map Sample.still = (s.sampleAt p k).map Sample.still
  frame : SameBut s t passPrint

theorem Passes.refl (s : State) : Passes s s false :=
  ⟨fun _ => .refl _, by simp, rfl, fun _ _ => rfl, .refl s _⟩

theorem Passes.length_le {s t : State} {d : Bool} (h : Passes s t d) (p : Fin 16) :
    t.parts[p].voices.length ≤ s.parts[p].voices.length := by
  simpa only [List.length_map] using (h.left p).length_le

theorem Passes.trans {s t u : State} {d d' : Bool} (h : Passes s t d) (h' : Passes t u d') : Passes s u (d || d') where
  left p := (h'.left p).trans (h.left p)
  dirty_iff := by
    rw [Bool.or_eq_true, h.dirty_iff, h'.dirty_iff, ← exists_or]
    refine exists_congr fun p => ?_
    have hle := h.length_le p
    have hle' := h'.length_le p
    omega
  resp := h'.resp.trans h.resp
  still p k := (h'.still p k).trans (h.still p k)
  frame := h.frame.trans h'.frame

theorem processPart_passes {s : State} {p : Fin 16} {y : State × Bool} (h : processPart sampleRate bpm s p = .ok y) :
    Passes s y.1 y.2 := by
  obtain ⟨hother, hleft, hdirty, hresp, hstill, hframe, -⟩ := processPart_frame h
  refine ⟨fun q => ?_, hdirty.trans ⟨fun hlt => ⟨p, hlt⟩, fun ⟨q, hq⟩ => ?_⟩, hresp, hstill, hframe⟩
  · by_cases hq : q = p
    · rw [hq]; exact hleft
    · rw [hother q hq]
  · by_cases hqp : q = p
    · rwa [hqp] at hq
    · rw [hother q hqp] at hq; omega

theorem processParts_passes {ps : List (Fin 16)} {s : State} {y : State × Bool}
    (h : processParts sampleRate bpm s ps = .ok y) : Passes s y.1 y.2 := by
  induction ps generalizing s y with
  | nil => cases h; exact .refl s
  | cons p ps ih =>
    unfold processParts at h
    split at h
    · cases h
    next x hx =>
      obtain ⟨z, hz, rfl⟩ := map_eq_ok_iff.mp h
      exact (processPart_passes hx).trans (ih hz)

/-- A pass over ready Voices completes: the turns of one Part leave the Voices of the others ready. -/
theorem processParts_total {ps : List (Fin 16)} {s : State} (hnodup : ps.Nodup)
    (h : ∀ p ∈ ps, ∀ v ∈ s.parts[p].voices, ProcessReady s v sampleRate bpm) :
    ∃ y, processParts sampleRate bpm s ps = .ok y := by
  induction ps generalizing s with
  | nil => exact ⟨_, rfl⟩
  | cons p ps ih =>
    obtain ⟨hp, hps⟩ := List.nodup_cons.mp hnodup
    obtain ⟨x, hx⟩ := processVoices_total (h p List.mem_cons_self)
    have hpart : processPart sampleRate bpm s p = .ok (x.state.setVoices p x.voices, x.dirty) := by
      simp only [processPart, hx]
    obtain ⟨hother, -, -, -, -, -, hready⟩ := processPart_frame hpart
    obtain ⟨z, hz⟩ := ih hps fun q hq v hv => by
      rw [hother q fun hqp => hp (hqp ▸ hq)] at hv
      exact hready v (h q (List.mem_cons_of_mem p hq) v hv)
    exact ⟨_, by simp only [processParts, hpart, hz]; rfl⟩

/-! ### `ENG.PROCESS` (R330) -/

theorem exec_engProcess_error {s : State} {r : Refusal} (h : processParts sampleRate bpm s allParts = .error r) :
    exec (.engProcess sampleRate bpm) s = .refused r := by
  simp only [exec, execEngProcess, h]

/-- The command responds whether the pass removed a Voice. -/
theorem exec_engProcess_ok {s : State} {y : State × Bool} (h : processParts sampleRate bpm s allParts = .ok y) :
    exec (.engProcess sampleRate bpm) s
      = .next { y.1 with resp := s.resp ++ [⟨.eng, if y.2 = true then 1#32 else 0#32⟩] } := by
  simp only [exec, execEngProcess, h]
  rw [State.respond, State.emit, (processParts_passes h).resp, readingWord_flag]

/-- A Sample but for its matrix outputs still has its slots. -/
theorem slots_of_still {x y : Option Sample} (h : x.map Sample.still = y.map Sample.still) :
    x.map (fun smp => smp.mtx.slots) = y.map fun smp => smp.mtx.slots := by
  have hslots := congrArg (Option.map fun smp => smp.mtx.slots) h
  rw [Option.map_map, Option.map_map] at hslots
  exact hslots

/-! ### Voices without a usable bus (R332) -/

/-- The Voice's Sample plays on a bus that is out of range, not enabled or not of two channels. -/
def Busless (s : State) (v : Voice) : Prop :=
  ∃ smp, s.sampleAt v.part v.sample = some smp ∧ ∀ b, s.buses[smp.bus]? = some b → b.usable = false

theorem Busless.setVoices {s : State} {v : Voice} (h : Busless s v) (p : Fin 16) (vs : List Voice) :
    Busless (s.setVoices p vs) v := by
  rwa [Busless, s.setVoices_buses, s.setVoices_sampleAt]

/-- From `s` to `t` the Voices of some Parts went, and nothing else changed. -/
structure Emptied (s t : State) (ps : List (Fin 16)) : Prop where
  voices : ∀ p : Fin 16, t.parts[p].voices = if p ∈ ps then [] else s.parts[p].voices
  buses : t.buses = s.buses
  draws : t.draws = s.draws
  frame : SameBut s t { passPrint with mtx := fun _ => False, bus := fun _ => False }

theorem processVoice_busless {s : State} {v : Voice} (h : Busless s v) :
    processVoice s v sampleRate bpm = .ok { state := s, left := none } := by
  obtain ⟨smp, hs, hb⟩ := h
  simp only [processVoice, hs]
  cases hbus : s.buses[smp.bus]? with
  | none => rfl
  | some bus =>
    simp only [hb bus hbus, Bool.false_eq_true, if_false]

theorem processVoices_busless {s : State} {vs : List Voice} (h : ∀ v ∈ vs, Busless s v) :
    processVoices sampleRate bpm s vs = .ok { state := s, voices := [], dirty := !vs.isEmpty } := by
  induction vs with
  | nil => rfl
  | cons v vs ih =>
    obtain ⟨hv, hvs⟩ := List.forall_mem_cons.mp h
    rw [processVoices, processVoice_busless hv]
    simp only [ih hvs]
    rfl

theorem processPart_busless {s : State} {p : Fin 16} (h : ∀ v ∈ s.parts[p].voices, Busless s v) :
    processPart sampleRate bpm s p = .ok (s.setVoices p [], !s.parts[p].voices.isEmpty) := by
  simp only [processPart, processVoices_busless h]

theorem State.setVoices_emptied (s : State) (p : Fin 16) : Emptied s (s.setVoices p []) [p] where
  voices q := by rw [s.setVoices_part]; simp only [List.mem_singleton]
  buses := rfl
  draws := rfl
  frame := by
    refine (s.setVoices_sameBut p []).mono ?_ ?_ ?_ ?_ ?_ ?_ ?_ ?_ ?_
    all_goals simp +contextual [voicesOf, passPrint]

theorem Emptied.trans {s t u : State} {ps qs : List (Fin 16)} (h : Emptied s t ps) (h' : Emptied t u qs) :
    Emptied s u (ps ++ qs) where
  voices p := by
    rw [h'.voices, h.voices]
    by_cases hp : p ∈ ps <;> simp [hp]
  buses := h'.buses.trans h.buses
  draws := h'.draws.trans h.draws
  frame := h.frame.trans h'.frame

/-- A pass over Voices without a usable bus removes them all, without rendering. -/
theorem processParts_busless {ps : List (Fin 16)} {s : State} (h : ∀ (p : Fin 16) v, v ∈ s.parts[p].voices → Busless s v) :
    ∃ y, processParts sampleRate bpm s ps = .ok y ∧ Emptied s y.1 ps ∧
      (y.2 = true ↔ ∃ p ∈ ps, s.parts[p].voices ≠ []) := by
  induction ps generalizing s with
  | nil => exact ⟨_, rfl, ⟨fun _ => rfl, rfl, rfl, .refl s _⟩, by simp⟩
  | cons p ps ih =>
    have hfirst := s.setVoices_emptied p
    obtain ⟨z, hz, hrest, hdirty⟩ := ih (s := s.setVoices p []) fun q v hv => by
      rw [hfirst.voices] at hv
      split at hv
      · cases hv
      · exact (h q v hv).setVoices p []
    refine ⟨(z.1, !s.parts[p].voices.isEmpty || z.2), by simp only [processParts, processPart_busless (h p), hz]; rfl,
      hfirst.trans hrest, ?_⟩
    rw [Bool.or_eq_true, hdirty, Bool.not_eq_true', List.isEmpty_eq_false_iff]
    simp only [List.mem_cons, exists_eq_or_imp]
    by_cases hvs : s.parts[p].voices = []
    · have hsame : s.setVoices p [] = s := by rw [← hvs, s.setVoices_self]
      rw [hsame]
    · exact iff_of_true (.inl hvs) (.inl hvs)

end

/-- Settles O59: the equivalence is `partPasses_eq`; completion is `processParts_total` and the frame `processParts_passes`. -/
theorem engProcessCompletes : Obligations.EngProcessCompletes := by
  intro s sampleRate bpm
  rw [partPasses_eq]
  refine ⟨?_, fun hready => ?_⟩
  · cases h : processParts sampleRate bpm s allParts with
    | error r => exact exec_engProcess_error h
    | ok y => exact exec_engProcess_ok h
  · obtain ⟨y, h⟩ := processParts_total (ps := allParts) (by decide) fun p _ => hready p
    have hpass := processParts_passes h
    refine ⟨_, y.2, exec_engProcess_ok h, rfl, hpass.dirty_iff, fun p => ?_, fun p k => slots_of_still (hpass.still p k),
      hpass.frame.congr rfl rfl rfl rfl rfl rfl rfl rfl rfl rfl rfl⟩
    have hleft := (hpass.left p).map fun (part, sample, gate, rnd, note, velocity) => (part, sample, note, velocity, rnd, gate)
    rw [List.map_map, List.map_map] at hleft
    exact hleft

/-- Settles O60: every turn of the pass marks its Voice without rendering (`processParts_busless`). -/
theorem engProcessBadBus : Obligations.EngProcessBadBus := by
  intro s sampleRate bpm hbad
  have hbusless : ∀ (p : Fin 16) v, v ∈ s.parts[p].voices → Busless s v := fun p v hv => by
    obtain ⟨smp, hs, hb⟩ := hbad p v hv
    refine ⟨smp, hs, fun b hbus => Bool.eq_false_iff.mpr fun hu => ?_⟩
    obtain ⟨hon, hch⟩ := b.usable_iff.mp hu
    rcases hb b hbus with hoff | hne
    · rw [hon] at hoff; cases hoff
    · exact hne hch
  obtain ⟨y, h, hempty, hdirty⟩ := processParts_busless (ps := allParts) hbusless
  have hall (p : Fin 16) : p ∈ allParts := by revert p; decide
  refine ⟨_, y.2, exec_engProcess_ok h, rfl, ?_, fun p => ?_, hempty.buses, hempty.draws,
    hempty.frame.congr rfl rfl rfl rfl rfl rfl rfl rfl rfl rfl rfl⟩
  · simpa only [hall, true_and] using hdirty
  · exact (hempty.voices p).trans (if_pos (hall p))

end Sys2Proof.Machine
end

section
/-! PROOF of O12: no ENV of a Voice falls back to None (R393). A command moves the ENVs it does not construct or move onward in the
order of the states (`exec_envEffect`); the others it has triggered, or moved onward from a Voice's ENV (`exec_rehoused_origin`). -/

namespace Sys2Proof.Machine

/-- The invariant by ENV instead of by Voice. -/
theorem State.voicesTriggered_iff (s : State) :
    s.VoicesTriggered ↔ ∀ m w e, s.envAt (.voice m w) = some e → e.state ≠ .none := by
  constructor
  · intro hs m w e he
    obtain ⟨v, hv, rfl⟩ := Option.map_eq_some_iff.mp he
    obtain ⟨haeg, heg2⟩ := hs m v hv
    cases w
    · exact haeg
    · exact heg2
  · intro hs m v hv
    have henv (w : EnvWhich) : s.envAt (.voice m w) = some (v.envOf w) := by rw [State.envAt, hv]; rfl
    exact ⟨hs m .aeg _ (henv .aeg), hs m .eg2 _ (henv .eg2)⟩

theorem State.envAt_of_mem {s : State} {p : Fin 16} {v : Voice} (hv : v ∈ s.parts[p].voices) (w : EnvWhich) :
    ∃ k, s.envAt (.voice (.mapped p k) w) = some (v.envOf w) := by
  obtain ⟨k, hk⟩ := List.mem_iff_getElem?.mp hv
  exact ⟨k, by rw [State.envAt, State.voiceAt, hk]; rfl⟩

theorem Env.Onward.ne_none {e e' : Env} (h : e.Onward e') (he : e.state ≠ .none) : e'.state ≠ .none :=
  fun he' => he (EnvState.none_of_code_le h.code_le he')

section

variable {s t : State} {i : Instr}

/-- Where Voices are constructed or moved, an ENV is one just triggered (R271), or comes onward from an ENV of a Voice. -/
theorem exec_rehoused_origin {l : EnvLoc} {e' : Env} (hl : RehousesEnv i l) (h : exec i s = .next t)
    (he' : t.envAt l = some e') :
    (∃ e : Env, e' = e.noteOn) ∨ ∃ m w e, s.envAt (.voice m w) = some e ∧ e.Onward e' := by
  cases l with
  | lone | template => exact hl.elim
  | voice m w =>
    obtain ⟨v', hv', rfl⟩ := Option.map_eq_some_iff.mp he'
    cases m with
    | lone =>
      obtain ⟨note, vel, rfl⟩ := hl
      obtain ⟨v, d, hfresh, rfl⟩ := execVoiceNoteOn_next h
      cases hv'
      exact .inl (hfresh.envOf w)
    | mapped p k =>
      have hmem : v' ∈ t.parts[p].voices := List.mem_of_getElem? hv'
      obtain ⟨q, note, vel, rfl⟩ | ⟨sr, bpm, rfl⟩ := hl
      · rcases (execEngNoteOn_voices h p).2 v' hmem with hold | hfresh
        · obtain ⟨j, hj⟩ := State.envAt_of_mem hold w
          exact .inr ⟨_, w, _, hj, .refl _⟩
        · exact .inl (hfresh.envOf w)
      · obtain ⟨v, hv, n, hstep⟩ := ((execEngProcess_envs h).2 p).mem hmem
        obtain ⟨j, hj⟩ := State.envAt_of_mem hv w
        exact .inr ⟨_, w, _, hj, Env.stepTimes_onward (hstep.envOf w)⟩

theorem exec_voicesTriggered (hs : s.VoicesTriggered) (h : exec i s = .next t) : t.VoicesTriggered := by
  rw [State.voicesTriggered_iff] at hs ⊢
  intro m w e' he'
  by_cases hl : RehousesEnv i (.voice m w)
  · obtain ⟨e, rfl⟩ | ⟨m₀, w₀, e, he, honward⟩ := exec_rehoused_origin hl h he'
    · exact nofun
    · exact honward.ne_none (hs m₀ w₀ e he)
  · obtain ⟨e, he, heffect⟩ := exec_envEffect hl h he'
    exact fun hnone => hs m w e he (heffect.none_of_none hnone)

end

/-- Settles O12: a step takes a command off the port, which leaves the Voices, and no command leaves an ENV of a Voice in None
(`exec_voicesTriggered`). -/
theorem stepKeepsVoicesTriggered : Obligations.StepKeepsVoicesTriggered := by
  intro s t hs h
  unfold step at h
  split at h
  next rest _ =>
    have htaken : ({ s with cmd := rest } : State).VoicesTriggered := by
      rw [State.voicesTriggered_iff] at hs ⊢
      exact fun m w e he => hs m w e (s.withCmd_envAt rest _ ▸ he)
    exact exec_voicesTriggered htaken h
  · cases h; exact hs
  · cases h

end Sys2Proof.Machine
end

section
/-! PROOF of O10: the reset state meets the invariants. There are no Samples and no Voices (R45, R46, R396), so each instance that
exists is the lone one. -/

namespace Sys2Proof.Machine

theorem State.reset_sampleAt (p : Fin 16) (k : Nat) : State.reset.sampleAt p k = none := by
  rw [State.sampleAt, State.reset_part]
  rfl

/-- The only ENV after reset is the lone one (R31). -/
theorem State.eq_of_reset_envAt {l : EnvLoc} {e : Env} (h : State.reset.envAt l = some e) : e = Env.reset := by
  cases l with
  | lone => cases h; rfl
  | template p k w => rw [State.envAt, State.reset_sampleAt] at h; cases h
  | voice m w => rw [State.envAt, State.reset_voiceAt] at h; cases h

/-- The only LFO after reset is the lone one (R33, R34). -/
theorem State.eq_of_reset_lfoAt {l : LfoLoc} {x : Lfo} (h : State.reset.lfoAt l = some x) : x = Lfo.reset := by
  cases l with
  | lone => cases h; rfl
  | template p k j => rw [State.lfoAt, State.reset_sampleAt] at h; cases h
  | voice m j => rw [State.lfoAt, State.reset_voiceAt] at h; cases h

theorem State.reset_not_voiceAt {l : VoiceLoc} {v : Voice} : State.reset.voiceAt l ≠ some v := by
  rw [State.reset_voiceAt]
  exact nofun

theorem Env.reset_inRange : Env.reset.InRange where
  nonneg := le_rfl
  le_one := zero_le_one
  none_zero _ := rfl
  attack_lt := nofun
  ended_zero := nofun

theorem State.reset_envsInRange : State.reset.EnvsInRange :=
  fun _ _ he => State.eq_of_reset_envAt he ▸ Env.reset_inRange

theorem State.reset_voicesTriggered : State.reset.VoicesTriggered :=
  fun _ _ hv => absurd hv State.reset_not_voiceAt

theorem State.reset_noteMapValid : State.reset.NoteMapValid where
  lone _ hv := absurd hv (State.reset_not_voiceAt (l := .lone))
  mapped p v hv := by rw [State.reset_part] at hv; cases hv
  ordered p := by rw [State.reset_part]; exact .nil

theorem State.reset_storesCanonical : State.reset.StoresCanonical where
  controllers p := by rw [State.reset_part]; exact Memory.wf_nil
  steps l x hx := by rw [State.eq_of_reset_lfoAt hx]; exact Memory.wf_nil

theorem State.reset_valuesInRange : State.reset.ValuesInRange where
  startPhase l x hx := by rw [State.eq_of_reset_lfoAt hx]; exact ⟨le_rfl, zero_lt_one⟩
  randHold l x hx := by rw [State.eq_of_reset_lfoAt hx]; exact ⟨neg_one_lt_zero.le, zero_lt_one⟩
  rnd _ _ hv := absurd hv State.reset_not_voiceAt
  pitchbend p := by rw [State.reset_part]; exact ⟨neg_one_lt_zero.le, zero_le_one⟩
  controller p k := by rw [State.reset_part]; exact ⟨le_rfl, zero_le_one⟩

/-- Settles O10: one lemma for each invariant. -/
theorem resetMeetsInvariants : Obligations.ResetMeetsInvariants :=
  ⟨State.reset_envsInRange, State.reset_voicesTriggered, State.reset_noteMapValid, State.reset_storesCanonical,
    State.reset_valuesInRange⟩

end Sys2Proof.Machine
end
